-- ==== Sys2Proof/Word.lean ====
section
/-! DEFINITION. The plain value types of the MSOP core: the signed 32-bit word of rule R10 (read as two's
complement), the packed 64-bit instruction word of rule R59, a byte of the memory image, and a register
number (the five-bit field of a record). -/

namespace Sys2Proof

/-- A word: `XLEN` = 32 bits, a signed two's-complement integer unless a rule says otherwise (R8, R10). -/
abbrev Word := BitVec 32

/-- One record of the Instruction Table in the canonical packing of rule R59. -/
abbrev Packed := BitVec 64

/-- A byte of the data memory as `Host.Cell` lists it. -/
abbrev Byte := BitVec 8

/-- A register number: the five-bit fields `a`, `b`, `c` of rule R59 (`NREG` is at most 32, rule R7). -/
abbrev Reg := Fin 32

end Sys2Proof
end

