-- ==== Sys2Proof/Syntax.lean ====
section
/-! DEFINITION. The instruction set of rule R55: the nineteen opcode variants, the functional-unit classes, and one
constructor of `Instr` for each row of spec/opcode_table.json. -/

namespace Sys2Proof

/-- The opcode variants of rule R55, in the order of their codes 0 to 18. -/
inductive Opcode where
  | mul | add | sub | div | mull | addl | subl | divl
  | ldI | stI | ldR | stR | set
  | bez | bgez | blez | bgtz | bltz | ret
deriving DecidableEq, Repr

/-- The functional-unit latch an instruction issues to: the `unit` column of rule R60. -/
inductive FuncUnit where
  | exa | exm | exd | exb | m1
deriving DecidableEq, Repr

/-- The record formats of rule R58. -/
inductive Format where
  | ri | rrr | ldi | sti | ldr | str | seti | br | ret
deriving DecidableEq, Repr

/-- An instruction: one constructor per opcode variant, with the record fields its format uses (R58) in the order
of the assembly text. -/
inductive Instr where
  /-- `mul Ra Rb #imm` (R157). -/
  | mul (a b : Reg) (imm : Word)
  /-- `add Ra Rb #imm` (R158). -/
  | add (a b : Reg) (imm : Word)
  /-- `sub Ra Rb #imm` (R159). -/
  | sub (a b : Reg) (imm : Word)
  /-- `div Ra Rb #imm` (R160). -/
  | div (a b : Reg) (imm : Word)
  /-- `mull Ra Rb Rc` (R161). -/
  | mull (a b c : Reg)
  /-- `addl Ra Rb Rc` (R162). -/
  | addl (a b c : Reg)
  /-- `subl Ra Rb Rc` (R163). -/
  | subl (a b c : Reg)
  /-- `divl Ra Rb Rc` (R164). -/
  | divl (a b c : Reg)
  /-- `ld Ra Rb #imm` (R175). -/
  | ldI (a b : Reg) (imm : Word)
  /-- `st Ra Rb #imm`, `a` the value to store (R176). -/
  | stI (a b : Reg) (imm : Word)
  /-- `ld Ra Rb Rc` (R177). -/
  | ldR (a b c : Reg)
  /-- `st Ra Rb Rc`, `a` the value to store (R178). -/
  | stR (a b c : Reg)
  /-- `set Ra #imm` (R165). -/
  | set (a : Reg) (imm : Word)
  /-- `bez Ra #imm` (R183). -/
  | bez (a : Reg) (imm : Word)
  /-- `bgez Ra #imm` (R184). -/
  | bgez (a : Reg) (imm : Word)
  /-- `blez Ra #imm` (R185). -/
  | blez (a : Reg) (imm : Word)
  /-- `bgtz Ra #imm` (R186). -/
  | bgtz (a : Reg) (imm : Word)
  /-- `bltz Ra #imm` (R187). -/
  | bltz (a : Reg) (imm : Word)
  /-- `ret` (R188). -/
  | ret
deriving DecidableEq, Repr

/-- The opcode variant of an instruction (R55). -/
def Instr.opcode : Instr → Opcode
  | .mul _ _ _ => .mul
  | .add _ _ _ => .add
  | .sub _ _ _ => .sub
  | .div _ _ _ => .div
  | .mull _ _ _ => .mull
  | .addl _ _ _ => .addl
  | .subl _ _ _ => .subl
  | .divl _ _ _ => .divl
  | .ldI _ _ _ => .ldI
  | .stI _ _ _ => .stI
  | .ldR _ _ _ => .ldR
  | .stR _ _ _ => .stR
  | .set _ _ => .set
  | .bez _ _ => .bez
  | .bgez _ _ => .bgez
  | .blez _ _ => .blez
  | .bgtz _ _ => .bgtz
  | .bltz _ _ => .bltz
  | .ret => .ret

end Sys2Proof
end

