-- ==== Sys2Proof/WellFormed.lean ====
section
/-! DEFINITION. Well-formedness of an instruction for a machine with `nreg` registers (rule R57): every register field
its format uses is below `nreg`. The other clauses of R57 (the opcode is one of 0 to 18, the unused fields are 0, the
immediate fits a signed 32-bit word) hold of every `Instr` by its type; on a packed record `Decode.lean` checks them. -/

namespace Sys2Proof

/-- The register fields of an instruction's format (R58). -/
def Instr.regs : Instr → List Reg
  | .mul a b _ => [a, b]
  | .add a b _ => [a, b]
  | .sub a b _ => [a, b]
  | .div a b _ => [a, b]
  | .mull a b c => [a, b, c]
  | .addl a b c => [a, b, c]
  | .subl a b c => [a, b, c]
  | .divl a b c => [a, b, c]
  | .ldI a b _ => [a, b]
  | .stI a b _ => [a, b]
  | .ldR a b c => [a, b, c]
  | .stR a b c => [a, b, c]
  | .set a _ => [a]
  | .bez a _ => [a]
  | .bgez a _ => [a]
  | .blez a _ => [a]
  | .bgtz a _ => [a]
  | .bltz a _ => [a]
  | .ret => []

/-- Every register field names an existing register (R57). -/
def Instr.wellFormed (nreg : Nat) (i : Instr) : Bool :=
  i.regs.all fun r => decide (r.val < nreg)

end Sys2Proof
end

