-- ==== Sys2Proof/Decode.lean ====
section
/-! DEFINITION. Records and their canonical packed word (rules R56 to R63): field extraction, the total decoder that
refuses a malformed record by name, the encoder, and the assembly text of rule R58. No rule of the machine depends on
the packing (R59); the Instruction Table is held packed because the packed word carries one record exactly. -/

namespace Sys2Proof

/-- A record of the Instruction Table (R56), with the reserved bits of its packing (R59). `index` is not stored: it is
the record's position in the table. -/
structure Record where
  opcode : BitVec 5
  a : Reg
  b : Reg
  c : Reg
  reserved : BitVec 12
  imm : Word
deriving DecidableEq, Repr

/-- The fields of a packed word (R59): `opcode` 63:59, `a` 58:54, `b` 53:49, `c` 48:44, reserved 43:32, `imm` 31:0. -/
def Record.ofWord (w : Packed) : Record where
  opcode := w.extractLsb' 59 5
  a := (w.extractLsb' 54 5).toFin
  b := (w.extractLsb' 49 5).toFin
  c := (w.extractLsb' 44 5).toFin
  reserved := w.extractLsb' 32 12
  imm := w.extractLsb' 0 32

/-- The five-bit field of a register number (R59). -/
def regBits (r : Reg) : BitVec 5 :=
  BitVec.ofFin r

/-- The packed word of a record (R59). -/
def Record.toWord (r : Record) : Packed :=
  r.opcode ++ regBits r.a ++ regBits r.b ++ regBits r.c ++ r.reserved ++ r.imm

/-- The number of an opcode variant (R55). -/
def Opcode.code : Opcode → BitVec 5
  | .mul => 0 | .add => 1 | .sub => 2 | .div => 3
  | .mull => 4 | .addl => 5 | .subl => 6 | .divl => 7
  | .ldI => 8 | .stI => 9 | .ldR => 10 | .stR => 11 | .set => 12
  | .bez => 13 | .bgez => 14 | .blez => 15 | .bgtz => 16 | .bltz => 17 | .ret => 18

/-- The variant an opcode field selects (R62); 19 to 31 select none (R63). -/
def Opcode.ofCode? (c : BitVec 5) : Option Opcode :=
  match c.toNat with
  | 0 => some .mul | 1 => some .add | 2 => some .sub | 3 => some .div
  | 4 => some .mull | 5 => some .addl | 6 => some .subl | 7 => some .divl
  | 8 => some .ldI | 9 => some .stI | 10 => some .ldR | 11 => some .stR | 12 => some .set
  | 13 => some .bez | 14 => some .bgez | 15 => some .blez | 16 => some .bgtz | 17 => some .bltz
  | 18 => some .ret
  | _ => none

/-- The format of a variant (R55, R58). -/
def Opcode.format : Opcode → Format
  | .mul | .add | .sub | .div => .ri
  | .mull | .addl | .subl | .divl => .rrr
  | .ldI => .ldi
  | .stI => .sti
  | .ldR => .ldr
  | .stR => .str
  | .set => .seti
  | .bez | .bgez | .blez | .bgtz | .bltz => .br
  | .ret => .ret

/-- The fields a format does not use are 0 (R57, R58); the reserved bits are checked apart. -/
def Record.unusedZero (r : Record) : Format → Bool
  | .ri | .ldi | .sti => r.c == 0
  | .rrr | .ldr | .str => r.imm == 0
  | .seti | .br => r.b == 0 && r.c == 0
  | .ret => r.a == 0 && r.b == 0 && r.c == 0 && r.imm == 0

/-- Why a record is malformed (R63). -/
inductive DecodeError where
  /-- An opcode value 19 to 31. -/
  | badOpcode (code : Nat)
  /-- A reserved bit (43:32) is not 0. -/
  | reservedBits
  /-- A field the format does not use is not 0. -/
  | unusedField
  /-- A register field is not below `NREG`. -/
  | registerRange
  /-- There is no record at the position asked for. -/
  | noRecord
deriving DecidableEq, Repr

/-- The instruction of a variant with the record's fields (R58). -/
def Instr.ofFields (op : Opcode) (a b c : Reg) (imm : Word) : Instr :=
  match op with
  | .mul => .mul a b imm
  | .add => .add a b imm
  | .sub => .sub a b imm
  | .div => .div a b imm
  | .mull => .mull a b c
  | .addl => .addl a b c
  | .subl => .subl a b c
  | .divl => .divl a b c
  | .ldI => .ldI a b imm
  | .stI => .stI a b imm
  | .ldR => .ldR a b c
  | .stR => .stR a b c
  | .set => .set a imm
  | .bez => .bez a imm
  | .bgez => .bgez a imm
  | .blez => .blez a imm
  | .bgtz => .bgtz a imm
  | .bltz => .bltz a imm
  | .ret => .ret

/-- Decoding a record (R62): the opcode alone selects the variant; a malformed record is refused by name (R63). -/
def Record.decode (r : Record) : Except DecodeError Instr :=
  match Opcode.ofCode? r.opcode with
  | none => .error (.badOpcode r.opcode.toNat)
  | some op =>
    if r.reserved ≠ 0 then .error .reservedBits
    else if r.unusedZero op.format then .ok (Instr.ofFields op r.a r.b r.c r.imm)
    else .error .unusedField

/-- Decoding a packed word, whatever the number of registers. -/
def decode (w : Packed) : Except DecodeError Instr :=
  (Record.ofWord w).decode

/-- Decoding a packed word on a machine with `nreg` registers: all of rule R63's checks. -/
def decodeFor (nreg : Nat) (w : Packed) : Except DecodeError Instr :=
  match decode w with
  | .error e => .error e
  | .ok i => if i.wellFormed nreg then .ok i else .error .registerRange

/-- The instruction read from a table row's word. The hardware has no byte order and one record per position (R48,
R56), so the word's bits are the record's bits; the bits above `nbits` are 0. -/
def decodeTableWord (nbits w : Nat) : Option Instr :=
  match decode (BitVec.ofNat 64 (w % 2 ^ nbits)) with
  | .ok i => some i
  | .error _ => none

/-- The record of an instruction, unused fields 0 (R57, R58). -/
def Instr.toRecord : Instr → Record
  | .mul a b imm => ⟨Opcode.code .mul, a, b, 0, 0, imm⟩
  | .add a b imm => ⟨Opcode.code .add, a, b, 0, 0, imm⟩
  | .sub a b imm => ⟨Opcode.code .sub, a, b, 0, 0, imm⟩
  | .div a b imm => ⟨Opcode.code .div, a, b, 0, 0, imm⟩
  | .mull a b c => ⟨Opcode.code .mull, a, b, c, 0, 0⟩
  | .addl a b c => ⟨Opcode.code .addl, a, b, c, 0, 0⟩
  | .subl a b c => ⟨Opcode.code .subl, a, b, c, 0, 0⟩
  | .divl a b c => ⟨Opcode.code .divl, a, b, c, 0, 0⟩
  | .ldI a b imm => ⟨Opcode.code .ldI, a, b, 0, 0, imm⟩
  | .stI a b imm => ⟨Opcode.code .stI, a, b, 0, 0, imm⟩
  | .ldR a b c => ⟨Opcode.code .ldR, a, b, c, 0, 0⟩
  | .stR a b c => ⟨Opcode.code .stR, a, b, c, 0, 0⟩
  | .set a imm => ⟨Opcode.code .set, a, 0, 0, 0, imm⟩
  | .bez a imm => ⟨Opcode.code .bez, a, 0, 0, 0, imm⟩
  | .bgez a imm => ⟨Opcode.code .bgez, a, 0, 0, 0, imm⟩
  | .blez a imm => ⟨Opcode.code .blez, a, 0, 0, 0, imm⟩
  | .bgtz a imm => ⟨Opcode.code .bgtz, a, 0, 0, 0, imm⟩
  | .bltz a imm => ⟨Opcode.code .bltz, a, 0, 0, 0, imm⟩
  | .ret => ⟨Opcode.code .ret, 0, 0, 0, 0, 0⟩

/-- The packed word of an instruction (R59). -/
def encode (i : Instr) : Packed :=
  i.toRecord.toWord

/-- The text mnemonic of a variant (R55). -/
def Opcode.mnemonic : Opcode → String
  | .mul => "mul" | .add => "add" | .sub => "sub" | .div => "div"
  | .mull => "mull" | .addl => "addl" | .subl => "subl" | .divl => "divl"
  | .ldI | .ldR => "ld"
  | .stI | .stR => "st"
  | .set => "set"
  | .bez => "bez" | .bgez => "bgez" | .blez => "blez" | .bgtz => "bgtz" | .bltz => "bltz"
  | .ret => "ret"

/-- A register in assembly text: `R` and its decimal number (R64). -/
def regText (r : Reg) : String :=
  "R" ++ toString r.val

/-- An immediate in assembly text: `#` and a signed decimal integer (R64). -/
def immText (v : Word) : String :=
  "#" ++ toString v.toInt

/-- The operands in assembly text, in the order of rule R58. -/
def Instr.operandText : Instr → List String
  | .mul a b imm | .add a b imm | .sub a b imm | .div a b imm | .ldI a b imm | .stI a b imm =>
    [regText a, regText b, immText imm]
  | .mull a b c | .addl a b c | .subl a b c | .divl a b c | .ldR a b c | .stR a b c =>
    [regText a, regText b, regText c]
  | .set a imm | .bez a imm | .bgez a imm | .blez a imm | .bgtz a imm | .bltz a imm =>
    [regText a, immText imm]
  | .ret => []

/-- The text line of the instruction at a table position: index, mnemonic, operands (R58, R64, R65). -/
def Instr.text (index : Nat) (i : Instr) : String :=
  String.intercalate " " (toString index :: i.opcode.mnemonic :: i.operandText)

end Sys2Proof
end

