-- ==== Sys2Proof/Config.lean ====
section
/-! DEFINITION. What an implementation of the MSOP core fixes (rule R7): the build and the four open sizes. They are
ARGUMENTS of a run, so `State` carries them as plain data that no step changes, and every statement over all states
is a statement over all builds and sizes. -/

namespace Sys2Proof

/-- The two builds of rule R2. -/
inductive Variant where
  /-- Busy-bit scoreboard, forwarding channels, write-after-write interlock (41_hazard_forwarding.md). -/
  | inOrder
  /-- Register renaming, reorder buffer, reservation station (43_rename_rob_rs.md). -/
  | outOfOrder
deriving DecidableEq, Repr

/-- The parameters of rule R7 that a run is handed. -/
structure Params where
  /-- `VARIANT`. -/
  variant : Variant
  /-- `NREG`, the number of general registers. -/
  nreg : Nat
  /-- `MEM_WORDS`, the capacity of the data memory in words. -/
  memWords : Nat
  /-- `ROB_CAP`, the slots of the reorder-buffer ring. -/
  robCap : Nat
  /-- `RS_CAP`, the slots of the reservation-station ring. -/
  rsCap : Nat
deriving DecidableEq, Repr

/-- The ranges rule R7 gives the open parameters. -/
abbrev Params.Legal (p : Params) : Prop :=
  1 ≤ p.nreg ∧ p.nreg ≤ 32 ∧ 1 ≤ p.memWords ∧ 2 ≤ p.robCap ∧ 2 ≤ p.rsCap

/-- The sizes every test vector uses unless it says otherwise (95_test_vectors.md, conventions), in the build
named. DESIGN CHOICE (log entry 1): `State.reset` needs some value for each open parameter. -/
def Params.testVectors (v : Variant) : Params :=
  { variant := v, nreg := 16, memWords := 8, robCap := 8, rsCap := 4 }

end Sys2Proof
end

