-- ==== Sys2Proof/Machine/State.lean ====
section
/-! DEFINITION. The state of the MSOP core (10_state.md), all of it plain data, the reasons a step can stop, and the state
after reset (rule R32). Field names are the spec's own in camel case. Parameters and Instruction Table are arguments of a
run (R7, R26): `State` carries them as data that no step writes. -/

namespace Sys2Proof.Machine

/-- The twelve stages of rule R17, in program-flow order. -/
inductive Stage where
  | f | d | oa | rr | exa | exm | exd | exb | m1 | m2 | wb | rt
deriving DecidableEq, Repr

/-- One thing per stage. -/
structure PerStage (α : Type) where
  f : α
  d : α
  oa : α
  rr : α
  exa : α
  exm : α
  exd : α
  exb : α
  m1 : α
  m2 : α
  wb : α
  rt : α
deriving DecidableEq, Repr

/-- The causes of a fatal abort, codes 1, 2, 3 (R25, 60_exceptions.md section 2). -/
inductive AbortReason where
  | divideByZero
  | memoryOutOfRange
  | malformedInstruction
deriving DecidableEq, Repr

/-- The run status (R25). `halted` and `aborted` are terminal. -/
inductive Status where
  | running
  | halted
  | aborted (reason : AbortReason)
deriving DecidableEq, Repr

/-- What one step of this model is. THE MODEL's OWN choice, not the spec's (log entry 2): the spec's cycle (R72), or one
instruction taken alone through the empty pipeline (the one-at-a-time execution of R30 and 44_fu_arith.md). -/
inductive Grain where
  /-- A step is one clock cycle of all twelve stages (R72). -/
  | clock
  /-- A step is one whole instruction, from fetch to retirement, whenever the pipeline is empty. -/
  | instruction
deriving DecidableEq, Repr

/-- A slot index of the reorder buffer (R22). -/
abbrev RobId := Nat

/-- A Register Entry (R11, R12): value, ready flag (false means busy), producer tag. -/
structure RegEntry where
  value : Word
  readyFlag : Bool
  producerTag : Option RobId
deriving DecidableEq, Repr

/-- An occupied stage latch (R18). Fields not yet written by an earlier stage hold 0, `none` or false. -/
structure Latch where
  /-- Position in the Instruction Table. -/
  idx : Nat
  /-- The fetch-time program counter. -/
  pc : Int
  /-- Fetch order, from `fetchSeq`; smaller is older. -/
  seq : Nat
  /-- This stage's handler has finished with this occupant (R82). -/
  done : Bool := false
  op : Opcode := .mul
  dest : Option Reg := none
  s1 : Option Reg := none
  s2 : Option Reg := none
  s3 : Option Reg := none
  imm : Word := 0
  unit : Option FuncUnit := none
  v1 : Word := 0
  v2 : Word := 0
  v3 : Word := 0
  /-- The computed byte address. -/
  addr : Word := 0
  result : Word := 0
  /-- The reorder-buffer slot allocated at issue (out-of-order build). -/
  rob : Option RobId := none
  /-- Source slot k is ready (out-of-order build). -/
  r1 : Bool := false
  r2 : Bool := false
  r3 : Bool := false
  /-- The producer awaited by slot k (out-of-order build). -/
  t1 : Option RobId := none
  t2 : Option RobId := none
  t3 : Option RobId := none
deriving DecidableEq, Repr

/-- The four forwarding channels (R19). -/
inductive Channel where
  | add | mul | div | mem
deriving DecidableEq, Repr

/-- What the four channels hold in a cycle: at most one register and value each (R19). -/
structure Channels where
  add : Option (Reg × Word)
  mul : Option (Reg × Word)
  div : Option (Reg × Word)
  mem : Option (Reg × Word)
deriving DecidableEq, Repr

/-- A BTB entry (R20); tag `none` is the source's "unset". -/
structure BtbEntry where
  tag : Option Word
  targetAddress : Word
deriving DecidableEq, Repr

/-- A reorder-buffer entry (R22). -/
structure RobEntry where
  id : RobId
  destinationRegister : Reg
  result : Word
  completed : Bool
  exception : Bool
deriving DecidableEq, Repr

/-- The data memory (R40) as the host's list of byte cells in canonical form: addresses strictly rising, no cell holding
0. Word `w` of the spec is the four bytes at `4w` to `4w+3` (log entry 3). An unlisted byte reads as 0 (R44). -/
abbrev Memory := List Host.Cell

/-- The machine's state: the rows of rule R32's table, the arguments of the run (`params`, `it`), the last occupancy
snapshot (R94) and the model's own `grain`. -/
structure State where
  /-- The parameters of rule R7; never written by a step. -/
  params : Params
  /-- The Instruction Table `IT[0..N-1]`, packed records (R26, R56, R59); never written by a step. Holding it packed is DEDUCED
  (log entry 5). -/
  it : List Packed
  /-- THE MODEL's OWN: what one step is (log entry 2). -/
  grain : Grain
  /-- General registers `R0 .. R(NREG-1)` (R10 to R12); entries from `NREG` on are named by no well-formed
  record (DESIGN CHOICE, log entry 9). -/
  regs : Vector RegEntry 32
  /-- The fetch program counter, a table position (R14). -/
  pc : Int
  /-- Set by the fetch of a `ret`, cleared by a flush (R16). -/
  fetchHalt : Bool
  /-- The number of instructions fetched so far (R16). -/
  fetchSeq : Nat
  /-- The twelve stage latches (R17). -/
  latches : PerStage (Option Latch)
  /-- The forwarding channels, in-order build (R19). -/
  fwd : Channels
  /-- The branch target buffer (R20). -/
  btb : Vector BtbEntry 16
  /-- The pattern table of counters 0 to 7 (R21). -/
  pt : Vector (Fin 8) 16
  /-- The reorder buffer's slots (R22). -/
  rob : List (Option RobEntry)
  robHead : Nat
  robTail : Nat
  /-- The reservation station's slots (R23). -/
  rs : List (Option Latch)
  rsHead : Nat
  rsTail : Nat
  /-- Stalled cycles (R24). -/
  stalls : Nat
  /-- Total cycles (R24). -/
  cycles : Nat
  /-- Retired instructions (R24). -/
  retired : Nat
  /-- The run status (R25). -/
  status : Status
  /-- The data memory (R26, R40). -/
  mem : Memory
  /-- The occupancy snapshot of the last completed cycle: for each latch `none` or its occupant's `idx` (R94).
  An output kept as a field: DESIGN CHOICE, log entry 12. -/
  snapshot : PerStage (Option Nat)
deriving DecidableEq, Repr

/-- Why a step stops. Raised by `step` alone, on a terminal status; every instruction's meaning answers a next state.
Naming the stop is a DESIGN CHOICE (log entry 6). -/
inductive Fault where
  /-- Raised by `step` when `status` is `halted`: the machine "steps no more" (R90). Safe: no cycle runs from it. -/
  | halted
  /-- Raised by `step` when `status` is `aborted`: "No further cycle runs" (R191). Safe: no cycle runs from it. -/
  | aborted (reason : AbortReason)
deriving DecidableEq, Repr

/-- Why an instruction is refused. -/
inductive Refusal where
  /-- Raised by no arm of `exec`: every row of spec/opcode_table.json has its meaning. Kept because the host's interface
  names it. Safe: the machine would stop where the hardware goes on. -/
  | notModelled (mnemonic : String)
deriving DecidableEq, Repr

/-- The same thing in every stage. -/
def PerStage.const {α : Type} (x : α) : PerStage α :=
  ⟨x, x, x, x, x, x, x, x, x, x, x, x⟩

/-- The state after reset for given parameters, with no instruction and an all-zero memory (R32, R205, R206). -/
def State.resetWith (p : Params) : State where
  params := p
  it := []
  grain := .clock
  regs := Vector.replicate 32 ⟨0, true, none⟩
  pc := 0
  fetchHalt := false
  fetchSeq := 0
  latches := PerStage.const none
  fwd := ⟨none, none, none, none⟩
  btb := Vector.replicate 16 ⟨none, 0⟩
  pt := Vector.replicate 16 3
  rob := List.replicate p.robCap none
  robHead := 0
  robTail := 0
  rs := List.replicate p.rsCap none
  rsHead := 0
  rsTail := 0
  stalls := 0
  cycles := 0
  retired := 0
  status := .running
  mem := []
  snapshot := PerStage.const none

/-- The machine right after reset: the in-order build at the sizes of the test vectors, no program loaded. The open
parameters' values are a DESIGN CHOICE (log entry 1); `State.start` (Loader.lean) takes any. -/
def State.reset : State :=
  State.resetWith (Params.testVectors .inOrder)

end Sys2Proof.Machine
end

