-- ==== Sys2Proof/Machine/Ops.lean ====
section
/-! DEFINITION. The named operations over the state that every stage handler and every instruction meaning shares: wrapping,
stage latches, registers, data memory, predictor tables, the two rings, the counters, and the one operation that takes a
fatal abort (R92, R191). There is no return from an abort and no trap entry (R196, R197): `aborted` and `halted` are
terminal. -/

namespace Sys2Proof.Machine

/-! ## Words -/

/-- `wrap(n)`: the signed word congruent to `n` modulo 2^32 (R8). -/
def wrap (n : Int) : Word :=
  BitVec.ofInt 32 n

/-- `tdiv(a, b)`: the quotient rounded toward zero, wrapped (R8, R166). Used only for `b ≠ 0`. -/
def tdiv (a b : Word) : Word :=
  wrap (a.toInt.tdiv b.toInt)

/-- `trunc4(i)`: `i / 4` rounded toward zero, the exact integer (R8, R181). -/
def trunc4 (imm : Word) : Int :=
  imm.toInt.tdiv 4

/-- `addr(p) = 4 * p`, the byte address of a table position (R15). -/
def byteAddr (p : Int) : Int :=
  4 * p

/-! ## Stages -/

/-- The item of a stage. -/
def PerStage.get {α : Type} (l : PerStage α) : Stage → α
  | .f => l.f | .d => l.d | .oa => l.oa | .rr => l.rr
  | .exa => l.exa | .exm => l.exm | .exd => l.exd | .exb => l.exb
  | .m1 => l.m1 | .m2 => l.m2 | .wb => l.wb | .rt => l.rt

/-- The items with one stage's replaced. -/
def PerStage.set {α : Type} (l : PerStage α) (st : Stage) (x : α) : PerStage α :=
  match st with
  | .f => { l with f := x }
  | .d => { l with d := x }
  | .oa => { l with oa := x }
  | .rr => { l with rr := x }
  | .exa => { l with exa := x }
  | .exm => { l with exm := x }
  | .exd => { l with exd := x }
  | .exb => { l with exb := x }
  | .m1 => { l with m1 := x }
  | .m2 => { l with m2 := x }
  | .wb => { l with wb := x }
  | .rt => { l with rt := x }

/-- The same function applied in every stage. -/
def PerStage.map {α β : Type} (g : α → β) (l : PerStage α) : PerStage β :=
  ⟨g l.f, g l.d, g l.oa, g l.rr, g l.exa, g l.exm, g l.exd, g l.exb, g l.m1, g l.m2, g l.wb, g l.rt⟩

/-- The snapshot in which one stage is occupied by position `idx` and every other is free. -/
def snapshotOnly (st : Stage) (idx : Nat) : PerStage (Option Nat) :=
  (PerStage.const none).set st (some idx)

/-- The latch of a stage (R17). -/
def State.latch (s : State) (st : Stage) : Option Latch :=
  s.latches.get st

/-- Replace the latch of a stage. -/
def State.setLatch (s : State) (st : Stage) (l : Option Latch) : State :=
  { s with latches := s.latches.set st l }

/-- The latch of a functional unit. -/
def unitStage : FuncUnit → Stage
  | .exa => .exa
  | .exm => .exm
  | .exd => .exd
  | .exb => .exb
  | .m1 => .m1

/-! ## Registers (R10 to R13) -/

/-- `x[r]`: the value of a general register (R8). -/
def State.x (s : State) (r : Reg) : Word :=
  s.regs[r].value

/-- The ready flag of a register; false means busy (R11). -/
def State.ready (s : State) (r : Reg) : Bool :=
  s.regs[r].readyFlag

/-- The producer tag of a register (R12). -/
def State.tag (s : State) (r : Reg) : Option RobId :=
  s.regs[r].producerTag

/-- Replace a whole register entry. -/
def State.setEntry (s : State) (r : Reg) (e : RegEntry) : State :=
  { s with regs := s.regs.set r e }

/-- `R[r].value <- v`. -/
def State.setValue (s : State) (r : Reg) (v : Word) : State :=
  s.setEntry r { s.regs[r] with value := v }

/-- `R[r].ready_flag <- b`. -/
def State.setReady (s : State) (r : Reg) (b : Bool) : State :=
  s.setEntry r { s.regs[r] with readyFlag := b }

/-- `R[r].producer_tag <- t`. -/
def State.setTag (s : State) (r : Reg) (t : Option RobId) : State :=
  s.setEntry r { s.regs[r] with producerTag := t }

/-! ## Data memory (R40 to R46) -/

/-- The byte at an address; an unlisted byte reads as 0 (R44, log entry 3). -/
def Memory.readByte : Memory → Nat → Byte
  | [], _ => 0
  | (k, b) :: rest, a => if k = a then b else Memory.readByte rest a

/-- Write one byte, keeping the canonical form: writing 0 removes the cell. -/
def Memory.writeByte : Memory → Nat → Byte → Memory
  | [], a, b => if b = 0 then [] else [(a, b)]
  | (k, c) :: rest, a, b =>
    if a < k then (if b = 0 then (k, c) :: rest else (a, b) :: (k, c) :: rest)
    else if a = k then (if b = 0 then rest else (a, b) :: rest)
    else (k, c) :: Memory.writeByte rest a b

/-- Every address of the list lies above `lo`, strictly rising, and no byte is 0. -/
def Memory.wfAbove : Nat → Memory → Bool
  | _, [] => true
  | lo, (k, b) :: rest => decide (lo ≤ k) && b != 0 && Memory.wfAbove (k + 1) rest

/-- The canonical form: addresses strictly rising, no cell equal to what an unlisted address reads as. -/
def Memory.wf (m : Memory) : Bool :=
  Memory.wfAbove 0 m

/-- The word `mem[w]` (R40): its four bytes, the least significant at the lowest address (log entry 3). -/
def Memory.readWord (m : Memory) (w : Nat) : Word :=
  m.readByte (4 * w + 3) ++ m.readByte (4 * w + 2) ++ m.readByte (4 * w + 1) ++ m.readByte (4 * w)

/-- `mem[w] <- v` (R40). -/
def Memory.writeWord (m : Memory) (w : Nat) (v : Word) : Memory :=
  (((m.writeByte (4 * w) (v.extractLsb' 0 8)).writeByte (4 * w + 1) (v.extractLsb' 8 8)).writeByte
    (4 * w + 2) (v.extractLsb' 16 8)).writeByte (4 * w + 3) (v.extractLsb' 24 8)

/-- `widx(a) = a / 4` rounded toward zero (R41); used for admitted addresses, which are not negative. -/
def widx (a : Word) : Nat :=
  (a.toInt.tdiv 4).toNat

/-- The range check of R42: `a ≥ 0` and `widx(a) < MEM_WORDS`. -/
def State.inRange (s : State) (a : Word) : Bool :=
  decide (0 ≤ a.toInt) && decide (widx a < s.params.memWords)

/-- `mem[widx(a)] <- v`, after the range check (R43). -/
def State.storeWord (s : State) (a : Word) (v : Word) : State :=
  { s with mem := s.mem.writeWord (widx a) v }

/-- `MemRead(a, 4)` (R42). -/
def State.memRead (s : State) (a : Word) : Except AbortReason Word :=
  if s.inRange a then .ok (s.mem.readWord (widx a)) else .error .memoryOutOfRange

/-- `MemWrite(a, 4, v)` (R43). -/
def State.memWrite (s : State) (a : Word) (v : Word) : Except AbortReason State :=
  if s.inRange a then .ok (s.storeWord a v) else .error .memoryOutOfRange

/-! ## Predictor tables (R20, R21, R115) -/

/-- `BTB[i] <- e`. -/
def State.setBtb (s : State) (i : Fin 16) (e : BtbEntry) : State :=
  { s with btb := s.btb.set i e }

/-- `PT[i].counter <- c`. -/
def State.setPt (s : State) (i : Fin 16) (c : Fin 8) : State :=
  { s with pt := s.pt.set i c }

/-! ## Rings (R22, R23, R130, R136) -/

/-- The slot after `n` in a ring. -/
def ringNext (cap n : Nat) : Nat :=
  (n + 1) % cap

/-- "buffer is full when `(tail+1) mod capacity == head`" (R22). -/
def ringFull (cap head tail : Nat) : Bool :=
  ringNext cap tail == head

/-- `(tail - head) mod capacity`, the number of occupied slots (R149). -/
def ringCount (cap head tail : Nat) : Nat :=
  (tail + cap - head) % cap

/-- The ROB is full (R130). -/
def State.robFull (s : State) : Bool :=
  ringFull s.params.robCap s.robHead s.robTail

/-- The RS is full (R136). -/
def State.rsFull (s : State) : Bool :=
  ringFull s.params.rsCap s.rsHead s.rsTail

/-- The entry of a ROB slot. -/
def State.robEntry (s : State) (id : RobId) : Option RobEntry :=
  s.rob.getD id none

/-- The slot-filling part of `RobAlloc(d)` (R130): a new entry at `rob_tail`, and `rob_tail` moves on. -/
def State.robAllocate (s : State) (d : Reg) : State :=
  { s with
    rob := s.rob.set s.robTail
      (some { id := s.robTail, destinationRegister := d, result := 0, completed := false, exception := false })
    robTail := ringNext s.params.robCap s.robTail }

/-- `RobAlloc(d)` (R130): the sentinel `none` on a full ring, else the slot's id and the new state. -/
def State.robAlloc (s : State) (d : Reg) : Option (RobId × State) :=
  if s.robFull then none else some (s.robTail, s.robAllocate d)

/-- `rob[id].completed <- true`, `rob[id].result <- v` (R145). -/
def State.robComplete (s : State) (id : RobId) (v : Word) : State :=
  { s with rob := s.rob.set id ((s.robEntry id).map fun e => { e with completed := true, result := v }) }

/-- `rob[rob_head] <- none` and `rob_head` moves on (R140). -/
def State.robFree (s : State) : State :=
  { s with rob := s.rob.set s.robHead none, robHead := ringNext s.params.robCap s.robHead }

/-- The slot-filling part of `RS_Enqueue` (R143): the whole latch record, `done` false. -/
def State.rsEnqueue (s : State) (l : Latch) : State :=
  { s with
    rs := s.rs.set s.rsTail (some { l with done := false })
    rsTail := ringNext s.params.rsCap s.rsTail }

/-- "`RS_Enqueue` on a full RS returns the full-sentinel and leaves state unchanged" (R136). -/
def State.rsEnqueue? (s : State) (l : Latch) : Option State :=
  if s.rsFull then none else some (s.rsEnqueue l)

/-- `rs[rs_head] <- none` and `rs_head` moves on (R144). -/
def State.rsDequeue (s : State) : State :=
  { s with rs := s.rs.set s.rsHead none, rsHead := ringNext s.params.rsCap s.rsHead }

/-! ## Fetch control, counters, status -/

/-- `pc <- p` (R8, R14). -/
def State.setPc (s : State) (p : Int) : State :=
  { s with pc := p }

/-- `fetch_halt <- b` (R16). -/
def State.setFetchHalt (s : State) (b : Bool) : State :=
  { s with fetchHalt := b }

/-- `fetch_seq <- fetch_seq + 1` (R74). -/
def State.countFetch (s : State) : State :=
  { s with fetchSeq := s.fetchSeq + 1 }

/-- `stalls <- stalls + 1` (R86). -/
def State.countStall (s : State) : State :=
  { s with stalls := s.stalls + 1 }

/-- `retired <- retired + 1` (R88). -/
def State.countRetire (s : State) : State :=
  { s with retired := s.retired + 1 }

/-- TAKING A FATAL ABORT: `status <- Aborted(reason)` and nothing else; it saves nothing, changes no mode and transfers
control nowhere (R92, R191, R196). -/
def State.takeAbort (s : State) (r : AbortReason) : State :=
  { s with status := .aborted r }

/-- `status <- Halted` (R90, R91). -/
def State.haltRun (s : State) : State :=
  { s with status := .halted }

end Sys2Proof.Machine
end

