-- ==== Sys2Proof/Machine/Operands.lean ====
section
/-! DEFINITION. Operands: the shared decode table of rule R60, the classes of opcodes the stages ask about, the in-order
lookup of a source register (R102), the out-of-order capture of one (R137), the second operand of the arithmetic units
(R155) and the effective address of the memory unit (R171). -/

namespace Sys2Proof.Machine

/-- The slots of the shared decode table (R60). -/
structure Slots where
  dest : Option Reg
  s1 : Option Reg
  s2 : Option Reg
  s3 : Option Reg
  imm : Word
deriving DecidableEq, Repr

/-- The slot columns of R60, keyed by opcode variant. -/
def slots : Instr → Slots
  | .mul a b imm => ⟨some a, some b, none, none, imm⟩
  | .add a b imm => ⟨some a, some b, none, none, imm⟩
  | .sub a b imm => ⟨some a, some b, none, none, imm⟩
  | .div a b imm => ⟨some a, some b, none, none, imm⟩
  | .mull a b c => ⟨some a, some b, some c, none, 0⟩
  | .addl a b c => ⟨some a, some b, some c, none, 0⟩
  | .subl a b c => ⟨some a, some b, some c, none, 0⟩
  | .divl a b c => ⟨some a, some b, some c, none, 0⟩
  | .ldI a b imm => ⟨some a, some b, none, none, imm⟩
  | .stI a b imm => ⟨none, some b, none, some a, imm⟩
  | .ldR a b c => ⟨some a, some b, some c, none, 0⟩
  | .stR a b c => ⟨none, some b, some c, some a, 0⟩
  | .set a imm => ⟨some a, none, none, none, imm⟩
  | .bez a imm => ⟨none, some a, none, none, imm⟩
  | .bgez a imm => ⟨none, some a, none, none, imm⟩
  | .blez a imm => ⟨none, some a, none, none, imm⟩
  | .bgtz a imm => ⟨none, some a, none, none, imm⟩
  | .bltz a imm => ⟨none, some a, none, none, imm⟩
  | .ret => ⟨none, none, none, none, 0⟩

/-- The `unit` column of R60. -/
def unitOf : Opcode → FuncUnit
  | .mul | .mull => .exm
  | .add | .sub | .addl | .subl | .set => .exa
  | .div | .divl => .exd
  | .ldI | .stI | .ldR | .stR => .m1
  | .bez | .bgez | .blez | .bgtz | .bltz | .ret => .exb

/-- The five conditional branches (R55). -/
def isBranch : Opcode → Bool
  | .bez | .bgez | .blez | .bgtz | .bltz => true
  | _ => false

/-- The RS forms of R133: the twelve variants that read a register and are not branches. -/
def isRsForm : Opcode → Bool
  | .mul | .add | .sub | .div | .mull | .addl | .subl | .divl | .ldI | .stI | .ldR | .stR => true
  | _ => false

/-- The four memory variants (R55). -/
def isMemory : Opcode → Bool
  | .ldI | .stI | .ldR | .stR => true
  | _ => false

/-- The two loads. -/
def isLoad : Opcode → Bool
  | .ldI | .ldR => true
  | _ => false

/-- The two stores. -/
def isStore : Opcode → Bool
  | .stI | .stR => true
  | _ => false

/-! ## In-order operand lookup (R102) -/

/-- What a source lookup answers. -/
inductive Look where
  | forwarded (v : Word)
  | regfile (v : Word)
  | busy
deriving DecidableEq, Repr

/-- The value a channel holds for a register. -/
def channelHit (c : Option (Reg × Word)) (r : Reg) : Option Word :=
  match c with
  | some (q, v) => if q = r then some v else none
  | none => none

/-- `Lookup(r)`: add, multiply, divide, memory channel, then the register file (R102). -/
def State.lookup (s : State) (r : Reg) : Look :=
  match channelHit s.fwd.add r with
  | some v => .forwarded v
  | none =>
    match channelHit s.fwd.mul r with
    | some v => .forwarded v
    | none =>
      match channelHit s.fwd.div r with
      | some v => .forwarded v
      | none =>
        match channelHit s.fwd.mem r with
        | some v => .forwarded v
        | none => if s.ready r then .regfile (s.x r) else .busy

/-- The value a source slot captures (R101): what the lookup finds, `none` when the register is busy; an absent slot
keeps the field's old value. -/
def State.lookSlot (s : State) (slot : Option Reg) (old : Word) : Option Word :=
  match slot with
  | none => some old
  | some r =>
    match s.lookup r with
    | .forwarded v => some v
    | .regfile v => some v
    | .busy => none

/-! ## Out-of-order operand capture (R137) -/

/-- A captured source slot: value, ready bit, awaited producer. -/
structure Captured where
  v : Word
  r : Bool
  t : Option RobId
deriving DecidableEq, Repr

/-- Capture one source slot from the start-of-cycle register entry (R137); a slot that gets no value now keeps the
field's old one. -/
def State.capture (s : State) (slot : Option Reg) (old : Word) : Captured :=
  match slot with
  | none => ⟨old, true, none⟩
  | some r =>
    match s.tag r with
    | none => ⟨s.x r, true, none⟩
    | some id => ⟨old, false, some id⟩

/-! ## Unit operands -/

/-- The second operand of an arithmetic unit: the immediate of the register+immediate forms, `v2` of the
register-register forms (R155); SET uses its immediate alone. -/
def Latch.secondOperand (l : Latch) : Word :=
  match l.op with
  | .mull | .addl | .subl | .divl => l.v2
  | _ => l.imm

/-- `wrap(base + offset)`: the effective byte address (R171). -/
def effectiveAddr (base offset : Word) : Word :=
  wrap (base.toInt + offset.toInt)

/-- The address offset of the memory unit: the immediate of LD_I and ST_I, `v2` of LD_R and ST_R (R171). -/
def Latch.addrOffset (l : Latch) : Word :=
  match l.op with
  | .ldR | .stR => l.v2
  | _ => l.imm

end Sys2Proof.Machine
end

