-- ==== Sys2Proof/Machine/Flags.lean ====
section
/-! DEFINITION. The hardware has no flags (R27): the conditional branches test a register value directly. This file holds
the five conditions (R182), the predictor's index, tag, prediction and saturating counter (R115 to R118, R124) and the
flush test (R121). -/

namespace Sys2Proof.Machine

/-- `cond(op, v)` on the signed word `v` (R182); false for an opcode that is no conditional branch. -/
def cond (op : Opcode) (v : Word) : Bool :=
  match op with
  | .bez => v.toInt == 0
  | .bgez => decide (0 ≤ v.toInt)
  | .blez => decide (v.toInt ≤ 0)
  | .bgtz => decide (0 < v.toInt)
  | .bltz => decide (v.toInt < 0)
  | _ => false

/-- `index(p) = (addr(p) >> 2) & 0xF = p & 0xF` (R117). -/
def predictorIndex (p : Int) : Fin 16 :=
  Fin.ofNat 16 ((byteAddr p / 4) % 16).toNat

/-- `tag_from(p) = addr(p)`, as a word (R117, R20; DEDUCED, log entry 10). -/
def tagFrom (p : Int) : Word :=
  wrap (byteAddr p)

/-- A counter of 4 or more predicts taken (R116). -/
def predictsTaken (c : Fin 8) : Bool :=
  decide (4 ≤ c.val)

/-- The saturating update: up to 7 when taken, down to 0 when not (R124). -/
def bump (taken : Bool) (c : Fin 8) : Fin 8 :=
  if taken then (if h : c.val < 7 then ⟨c.val + 1, by omega⟩ else 7)
  else ⟨c.val - 1, by omega⟩

/-- The flush test against the pre-update tables (R121). -/
def flushTest (taken : Bool) (tag : Option Word) (c : Fin 8) : Bool :=
  (taken && (tag.isNone || decide (c.val < 4))) || (!taken && (tag.isSome && decide (4 ≤ c.val)))

/-- Where a resolved branch at position `p` goes on: its target, or its own position + 1 (R121, R183). -/
def branchNext (taken : Bool) (p : Int) (imm : Word) : Int :=
  if taken then trunc4 imm else p + 1

/-- The next `pc` of a fetch at position `p` (R118): the target of a conditional branch predicted taken, else `p + 1`.
The BTB takes no part. -/
def State.predictNext (s : State) (p : Int) (op : Option Opcode) (imm : Word) : Int :=
  match op with
  | some o => branchNext (isBranch o && predictsTaken s.pt[predictorIndex p]) p imm
  | none => p + 1

/-- The BTB entry a resolved branch leaves (R123). -/
def resolvedEntry (p : Int) (imm : Word) : BtbEntry :=
  ⟨some (tagFrom p), imm⟩

/-- Steps (3) and (4) of the resolution of R120 on the tables: the unconditional BTB overwrite (R123), then the counter
update (R124), both from the pre-update counter. -/
def State.resolve (s : State) (p : Int) (taken : Bool) (imm : Word) : State :=
  (s.setBtb (predictorIndex p) (resolvedEntry p imm)).setPt (predictorIndex p)
    (bump taken s.pt[predictorIndex p])

end Sys2Proof.Machine
end

