-- ==== Sys2Proof/Machine/Pending.lean ====
section
/-! DEFINITION. What a stage handler answers in the evaluate phase (R72, R73): a list of pending writes and at most one
signal; how a pending write is applied in the commit phase (R78); and how the channels turn over (R91, R107). -/

namespace Sys2Proof.Machine

/-- A pending write. Field writes of a handler to its own latch are given as the latch's new contents. -/
inductive Write where
  | latch (st : Stage) (l : Latch)
  | regValue (r : Reg) (v : Word)
  | regReady (r : Reg) (b : Bool)
  | regTag (r : Reg) (t : Option RobId)
  /-- A forwarding pair: it reaches the channel at the end of the cycle (R107). -/
  | channel (c : Channel) (r : Reg) (v : Word)
  /-- `mem[a / 4] <- v` (R174). -/
  | store (a : Word) (v : Word)
  | btb (i : Fin 16) (e : BtbEntry)
  | pt (i : Fin 16) (c : Fin 8)
  /-- The state change of `RobAlloc(d)` (R130). -/
  | robAllocate (d : Reg)
  | robComplete (id : RobId) (v : Word)
  | robFree
  | pc (p : Int)
  | fetchHalt (b : Bool)
  | fetchSeqNext
  | stall
  | retire
deriving DecidableEq, Repr

/-- A signal of a handler (R72). -/
inductive Signal where
  | flush (redirect : Int)
  | abort (reason : AbortReason)
  | retireRet
deriving DecidableEq, Repr

/-- What one handler answers; `commit` is the ROB head commit's broadcast (R140), which the RT handler may signal beside
`retireRet`. -/
structure HandlerOut where
  writes : List Write := []
  signal : Option Signal := none
  commit : Option (RobId × Word) := none
deriving DecidableEq, Repr

/-- Apply one pending write. A channel pair changes nothing yet. -/
def State.apply (s : State) (w : Write) : State :=
  match w with
  | .latch st l => s.setLatch st (some l)
  | .regValue r v => s.setValue r v
  | .regReady r b => s.setReady r b
  | .regTag r t => s.setTag r t
  | .channel _ _ _ => s
  | .store a v => s.storeWord a v
  | .btb i e => s.setBtb i e
  | .pt i c => s.setPt i c
  | .robAllocate d => s.robAllocate d
  | .robComplete id v => s.robComplete id v
  | .robFree => s.robFree
  | .pc p => s.setPc p
  | .fetchHalt b => s.setFetchHalt b
  | .fetchSeqNext => s.countFetch
  | .stall => s.countStall
  | .retire => s.countRetire

/-- Apply pending writes in order, a later one winning (R78). -/
def State.applyAll (s : State) (ws : List Write) : State :=
  ws.foldl State.apply s

/-- The pair written for a channel among some writes, if any; the last one wins. -/
def channelWritten (c : Channel) (ws : List Write) : Option (Reg × Word) :=
  ws.foldl (fun acc w => match w with
    | .channel d r v => if d = c then some (r, v) else acc
    | _ => acc) none

/-- The channels of the next cycle: the pair written in this one, or none (R91, R107). -/
def channelsWritten (ws : List Write) : Channels :=
  ⟨channelWritten .add ws, channelWritten .mul ws, channelWritten .div ws, channelWritten .mem ws⟩

end Sys2Proof.Machine
end

