-- ==== Sys2Proof/Machine/Front.lean ====
section
/-! DEFINITION. The handlers of the front stages Fetch, Decode and Operand-Analyze (R74, R75, R84, R85). -/

namespace Sys2Proof.Machine

/-- The record at a table position. -/
def State.record? (s : State) (p : Nat) : Option Record :=
  s.it[p]?.map Record.ofWord

/-- The instruction at a table position, refused by name when the record is malformed (R63). -/
def State.decodeAt (s : State) (p : Nat) : Except DecodeError Instr :=
  match s.it[p]? with
  | some w => decodeFor s.params.nreg w
  | none => .error .noRecord

/-- The record Fetch will read: `fetch_halt` is clear and `pc` is a position of the table (R74, R75). -/
def State.fetchRecord (s : State) : Option Record :=
  if s.fetchHalt = false ∧ 0 ≤ s.pc then s.record? s.pc.toNat else none

/-- The latch Fetch fills at `pc` (R74): all other fields 0 or none. -/
def State.fetchedLatch (s : State) : Latch :=
  { idx := s.pc.toNat, pc := s.pc, seq := s.fetchSeq, done := true }

/-- The `pc` after a fetch of a record (R118). -/
def State.nextPc (s : State) (r : Record) : Int :=
  s.predictNext s.pc (Opcode.ofCode? r.opcode) r.imm

/-- F handler (R74, R75): it acts when its latch is free. -/
def handleF (s : State) : HandlerOut :=
  match s.latch .f, s.fetchRecord with
  | none, some r =>
    { writes := [.latch .f s.fetchedLatch, .fetchSeqNext, .pc (s.nextPc r)] ++
        (if Opcode.ofCode? r.opcode = some .ret then [.fetchHalt true] else []) }
  | _, _ => {}

/-- The latch Decode leaves (R84): opcode and slots of R60. -/
def Latch.decoded (l : Latch) (i : Instr) : Latch :=
  { l with
    op := i.opcode
    dest := (slots i).dest
    s1 := (slots i).s1
    s2 := (slots i).s2
    s3 := (slots i).s3
    imm := (slots i).imm
    done := true }

/-- D handler (R84): a malformed record is the abort of R194. An `idx` outside the table, which no run reaches, counts as
malformed (DESIGN CHOICE, log entry 7). -/
def handleD (s : State) : HandlerOut :=
  match s.latch .d with
  | some l =>
    if l.done then {}
    else
      match s.decodeAt l.idx with
      | .ok i => { writes := [.latch .d (l.decoded i)] }
      | .error _ => { signal := some (.abort .malformedInstruction) }
  | none => {}

/-- The latch Operand-Analyze leaves (R85). -/
def Latch.analysed (l : Latch) : Latch :=
  { l with unit := some (unitOf l.op), done := true }

/-- OA handler (R85). -/
def handleOA (s : State) : HandlerOut :=
  match s.latch .oa with
  | some l => if l.done then {} else { writes := [.latch .oa l.analysed] }
  | none => {}

end Sys2Proof.Machine
end

