-- ==== Sys2Proof/Machine/Issue.lean ====
section
/-! DEFINITION. The Register-Read/Issue handler (R86): in-order build (R101 to R106) and out-of-order build (R131 to R139).
It either issues (captures operands, writes its side effects, sets `done`) or stalls (counts a stall, nothing else). -/

namespace Sys2Proof.Machine

/-- A stall of the RR handler (R86, R105, R139). -/
def stalled : HandlerOut :=
  { writes := [.stall] }

/-- The destination interlock: the destination register is busy (R104). -/
def State.destBusy (s : State) (l : Latch) : Bool :=
  match l.dest with
  | some d => !s.ready d
  | none => false

/-- Marking the destination busy (R104). -/
def busyMark (l : Latch) : List Write :=
  match l.dest with
  | some d => [.regReady d false]
  | none => []

/-- RR handler of the in-order build on an occupant (R101). A stall keeps nothing (R106). -/
def issueInOrder (s : State) (l : Latch) : HandlerOut :=
  match s.lookSlot l.s1 l.v1, s.lookSlot l.s2 l.v2, s.lookSlot l.s3 l.v3 with
  | some a, some b, some c =>
    if s.destBusy l then stalled
    else { writes := .latch .rr { l with v1 := a, v2 := b, v3 := c, done := true } :: busyMark l }
  | _, _, _ => stalled

/-- The latches whose occupation holds a `ret` in RR (R135). -/
def State.unitsEmpty (s : State) : Bool :=
  (s.latch .exa).isNone && (s.latch .exm).isNone && (s.latch .exd).isNone && (s.latch .exb).isNone &&
    (s.latch .m1).isNone && (s.latch .m2).isNone

/-- The drain condition of `ret`: ROB, RS and every unit and memory latch empty (R135). -/
def State.drained (s : State) : Bool :=
  s.robHead == s.robTail && s.rsHead == s.rsTail && s.unitsEmpty

/-- The allocation and rename of a destination (R130, R131, R138). -/
def renameWrites (s : State) (l : Latch) : List Write :=
  match l.dest with
  | some d => [.robAllocate d, .regTag d (some s.robTail), .regReady d false]
  | none => []

/-- The latch with its source slots captured (R137) and its ROB slot recorded (R131). -/
def State.captured (s : State) (l : Latch) : Latch :=
  let c1 := s.capture l.s1 l.v1
  let c2 := s.capture l.s2 l.v2
  let c3 := s.capture l.s3 l.v3
  { l with
    v1 := c1.v, r1 := c1.r, t1 := c1.t
    v2 := c2.v, r2 := c2.r, t2 := c2.t
    v3 := c3.v, r3 := c3.r, t3 := c3.t
    rob := if l.dest.isSome then some s.robTail else l.rob
    done := true }

/-- A conditional branch in RR (R132): it waits until its register has no uncommitted producer. A branch
record without a source, which no run reaches, issues (DESIGN CHOICE, log entry 7). -/
def issueBranch (s : State) (l : Latch) : HandlerOut :=
  match l.s1 with
  | some r =>
    if (s.tag r).isSome then stalled else { writes := [.latch .rr { l with v1 := s.x r, done := true }] }
  | none => { writes := [.latch .rr { l with done := true }] }

/-- `ret` in RR (R135). -/
def issueRet (s : State) (l : Latch) : HandlerOut :=
  if s.drained then { writes := [.latch .rr { l with done := true }] } else stalled

/-- Every other variant in RR (R131): both fullness tests come before anything is allocated. -/
def issueRenamed (s : State) (l : Latch) : HandlerOut :=
  if (l.dest.isSome && s.robFull) || (isRsForm l.op && s.rsFull) then stalled
  else { writes := .latch .rr (s.captured l) :: renameWrites s l }

/-- RR handler of the out-of-order build on an occupant (R131). -/
def issueOutOfOrder (s : State) (l : Latch) : HandlerOut :=
  if isBranch l.op then issueBranch s l
  else if l.op = .ret then issueRet s l
  else issueRenamed s l

/-- RR handler (R86). -/
def handleRR (s : State) : HandlerOut :=
  match s.latch .rr with
  | some l =>
    if l.done then {}
    else
      match s.params.variant with
      | .inOrder => issueInOrder s l
      | .outOfOrder => issueOutOfOrder s l
  | none => {}

end Sys2Proof.Machine
end

