-- ==== Sys2Proof/Machine/Retire.lean ====
section
/-! DEFINITION. The handlers of Writeback (R87) and Retire (R88, R89) with the ROB head commit (R140). -/

namespace Sys2Proof.Machine

/-- WB handler: a one-cycle pass-through (R87). -/
def handleWB (s : State) : HandlerOut :=
  match s.latch .wb with
  | some l => if l.done then {} else { writes := [.latch .wb { l with done := true }] }
  | none => {}

/-- The register write of Retire, in-order build only (R88). -/
def retireWrites (s : State) (l : Latch) : List Write :=
  match s.params.variant, l.dest with
  | .inOrder, some d => [.regValue d l.result, .regReady d true]
  | _, _ => []

/-- The RT latch's part (R88): count, write back, and signal a `ret`. -/
def retireLatch (s : State) : HandlerOut :=
  match s.latch .rt with
  | some l =>
    if l.done then {}
    else
      { writes := [.retire, .latch .rt { l with done := true }] ++ retireWrites s l
        signal := if l.op = .ret then some .retireRet else none }
  | none => {}

/-- The head entry that commits in this cycle: completed and without `exception` (R140). -/
def State.committing (s : State) : Option RobEntry :=
  match s.params.variant with
  | .inOrder => none
  | .outOfOrder =>
    if s.robHead = s.robTail then none
    else
      match s.robEntry s.robHead with
      | some e => if e.completed && !e.exception then some e else none
      | none => none

/-- The pending writes of a commit (R140): the tag is cleared only if it still names the committing slot. -/
def commitWrites (s : State) (e : RobEntry) : List Write :=
  let d := e.destinationRegister
  [.regValue d e.result] ++ (if s.tag d = some e.id then [.regTag d none, .regReady d true] else []) ++ [.robFree]

/-- RT handler (R88, R89): the latch's part, then the ROB head commit, whether or not the latch is occupied. -/
def handleRT (s : State) : HandlerOut :=
  match s.committing with
  | some e =>
    { writes := (retireLatch s).writes ++ commitWrites s e
      signal := (retireLatch s).signal
      commit := some (e.id, e.result) }
  | none => retireLatch s

end Sys2Proof.Machine
end

