-- ==== Sys2Proof/Machine/Alu.lean ====
section
/-! DEFINITION. The arithmetic of the Add/Subtract/Set, Multiply and Divide units (R155, R166): exact integer results,
wrapped to a signed 32-bit word; a zero divisor is the fatal abort of R192. -/

namespace Sys2Proof.Machine

/-- `wrap(a + b)` (R158, R162). -/
def sumWord (a b : Word) : Word :=
  wrap (a.toInt + b.toInt)

/-- `wrap(a - b)` (R159, R163). -/
def diffWord (a b : Word) : Word :=
  wrap (a.toInt - b.toInt)

/-- `wrap(a * b)` (R157, R161). -/
def prodWord (a b : Word) : Word :=
  wrap (a.toInt * b.toInt)

/-- `if b = 0 then raise DivideByZero else tdiv(a, b)` (R160, R164). -/
def quotWord (a b : Word) : Except AbortReason Word :=
  if b.toInt = 0 then .error .divideByZero else .ok (tdiv a b)

/-- The unit result `r` of R155 for first operand `a` and second operand `y`; `none` for an opcode of another unit
class, which a unit latch never holds (DESIGN CHOICE for such states, log entry 7). -/
def aluResult (op : Opcode) (a y : Word) : Option (Except AbortReason Word) :=
  match op with
  | .add | .addl => some (.ok (sumWord a y))
  | .sub | .subl => some (.ok (diffWord a y))
  | .mul | .mull => some (.ok (prodWord a y))
  | .div | .divl => some (quotWord a y)
  | .set => some (.ok y)
  | _ => none

/-- The forwarding channel a unit's opcode writes (R108). -/
def channelOf (op : Opcode) : Option Channel :=
  match op with
  | .add | .sub | .addl | .subl | .set => some .add
  | .mul | .mull => some .mul
  | .div | .divl => some .div
  | .ldI | .ldR => some .mem
  | _ => none

end Sys2Proof.Machine
end

