-- ==== Sys2Proof/Machine/Units.lean ====
section
/-! DEFINITION. The handlers of the functional units: EXA, EXM, EXD (R155, R156), M1, M2 (R171 to R174) and EXB (R180 with
R119 to R124). Each takes one cycle on an occupant (R93). -/

namespace Sys2Proof.Machine

/-- The completion signal of a unit that computed `v` for an occupant: the unit's forwarding channel in the in-order build
(R107, R156), the ROB entry in the out-of-order build (R145, R148). -/
def completion (s : State) (l : Latch) (v : Word) : List Write :=
  match s.params.variant with
  | .inOrder =>
    match channelOf l.op, l.dest with
    | some c, some d => [.channel c d v]
    | _, _ => []
  | .outOfOrder =>
    match l.rob with
    | some id => [.robComplete id v]
    | none => []

/-- EXA, EXM, EXD handler (R155). -/
def handleAlu (st : Stage) (s : State) : HandlerOut :=
  match s.latch st with
  | some l =>
    if l.done then {}
    else
      match aluResult l.op l.v1 l.secondOperand with
      | some (.ok v) => { writes := .latch st { l with result := v, done := true } :: completion s l v }
      | some (.error r) => { signal := some (.abort r) }
      | none => {}
  | none => {}

/-- M1 handler, "address compute" (R171). -/
def handleM1 (s : State) : HandlerOut :=
  match s.latch .m1 with
  | some l =>
    if l.done then {}
    else if isMemory l.op then
      { writes := [.latch .m1 { l with addr := effectiveAddr l.v1 l.addrOffset, done := true }] }
    else {}
  | none => {}

/-- M2 handler, "access" (R172): the range check, then the load part (R173) or the store part (R174). -/
def handleM2 (s : State) : HandlerOut :=
  match s.latch .m2 with
  | some l =>
    if l.done then {}
    else if isLoad l.op then
      match s.memRead l.addr with
      | .ok v => { writes := .latch .m2 { l with result := v, done := true } :: completion s l v }
      | .error r => { signal := some (.abort r) }
    else if isStore l.op then
      if s.inRange l.addr then
        { writes := [.store l.addr l.v3, .latch .m2 { l with done := true }] }
      else { signal := some (.abort .memoryOutOfRange) }
    else {}
  | none => {}

/-- The resolution of a conditional branch in EXB (R120 to R124): flush test, flush, BTB overwrite, counter update. -/
def resolveBranch (s : State) (l : Latch) : HandlerOut :=
  let taken := cond l.op l.v1
  let i := predictorIndex l.pc
  { writes :=
      [.btb i (resolvedEntry l.pc l.imm), .pt i (bump taken s.pt[i]), .latch .exb { l with done := true }]
    signal :=
      if flushTest taken s.btb[i].tag s.pt[i] then some (.flush (branchNext taken l.idx l.imm)) else none }

/-- EXB handler (R180). -/
def handleEXB (s : State) : HandlerOut :=
  match s.latch .exb with
  | some l =>
    if l.done then {}
    else if isBranch l.op then resolveBranch s l
    else if l.op = .ret then { writes := [.latch .exb { l with done := true }] }
    else {}
  | none => {}

end Sys2Proof.Machine
end

