-- ==== Sys2Proof/Machine/Cycle.lean ====
section
/-! DEFINITION. The clock cycle (R72): evaluate, commit, snapshot, advance, end of cycle. -/

namespace Sys2Proof.Machine

/-! ## Evaluate (R73, R76) -/

/-- The handler of a stage; every handler reads the start-of-cycle state (R73). -/
def handler (st : Stage) (s : State) : HandlerOut :=
  match st with
  | .f => handleF s
  | .d => handleD s
  | .oa => handleOA s
  | .rr => handleRR s
  | .exa => handleAlu .exa s
  | .exm => handleAlu .exm s
  | .exd => handleAlu .exd s
  | .exb => handleEXB s
  | .m1 => handleM1 s
  | .m2 => handleM2 s
  | .wb => handleWB s
  | .rt => handleRT s

/-- The evaluation order of R76. -/
def evalOrder : List Stage :=
  [.rt, .wb, .exa, .exm, .exd, .exb, .m2, .m1, .rr, .oa, .d, .f]

/-- What every handler answers, in evaluation order. -/
def evaluate (s : State) : List (Stage × HandlerOut) :=
  evalOrder.map fun st => (st, handler st s)

/-! ## Commit (R78, R79, R92) -/

/-- The abort a handler signalled. -/
def HandlerOut.abort? (o : HandlerOut) : Option AbortReason :=
  match o.signal with
  | some (.abort r) => some r
  | _ => none

/-- The flush a handler signalled. -/
def HandlerOut.flush? (o : HandlerOut) : Option Int :=
  match o.signal with
  | some (.flush p) => some p
  | _ => none

/-- The reason of the first abort in evaluation order (R92, R195). -/
def abortOf (outs : List (Stage × HandlerOut)) : Option AbortReason :=
  outs.findSome? fun o => o.2.abort?

/-- The writes of the handlers that precede the first aborting one (R92). -/
def writesBeforeAbort (outs : List (Stage × HandlerOut)) : List Write :=
  (outs.takeWhile fun o => o.2.abort?.isNone).flatMap fun o => o.2.writes

/-- The redirect of a flush, if one was signalled (R79). -/
def flushOf (outs : List (Stage × HandlerOut)) : Option Int :=
  outs.findSome? fun o => o.2.flush?

/-- The front latches, whose handlers' writes a flush discards (R79). -/
def isFront : Stage → Bool
  | .f | .d | .oa | .rr => true
  | _ => false

/-- The writes that a cycle without abort applies (R78, R79). -/
def committedWrites (outs : List (Stage × HandlerOut)) : List Write :=
  match flushOf outs with
  | some _ => (outs.filter fun o => !isFront o.1).flatMap fun o => o.2.writes
  | none => outs.flatMap fun o => o.2.writes

/-- The flush itself (R79, R122): the four front latches are cleared, `pc` redirected, `fetch_halt` cleared. -/
def State.flush (s : State) (redirect : Int) : State :=
  { s with
    latches := { s.latches with f := none, d := none, oa := none, rr := none }
    pc := redirect
    fetchHalt := false }

/-- The wake-up of one latch record (R142). -/
def Latch.wake (l : Latch) (id : RobId) (v : Word) : Latch :=
  { l with
    v1 := if l.t1 = some id then v else l.v1
    r1 := if l.t1 = some id then true else l.r1
    t1 := if l.t1 = some id then none else l.t1
    v2 := if l.t2 = some id then v else l.v2
    r2 := if l.t2 = some id then true else l.r2
    t2 := if l.t2 = some id then none else l.t2
    v3 := if l.t3 = some id then v else l.v3
    r3 := if l.t3 = some id then true else l.r3
    t3 := if l.t3 = some id then none else l.t3 }

/-- The RR latch is woken if it has issued (R142). -/
def wakeIssued (l : Option Latch) (id : RobId) (v : Word) : Option Latch :=
  match l with
  | some k => if k.done then some (k.wake id v) else some k
  | none => none

/-- The wake-up broadcast: every RS entry, and the RR latch if it is done (R142). -/
def State.wakeUp (s : State) (id : RobId) (v : Word) : State :=
  { s with
    rs := s.rs.map fun e => e.map fun l => l.wake id v
    latches := s.latches.set .rr (wakeIssued s.latches.rr id v) }

/-- The broadcast a cycle makes, if an entry committed (R140, R142). -/
def commitOf (outs : List (Stage × HandlerOut)) : Option (RobId × Word) :=
  outs.findSome? fun o => o.2.commit

/-- The commit phase of a cycle without abort (R78, R79, R142). -/
def commitPhase (outs : List (Stage × HandlerOut)) (s : State) : State :=
  let written := s.applyAll (committedWrites outs)
  let flushed := match flushOf outs with
    | some p => written.flush p
    | none => written
  match commitOf outs with
  | some (id, v) => flushed.wakeUp id v
  | none => flushed

/-! ## Snapshot (R94) -/

/-- The occupancy snapshot: each latch's `idx`, taken after commit and before advance (R94). -/
def State.takeSnapshot (s : State) : State :=
  { s with snapshot := s.latches.map fun l => l.map fun k => k.idx }

/-! ## Advance (R80 to R83) -/

/-- Move an occupied, done latch into a free stage; it arrives not done (R80, R82). -/
def State.move (s : State) (src dst : Stage) : State :=
  match s.latch src, s.latch dst with
  | some l, none => if l.done then (s.setLatch dst (some { l with done := false })).setLatch src none else s
  | _, _ => s

/-- Step 1: a done RT latch leaves the machine. -/
def State.leaveRT (s : State) : State :=
  match s.latch .rt with
  | some l => if l.done then s.setLatch .rt none else s
  | none => s

/-- The five feeders of Writeback (R81). -/
def wbFeeders : List Stage :=
  [.exa, .exm, .exd, .exb, .m2]

/-- The `seq` of a stage's occupant if it is a candidate for Writeback: occupied and done (R81). -/
def State.candidateSeq (s : State) (st : Stage) : Option Nat :=
  match s.latch st with
  | some l => if l.done then some l.seq else none
  | none => none

/-- The older of a candidate found so far and a stage's. -/
def olderCandidate (s : State) (best : Option (Stage × Nat)) (st : Stage) : Option (Stage × Nat) :=
  match s.candidateSeq st, best with
  | some n, some (b, m) => if n < m then some (st, n) else some (b, m)
  | some n, none => some (st, n)
  | none, _ => best

/-- The oldest candidate for Writeback (R81). -/
def State.oldestFeeder (s : State) : Option Stage :=
  (wbFeeders.foldl (olderCandidate s) none).map Prod.fst

/-- Step 3: Writeback arbitration (R81). -/
def State.arbitrate (s : State) : State :=
  match s.oldestFeeder with
  | some st => s.move st .wb
  | none => s

/-- All three source slots of an RS entry are ready (R144). -/
def Latch.allReady (l : Latch) : Bool :=
  l.r1 && l.r2 && l.r3

/-- Step 5: dispatch of the RS head to its free unit latch (R144). -/
def State.dispatchRs (s : State) : State :=
  match s.params.variant with
  | .inOrder => s
  | .outOfOrder =>
    if s.rsHead = s.rsTail then s
    else
      match s.rs.getD s.rsHead none with
      | none => s
      | some e =>
        match e.unit with
        | none => s
        | some u =>
          if e.allReady && (s.latch (unitStage u)).isNone then
            (s.setLatch (unitStage u) (some { e with done := false })).rsDequeue
          else s

/-- Step 6: a done RR latch leaves for its unit, or for the RS tail (R80, R133, R143). -/
def State.leaveRR (s : State) : State :=
  match s.latch .rr with
  | none => s
  | some l =>
    if !l.done then s
    else if s.params.variant = .outOfOrder ∧ isRsForm l.op = true then (s.rsEnqueue l).setLatch .rr none
    else
      match l.unit with
      | some u => s.move .rr (unitStage u)
      | none => s

/-- The advance pass: the nine steps of R80, from the Retire end. -/
def State.advance (s : State) : State :=
  ((((((((s.leaveRT.move .wb .rt).arbitrate).move .m1 .m2).dispatchRs).leaveRR).move .oa .rr).move .d .oa).move .f .d)

/-! ## End of cycle (R91) and the cycle -/

/-- `retire_ret` was signalled. -/
def retiresRet (outs : List (Stage × HandlerOut)) : Bool :=
  outs.any fun o => decide (o.2.signal = some .retireRet)

/-- End of cycle (R91): the channels turn over, `cycles` counts, halt takes effect. In the out-of-order build no channel
is ever written (R148). -/
def State.endCycle (s : State) (outs : List (Stage × HandlerOut)) : State :=
  { s with
    fwd := channelsWritten (committedWrites outs)
    cycles := s.cycles + 1
    status := if retiresRet outs then .halted else s.status }

/-- One clock cycle (R72). On an abort only the earlier handlers' writes and the status change take place (R92): no flush
and no channel turnover (DEDUCED, log entry 8). -/
def cycle (s : State) : State :=
  let outs := evaluate s
  match abortOf outs with
  | some r => (s.applyAll (writesBeforeAbort outs)).takeAbort r
  | none => ((commitPhase outs s).takeSnapshot.advance).endCycle outs

/-- `n` clock cycles, while the machine runs: no cycle runs from a terminal status (R25). -/
def cycles : Nat → State → State
  | 0, s => s
  | n + 1, s => if s.status = .running then cycles n (cycle s) else s

/-- The occupancy trace of up to `n` cycles (R94, R96): the snapshot of every completed cycle; an aborting cycle has none
(R92). -/
def trace : Nat → State → List (PerStage (Option Nat))
  | 0, _ => []
  | n + 1, s =>
    if s.status = .running then
      match (cycle s).status with
      | .aborted _ => []
      | _ => (cycle s).snapshot :: trace n (cycle s)
    else []

end Sys2Proof.Machine
end

