-- ==== Sys2Proof/Machine/Alone.lean ====
section
/-! DEFINITION. One instruction alone in the pipeline: the shared operations of every instruction's meaning. A meaning says
where the machine stands when its instruction, fetched at `pc` into the empty pipeline with nothing behind it, has left
through RT (R74 to R91), or when it has aborted the run on the way (R92). That is the one-at-a-time execution of R30 and
44_fu_arith.md with the pipeline's own bookkeeping: fetch order, cycle count (R98, R211, R215), ring pointers, predictor,
retirement count. The overlapped machine is `cycle` (Cycle.lean); log entry 2 says how the two stand to each other. -/

namespace Sys2Proof.Machine

/-- The instruction takes a ROB slot (R131). -/
def State.usesRob (s : State) (i : Instr) : Bool :=
  s.params.variant == .outOfOrder && (slots i).dest.isSome

/-- The instruction passes through the RS (R133). -/
def State.usesRs (s : State) (i : Instr) : Bool :=
  s.params.variant == .outOfOrder && isRsForm i.opcode

/-- A ring pointer after one slot has been taken and freed. -/
def pointerAfter (used : Bool) (cap n : Nat) : Nat :=
  if used then ringNext cap n else n

/-- The cycles from fetch to leaving RT with nothing else in the machine: seven, one more for a memory instruction (R98,
R211), one more for a form that passes through the RS (R151, R215). -/
def State.passCycles (s : State) (i : Instr) : Nat :=
  7 + (if isMemory i.opcode then 1 else 0) + (if s.usesRs i then 1 else 0)

/-- The bookkeeping of an instruction's whole pass, after which fetch goes on at `next`: one fetch (R74), one retirement
(R88), its cycles (R91), the ring slots it took and freed (R130, R140, R143, R144), and the snapshot of its last cycle,
in which it stood in RT (R94). -/
def State.pass (s : State) (i : Instr) (next : Int) : State :=
  { s with
    pc := next
    fetchSeq := s.fetchSeq + 1
    cycles := s.cycles + s.passCycles i
    retired := s.retired + 1
    robHead := pointerAfter (s.usesRob i) s.params.robCap s.robHead
    robTail := pointerAfter (s.usesRob i) s.params.robCap s.robTail
    rsHead := pointerAfter (s.usesRs i) s.params.rsCap s.rsHead
    rsTail := pointerAfter (s.usesRs i) s.params.rsCap s.rsTail
    snapshot := snapshotOnly .rt s.pc.toNat }

/-- The pass of an instruction that writes `v` to its destination `d`: written at retirement (R88) or at the ROB head
(R140), after which the register is ready and untagged. -/
def State.passWrite (s : State) (i : Instr) (d : Reg) (v : Word) : State :=
  (s.pass i (s.pc + 1)).setEntry d ⟨v, true, none⟩

/-! ## Aborts on the way -/

/-- The value of a source slot; an absent slot's field holds 0 (R18). -/
def State.slotValue (s : State) (slot : Option Reg) : Word :=
  match slot with
  | some r => s.x r
  | none => 0

/-- The latch record of an instruction issued alone, as it arrives in its unit: decoded (R84), analysed (R85), every source
captured from a ready register (R101, R137). -/
def State.issuedLatch (s : State) (i : Instr) : Latch :=
  let l := (s.fetchedLatch.decoded i).analysed
  let renamed := s.params.variant == .outOfOrder
  { l with
    v1 := s.slotValue l.s1
    v2 := s.slotValue l.s2
    v3 := s.slotValue l.s3
    r1 := renamed
    r2 := renamed
    r3 := renamed
    rob := if s.usesRob i then some s.robTail else none
    done := false }

/-- The destination marked at issue and not retired: busy (R104), or renamed to a new ROB slot (R130, R138). -/
def State.markIssued (s : State) (i : Instr) : State :=
  match (slots i).dest with
  | none => s
  | some d =>
    match s.params.variant with
    | .inOrder => s.setReady d false
    | .outOfOrder => ((s.robAllocate d).setTag d (some s.robTail)).setReady d false

/-- The state when an instruction issued alone stands in stage `st` with computed address `a` and aborts the run there:
`before` cycles of its pass are counted, the aborting one is not (R92), and `shown` is the snapshot of the last counted
cycle. -/
def State.abortIn (s : State) (i : Instr) (st : Stage) (a : Word) (before : Nat) (shown : PerStage (Option Nat))
    (r : AbortReason) : State :=
  (({ s.markIssued i with
      pc := s.pc + 1
      fetchSeq := s.fetchSeq + 1
      cycles := s.cycles + before
      rsHead := pointerAfter (s.usesRs i) s.params.rsCap s.rsHead
      rsTail := pointerAfter (s.usesRs i) s.params.rsCap s.rsTail
      snapshot := shown }).setLatch st (some { s.issuedLatch i with addr := a })).takeAbort r

/-- `DivideByZero` in EXD (R192): fetch, decode, analyse and issue are counted, and the RS cycle where there is one. -/
def State.abortDivide (s : State) (i : Instr) (r : AbortReason) : State :=
  if s.usesRs i then s.abortIn i .exd 0 5 (PerStage.const none) r
  else s.abortIn i .exd 0 4 (snapshotOnly .rr s.pc.toNat) r

/-- `MemoryOutOfRange` in M2 (R193): M1 is counted too. -/
def State.abortMemory (s : State) (i : Instr) (a : Word) (r : AbortReason) : State :=
  s.abortIn i .m2 a (if s.usesRs i then 6 else 5) (snapshotOnly .m1 s.pc.toNat) r

/-- `MalformedInstruction` in Decode (R194), for an instruction that names a register the machine does not have. -/
def State.abortDecode (s : State) (i : Instr) : State :=
  (({ s with
      pc := s.predictNext s.pc (some i.opcode) (slots i).imm
      fetchSeq := s.fetchSeq + 1
      cycles := s.cycles + 1
      snapshot := snapshotOnly .f s.pc.toNat }).setLatch .d
    (some { s.fetchedLatch with done := false })).takeAbort .malformedInstruction

/-- Every meaning begins at Decode: an instruction that is not well formed for this machine aborts there (R57, R63,
R84). -/
def State.decoded (s : State) (i : Instr) (t : State) : Host.Outcome State Fault Refusal :=
  if i.wellFormed s.params.nreg then .next t else .next (s.abortDecode i)

/-! ## The four shapes of a meaning -/

/-- An arithmetic instruction: the result goes to the destination, an abort ends the run in EXD (R155, R192). -/
def State.arith (s : State) (i : Instr) (d : Reg) (result : Except AbortReason Word) :
    Host.Outcome State Fault Refusal :=
  s.decoded i
    (match result with
      | .ok v => s.passWrite i d v
      | .error r => s.abortDivide i r)

/-- A load from byte address `a` (R172, R173). -/
def State.load (s : State) (i : Instr) (d : Reg) (a : Word) : Host.Outcome State Fault Refusal :=
  s.decoded i
    (match s.memRead a with
      | .ok v => s.passWrite i d v
      | .error r => s.abortMemory i a r)

/-- A store of `v` to byte address `a` (R172, R174). -/
def State.store (s : State) (i : Instr) (a v : Word) : Host.Outcome State Fault Refusal :=
  s.decoded i
    (match (s.pass i (s.pc + 1)).memWrite a v with
      | .ok t => t
      | .error r => s.abortMemory i a r)

/-- A conditional branch on register `r` (R183): the predictor is updated as the branch resolves (R120) and fetch goes on
at the target or behind the branch. -/
def State.branch (s : State) (i : Instr) (r : Reg) (imm : Word) : Host.Outcome State Fault Refusal :=
  let taken := cond i.opcode (s.x r)
  s.decoded i ((s.pass i (branchNext taken s.pc imm)).resolve s.pc taken imm)

end Sys2Proof.Machine
end

