-- ==== Sys2Proof/Machine/Arith.lean ====
section
/-! DEFINITION. The meanings of the nine arithmetic instructions (R157 to R165). -/

namespace Sys2Proof.Machine

/-- `x[a] <- wrap(x[b] * imm)` (R157). -/
def execMul (a b : Reg) (imm : Word) (s : State) : Host.Outcome State Fault Refusal :=
  s.arith (.mul a b imm) a (.ok (prodWord (s.x b) imm))

/-- `x[a] <- wrap(x[b] + imm)` (R158). -/
def execAdd (a b : Reg) (imm : Word) (s : State) : Host.Outcome State Fault Refusal :=
  s.arith (.add a b imm) a (.ok (sumWord (s.x b) imm))

/-- `x[a] <- wrap(x[b] - imm)` (R159). -/
def execSub (a b : Reg) (imm : Word) (s : State) : Host.Outcome State Fault Refusal :=
  s.arith (.sub a b imm) a (.ok (diffWord (s.x b) imm))

/-- `if imm = 0 then raise DivideByZero else x[a] <- tdiv(x[b], imm)` (R160). -/
def execDiv (a b : Reg) (imm : Word) (s : State) : Host.Outcome State Fault Refusal :=
  s.arith (.div a b imm) a (quotWord (s.x b) imm)

/-- `x[a] <- wrap(x[b] * x[c])` (R161). -/
def execMull (a b c : Reg) (s : State) : Host.Outcome State Fault Refusal :=
  s.arith (.mull a b c) a (.ok (prodWord (s.x b) (s.x c)))

/-- `x[a] <- wrap(x[b] + x[c])` (R162). -/
def execAddl (a b c : Reg) (s : State) : Host.Outcome State Fault Refusal :=
  s.arith (.addl a b c) a (.ok (sumWord (s.x b) (s.x c)))

/-- `x[a] <- wrap(x[b] - x[c])` (R163). -/
def execSubl (a b c : Reg) (s : State) : Host.Outcome State Fault Refusal :=
  s.arith (.subl a b c) a (.ok (diffWord (s.x b) (s.x c)))

/-- `if x[c] = 0 then raise DivideByZero else x[a] <- tdiv(x[b], x[c])` (R164). -/
def execDivl (a b c : Reg) (s : State) : Host.Outcome State Fault Refusal :=
  s.arith (.divl a b c) a (quotWord (s.x b) (s.x c))

/-- `x[a] <- imm` (R165). -/
def execSet (a : Reg) (imm : Word) (s : State) : Host.Outcome State Fault Refusal :=
  s.arith (.set a imm) a (.ok imm)

end Sys2Proof.Machine
end

