-- ==== Sys2Proof/Machine/Control.lean ====
section
/-! DEFINITION. The meanings of the five conditional branches (R183 to R187) and of `ret` (R188). -/

namespace Sys2Proof.Machine

/-- Taken iff `x[a] = 0` (R183). -/
def execBez (a : Reg) (imm : Word) (s : State) : Host.Outcome State Fault Refusal :=
  s.branch (.bez a imm) a imm

/-- Taken iff `x[a] ≥ 0` (R184). -/
def execBgez (a : Reg) (imm : Word) (s : State) : Host.Outcome State Fault Refusal :=
  s.branch (.bgez a imm) a imm

/-- Taken iff `x[a] ≤ 0` (R185). -/
def execBlez (a : Reg) (imm : Word) (s : State) : Host.Outcome State Fault Refusal :=
  s.branch (.blez a imm) a imm

/-- Taken iff `x[a] > 0` (R186). -/
def execBgtz (a : Reg) (imm : Word) (s : State) : Host.Outcome State Fault Refusal :=
  s.branch (.bgtz a imm) a imm

/-- Taken iff `x[a] < 0` (R187). -/
def execBltz (a : Reg) (imm : Word) (s : State) : Host.Outcome State Fault Refusal :=
  s.branch (.bltz a imm) a imm

/-- Ends the run normally (R188): its fetch stops Fetch (R74), its retirement halts the machine (R90). -/
def execRet (s : State) : Host.Outcome State Fault Refusal :=
  s.decoded .ret (((s.pass .ret (s.pc + 1)).setFetchHalt true).haltRun)

end Sys2Proof.Machine
end

