-- ==== Sys2Proof/Machine/LoadStore.lean ====
section
/-! DEFINITION. The meanings of the four memory instructions (R175 to R178). -/

namespace Sys2Proof.Machine

/-- `ea = wrap(x[b] + imm); x[a] <- MemRead(ea, 4)` (R175). -/
def execLdI (a b : Reg) (imm : Word) (s : State) : Host.Outcome State Fault Refusal :=
  s.load (.ldI a b imm) a (effectiveAddr (s.x b) imm)

/-- `ea = wrap(x[b] + imm); MemWrite(ea, 4, x[a])` (R176). -/
def execStI (a b : Reg) (imm : Word) (s : State) : Host.Outcome State Fault Refusal :=
  s.store (.stI a b imm) (effectiveAddr (s.x b) imm) (s.x a)

/-- `ea = wrap(x[b] + x[c]); x[a] <- MemRead(ea, 4)` (R177). -/
def execLdR (a b c : Reg) (s : State) : Host.Outcome State Fault Refusal :=
  s.load (.ldR a b c) a (effectiveAddr (s.x b) (s.x c))

/-- `ea = wrap(x[b] + x[c]); MemWrite(ea, 4, x[a])` (R178). -/
def execStR (a b c : Reg) (s : State) : Host.Outcome State Fault Refusal :=
  s.store (.stR a b c) (effectiveAddr (s.x b) (s.x c)) (s.x a)

end Sys2Proof.Machine
end

