-- ==== Sys2Proof/Machine/Dispatch.lean ====
section
/-! DEFINITION. One arm per constructor of `Instr`, each one direct call of its meaning. -/

namespace Sys2Proof.Machine

/-- The meaning of an instruction taken alone through the pipeline. -/
def exec (i : Instr) (s : State) : Host.Outcome State Fault Refusal :=
  match i with
  | .mul a b imm => Sys2Proof.Machine.execMul a b imm s
  | .add a b imm => Sys2Proof.Machine.execAdd a b imm s
  | .sub a b imm => Sys2Proof.Machine.execSub a b imm s
  | .div a b imm => Sys2Proof.Machine.execDiv a b imm s
  | .mull a b c => Sys2Proof.Machine.execMull a b c s
  | .addl a b c => Sys2Proof.Machine.execAddl a b c s
  | .subl a b c => Sys2Proof.Machine.execSubl a b c s
  | .divl a b c => Sys2Proof.Machine.execDivl a b c s
  | .ldI a b imm => Sys2Proof.Machine.execLdI a b imm s
  | .stI a b imm => Sys2Proof.Machine.execStI a b imm s
  | .ldR a b c => Sys2Proof.Machine.execLdR a b c s
  | .stR a b c => Sys2Proof.Machine.execStR a b c s
  | .set a imm => Sys2Proof.Machine.execSet a imm s
  | .bez a imm => Sys2Proof.Machine.execBez a imm s
  | .bgez a imm => Sys2Proof.Machine.execBgez a imm s
  | .blez a imm => Sys2Proof.Machine.execBlez a imm s
  | .bgtz a imm => Sys2Proof.Machine.execBgtz a imm s
  | .bltz a imm => Sys2Proof.Machine.execBltz a imm s
  | .ret => Sys2Proof.Machine.execRet s

end Sys2Proof.Machine
end

