-- ==== Sys2Proof/Machine/Supply.lean ====
section
/-! DEFINITION. Where a step finds the whole instruction it runs: the empty pipeline, the instruction at `pc`, and placing
a word there. Step.lean only calls these. -/

namespace Sys2Proof.Machine

/-- Every latch is free. -/
def State.latchesFree (s : State) : Bool :=
  decide (s.latches = PerStage.const none)

/-- Every forwarding channel is none. -/
def State.channelsFree (s : State) : Bool :=
  decide (s.fwd = ⟨none, none, none, none⟩)

/-- Every register is ready and untagged. -/
def State.registersFree (s : State) : Bool :=
  s.regs.toList.all fun e => e.readyFlag && e.producerTag.isNone

/-- The pipeline is empty: nothing is in flight in any latch, channel, ring or register entry. -/
def State.idle (s : State) : Bool :=
  s.latchesFree && s.channelsFree && s.registersFree && s.robHead == s.robTail && s.rsHead == s.rsTail

/-- The instruction of the record at a table position, if the record holds one; its register fields may name registers
that this machine does not have. -/
def State.instrAt (s : State) (p : Nat) : Option Instr :=
  match s.it[p]? with
  | some w =>
    match decode w with
    | .ok i => some i
    | .error _ => none
  | none => none

/-- The instruction Fetch will read at `pc`, if there is one and Fetch is not halted (R74, R75). -/
def State.nextInstr (s : State) : Option Instr :=
  if s.fetchHalt = false ∧ 0 ≤ s.pc then s.instrAt s.pc.toNat else none

/-- The instruction a step at instruction grain runs: the pipeline is empty and Fetch has one to read. -/
def State.wholeInstr (s : State) : Option Instr :=
  if s.idle then s.nextInstr else none

/-- The pipeline emptied without effect: what must hold for the next step to run exactly the instruction at `pc`. -/
def State.emptied (s : State) : State :=
  if s.idle then s
  else
    { s with
      latches := PerStage.const none
      fwd := ⟨none, none, none, none⟩
      regs := s.regs.map fun e => ⟨e.value, true, none⟩
      rob := List.replicate s.params.robCap none
      robHead := 0
      robTail := 0
      rs := List.replicate s.params.rsCap none
      rsHead := 0
      rsTail := 0 }

/-- The table with a word at a position; positions it lacks before that one are filled with 0. -/
def placeWord (it : List Packed) (p : Nat) (w : Packed) : List Packed :=
  if p < it.length then it.set p w else it ++ List.replicate (p - it.length) 0 ++ [w]

/-- The state with a word at its fetch position (0 when `pc` is negative), the pipeline empty, Fetch running, and one
whole instruction as the next step (log entry 4). -/
def State.withWord (s : State) (w : Packed) : State :=
  let p := s.pc.toNat
  { s.emptied with it := placeWord s.it p w, pc := p, fetchHalt := false, status := .running, grain := .instruction }

end Sys2Proof.Machine
end

