-- ==== Sys2Proof/Machine/Step.lean ====
section
/-! DEFINITION. The step function of the machine and the placing of a word for the host's questions. -/

namespace Sys2Proof.Machine

/-- One step. At clock grain, one cycle (R72). At instruction grain, one whole instruction when the pipeline is empty and
there is one to fetch, else one cycle. From a terminal status no step is taken (R25, R90, R191). -/
def step (s : State) : Host.Outcome State Fault Refusal :=
  match s.status with
  | .halted => .fault .halted
  | .aborted r => .fault (.aborted r)
  | .running =>
    match s.grain with
    | .clock => .next (cycle s)
    | .instruction =>
      match s.wholeInstr with
      | some i => exec i s
      | none => .next (cycle s)

/-- `s` with the instruction of bits `w` (those above `nbits` 0) where the next step fetches. -/
def State.withFetchWord (s : State) (nbits w : Nat) : State :=
  s.withWord (BitVec.ofNat 64 (w % 2 ^ nbits))

end Sys2Proof.Machine
end

