-- ==== Sys2Proof/Machine/Loader.lean ====
section
/-! DEFINITION. The run entry contract (R44, R57, R66, R96): what the loader hands the core, what makes it unable to
start, and the outputs of a run. The tokenizer, the image file reader and the reporter themselves are outside the hardware
(R6). -/

namespace Sys2Proof.Machine

/-- Image word number `i` becomes `mem[i]` (R44), from word `w` on. -/
def storeImage : Nat → List Word → Memory → Memory
  | _, [], m => m
  | w, v :: rest, m => storeImage (w + 1) rest (m.writeWord w v)

/-- The state in which a run starts (R96, R205): reset, with the table and the image loaded; the open parameters are
arguments of the run (R7). -/
def State.start (p : Params) (it : List Packed) (image : List Word) : State :=
  { State.resetWith p with it := it, mem := storeImage 0 image [] }

/-- A harness's preset of general registers, applied to `R[i].value` after reset (R207); the run entry contract itself
has no such argument. -/
def State.preset (s : State) (values : List (Reg × Word)) : State :=
  values.foldl (fun t p => t.setValue p.1 p.2) s

/-- The codes of the abort reasons (60_exceptions.md section 2). -/
def AbortReason.code : AbortReason → Nat
  | .divideByZero => 1
  | .memoryOutOfRange => 2
  | .malformedInstruction => 3

/-- Why a run cannot start (R66, R190): the loader's errors, which never reach the core. -/
inductive LoadError where
  /-- A parameter outside its range of R7. -/
  | badParameter
  /-- The record at this position is malformed (R57, R63). -/
  | malformedRecord (position : Nat)
  /-- "memory image exceeding capacity" (R44). -/
  | imageExceedsCapacity
  /-- An image integer outside the signed 32-bit range, which the core does not define (R44, U14; DESIGN CHOICE, log
  entry 11). -/
  | imageInteger
deriving DecidableEq, Repr

/-- The first malformed record from position `n` on. -/
def firstMalformed (nreg : Nat) : Nat → List Packed → Option Nat
  | _, [] => none
  | n, w :: rest =>
    match decodeFor nreg w with
    | .ok _ => firstMalformed nreg (n + 1) rest
    | .error _ => some n

/-- An integer fits a signed 32-bit word (R44, R57). -/
def fitsWord (n : Int) : Bool :=
  decide (-2147483648 ≤ n) && decide (n ≤ 2147483647)

/-- Loading as the core's preconditions ask (R44, R57, R66): "unable to start", or the start state. -/
def load (p : Params) (it : List Packed) (image : List Int) : Except LoadError State :=
  if ¬ p.Legal then .error .badParameter
  else
    match firstMalformed p.nreg 0 it with
    | some n => .error (.malformedRecord n)
    | none =>
      if p.memWords < image.length then .error .imageExceedsCapacity
      else if image.all fitsWord then .ok (State.start p it (image.map wrap))
      else .error .imageInteger

/-- `ipc = retired / cycles`, the exact rational; undefined when no cycle ran (R97). -/
def State.ipc (s : State) : Option Rat :=
  if s.cycles = 0 then none else some ((s.retired : Rat) / (s.cycles : Rat))

/-- The outputs of a run (R96): termination reason, final registers, final memory words, summary counters. -/
structure RunOutputs where
  reason : Status
  registers : List Word
  memory : List Word
  stalls : Nat
  cycles : Nat
  retired : Nat
  ipc : Option Rat
deriving DecidableEq, Repr

/-- The outputs, at termination only: a run that neither halts nor aborts has no final state (R95, R199). -/
def State.outputs (s : State) : Option RunOutputs :=
  match s.status with
  | .running => none
  | r =>
    some
      { reason := r
        registers := (s.regs.toList.take s.params.nreg).map RegEntry.value
        memory := (List.range s.params.memWords).map s.mem.readWord
        stalls := s.stalls
        cycles := s.cycles
        retired := s.retired
        ipc := s.ipc }

end Sys2Proof.Machine
end

