-- ==== Sys2Proof/Safety.lean ====
section
/-! DEFINITION. The terms in which statements speak of runs: terminal and safe states, what a meaning leaves unchanged, the
bookkeeping of an instruction's pass, and the invariants that rule out states no run reaches. -/

namespace Sys2Proof.Machine

/-- The run has ended (R25). -/
def State.terminal (s : State) : Bool :=
  s.status != .running

/-- A safe state: the run has not been aborted (R190). -/
def State.safe (s : State) : Bool :=
  match s.status with
  | .aborted _ => false
  | _ => true

/-! ## Frames -/

/-- Every byte of the data memory reads as before. -/
def KeepsBytes (s t : State) : Prop :=
  ∀ a : Nat, t.mem.readByte a = s.mem.readByte a

/-- Every byte outside the four bytes of word `w` reads as before. -/
def KeepsBytesBut (s t : State) (w : Nat) : Prop :=
  ∀ a : Nat, a < 4 * w ∨ 4 * w + 4 ≤ a → t.mem.readByte a = s.mem.readByte a

/-- Every register entry is as before: value, ready flag, producer tag. -/
def KeepsRegs (s t : State) : Prop :=
  ∀ r : Reg, t.regs[r] = s.regs[r]

/-- Every register entry but one is as before. -/
def KeepsRegsBut (s t : State) (d : Reg) : Prop :=
  ∀ r : Reg, r ≠ d → t.regs[r] = s.regs[r]

/-- Every register value is as before. -/
def KeepsValues (s t : State) : Prop :=
  ∀ r : Reg, t.x r = s.x r

/-- The predictor tables are as before. -/
def KeepsPredictor (s t : State) : Prop :=
  t.btb = s.btb ∧ t.pt = s.pt

/-- The predictor entries with another index are as before. -/
def KeepsPredictorBut (s t : State) (i : Fin 16) : Prop :=
  ∀ j : Fin 16, j ≠ i → t.btb[j] = s.btb[j] ∧ t.pt[j] = s.pt[j]

/-- Latches, forwarding channels and the slots of both rings are as before. -/
def KeepsInFlight (s t : State) : Prop :=
  t.latches = s.latches ∧ t.fwd = s.fwd ∧ t.rob = s.rob ∧ t.rs = s.rs

/-- The arguments of the run and the model's grain are as before (R7, R26). -/
def KeepsArguments (s t : State) : Prop :=
  t.params = s.params ∧ t.it = s.it ∧ t.grain = s.grain

/-- The bookkeeping of one instruction's whole pass after which fetch goes on at `next`. -/
structure Passed (s t : State) (i : Instr) (next : Int) : Prop where
  pc : t.pc = next
  fetchSeq : t.fetchSeq = s.fetchSeq + 1
  cycles : t.cycles = s.cycles + s.passCycles i
  stalls : t.stalls = s.stalls
  retired : t.retired = s.retired + 1
  robHead : t.robHead = pointerAfter (s.usesRob i) s.params.robCap s.robHead
  robTail : t.robTail = pointerAfter (s.usesRob i) s.params.robCap s.robTail
  rsHead : t.rsHead = pointerAfter (s.usesRs i) s.params.rsCap s.rsHead
  rsTail : t.rsTail = pointerAfter (s.usesRs i) s.params.rsCap s.rsTail
  snapshot : t.snapshot = snapshotOnly .rt s.pc.toNat

/-- The instruction completes with the signed integer `n`, wrapped to 32 bits (R8), in register `d`, and changes nothing
else but the bookkeeping of its pass. -/
def WritesRegister (i : Instr) (s : State) (d : Reg) (n : Int) : Prop :=
  ∃ t, exec i s = .next t ∧
    (t.x d).toInt = n.bmod (2 ^ 32) ∧ t.ready d = true ∧ t.tag d = none ∧ KeepsRegsBut s t d ∧
    KeepsBytes s t ∧ KeepsPredictor s t ∧ KeepsInFlight s t ∧ KeepsArguments s t ∧
    t.status = s.status ∧ t.fetchHalt = s.fetchHalt ∧ Passed s t i (s.pc + 1)

/-- The instruction completes with the value `v` in word `w` of memory and changes nothing else but the bookkeeping of its
pass. -/
def WritesMemory (i : Instr) (s : State) (w : Nat) (v : Word) : Prop :=
  ∃ t, exec i s = .next t ∧
    t.mem.readWord w = v ∧ KeepsBytesBut s t w ∧
    KeepsRegs s t ∧ KeepsPredictor s t ∧ KeepsInFlight s t ∧ KeepsArguments s t ∧
    t.status = s.status ∧ t.fetchHalt = s.fetchHalt ∧ Passed s t i (s.pc + 1)

/-- The branch completes: fetch goes on at `next`, its predictor entry holds tag `addr(pc)` as a word (DEDUCED, log entry
10), target `imm` and counter `c`, and nothing else changes but the bookkeeping of its pass. -/
def GoesOnAt (i : Instr) (s : State) (imm : Word) (next : Int) (c : Nat) : Prop :=
  ∃ t, exec i s = .next t ∧
    t.btb[predictorIndex s.pc] = ⟨some (BitVec.ofInt 32 (4 * s.pc)), imm⟩ ∧ (t.pt[predictorIndex s.pc]).val = c ∧
    KeepsPredictorBut s t (predictorIndex s.pc) ∧
    KeepsRegs s t ∧ KeepsBytes s t ∧ KeepsInFlight s t ∧ KeepsArguments s t ∧
    t.status = s.status ∧ t.fetchHalt = s.fetchHalt ∧ Passed s t i next

/-- A conditional branch whose outcome is `taken`: it goes on at its target, the immediate over 4 toward zero, with the
counter one up to 7 at most; or behind itself, with the counter one down to 0 at least. -/
def Resolves (i : Instr) (s : State) (imm : Word) (taken : Prop) : Prop :=
  (taken → GoesOnAt i s imm (imm.toInt.tdiv 4) (min 7 ((s.pt[predictorIndex s.pc]).val + 1))) ∧
    (¬ taken → GoesOnAt i s imm (s.pc + 1) ((s.pt[predictorIndex s.pc]).val - 1))

/-- The instruction aborts the run with `r` while it stands in stage `st`, `n` completed cycles after its fetch began and
with `pc` at `next`: no register value, no byte and no predictor entry changes, it is not counted as retired, its latch
record stays in that stage, and in the in-order build no ring changes. -/
def AbortsRun (i : Instr) (s : State) (r : AbortReason) (st : Stage) (n : Nat) (next : Int) : Prop :=
  ∃ t, exec i s = .next t ∧
    t.status = .aborted r ∧ t.retired = s.retired ∧ t.stalls = s.stalls ∧ t.cycles = s.cycles + n ∧
    t.pc = next ∧ t.fetchSeq = s.fetchSeq + 1 ∧ t.fetchHalt = s.fetchHalt ∧ t.fwd = s.fwd ∧
    KeepsValues s t ∧ (∀ q, (slots i).dest ≠ some q → t.regs[q] = s.regs[q]) ∧
    KeepsBytes s t ∧ KeepsPredictor s t ∧ KeepsArguments s t ∧
    (∃ l, t.latch st = some l ∧ l.idx = s.pc.toNat ∧ l.done = false) ∧
    (∀ other, other ≠ st → t.latch other = s.latch other) ∧
    (s.params.variant = .inOrder →
      t.rob = s.rob ∧ t.robHead = s.robHead ∧ t.robTail = s.robTail ∧
        t.rs = s.rs ∧ t.rsHead = s.rsHead ∧ t.rsTail = s.rsTail)

/-- The byte address a memory instruction accesses (R175 to R178). -/
def State.accessAddr (s : State) (i : Instr) : Option Word :=
  match i with
  | .ldI _ b imm | .stI _ b imm => some (effectiveAddr (s.x b) imm)
  | .ldR _ b c | .stR _ b c => some (effectiveAddr (s.x b) (s.x c))
  | .mul _ _ _ | .add _ _ _ | .sub _ _ _ | .div _ _ _ | .mull _ _ _ | .addl _ _ _ | .subl _ _ _ | .divl _ _ _
  | .set _ _ | .bez _ _ | .bgez _ _ | .blez _ _ | .bgtz _ _ | .bltz _ _ | .ret => none

/-! ## What happens in a cycle -/

/-- The cycle is not cut short by an abort. -/
def State.CycleCompletes (s : State) : Prop :=
  ∀ r, (cycle s).status ≠ .aborted r

/-- A conditional branch resolves in EXB and its flush test holds (R121). -/
def State.Flushes (s : State) : Prop :=
  ∃ l, s.latch .exb = some l ∧ l.done = false ∧ isBranch l.op = true ∧
    flushTest (cond l.op l.v1) s.btb[predictorIndex l.pc].tag s.pt[predictorIndex l.pc] = true

/-- An occupant of a stage on which its handler will work in this cycle (R77). -/
def State.WorksOn (s : State) (st : Stage) (l : Latch) : Prop :=
  s.latch st = some l ∧ l.done = false

/-- The ROB head commits its entry in this cycle (R140). -/
structure State.Commits (s : State) (e : RobEntry) : Prop where
  build : s.params.variant = .outOfOrder
  occupied : s.robHead ≠ s.robTail
  head : s.robEntry s.robHead = some e
  completed : e.completed = true
  clean : e.exception = false

/-- One source slot before and after the broadcast of `v` under `id` (R142): if it awaits `id` it takes the value, is ready
and awaits nothing; otherwise it is as before. -/
def wokenSlot (id : RobId) (v : Word) (before after : Captured) : Prop :=
  (before.t = some id → after = ⟨v, true, none⟩) ∧ (before.t ≠ some id → after = before)

/-- `m` is the record `l` after the broadcast of `v` under `id`: its three source slots woken, all else but `done` kept. -/
structure Latch.Woken (l m : Latch) (id : RobId) (v : Word) : Prop where
  slot1 : wokenSlot id v ⟨l.v1, l.r1, l.t1⟩ ⟨m.v1, m.r1, m.t1⟩
  slot2 : wokenSlot id v ⟨l.v2, l.r2, l.t2⟩ ⟨m.v2, m.r2, m.t2⟩
  slot3 : wokenSlot id v ⟨l.v3, l.r3, l.t3⟩ ⟨m.v3, m.r3, m.t3⟩
  rest : m.idx = l.idx ∧ m.pc = l.pc ∧ m.seq = l.seq ∧ m.op = l.op ∧ m.dest = l.dest ∧ m.s1 = l.s1 ∧ m.s2 = l.s2 ∧
    m.s3 = l.s3 ∧ m.imm = l.imm ∧ m.unit = l.unit ∧ m.addr = l.addr ∧ m.result = l.result ∧ m.rob = l.rob

/-- `st` is the Writeback feeder whose occupant `l` is older than every other feeder's (R81). -/
def State.OldestInFeeders (s : State) (st : Stage) (l : Latch) : Prop :=
  st ∈ wbFeeders ∧ s.latch st = some l ∧
    ∀ other ∈ wbFeeders, other ≠ st → ∀ m, s.latch other = some m → l.seq < m.seq

/-- A source or destination register of an instruction in RR holds it back in the in-order build (R101). -/
def State.Hazard (s : State) (l : Latch) : Prop :=
  (∃ r, (l.s1 = some r ∨ l.s2 = some r ∨ l.s3 = some r) ∧ s.lookup r = .busy) ∨
    ∃ d, l.dest = some d ∧ s.ready d = false

/-- One of the four reasons that hold an instruction back in RR in the out-of-order build (R131, R132, R135, R139). -/
def State.HeldBack (s : State) (l : Latch) : Prop :=
  (isBranch l.op = true ∧ ∃ r, l.s1 = some r ∧ s.tag r ≠ none) ∨
    (l.op = .ret ∧ s.drained = false) ∨
    (isBranch l.op = false ∧ l.op ≠ .ret ∧ l.dest ≠ none ∧ s.robFull = true) ∨
    (isRsForm l.op = true ∧ s.rsFull = true)

/-! ## Invariants -/

/-- Sizes and parameters as a run has them (R7, R22, R23). -/
structure State.Sized (s : State) : Prop where
  legal : s.params.Legal
  rob : s.rob.length = s.params.robCap
  rs : s.rs.length = s.params.rsCap
  robHead : s.robHead < s.params.robCap
  robTail : s.robTail < s.params.robCap
  rsHead : s.rsHead < s.params.rsCap
  rsTail : s.rsTail < s.params.rsCap

/-- Slot `k` lies between head and tail of a ring (R149). -/
def inRing (cap head tail k : Nat) : Prop :=
  (k + cap - head) % cap < ringCount cap head tail

/-- The occupied ROB slots are exactly head to tail - 1, each entry's `id` its own slot (R22, R149). -/
def State.RobRing (s : State) : Prop :=
  ∀ k, k < s.params.robCap →
    ((s.robEntry k).isSome = true ↔ inRing s.params.robCap s.robHead s.robTail k) ∧
      ∀ e, s.robEntry k = some e → e.id = k

/-- The occupied RS slots are exactly head to tail - 1 (R23, R149), and while the machine runs no instruction that has
already issued waits in RR for the RS (R143). -/
def State.RsRing (s : State) : Prop :=
  (∀ k, k < s.params.rsCap →
    ((s.rs.getD k none).isSome = true ↔ inRing s.params.rsCap s.rsHead s.rsTail k)) ∧
  (s.params.variant = .outOfOrder → s.status = .running →
    ∀ l, s.latch .rr = some l → isRsForm l.op = true → l.done = false)

/-- An unset BTB tag goes with the reset counter (R125). -/
def State.PredictorSound (s : State) : Prop :=
  ∀ i : Fin 16, s.btb[i].tag = none → s.pt[i] = 3

/-- A register is ready exactly when it has no producer tag (R12). -/
def State.ReadyUntagged (s : State) : Prop :=
  ∀ r : Reg, s.ready r = true ↔ s.tag r = none

/-- No register has a producer tag (R12, in-order build). -/
def State.Untagged (s : State) : Prop :=
  ∀ r : Reg, s.tag r = none

/-- The four channels are none (R148, out-of-order build). -/
def State.ChannelsEmpty (s : State) : Prop :=
  s.fwd = ⟨none, none, none, none⟩

/-- Every latch from Operand-Analyze to M2 and every RS entry holds an opcode of its unit's class (R155). -/
structure State.UnitClasses (s : State) : Prop where
  oa : ∀ l, s.latch .oa = some l → l.done = true → l.unit = some (unitOf l.op)
  rr : ∀ l, s.latch .rr = some l → l.unit = some (unitOf l.op)
  rs : ∀ l, some l ∈ s.rs → l.unit = some (unitOf l.op)
  units : ∀ u l, s.latch (unitStage u) = some l → unitOf l.op = u
  m2 : ∀ l, s.latch .m2 = some l → unitOf l.op = .m1

/-- `p` is no position of the table (R75). -/
def State.outside (s : State) (p : Int) : Prop :=
  p < 0 ∨ (s.it.length : Int) ≤ p

/-- Instruction `i` stands at `pc` before an empty pipeline with empty rings, and Fetch can read nothing behind it on either
side of a branch: the start of a pass alone. -/
structure State.Isolated (s : State) (i : Instr) : Prop where
  running : s.status = .running
  idle : s.idle = true
  next : s.nextInstr = some i
  sized : s.Sized
  robFree : ∀ e ∈ s.rob, e = none
  rsFree : ∀ e ∈ s.rs, e = none
  predictor : s.PredictorSound
  fallThrough : s.outside (s.pc + 1)
  target : isBranch i.opcode = true → s.outside (trunc4 (slots i).imm)

/-- Nothing is in flight and Fetch has nothing to read: the hang of R95. -/
structure State.Hung (s : State) : Prop where
  running : s.status = .running
  latches : s.latches = PerStage.const none
  rob : s.robHead = s.robTail
  rs : s.rsHead = s.rsTail
  fetch : s.fetchHalt = true ∨ s.outside s.pc

end Sys2Proof.Machine
end

