-- ==== Sys2Proof/Certificates/Slice0/Obligations.lean ====
section
/-! DEFINITION. The statements for the provers. -/

open Sys2Proof Sys2Proof.Machine

/-! ## Decoding and encoding (R55 to R63) -/

/-- The words of 95_test_vectors.md section 2.1 decode to the instructions that table gives them, and two of its malformed
words are refused by name. -/
def Obligations.SpecWordsDecode : Prop :=
  decode 0x0082000000000007 = .ok (.mul 2 1 7) ∧
  decode 0x08820000FFFFFFF9 = .ok (.add 2 1 (BitVec.ofInt 32 (-7))) ∧
  decode 0x38C2200000000000 = .ok (.divl 3 1 2) ∧
  decode 0x4082000000000008 = .ok (.ldI 2 1 8) ∧
  decode 0x58C2200000000000 = .ok (.stR 3 1 2) ∧
  decode 0x6040000000000005 = .ok (.set 1 5) ∧
  decode 0x88400000FFFFFFFC = .ok (.bltz 1 (BitVec.ofInt 32 (-4))) ∧
  decode 0x9000000000000000 = .ok .ret ∧
  decode 0x9800000000000000 = .error (.badOpcode 19) ∧
  decode 0x6040000100000005 = .error .reservedBits

/-- Decoding an encoded well-formed instruction gives it back, every operand at every value the encoding admits, on a
machine with any number of registers. -/
def Obligations.DecodeInvertsEncode : Prop :=
  ∀ (nreg : Nat) (i : Instr), i.wellFormed nreg = true → decodeFor nreg (encode i) = .ok i

/-- A packed word that decodes is the encoding of what it decodes to: no bit of a word is ignored. -/
def Obligations.EncodeInvertsDecode : Prop :=
  ∀ (w : Packed) (i : Instr), decode w = .ok i → encode i = w

/-- A word decodes on a machine with `nreg` registers exactly when its record is well formed: the opcode is one of 0 to 18,
every register field its format uses is below `nreg`, and the reserved bits and every unused field are 0. -/
def Obligations.DecoderAcceptsExactlyTheWellFormed : Prop :=
  ∀ (nreg : Nat) (w : Packed),
    (∃ i, decodeFor nreg w = .ok i) ↔
      (w.extractLsb' 59 5).toNat ≤ 18 ∧ w.extractLsb' 32 12 = 0 ∧
      ((w.extractLsb' 59 5).toNat ≤ 17 → (w.extractLsb' 54 5).toNat < nreg) ∧
      ((w.extractLsb' 59 5).toNat = 18 → w.extractLsb' 54 5 = 0 ∧ w.extractLsb' 0 32 = 0) ∧
      ((w.extractLsb' 59 5).toNat ≤ 11 → (w.extractLsb' 49 5).toNat < nreg) ∧
      (12 ≤ (w.extractLsb' 59 5).toNat → w.extractLsb' 49 5 = 0 ∧ w.extractLsb' 44 5 = 0) ∧
      ((w.extractLsb' 59 5).toNat ∈ [4, 5, 6, 7, 10, 11] →
        (w.extractLsb' 44 5).toNat < nreg ∧ w.extractLsb' 0 32 = 0) ∧
      ((w.extractLsb' 59 5).toNat ∈ [0, 1, 2, 3, 8, 9] → w.extractLsb' 44 5 = 0)

/-! ## One step -/

/-- A step runs the decoded instruction. At instruction grain, with the pipeline empty, Fetch not halted and the record at
`pc` decoding to `i`, one step is `exec i` and nothing around it. At clock grain one step is one cycle, and so it is at
either grain when there is no whole instruction to run: the pipeline is not empty, Fetch is halted, `pc` is no position of
the table, or the word there does not decode. The two grains are the model's choice: log entry 2. -/
def Obligations.StepRunsDecodedInstruction : Prop :=
  (∀ (s : State) (w : Packed) (i : Instr), s.status = .running → s.grain = .instruction → s.idle = true →
    s.fetchHalt = false → 0 ≤ s.pc → s.it[s.pc.toNat]? = some w → decode w = .ok i →
    step s = exec i s) ∧
  (∀ s : State, s.status = .running → s.grain = .clock → step s = .next (cycle s)) ∧
  (∀ s : State, s.status = .running → s.wholeInstr = none → step s = .next (cycle s)) ∧
  (∀ s : State,
    (s.idle = false ∨ s.fetchHalt = true ∨ s.outside s.pc ∨
      ∃ w e, s.it[s.pc.toNat]? = some w ∧ decode w = .error e) → s.wholeInstr = none)

/-- No cycle runs from a terminal status, and a step there stops by name (the naming is the model's choice: log entry 6). -/
def Obligations.TerminalStatusStepsNoMore : Prop :=
  (∀ (s : State) (n : Nat), s.status ≠ .running → cycles n s = s) ∧
  (∀ s : State, s.status = .halted → step s = .fault .halted) ∧
  (∀ (s : State) (r : AbortReason), s.status = .aborted r → step s = .fault (.aborted r))

/-- The word placed where the next step fetches is the instruction that step runs, from any state whatever. The placing is
the model's choice: log entry 4. -/
def Obligations.PlacedWordRunsNext : Prop :=
  ∀ (s : State) (w : Packed) (i : Instr), decode w = .ok i →
    step (s.withFetchWord 64 w.toNat) = exec i (s.withFetchWord 64 w.toNat)

/-! ## What each instruction does, taken alone (R157 to R165, R175 to R178, R183 to R188)

The operations of the arithmetic and memory instructions are marked `[from general knowledge, not in source]` by the spec
itself (44_fu_arith.md and 45_fu_memory.md, opening paragraphs; R182), so these statements are 'derived'. The bookkeeping
that `Passed` names (cycles, ring pointers, snapshot of a pass alone) is the model's reading of R98, R211 and R215: log
entry 2. -/

/-- ADD and ADDL complete, with the sum of their operands wrapped to 32 bits in the destination, and change nothing else. -/
def Obligations.AddFormsWriteWrappedSum : Prop :=
  (∀ (s : State) (a b : Reg) (imm : Word), (Instr.add a b imm).wellFormed s.params.nreg = true →
    WritesRegister (.add a b imm) s a ((s.x b).toInt + imm.toInt)) ∧
  (∀ (s : State) (a b c : Reg), (Instr.addl a b c).wellFormed s.params.nreg = true →
    WritesRegister (.addl a b c) s a ((s.x b).toInt + (s.x c).toInt))

/-- SUB and SUBL complete, with the first source minus the second operand, wrapped. -/
def Obligations.SubFormsWriteWrappedDifference : Prop :=
  (∀ (s : State) (a b : Reg) (imm : Word), (Instr.sub a b imm).wellFormed s.params.nreg = true →
    WritesRegister (.sub a b imm) s a ((s.x b).toInt - imm.toInt)) ∧
  (∀ (s : State) (a b c : Reg), (Instr.subl a b c).wellFormed s.params.nreg = true →
    WritesRegister (.subl a b c) s a ((s.x b).toInt - (s.x c).toInt))

/-- MUL and MULL complete, with the low word of the product. -/
def Obligations.MulFormsWriteWrappedProduct : Prop :=
  (∀ (s : State) (a b : Reg) (imm : Word), (Instr.mul a b imm).wellFormed s.params.nreg = true →
    WritesRegister (.mul a b imm) s a ((s.x b).toInt * imm.toInt)) ∧
  (∀ (s : State) (a b c : Reg), (Instr.mull a b c).wellFormed s.params.nreg = true →
    WritesRegister (.mull a b c) s a ((s.x b).toInt * (s.x c).toInt))

/-- DIV and DIVL with a divisor other than 0 complete, with the quotient rounded toward zero, wrapped. -/
def Obligations.DivFormsWriteTruncatedQuotient : Prop :=
  (∀ (s : State) (a b : Reg) (imm : Word), (Instr.div a b imm).wellFormed s.params.nreg = true → imm ≠ 0 →
    WritesRegister (.div a b imm) s a ((s.x b).toInt.tdiv imm.toInt)) ∧
  (∀ (s : State) (a b c : Reg), (Instr.divl a b c).wellFormed s.params.nreg = true → s.x c ≠ 0 →
    WritesRegister (.divl a b c) s a ((s.x b).toInt.tdiv (s.x c).toInt))

/-- DIV and DIVL with divisor 0 abort the run in EXD, whatever the dividend: after four completed cycles in the in-order
build, five in the out-of-order build. -/
def Obligations.DivFormsAbortOnZeroDivisor : Prop :=
  (∀ (s : State) (a b : Reg), (Instr.div a b 0).wellFormed s.params.nreg = true →
    AbortsRun (.div a b 0) s .divideByZero .exd (if s.params.variant = .outOfOrder then 5 else 4) (s.pc + 1)) ∧
  (∀ (s : State) (a b c : Reg), (Instr.divl a b c).wellFormed s.params.nreg = true → s.x c = 0 →
    AbortsRun (.divl a b c) s .divideByZero .exd (if s.params.variant = .outOfOrder then 5 else 4) (s.pc + 1))

/-- SET completes with its immediate in the destination. -/
def Obligations.SetWritesImmediate : Prop :=
  ∀ (s : State) (a : Reg) (imm : Word), (Instr.set a imm).wellFormed s.params.nreg = true →
    WritesRegister (.set a imm) s a imm.toInt

/-- LD_I and LD_R complete on an address in range, with the word of memory it selects in the destination. -/
def Obligations.LoadFormsReadSelectedWord : Prop :=
  (∀ (s : State) (a b : Reg) (imm : Word), (Instr.ldI a b imm).wellFormed s.params.nreg = true →
    s.inRange (effectiveAddr (s.x b) imm) = true →
    WritesRegister (.ldI a b imm) s a (s.mem.readWord (widx (effectiveAddr (s.x b) imm))).toInt) ∧
  (∀ (s : State) (a b c : Reg), (Instr.ldR a b c).wellFormed s.params.nreg = true →
    s.inRange (effectiveAddr (s.x b) (s.x c)) = true →
    WritesRegister (.ldR a b c) s a (s.mem.readWord (widx (effectiveAddr (s.x b) (s.x c)))).toInt)

/-- ST_I and ST_R complete on an address in range: the selected word reads as the stored register, every byte outside that
word reads as before, no register changes. -/
def Obligations.StoreFormsWriteSelectedWord : Prop :=
  (∀ (s : State) (a b : Reg) (imm : Word), s.mem.wf = true → (Instr.stI a b imm).wellFormed s.params.nreg = true →
    s.inRange (effectiveAddr (s.x b) imm) = true →
    WritesMemory (.stI a b imm) s (widx (effectiveAddr (s.x b) imm)) (s.x a)) ∧
  (∀ (s : State) (a b c : Reg), s.mem.wf = true → (Instr.stR a b c).wellFormed s.params.nreg = true →
    s.inRange (effectiveAddr (s.x b) (s.x c)) = true →
    WritesMemory (.stR a b c) s (widx (effectiveAddr (s.x b) (s.x c))) (s.x a))

/-- The four memory instructions abort the run in M2 on an address out of range: nothing is read or written. -/
def Obligations.MemoryFormsAbortOutOfRange : Prop :=
  (∀ (s : State) (a b : Reg) (imm : Word), (Instr.ldI a b imm).wellFormed s.params.nreg = true →
    s.inRange (effectiveAddr (s.x b) imm) = false →
    AbortsRun (.ldI a b imm) s .memoryOutOfRange .m2 (if s.params.variant = .outOfOrder then 6 else 5) (s.pc + 1) ∧
    AbortsRun (.stI a b imm) s .memoryOutOfRange .m2 (if s.params.variant = .outOfOrder then 6 else 5) (s.pc + 1)) ∧
  (∀ (s : State) (a b c : Reg), (Instr.ldR a b c).wellFormed s.params.nreg = true →
    s.inRange (effectiveAddr (s.x b) (s.x c)) = false →
    AbortsRun (.ldR a b c) s .memoryOutOfRange .m2 (if s.params.variant = .outOfOrder then 6 else 5) (s.pc + 1) ∧
    AbortsRun (.stR a b c) s .memoryOutOfRange .m2 (if s.params.variant = .outOfOrder then 6 else 5) (s.pc + 1))

/-- The five conditional branches complete: each is taken exactly on its condition of the signed register value, goes on at
the immediate over 4 toward zero or behind itself, overwrites its BTB entry and moves its counter by one within 0 to 7. That
the stored tag, the branch's byte address, is wrapped to a word is DEDUCED: log entry 10. -/
def Obligations.BranchFormsResolveOnSignedRegister : Prop :=
  ∀ (s : State) (a : Reg) (imm : Word), a.val < s.params.nreg →
    Resolves (.bez a imm) s imm ((s.x a).toInt = 0) ∧
    Resolves (.bgez a imm) s imm (0 ≤ (s.x a).toInt) ∧
    Resolves (.blez a imm) s imm ((s.x a).toInt ≤ 0) ∧
    Resolves (.bgtz a imm) s imm (0 < (s.x a).toInt) ∧
    Resolves (.bltz a imm) s imm ((s.x a).toInt < 0)

/-- RET completes: it is counted as retired, Fetch is stopped, the run is halted, and nothing else changes. -/
def Obligations.RetHaltsTheRun : Prop :=
  ∀ s : State, ∃ t, exec .ret s = .next t ∧
    t.status = .halted ∧ t.fetchHalt = true ∧ KeepsRegs s t ∧ KeepsBytes s t ∧ KeepsPredictor s t ∧
    KeepsInFlight s t ∧ KeepsArguments s t ∧ Passed s t .ret (s.pc + 1)

/-- An instruction that names a register the machine does not have aborts the run in Decode, one completed cycle after its
fetch began; no register entry changes. -/
def Obligations.IllFormedInstructionAbortsInDecode : Prop :=
  ∀ (s : State) (i : Instr), i.wellFormed s.params.nreg = false →
    ∃ next, AbortsRun i s .malformedInstruction .d 1 next ∧ ∀ t, exec i s = .next t → KeepsRegs s t

/-! ## Memory, addresses, loading -/

/-- An effective address wraps to a signed word; it is in range exactly when it is not negative and its quotient by 4 is
below the capacity; an address in range selects the floor of its quotient by 4, so the low two bits do not matter. -/
def Obligations.AddressSelectsItsWord : Prop :=
  (∀ b o : Word, (effectiveAddr b o).toInt = (b.toInt + o.toInt).bmod (2 ^ 32)) ∧
  (∀ (s : State) (a : Word), s.inRange a = true ↔ 0 ≤ a.toInt ∧ a.toInt / 4 < s.params.memWords) ∧
  (∀ (s : State) (a : Word), s.inRange a = true → (widx a : Int) = a.toInt / 4)

/-- In a memory of canonical form a word reads as it was last written, and every other word as before. -/
def Obligations.WordReadsAsLastWritten : Prop :=
  ∀ (m : Memory) (w u : Nat) (v : Word), m.wf = true →
    (m.writeWord w v).readWord u = if u = w then v else m.readWord u

/-- A run starts with image word `i` in `mem[i]`, 0 in every word beyond the image, the table as handed in, and a memory
of canonical form. -/
def Obligations.RunStartsWithItsImage : Prop :=
  ∀ (p : Params) (it : List Packed) (image : List Word) (w : Nat),
    (State.start p it image).mem.readWord w = image.getD w 0 ∧
    (State.start p it image).mem.wf = true ∧ (State.start p it image).it = it

/-! ## Predictor and operand lookup -/

/-- The pattern counter, 0 to 7: it predicts taken exactly from 4 on, it is 3 after reset, a taken outcome moves it one up to
7 at most and a not-taken one down to 0 at least, and so many equal outcomes drive it to its end and never beyond. -/
def Obligations.PatternCounterPredictsAndSaturates : Prop :=
  (∀ c : Fin 8, predictsTaken c = true ↔ 4 ≤ c.val) ∧
  (∀ (p : Params) (i : Fin 16), (State.resetWith p).pt[i] = 3) ∧
  (∀ c : Fin 8, (bump true c).val = min 7 (c.val + 1) ∧ (bump false c).val = c.val - 1) ∧
  (∀ (n : Nat) (c : Fin 8), ((bump true)^[n] c).val = min 7 (c.val + n) ∧ ((bump false)^[n] c).val = c.val - n)

/-- With an unset tag only beside the reset counter, the flush test holds exactly when the outcome differs from what the
counter predicts. -/
def Obligations.FlushExactlyOnMisprediction : Prop :=
  ∀ (s : State) (i : Fin 16) (taken : Bool), s.PredictorSound →
    (flushTest taken s.btb[i].tag s.pt[i] = true ↔ taken ≠ predictsTaken s.pt[i])

/-- Lookup takes the add channel, then multiply, then divide, then memory, then a ready register's value; a busy register
that no channel holds is busy. -/
def Obligations.LookupFollowsItsPrecedence : Prop :=
  ∀ (s : State) (r : Reg) (v : Word),
    (s.fwd.add = some (r, v) → s.lookup r = .forwarded v) ∧
    ((∀ u, s.fwd.add ≠ some (r, u)) → s.fwd.mul = some (r, v) → s.lookup r = .forwarded v) ∧
    ((∀ u, s.fwd.add ≠ some (r, u)) → (∀ u, s.fwd.mul ≠ some (r, u)) → s.fwd.div = some (r, v) →
      s.lookup r = .forwarded v) ∧
    ((∀ u, s.fwd.add ≠ some (r, u)) → (∀ u, s.fwd.mul ≠ some (r, u)) → (∀ u, s.fwd.div ≠ some (r, u)) →
      s.fwd.mem = some (r, v) → s.lookup r = .forwarded v) ∧
    ((∀ u, s.fwd.add ≠ some (r, u)) → (∀ u, s.fwd.mul ≠ some (r, u)) → (∀ u, s.fwd.div ≠ some (r, u)) →
      (∀ u, s.fwd.mem ≠ some (r, u)) →
      s.lookup r = if s.ready r = true then .regfile (s.x r) else .busy)

/-! ## What a cycle does -/

/-- Fetch: with its latch free and a record to read, a cycle without flush or abort fetches it, counts it, goes on at the
target of a conditional branch whose counter is 4 or more and at the next position otherwise, and stops behind a `ret`; the
record is then in F or already in D. -/
def Obligations.FetchFollowsThePrediction : Prop :=
  ∀ (s : State) (r : Record), s.CycleCompletes → ¬ s.Flushes → s.latch .f = none → s.fetchHalt = false → 0 ≤ s.pc →
    s.it[s.pc.toNat]?.map Record.ofWord = some r →
    (cycle s).pc =
      (if 13 ≤ r.opcode.toNat ∧ r.opcode.toNat ≤ 17 ∧ 4 ≤ (s.pt[predictorIndex s.pc]).val then r.imm.toInt.tdiv 4
        else s.pc + 1) ∧
    (cycle s).fetchSeq = s.fetchSeq + 1 ∧
    (cycle s).fetchHalt = decide (r.opcode.toNat = 18) ∧
    ∃ l, ((cycle s).latch .f = some l ∨ (cycle s).latch .d = some l) ∧
      l.idx = s.pc.toNat ∧ l.pc = s.pc ∧ l.seq = s.fetchSeq

/-- In-order issue: an instruction in RR with a busy source that no channel holds, or with a busy destination, stays there
unchanged and counts one stall. -/
def Obligations.InOrderHazardStalls : Prop :=
  ∀ (s : State) (l : Latch), s.params.variant = .inOrder → s.WorksOn .rr l → s.CycleCompletes → ¬ s.Flushes →
    s.Hazard l → (cycle s).stalls = s.stalls + 1 ∧ (cycle s).latch .rr = some l

/-- In-order issue without a hazard: no stall is counted, the destination is marked busy, and the instruction, its present
sources captured, has left for its unit or waits in RR done. -/
def Obligations.InOrderIssueCapturesAndMarksBusy : Prop :=
  ∀ (s : State) (l : Latch), s.params.variant = .inOrder → s.WorksOn .rr l → s.CycleCompletes → ¬ s.Flushes →
    ¬ s.Hazard l →
    (cycle s).stalls = s.stalls ∧
    (∀ d, l.dest = some d → (cycle s).ready d = false) ∧
    ∃ k : Latch, ((cycle s).latch .rr = some { k with done := true } ∨
        ∃ u, l.unit = some u ∧ (cycle s).latch (unitStage u) = some { k with done := false }) ∧
      k.idx = l.idx ∧ k.seq = l.seq ∧ k.op = l.op ∧ k.dest = l.dest ∧
      (∀ r, l.s1 = some r → s.lookup r = .forwarded k.v1 ∨ s.lookup r = .regfile k.v1) ∧
      (∀ r, l.s2 = some r → s.lookup r = .forwarded k.v2 ∨ s.lookup r = .regfile k.v2) ∧
      (∀ r, l.s3 = some r → s.lookup r = .forwarded k.v3 ∨ s.lookup r = .regfile k.v3)

/-- Out-of-order issue: a full ROB, a full RS, a branch on an uncommitted register or an undrained `ret` holds the
instruction in RR unchanged, counts one stall and allocates nothing. -/
def Obligations.OutOfOrderStallAllocatesNothing : Prop :=
  ∀ (s : State) (l : Latch), s.params.variant = .outOfOrder → s.WorksOn .rr l → s.CycleCompletes → ¬ s.Flushes →
    s.HeldBack l →
    (cycle s).stalls = s.stalls + 1 ∧ (cycle s).latch .rr = some l ∧
    (cycle s).robTail = s.robTail ∧ (cycle s).rsTail = s.rsTail

/-- Out-of-order issue of an instruction with a destination: it takes the ROB slot at the tail and the register is renamed
to that slot and not ready, even when an older producer commits in the same cycle. -/
def Obligations.OutOfOrderIssueRenames : Prop :=
  ∀ (s : State) (l : Latch) (d : Reg), s.params.variant = .outOfOrder → s.WorksOn .rr l → s.CycleCompletes →
    ¬ s.Flushes → ¬ s.HeldBack l → isBranch l.op = false → l.op ≠ .ret → l.dest = some d →
    s.robTail < s.rob.length →
    (cycle s).tag d = some s.robTail ∧ (cycle s).ready d = false ∧ (cycle s).stalls = s.stalls ∧
    (cycle s).robTail = ringNext s.params.robCap s.robTail ∧
    (cycle s).robEntry s.robTail = some ⟨s.robTail, d, 0, false, false⟩

/-- The arithmetic units: in a cycle without abort an occupant's result is the wrapped sum, difference, product, quotient
or immediate of its captured operands, and it is then in its unit or in Writeback. -/
def Obligations.UnitsComputeResults : Prop :=
  ∀ (s : State) (st : Stage) (l : Latch), st ∈ [Stage.exa, Stage.exm, Stage.exd] → s.WorksOn st l → s.CycleCompletes →
    unitOf l.op ∈ [FuncUnit.exa, FuncUnit.exm, FuncUnit.exd] →
    ∃ k, ((cycle s).latch st = some k ∨ (cycle s).latch .wb = some k) ∧ k.idx = l.idx ∧ k.seq = l.seq ∧
      k.dest = l.dest ∧
      (l.op = .add → k.result.toInt = (l.v1.toInt + l.imm.toInt).bmod (2 ^ 32)) ∧
      (l.op = .addl → k.result.toInt = (l.v1.toInt + l.v2.toInt).bmod (2 ^ 32)) ∧
      (l.op = .sub → k.result.toInt = (l.v1.toInt - l.imm.toInt).bmod (2 ^ 32)) ∧
      (l.op = .subl → k.result.toInt = (l.v1.toInt - l.v2.toInt).bmod (2 ^ 32)) ∧
      (l.op = .mul → k.result.toInt = (l.v1.toInt * l.imm.toInt).bmod (2 ^ 32)) ∧
      (l.op = .mull → k.result.toInt = (l.v1.toInt * l.v2.toInt).bmod (2 ^ 32)) ∧
      (l.op = .div → l.imm ≠ 0 ∧ k.result.toInt = (l.v1.toInt.tdiv l.imm.toInt).bmod (2 ^ 32)) ∧
      (l.op = .divl → l.v2 ≠ 0 ∧ k.result.toInt = (l.v1.toInt.tdiv l.v2.toInt).bmod (2 ^ 32)) ∧
      (l.op = .set → k.result = l.imm)

/-- A flush: in a cycle without abort the four front latches are cleared, `pc` is redirected to the branch's target or to
the position behind it, `fetch_halt` is cleared, and the branch's predictor entry is updated. The discarded handlers leave
nothing: no fetch and no stall is counted, nothing is allocated in the ROB or the RS, no register is marked busy and none is
renamed. That the stored tag is wrapped to a word is DEDUCED: log entry 10. -/
def Obligations.FlushSquashesTheFrontAndRedirects : Prop :=
  ∀ (s : State) (l : Latch), s.CycleCompletes → s.WorksOn .exb l → isBranch l.op = true → s.Flushes →
    (cycle s).latch .f = none ∧ (cycle s).latch .d = none ∧ (cycle s).latch .oa = none ∧ (cycle s).latch .rr = none ∧
    (cycle s).pc = (if cond l.op l.v1 = true then l.imm.toInt.tdiv 4 else l.idx + 1) ∧
    (cycle s).fetchHalt = false ∧ (cycle s).fetchSeq = s.fetchSeq ∧ (cycle s).stalls = s.stalls ∧
    (cycle s).robTail = s.robTail ∧ (∀ k, s.robEntry k = none → (cycle s).robEntry k = none) ∧
    (cycle s).rsTail = s.rsTail ∧ (∀ k, s.rs.getD k none = none → (cycle s).rs.getD k none = none) ∧
    (∀ d, s.ready d = true → (cycle s).ready d = true) ∧
    (∀ d id, (cycle s).tag d = some id → s.tag d = some id) ∧
    (cycle s).btb[predictorIndex l.pc] = ⟨some (BitVec.ofInt 32 (4 * l.pc)), l.imm⟩ ∧
    (cycle s).pt[predictorIndex l.pc] = bump (cond l.op l.v1) s.pt[predictorIndex l.pc] ∧
    KeepsPredictorBut s (cycle s) (predictorIndex l.pc)

/-- The predictor tables. A branch that resolves in EXB overwrites its BTB entry with its own tag and immediate and moves
its counter, taken or not, flushed or not, unless a zero divisor ends the cycle before it; nothing else changes an entry;
a tag once set stays set in every step. That the stored tag is wrapped to a word is DEDUCED: log entry 10. -/
def Obligations.BranchResolveWritesThePredictor : Prop :=
  (∀ (s : State) (l : Latch), s.WorksOn .exb l → isBranch l.op = true → (cycle s).status ≠ .aborted .divideByZero →
    (cycle s).btb[predictorIndex l.pc] = ⟨some (BitVec.ofInt 32 (4 * l.pc)), l.imm⟩ ∧
    (cycle s).pt[predictorIndex l.pc] = bump (cond l.op l.v1) s.pt[predictorIndex l.pc]) ∧
  (∀ (s : State) (i : Fin 16), ((cycle s).btb[i] ≠ s.btb[i] ∨ (cycle s).pt[i] ≠ s.pt[i]) →
    ∃ l, s.WorksOn .exb l ∧ isBranch l.op = true ∧ predictorIndex l.pc = i) ∧
  (∀ (s t : State) (i : Fin 16), step s = .next t → s.btb[i].tag ≠ none → t.btb[i].tag ≠ none)

/-- Registers change value in a cycle only by the retiring latch (in-order build) or by the commit of the ROB head
(out-of-order build). -/
def Obligations.RegistersWrittenOnlyByRetire : Prop :=
  ∀ (s : State) (r : Reg), (cycle s).x r ≠ s.x r →
    (s.params.variant = .inOrder → ∃ l, s.WorksOn .rt l ∧ l.dest = some r ∧ (cycle s).x r = l.result) ∧
    (s.params.variant = .outOfOrder → ∃ e, s.robHead ≠ s.robTail ∧ s.robEntry s.robHead = some e ∧
      e.completed = true ∧ e.exception = false ∧ e.destinationRegister = r ∧ (cycle s).x r = e.result)

/-- Memory bytes change in a cycle only within the word that a store in M2 selects. -/
def Obligations.MemoryWrittenOnlyByStoreInM2 : Prop :=
  ∀ (s : State) (a : Nat), s.mem.wf = true → (cycle s).mem.readByte a ≠ s.mem.readByte a →
    ∃ l, s.WorksOn .m2 l ∧ isStore l.op = true ∧ s.inRange l.addr = true ∧ 4 * widx l.addr ≤ a ∧ a < 4 * widx l.addr + 4

/-- A store in M2 writes its word in the cycle it works there, and a load's result is the word as the start of the cycle
has it; the load is then in M2 or in Writeback. -/
def Obligations.M2AccessesItsWord : Prop :=
  (∀ (s : State) (l : Latch), s.mem.wf = true → s.WorksOn .m2 l → isStore l.op = true → s.CycleCompletes →
    s.inRange l.addr = true ∧ (cycle s).mem.readWord (widx l.addr) = l.v3) ∧
  (∀ (s : State) (l : Latch), s.WorksOn .m2 l → isLoad l.op = true → s.CycleCompletes →
    s.inRange l.addr = true ∧
    ∃ k, ((cycle s).latch .m2 = some k ∨ (cycle s).latch .wb = some k) ∧ k.idx = l.idx ∧
      k.result = s.mem.readWord (widx l.addr))

/-- In-order write-back: the latch working in RT leaves its result in its destination, and a destination that was busy is
ready after the cycle. -/
def Obligations.InOrderRetireWritesBack : Prop :=
  ∀ (s : State) (l : Latch) (d : Reg), s.params.variant = .inOrder → s.WorksOn .rt l → l.dest = some d →
    (cycle s).x d = l.result ∧ (s.ready d = false → (cycle s).ready d = true)

/-- Out-of-order commit: a completed head entry writes its register and frees its slot; the tag is cleared exactly when it
names the committing slot, unless the instruction in RR has that destination and may rename it again. -/
def Obligations.RobHeadCommitsInOrder : Prop :=
  ∀ (s : State) (e : RobEntry), s.params.variant = .outOfOrder → s.robHead ≠ s.robTail →
    s.robEntry s.robHead = some e → e.completed = true → e.exception = false →
    (cycle s).x e.destinationRegister = e.result ∧ (cycle s).robEntry s.robHead = none ∧
    (cycle s).robHead = ringNext s.params.robCap s.robHead ∧
    ((∀ l, s.latch .rr = some l → l.dest ≠ some e.destinationRegister) →
      (s.tag e.destinationRegister = some e.id →
        (cycle s).tag e.destinationRegister = none ∧ (cycle s).ready e.destinationRegister = true) ∧
      (s.tag e.destinationRegister ≠ some e.id →
        (cycle s).tag e.destinationRegister = s.tag e.destinationRegister))

/-- Wake-up. When the ROB head commits, every RS entry takes the result in each source slot that awaits the committing slot
and keeps its other slots; it is then in its RS slot, or, if it is the RS head, in its unit. (The slot at the RS tail is
left out: in a ring it is free.) So does an instruction in RR that has issued; it is then in RR, in its unit, or at the RS
tail. So does one that issues in this very cycle and captures the committing slot's tag; it is then at the RS tail. -/
def Obligations.CommitWakesWaitingEntry : Prop :=
  (∀ (s : State) (e : RobEntry) (k : Nat) (l : Latch), s.Commits e → s.CycleCompletes →
    s.rs.getD k none = some l → k ≠ s.rsTail →
    ∃ m : Latch, l.Woken m e.id e.result ∧
      ((cycle s).rs.getD k none = some m ∨
        k = s.rsHead ∧ ∃ u, l.unit = some u ∧ (cycle s).latch (unitStage u) = some m)) ∧
  (∀ (s : State) (e : RobEntry) (l : Latch), s.Commits e → s.CycleCompletes → ¬ s.Flushes → s.latch .rr = some l →
    l.done = true → s.rsTail < s.rs.length →
    ∃ m : Latch, l.Woken m e.id e.result ∧
      ((cycle s).latch .rr = some m ∨ (∃ u, l.unit = some u ∧ (cycle s).latch (unitStage u) = some m) ∨
        (cycle s).rs.getD s.rsTail none = some m)) ∧
  (∀ (s : State) (e : RobEntry) (l : Latch), s.Commits e → s.CycleCompletes → ¬ s.Flushes → s.WorksOn .rr l →
    ¬ s.HeldBack l → isRsForm l.op = true → s.rsTail < s.rs.length →
    ∃ m : Latch, (cycle s).rs.getD s.rsTail none = some m ∧ m.idx = l.idx ∧ m.seq = l.seq ∧
      (∀ r, l.s1 = some r → s.tag r = some e.id → m.v1 = e.result ∧ m.r1 = true ∧ m.t1 = none) ∧
      (∀ r, l.s2 = some r → s.tag r = some e.id → m.v2 = e.result ∧ m.r2 = true ∧ m.t2 = none) ∧
      (∀ r, l.s3 = some r → s.tag r = some e.id → m.v3 = e.result ∧ m.r3 = true ∧ m.t3 = none))

/-- The channels live one cycle. After a cycle without abort in which no arithmetic unit and not M2 works on an occupant,
all four are none; and with every unit holding its own class, each channel is none when its own unit works on nothing (the
memory channel also when M2 works on a store). In the in-order build a result that EXA, EXM, EXD or a load in M2 completes
is in the add, multiply, divide or memory channel, with its destination. -/
def Obligations.ChannelsLiveOneCycle : Prop :=
  (∀ s : State, s.CycleCompletes →
    (∀ st ∈ [Stage.exa, Stage.exm, Stage.exd, Stage.m2], ∀ l, ¬ s.WorksOn st l) →
    (cycle s).fwd = ⟨none, none, none, none⟩) ∧
  (∀ s : State, s.CycleCompletes → s.UnitClasses →
    ((∀ l, ¬ s.WorksOn .exa l) → (cycle s).fwd.add = none) ∧
    ((∀ l, ¬ s.WorksOn .exm l) → (cycle s).fwd.mul = none) ∧
    ((∀ l, ¬ s.WorksOn .exd l) → (cycle s).fwd.div = none) ∧
    ((∀ l, s.WorksOn .m2 l → isLoad l.op = false) → (cycle s).fwd.mem = none)) ∧
  (∀ (s : State) (l : Latch) (d : Reg), s.params.variant = .inOrder → s.CycleCompletes → s.UnitClasses →
    l.dest = some d →
    (s.WorksOn .exa l →
      ∃ v, (cycle s).fwd.add = some (d, v) ∧ aluResult l.op l.v1 l.secondOperand = some (.ok v)) ∧
    (s.WorksOn .exm l →
      ∃ v, (cycle s).fwd.mul = some (d, v) ∧ aluResult l.op l.v1 l.secondOperand = some (.ok v)) ∧
    (s.WorksOn .exd l →
      ∃ v, (cycle s).fwd.div = some (d, v) ∧ aluResult l.op l.v1 l.secondOperand = some (.ok v)) ∧
    (s.WorksOn .m2 l → isLoad l.op = true →
      (cycle s).fwd.mem = some (d, s.mem.readWord (widx l.addr))))

/-- Writeback arbitration. The chosen feeder is a candidate and no candidate is older; the arbitration step moves exactly
its occupant into a free Writeback, and nothing into an occupied one. In a cycle without abort, with every unit holding its
own class, the oldest occupant of the feeders stands in Writeback afterwards, every other feeder's occupant waits in its
place, done, and Writeback is free when no feeder is occupied. -/
def Obligations.OldestCandidateEntersWriteback : Prop :=
  (∀ s : State,
    (∀ st, s.oldestFeeder = some st → st ∈ wbFeeders ∧ ∃ n, s.candidateSeq st = some n ∧
      ∀ other ∈ wbFeeders, ∀ m, s.candidateSeq other = some m → n ≤ m) ∧
    (s.oldestFeeder = none → ∀ st ∈ wbFeeders, s.candidateSeq st = none)) ∧
  (∀ (s : State) (st : Stage) (l : Latch), s.latch .wb = none → s.oldestFeeder = some st → s.latch st = some l →
    s.arbitrate.latch .wb = some { l with done := false } ∧ s.arbitrate.latch st = none ∧
    ∀ other, other ≠ .wb → other ≠ st → s.arbitrate.latch other = s.latch other) ∧
  (∀ s : State, s.latch .wb ≠ none → s.arbitrate = s) ∧
  (∀ (s : State) (st : Stage) (l : Latch), s.CycleCompletes → s.UnitClasses → s.OldestInFeeders st l →
    (∃ k, (cycle s).latch .wb = some k ∧ k.idx = l.idx ∧ k.seq = l.seq ∧ k.op = l.op ∧ k.dest = l.dest ∧
      k.done = false) ∧
    ∀ other ∈ wbFeeders, other ≠ st → ∀ m, s.latch other = some m →
      ∃ k, (cycle s).latch other = some k ∧ k.idx = m.idx ∧ k.seq = m.seq ∧ k.op = m.op ∧ k.dest = m.dest ∧
        k.done = true) ∧
  (∀ s : State, s.CycleCompletes → (∀ st ∈ wbFeeders, s.latch st = none) → (cycle s).latch .wb = none)

/-- The counters: a cycle adds one to `retired` exactly when RT works on an occupant, and one to `cycles` exactly when no
abort cuts it short; an abort leaves the channels and the snapshot as they were (the channels' part is DEDUCED: log
entry 8). -/
def Obligations.CycleMovesItsCounters : Prop :=
  ∀ s : State, s.status = .running →
    ((∃ l, s.WorksOn .rt l) → (cycle s).retired = s.retired + 1) ∧
    ((¬ ∃ l, s.WorksOn .rt l) → (cycle s).retired = s.retired) ∧
    (s.CycleCompletes → (cycle s).cycles = s.cycles + 1) ∧
    (¬ s.CycleCompletes → (cycle s).cycles = s.cycles ∧ (cycle s).fwd = s.fwd ∧ (cycle s).snapshot = s.snapshot)

/-- A zero divisor in EXD aborts the run whatever M2 or Decode meet in the same cycle: no store of that cycle is performed,
no fetch, stall, branch resolution or advance takes place, and the cycle is not counted. What it says of `pc` is DEDUCED:
log entry 8. -/
def Obligations.DivideAbortComesFirst : Prop :=
  ∀ (s : State) (l : Latch), s.UnitClasses → s.WorksOn .exd l → l.secondOperand = 0 →
    (cycle s).status = .aborted .divideByZero ∧ (cycle s).mem = s.mem ∧ (cycle s).pc = s.pc ∧
    (cycle s).fetchSeq = s.fetchSeq ∧ (cycle s).stalls = s.stalls ∧ (cycle s).cycles = s.cycles ∧
    KeepsPredictor s (cycle s) ∧ (cycle s).rs = s.rs ∧
    ∀ st, st ∉ [Stage.rt, Stage.wb, Stage.exa, Stage.exm] → (cycle s).latch st = s.latch st

/-- A step reaches `halted` only by a `ret`: one that retires in this cycle, or one run whole. -/
def Obligations.OnlyRetHalts : Prop :=
  ∀ s t : State, step s = .next t → t.status = .halted →
    (∃ l, s.WorksOn .rt l ∧ l.op = .ret) ∨ (s.grain = .instruction ∧ s.wholeInstr = some .ret)

/-- A step aborts the run only for one of the three causes, in a stage of this cycle or in one instruction run whole: a zero
divisor of a divide, in EXD when every unit holds its own class, as in every run, and in no case outside EXA, EXM and EXD; an
address out of range of a memory instruction in M2; a malformed record in Decode. -/
def Obligations.AbortsOnlyForTheirCauses : Prop :=
  ∀ (s t : State) (r : AbortReason), step s = .next t → t.status = .aborted r →
    (r = .divideByZero ∧
      ((∃ st l, st ∈ [Stage.exa, Stage.exm, Stage.exd] ∧ (s.UnitClasses → st = .exd) ∧ s.WorksOn st l ∧
          (l.op = .div ∨ l.op = .divl) ∧ l.secondOperand = 0) ∨
        (∃ a b, s.wholeInstr = some (.div a b 0)) ∨ ∃ a b c, s.wholeInstr = some (.divl a b c) ∧ s.x c = 0)) ∨
    (r = .memoryOutOfRange ∧
      ((∃ l, s.WorksOn .m2 l ∧ isMemory l.op = true ∧ s.inRange l.addr = false) ∨
        ∃ i a, s.wholeInstr = some i ∧ s.accessAddr i = some a ∧ s.inRange a = false)) ∨
    (r = .malformedInstruction ∧
      ((∃ l e, s.WorksOn .d l ∧ s.decodeAt l.idx = .error e) ∨
        ∃ i, s.wholeInstr = some i ∧ i.wellFormed s.params.nreg = false))

/-- A run with nothing in flight and nothing to fetch never ends: every number of cycles leaves it running, with registers,
memory, `pc` and the retirement count as they were. -/
def Obligations.HungRunNeverEnds : Prop :=
  ∀ (s : State) (n : Nat), s.Hung →
    (cycles n s).status = .running ∧ (cycles n s).cycles = s.cycles + n ∧ (cycles n s).regs = s.regs ∧
    (cycles n s).mem = s.mem ∧ (cycles n s).pc = s.pc ∧ (cycles n s).retired = s.retired

/-! ## Reset -/

/-- The values of reset, for any parameters: registers 0, ready and untagged; `pc`, counters and ring pointers 0; latches,
channels and ring slots free; BTB tags unset, counters 3; every memory word 0; the run running. The parameters that
`State.reset` itself has are the model's choice: log entry 1. -/
def Obligations.ResetValues : Prop :=
  ∀ p : Params,
    (∀ r : Reg, (State.resetWith p).regs[r] = ⟨0, true, none⟩) ∧
    (State.resetWith p).pc = 0 ∧ (State.resetWith p).fetchHalt = false ∧ (State.resetWith p).fetchSeq = 0 ∧
    (∀ st, (State.resetWith p).latch st = none) ∧ (State.resetWith p).ChannelsEmpty ∧
    (∀ i : Fin 16, (State.resetWith p).btb[i] = ⟨none, 0⟩ ∧ (State.resetWith p).pt[i] = 3) ∧
    (∀ k, (State.resetWith p).robEntry k = none ∧ (State.resetWith p).rs.getD k none = none) ∧
    (State.resetWith p).robHead = 0 ∧ (State.resetWith p).robTail = 0 ∧
    (State.resetWith p).rsHead = 0 ∧ (State.resetWith p).rsTail = 0 ∧
    (State.resetWith p).stalls = 0 ∧ (State.resetWith p).cycles = 0 ∧ (State.resetWith p).retired = 0 ∧
    (State.resetWith p).status = .running ∧ (∀ w, (State.resetWith p).mem.readWord w = 0)

/-- Reset with legal parameters meets every invariant stated below. -/
def Obligations.ResetMeetsTheInvariants : Prop :=
  ∀ p : Params, p.Legal →
    (State.resetWith p).Sized ∧ (State.resetWith p).RobRing ∧ (State.resetWith p).RsRing ∧
    (State.resetWith p).PredictorSound ∧ (State.resetWith p).ReadyUntagged ∧ (State.resetWith p).Untagged ∧
    (State.resetWith p).ChannelsEmpty ∧ (State.resetWith p).UnitClasses ∧ (State.resetWith p).mem.wf = true

/-! ## Invariants that every step keeps -/

/-- Every step keeps the canonical form of the memory. -/
def Obligations.StepKeepsMemoryCanonical : Prop :=
  ∀ s t : State, s.mem.wf = true → step s = .next t → t.mem.wf = true

/-- No step changes the parameters, the Instruction Table or the grain. -/
def Obligations.StepKeepsItsArguments : Prop :=
  ∀ s t : State, step s = .next t → KeepsArguments s t

/-- Every step keeps the sizes of both rings and their pointers inside them. -/
def Obligations.StepKeepsRingSizes : Prop :=
  ∀ s t : State, s.Sized → step s = .next t → t.Sized

/-- Every step keeps the ROB a ring: the occupied slots are exactly head to tail - 1, each entry under its own slot. -/
def Obligations.StepKeepsRobRing : Prop :=
  ∀ s t : State, s.Sized → s.RobRing → step s = .next t → t.RobRing

/-- Every step keeps the RS a ring. -/
def Obligations.StepKeepsRsRing : Prop :=
  ∀ s t : State, s.Sized → s.RsRing → step s = .next t → t.RsRing

/-- Every step keeps an unset BTB tag beside the reset counter. -/
def Obligations.StepKeepsPredictorSound : Prop :=
  ∀ s t : State, s.PredictorSound → step s = .next t → t.PredictorSound

/-- Every step of the out-of-order build keeps a register ready exactly when it has no producer tag. -/
def Obligations.StepKeepsReadyUntagged : Prop :=
  ∀ s t : State, s.params.variant = .outOfOrder → s.ReadyUntagged → step s = .next t → t.ReadyUntagged

/-- No step of the in-order build gives a register a producer tag or changes the ROB or the RS. -/
def Obligations.InOrderBuildNeverRenames : Prop :=
  ∀ s t : State, s.params.variant = .inOrder → s.Untagged → step s = .next t →
    t.Untagged ∧ t.rob = s.rob ∧ t.robHead = s.robHead ∧ t.robTail = s.robTail ∧
      t.rs = s.rs ∧ t.rsHead = s.rsHead ∧ t.rsTail = s.rsTail

/-- No step of the out-of-order build writes a forwarding channel. -/
def Obligations.OutOfOrderBuildNeverForwards : Prop :=
  ∀ s t : State, s.params.variant = .outOfOrder → s.ChannelsEmpty → step s = .next t → t.ChannelsEmpty

/-- Every step keeps each unit latch, and everything on its way to one, at an opcode of its class. -/
def Obligations.StepKeepsUnitClasses : Prop :=
  ∀ s t : State, s.UnitClasses → step s = .next t → t.UnitClasses

/-! ## The two grains agree -/

/-- In-order build: from a state whose instruction stands alone before the empty pipeline, running the pipeline cycle by
cycle for that instruction's pass ends in exactly the state `exec` answers, aborts included. -/
def Obligations.IsolatedPassMatchesExecInOrder : Prop :=
  ∀ (s t : State) (i : Instr), s.params.variant = .inOrder → s.Isolated i → exec i s = .next t →
    cycles (s.passCycles i) s = t

/-- Out-of-order build: the same, through renaming, the reservation station, completion and commit. -/
def Obligations.IsolatedPassMatchesExecOutOfOrder : Prop :=
  ∀ (s t : State) (i : Instr), s.params.variant = .outOfOrder → s.Isolated i → exec i s = .next t →
    cycles (s.passCycles i) s = t
end

