-- ==== Sys2Proof/Laws/State.lean ====
section
/-! SUPPORT. One lemma per field per update of the state, true by rfl and tagged simp, so that no proof unfolds a record
update; then what the accessors read after an update. -/

namespace Sys2Proof.Machine

/-! ## `setLatch` -/

@[simp] theorem State.setLatch_params (s : State) (st : Stage) (l : Option Latch) :
    (s.setLatch st l).params = s.params := rfl
@[simp] theorem State.setLatch_it (s : State) (st : Stage) (l : Option Latch) :
    (s.setLatch st l).it = s.it := rfl
@[simp] theorem State.setLatch_grain (s : State) (st : Stage) (l : Option Latch) :
    (s.setLatch st l).grain = s.grain := rfl
@[simp] theorem State.setLatch_regs (s : State) (st : Stage) (l : Option Latch) :
    (s.setLatch st l).regs = s.regs := rfl
@[simp] theorem State.setLatch_pc (s : State) (st : Stage) (l : Option Latch) :
    (s.setLatch st l).pc = s.pc := rfl
@[simp] theorem State.setLatch_fetchHalt (s : State) (st : Stage) (l : Option Latch) :
    (s.setLatch st l).fetchHalt = s.fetchHalt := rfl
@[simp] theorem State.setLatch_fetchSeq (s : State) (st : Stage) (l : Option Latch) :
    (s.setLatch st l).fetchSeq = s.fetchSeq := rfl
@[simp] theorem State.setLatch_latches (s : State) (st : Stage) (l : Option Latch) :
    (s.setLatch st l).latches = s.latches.set st l := rfl
@[simp] theorem State.setLatch_fwd (s : State) (st : Stage) (l : Option Latch) :
    (s.setLatch st l).fwd = s.fwd := rfl
@[simp] theorem State.setLatch_btb (s : State) (st : Stage) (l : Option Latch) :
    (s.setLatch st l).btb = s.btb := rfl
@[simp] theorem State.setLatch_pt (s : State) (st : Stage) (l : Option Latch) :
    (s.setLatch st l).pt = s.pt := rfl
@[simp] theorem State.setLatch_rob (s : State) (st : Stage) (l : Option Latch) :
    (s.setLatch st l).rob = s.rob := rfl
@[simp] theorem State.setLatch_robHead (s : State) (st : Stage) (l : Option Latch) :
    (s.setLatch st l).robHead = s.robHead := rfl
@[simp] theorem State.setLatch_robTail (s : State) (st : Stage) (l : Option Latch) :
    (s.setLatch st l).robTail = s.robTail := rfl
@[simp] theorem State.setLatch_rs (s : State) (st : Stage) (l : Option Latch) :
    (s.setLatch st l).rs = s.rs := rfl
@[simp] theorem State.setLatch_rsHead (s : State) (st : Stage) (l : Option Latch) :
    (s.setLatch st l).rsHead = s.rsHead := rfl
@[simp] theorem State.setLatch_rsTail (s : State) (st : Stage) (l : Option Latch) :
    (s.setLatch st l).rsTail = s.rsTail := rfl
@[simp] theorem State.setLatch_stalls (s : State) (st : Stage) (l : Option Latch) :
    (s.setLatch st l).stalls = s.stalls := rfl
@[simp] theorem State.setLatch_cycles (s : State) (st : Stage) (l : Option Latch) :
    (s.setLatch st l).cycles = s.cycles := rfl
@[simp] theorem State.setLatch_retired (s : State) (st : Stage) (l : Option Latch) :
    (s.setLatch st l).retired = s.retired := rfl
@[simp] theorem State.setLatch_status (s : State) (st : Stage) (l : Option Latch) :
    (s.setLatch st l).status = s.status := rfl
@[simp] theorem State.setLatch_mem (s : State) (st : Stage) (l : Option Latch) :
    (s.setLatch st l).mem = s.mem := rfl
@[simp] theorem State.setLatch_snapshot (s : State) (st : Stage) (l : Option Latch) :
    (s.setLatch st l).snapshot = s.snapshot := rfl

/-! ## `setEntry` -/

@[simp] theorem State.setEntry_params (s : State) (r : Reg) (e : RegEntry) :
    (s.setEntry r e).params = s.params := rfl
@[simp] theorem State.setEntry_it (s : State) (r : Reg) (e : RegEntry) :
    (s.setEntry r e).it = s.it := rfl
@[simp] theorem State.setEntry_grain (s : State) (r : Reg) (e : RegEntry) :
    (s.setEntry r e).grain = s.grain := rfl
@[simp] theorem State.setEntry_regs (s : State) (r : Reg) (e : RegEntry) :
    (s.setEntry r e).regs = s.regs.set r e := rfl
@[simp] theorem State.setEntry_pc (s : State) (r : Reg) (e : RegEntry) :
    (s.setEntry r e).pc = s.pc := rfl
@[simp] theorem State.setEntry_fetchHalt (s : State) (r : Reg) (e : RegEntry) :
    (s.setEntry r e).fetchHalt = s.fetchHalt := rfl
@[simp] theorem State.setEntry_fetchSeq (s : State) (r : Reg) (e : RegEntry) :
    (s.setEntry r e).fetchSeq = s.fetchSeq := rfl
@[simp] theorem State.setEntry_latches (s : State) (r : Reg) (e : RegEntry) :
    (s.setEntry r e).latches = s.latches := rfl
@[simp] theorem State.setEntry_fwd (s : State) (r : Reg) (e : RegEntry) :
    (s.setEntry r e).fwd = s.fwd := rfl
@[simp] theorem State.setEntry_btb (s : State) (r : Reg) (e : RegEntry) :
    (s.setEntry r e).btb = s.btb := rfl
@[simp] theorem State.setEntry_pt (s : State) (r : Reg) (e : RegEntry) :
    (s.setEntry r e).pt = s.pt := rfl
@[simp] theorem State.setEntry_rob (s : State) (r : Reg) (e : RegEntry) :
    (s.setEntry r e).rob = s.rob := rfl
@[simp] theorem State.setEntry_robHead (s : State) (r : Reg) (e : RegEntry) :
    (s.setEntry r e).robHead = s.robHead := rfl
@[simp] theorem State.setEntry_robTail (s : State) (r : Reg) (e : RegEntry) :
    (s.setEntry r e).robTail = s.robTail := rfl
@[simp] theorem State.setEntry_rs (s : State) (r : Reg) (e : RegEntry) :
    (s.setEntry r e).rs = s.rs := rfl
@[simp] theorem State.setEntry_rsHead (s : State) (r : Reg) (e : RegEntry) :
    (s.setEntry r e).rsHead = s.rsHead := rfl
@[simp] theorem State.setEntry_rsTail (s : State) (r : Reg) (e : RegEntry) :
    (s.setEntry r e).rsTail = s.rsTail := rfl
@[simp] theorem State.setEntry_stalls (s : State) (r : Reg) (e : RegEntry) :
    (s.setEntry r e).stalls = s.stalls := rfl
@[simp] theorem State.setEntry_cycles (s : State) (r : Reg) (e : RegEntry) :
    (s.setEntry r e).cycles = s.cycles := rfl
@[simp] theorem State.setEntry_retired (s : State) (r : Reg) (e : RegEntry) :
    (s.setEntry r e).retired = s.retired := rfl
@[simp] theorem State.setEntry_status (s : State) (r : Reg) (e : RegEntry) :
    (s.setEntry r e).status = s.status := rfl
@[simp] theorem State.setEntry_mem (s : State) (r : Reg) (e : RegEntry) :
    (s.setEntry r e).mem = s.mem := rfl
@[simp] theorem State.setEntry_snapshot (s : State) (r : Reg) (e : RegEntry) :
    (s.setEntry r e).snapshot = s.snapshot := rfl

/-! ## `setValue` -/

@[simp] theorem State.setValue_params (s : State) (r : Reg) (v : Word) :
    (s.setValue r v).params = s.params := rfl
@[simp] theorem State.setValue_it (s : State) (r : Reg) (v : Word) :
    (s.setValue r v).it = s.it := rfl
@[simp] theorem State.setValue_grain (s : State) (r : Reg) (v : Word) :
    (s.setValue r v).grain = s.grain := rfl
@[simp] theorem State.setValue_regs (s : State) (r : Reg) (v : Word) :
    (s.setValue r v).regs = s.regs.set r { s.regs[r] with value := v } := rfl
@[simp] theorem State.setValue_pc (s : State) (r : Reg) (v : Word) :
    (s.setValue r v).pc = s.pc := rfl
@[simp] theorem State.setValue_fetchHalt (s : State) (r : Reg) (v : Word) :
    (s.setValue r v).fetchHalt = s.fetchHalt := rfl
@[simp] theorem State.setValue_fetchSeq (s : State) (r : Reg) (v : Word) :
    (s.setValue r v).fetchSeq = s.fetchSeq := rfl
@[simp] theorem State.setValue_latches (s : State) (r : Reg) (v : Word) :
    (s.setValue r v).latches = s.latches := rfl
@[simp] theorem State.setValue_fwd (s : State) (r : Reg) (v : Word) :
    (s.setValue r v).fwd = s.fwd := rfl
@[simp] theorem State.setValue_btb (s : State) (r : Reg) (v : Word) :
    (s.setValue r v).btb = s.btb := rfl
@[simp] theorem State.setValue_pt (s : State) (r : Reg) (v : Word) :
    (s.setValue r v).pt = s.pt := rfl
@[simp] theorem State.setValue_rob (s : State) (r : Reg) (v : Word) :
    (s.setValue r v).rob = s.rob := rfl
@[simp] theorem State.setValue_robHead (s : State) (r : Reg) (v : Word) :
    (s.setValue r v).robHead = s.robHead := rfl
@[simp] theorem State.setValue_robTail (s : State) (r : Reg) (v : Word) :
    (s.setValue r v).robTail = s.robTail := rfl
@[simp] theorem State.setValue_rs (s : State) (r : Reg) (v : Word) :
    (s.setValue r v).rs = s.rs := rfl
@[simp] theorem State.setValue_rsHead (s : State) (r : Reg) (v : Word) :
    (s.setValue r v).rsHead = s.rsHead := rfl
@[simp] theorem State.setValue_rsTail (s : State) (r : Reg) (v : Word) :
    (s.setValue r v).rsTail = s.rsTail := rfl
@[simp] theorem State.setValue_stalls (s : State) (r : Reg) (v : Word) :
    (s.setValue r v).stalls = s.stalls := rfl
@[simp] theorem State.setValue_cycles (s : State) (r : Reg) (v : Word) :
    (s.setValue r v).cycles = s.cycles := rfl
@[simp] theorem State.setValue_retired (s : State) (r : Reg) (v : Word) :
    (s.setValue r v).retired = s.retired := rfl
@[simp] theorem State.setValue_status (s : State) (r : Reg) (v : Word) :
    (s.setValue r v).status = s.status := rfl
@[simp] theorem State.setValue_mem (s : State) (r : Reg) (v : Word) :
    (s.setValue r v).mem = s.mem := rfl
@[simp] theorem State.setValue_snapshot (s : State) (r : Reg) (v : Word) :
    (s.setValue r v).snapshot = s.snapshot := rfl

/-! ## `setReady` -/

@[simp] theorem State.setReady_params (s : State) (r : Reg) (b : Bool) :
    (s.setReady r b).params = s.params := rfl
@[simp] theorem State.setReady_it (s : State) (r : Reg) (b : Bool) :
    (s.setReady r b).it = s.it := rfl
@[simp] theorem State.setReady_grain (s : State) (r : Reg) (b : Bool) :
    (s.setReady r b).grain = s.grain := rfl
@[simp] theorem State.setReady_regs (s : State) (r : Reg) (b : Bool) :
    (s.setReady r b).regs = s.regs.set r { s.regs[r] with readyFlag := b } := rfl
@[simp] theorem State.setReady_pc (s : State) (r : Reg) (b : Bool) :
    (s.setReady r b).pc = s.pc := rfl
@[simp] theorem State.setReady_fetchHalt (s : State) (r : Reg) (b : Bool) :
    (s.setReady r b).fetchHalt = s.fetchHalt := rfl
@[simp] theorem State.setReady_fetchSeq (s : State) (r : Reg) (b : Bool) :
    (s.setReady r b).fetchSeq = s.fetchSeq := rfl
@[simp] theorem State.setReady_latches (s : State) (r : Reg) (b : Bool) :
    (s.setReady r b).latches = s.latches := rfl
@[simp] theorem State.setReady_fwd (s : State) (r : Reg) (b : Bool) :
    (s.setReady r b).fwd = s.fwd := rfl
@[simp] theorem State.setReady_btb (s : State) (r : Reg) (b : Bool) :
    (s.setReady r b).btb = s.btb := rfl
@[simp] theorem State.setReady_pt (s : State) (r : Reg) (b : Bool) :
    (s.setReady r b).pt = s.pt := rfl
@[simp] theorem State.setReady_rob (s : State) (r : Reg) (b : Bool) :
    (s.setReady r b).rob = s.rob := rfl
@[simp] theorem State.setReady_robHead (s : State) (r : Reg) (b : Bool) :
    (s.setReady r b).robHead = s.robHead := rfl
@[simp] theorem State.setReady_robTail (s : State) (r : Reg) (b : Bool) :
    (s.setReady r b).robTail = s.robTail := rfl
@[simp] theorem State.setReady_rs (s : State) (r : Reg) (b : Bool) :
    (s.setReady r b).rs = s.rs := rfl
@[simp] theorem State.setReady_rsHead (s : State) (r : Reg) (b : Bool) :
    (s.setReady r b).rsHead = s.rsHead := rfl
@[simp] theorem State.setReady_rsTail (s : State) (r : Reg) (b : Bool) :
    (s.setReady r b).rsTail = s.rsTail := rfl
@[simp] theorem State.setReady_stalls (s : State) (r : Reg) (b : Bool) :
    (s.setReady r b).stalls = s.stalls := rfl
@[simp] theorem State.setReady_cycles (s : State) (r : Reg) (b : Bool) :
    (s.setReady r b).cycles = s.cycles := rfl
@[simp] theorem State.setReady_retired (s : State) (r : Reg) (b : Bool) :
    (s.setReady r b).retired = s.retired := rfl
@[simp] theorem State.setReady_status (s : State) (r : Reg) (b : Bool) :
    (s.setReady r b).status = s.status := rfl
@[simp] theorem State.setReady_mem (s : State) (r : Reg) (b : Bool) :
    (s.setReady r b).mem = s.mem := rfl
@[simp] theorem State.setReady_snapshot (s : State) (r : Reg) (b : Bool) :
    (s.setReady r b).snapshot = s.snapshot := rfl

/-! ## `setTag` -/

@[simp] theorem State.setTag_params (s : State) (r : Reg) (t : Option RobId) :
    (s.setTag r t).params = s.params := rfl
@[simp] theorem State.setTag_it (s : State) (r : Reg) (t : Option RobId) :
    (s.setTag r t).it = s.it := rfl
@[simp] theorem State.setTag_grain (s : State) (r : Reg) (t : Option RobId) :
    (s.setTag r t).grain = s.grain := rfl
@[simp] theorem State.setTag_regs (s : State) (r : Reg) (t : Option RobId) :
    (s.setTag r t).regs = s.regs.set r { s.regs[r] with producerTag := t } := rfl
@[simp] theorem State.setTag_pc (s : State) (r : Reg) (t : Option RobId) :
    (s.setTag r t).pc = s.pc := rfl
@[simp] theorem State.setTag_fetchHalt (s : State) (r : Reg) (t : Option RobId) :
    (s.setTag r t).fetchHalt = s.fetchHalt := rfl
@[simp] theorem State.setTag_fetchSeq (s : State) (r : Reg) (t : Option RobId) :
    (s.setTag r t).fetchSeq = s.fetchSeq := rfl
@[simp] theorem State.setTag_latches (s : State) (r : Reg) (t : Option RobId) :
    (s.setTag r t).latches = s.latches := rfl
@[simp] theorem State.setTag_fwd (s : State) (r : Reg) (t : Option RobId) :
    (s.setTag r t).fwd = s.fwd := rfl
@[simp] theorem State.setTag_btb (s : State) (r : Reg) (t : Option RobId) :
    (s.setTag r t).btb = s.btb := rfl
@[simp] theorem State.setTag_pt (s : State) (r : Reg) (t : Option RobId) :
    (s.setTag r t).pt = s.pt := rfl
@[simp] theorem State.setTag_rob (s : State) (r : Reg) (t : Option RobId) :
    (s.setTag r t).rob = s.rob := rfl
@[simp] theorem State.setTag_robHead (s : State) (r : Reg) (t : Option RobId) :
    (s.setTag r t).robHead = s.robHead := rfl
@[simp] theorem State.setTag_robTail (s : State) (r : Reg) (t : Option RobId) :
    (s.setTag r t).robTail = s.robTail := rfl
@[simp] theorem State.setTag_rs (s : State) (r : Reg) (t : Option RobId) :
    (s.setTag r t).rs = s.rs := rfl
@[simp] theorem State.setTag_rsHead (s : State) (r : Reg) (t : Option RobId) :
    (s.setTag r t).rsHead = s.rsHead := rfl
@[simp] theorem State.setTag_rsTail (s : State) (r : Reg) (t : Option RobId) :
    (s.setTag r t).rsTail = s.rsTail := rfl
@[simp] theorem State.setTag_stalls (s : State) (r : Reg) (t : Option RobId) :
    (s.setTag r t).stalls = s.stalls := rfl
@[simp] theorem State.setTag_cycles (s : State) (r : Reg) (t : Option RobId) :
    (s.setTag r t).cycles = s.cycles := rfl
@[simp] theorem State.setTag_retired (s : State) (r : Reg) (t : Option RobId) :
    (s.setTag r t).retired = s.retired := rfl
@[simp] theorem State.setTag_status (s : State) (r : Reg) (t : Option RobId) :
    (s.setTag r t).status = s.status := rfl
@[simp] theorem State.setTag_mem (s : State) (r : Reg) (t : Option RobId) :
    (s.setTag r t).mem = s.mem := rfl
@[simp] theorem State.setTag_snapshot (s : State) (r : Reg) (t : Option RobId) :
    (s.setTag r t).snapshot = s.snapshot := rfl

/-! ## `storeWord` -/

@[simp] theorem State.storeWord_params (s : State) (a v : Word) :
    (s.storeWord a v).params = s.params := rfl
@[simp] theorem State.storeWord_it (s : State) (a v : Word) :
    (s.storeWord a v).it = s.it := rfl
@[simp] theorem State.storeWord_grain (s : State) (a v : Word) :
    (s.storeWord a v).grain = s.grain := rfl
@[simp] theorem State.storeWord_regs (s : State) (a v : Word) :
    (s.storeWord a v).regs = s.regs := rfl
@[simp] theorem State.storeWord_pc (s : State) (a v : Word) :
    (s.storeWord a v).pc = s.pc := rfl
@[simp] theorem State.storeWord_fetchHalt (s : State) (a v : Word) :
    (s.storeWord a v).fetchHalt = s.fetchHalt := rfl
@[simp] theorem State.storeWord_fetchSeq (s : State) (a v : Word) :
    (s.storeWord a v).fetchSeq = s.fetchSeq := rfl
@[simp] theorem State.storeWord_latches (s : State) (a v : Word) :
    (s.storeWord a v).latches = s.latches := rfl
@[simp] theorem State.storeWord_fwd (s : State) (a v : Word) :
    (s.storeWord a v).fwd = s.fwd := rfl
@[simp] theorem State.storeWord_btb (s : State) (a v : Word) :
    (s.storeWord a v).btb = s.btb := rfl
@[simp] theorem State.storeWord_pt (s : State) (a v : Word) :
    (s.storeWord a v).pt = s.pt := rfl
@[simp] theorem State.storeWord_rob (s : State) (a v : Word) :
    (s.storeWord a v).rob = s.rob := rfl
@[simp] theorem State.storeWord_robHead (s : State) (a v : Word) :
    (s.storeWord a v).robHead = s.robHead := rfl
@[simp] theorem State.storeWord_robTail (s : State) (a v : Word) :
    (s.storeWord a v).robTail = s.robTail := rfl
@[simp] theorem State.storeWord_rs (s : State) (a v : Word) :
    (s.storeWord a v).rs = s.rs := rfl
@[simp] theorem State.storeWord_rsHead (s : State) (a v : Word) :
    (s.storeWord a v).rsHead = s.rsHead := rfl
@[simp] theorem State.storeWord_rsTail (s : State) (a v : Word) :
    (s.storeWord a v).rsTail = s.rsTail := rfl
@[simp] theorem State.storeWord_stalls (s : State) (a v : Word) :
    (s.storeWord a v).stalls = s.stalls := rfl
@[simp] theorem State.storeWord_cycles (s : State) (a v : Word) :
    (s.storeWord a v).cycles = s.cycles := rfl
@[simp] theorem State.storeWord_retired (s : State) (a v : Word) :
    (s.storeWord a v).retired = s.retired := rfl
@[simp] theorem State.storeWord_status (s : State) (a v : Word) :
    (s.storeWord a v).status = s.status := rfl
@[simp] theorem State.storeWord_mem (s : State) (a v : Word) :
    (s.storeWord a v).mem = s.mem.writeWord (widx a) v := rfl
@[simp] theorem State.storeWord_snapshot (s : State) (a v : Word) :
    (s.storeWord a v).snapshot = s.snapshot := rfl

/-! ## `setBtb` -/

@[simp] theorem State.setBtb_params (s : State) (i : Fin 16) (e : BtbEntry) :
    (s.setBtb i e).params = s.params := rfl
@[simp] theorem State.setBtb_it (s : State) (i : Fin 16) (e : BtbEntry) :
    (s.setBtb i e).it = s.it := rfl
@[simp] theorem State.setBtb_grain (s : State) (i : Fin 16) (e : BtbEntry) :
    (s.setBtb i e).grain = s.grain := rfl
@[simp] theorem State.setBtb_regs (s : State) (i : Fin 16) (e : BtbEntry) :
    (s.setBtb i e).regs = s.regs := rfl
@[simp] theorem State.setBtb_pc (s : State) (i : Fin 16) (e : BtbEntry) :
    (s.setBtb i e).pc = s.pc := rfl
@[simp] theorem State.setBtb_fetchHalt (s : State) (i : Fin 16) (e : BtbEntry) :
    (s.setBtb i e).fetchHalt = s.fetchHalt := rfl
@[simp] theorem State.setBtb_fetchSeq (s : State) (i : Fin 16) (e : BtbEntry) :
    (s.setBtb i e).fetchSeq = s.fetchSeq := rfl
@[simp] theorem State.setBtb_latches (s : State) (i : Fin 16) (e : BtbEntry) :
    (s.setBtb i e).latches = s.latches := rfl
@[simp] theorem State.setBtb_fwd (s : State) (i : Fin 16) (e : BtbEntry) :
    (s.setBtb i e).fwd = s.fwd := rfl
@[simp] theorem State.setBtb_btb (s : State) (i : Fin 16) (e : BtbEntry) :
    (s.setBtb i e).btb = s.btb.set i e := rfl
@[simp] theorem State.setBtb_pt (s : State) (i : Fin 16) (e : BtbEntry) :
    (s.setBtb i e).pt = s.pt := rfl
@[simp] theorem State.setBtb_rob (s : State) (i : Fin 16) (e : BtbEntry) :
    (s.setBtb i e).rob = s.rob := rfl
@[simp] theorem State.setBtb_robHead (s : State) (i : Fin 16) (e : BtbEntry) :
    (s.setBtb i e).robHead = s.robHead := rfl
@[simp] theorem State.setBtb_robTail (s : State) (i : Fin 16) (e : BtbEntry) :
    (s.setBtb i e).robTail = s.robTail := rfl
@[simp] theorem State.setBtb_rs (s : State) (i : Fin 16) (e : BtbEntry) :
    (s.setBtb i e).rs = s.rs := rfl
@[simp] theorem State.setBtb_rsHead (s : State) (i : Fin 16) (e : BtbEntry) :
    (s.setBtb i e).rsHead = s.rsHead := rfl
@[simp] theorem State.setBtb_rsTail (s : State) (i : Fin 16) (e : BtbEntry) :
    (s.setBtb i e).rsTail = s.rsTail := rfl
@[simp] theorem State.setBtb_stalls (s : State) (i : Fin 16) (e : BtbEntry) :
    (s.setBtb i e).stalls = s.stalls := rfl
@[simp] theorem State.setBtb_cycles (s : State) (i : Fin 16) (e : BtbEntry) :
    (s.setBtb i e).cycles = s.cycles := rfl
@[simp] theorem State.setBtb_retired (s : State) (i : Fin 16) (e : BtbEntry) :
    (s.setBtb i e).retired = s.retired := rfl
@[simp] theorem State.setBtb_status (s : State) (i : Fin 16) (e : BtbEntry) :
    (s.setBtb i e).status = s.status := rfl
@[simp] theorem State.setBtb_mem (s : State) (i : Fin 16) (e : BtbEntry) :
    (s.setBtb i e).mem = s.mem := rfl
@[simp] theorem State.setBtb_snapshot (s : State) (i : Fin 16) (e : BtbEntry) :
    (s.setBtb i e).snapshot = s.snapshot := rfl

/-! ## `setPt` -/

@[simp] theorem State.setPt_params (s : State) (i : Fin 16) (c : Fin 8) :
    (s.setPt i c).params = s.params := rfl
@[simp] theorem State.setPt_it (s : State) (i : Fin 16) (c : Fin 8) :
    (s.setPt i c).it = s.it := rfl
@[simp] theorem State.setPt_grain (s : State) (i : Fin 16) (c : Fin 8) :
    (s.setPt i c).grain = s.grain := rfl
@[simp] theorem State.setPt_regs (s : State) (i : Fin 16) (c : Fin 8) :
    (s.setPt i c).regs = s.regs := rfl
@[simp] theorem State.setPt_pc (s : State) (i : Fin 16) (c : Fin 8) :
    (s.setPt i c).pc = s.pc := rfl
@[simp] theorem State.setPt_fetchHalt (s : State) (i : Fin 16) (c : Fin 8) :
    (s.setPt i c).fetchHalt = s.fetchHalt := rfl
@[simp] theorem State.setPt_fetchSeq (s : State) (i : Fin 16) (c : Fin 8) :
    (s.setPt i c).fetchSeq = s.fetchSeq := rfl
@[simp] theorem State.setPt_latches (s : State) (i : Fin 16) (c : Fin 8) :
    (s.setPt i c).latches = s.latches := rfl
@[simp] theorem State.setPt_fwd (s : State) (i : Fin 16) (c : Fin 8) :
    (s.setPt i c).fwd = s.fwd := rfl
@[simp] theorem State.setPt_btb (s : State) (i : Fin 16) (c : Fin 8) :
    (s.setPt i c).btb = s.btb := rfl
@[simp] theorem State.setPt_pt (s : State) (i : Fin 16) (c : Fin 8) :
    (s.setPt i c).pt = s.pt.set i c := rfl
@[simp] theorem State.setPt_rob (s : State) (i : Fin 16) (c : Fin 8) :
    (s.setPt i c).rob = s.rob := rfl
@[simp] theorem State.setPt_robHead (s : State) (i : Fin 16) (c : Fin 8) :
    (s.setPt i c).robHead = s.robHead := rfl
@[simp] theorem State.setPt_robTail (s : State) (i : Fin 16) (c : Fin 8) :
    (s.setPt i c).robTail = s.robTail := rfl
@[simp] theorem State.setPt_rs (s : State) (i : Fin 16) (c : Fin 8) :
    (s.setPt i c).rs = s.rs := rfl
@[simp] theorem State.setPt_rsHead (s : State) (i : Fin 16) (c : Fin 8) :
    (s.setPt i c).rsHead = s.rsHead := rfl
@[simp] theorem State.setPt_rsTail (s : State) (i : Fin 16) (c : Fin 8) :
    (s.setPt i c).rsTail = s.rsTail := rfl
@[simp] theorem State.setPt_stalls (s : State) (i : Fin 16) (c : Fin 8) :
    (s.setPt i c).stalls = s.stalls := rfl
@[simp] theorem State.setPt_cycles (s : State) (i : Fin 16) (c : Fin 8) :
    (s.setPt i c).cycles = s.cycles := rfl
@[simp] theorem State.setPt_retired (s : State) (i : Fin 16) (c : Fin 8) :
    (s.setPt i c).retired = s.retired := rfl
@[simp] theorem State.setPt_status (s : State) (i : Fin 16) (c : Fin 8) :
    (s.setPt i c).status = s.status := rfl
@[simp] theorem State.setPt_mem (s : State) (i : Fin 16) (c : Fin 8) :
    (s.setPt i c).mem = s.mem := rfl
@[simp] theorem State.setPt_snapshot (s : State) (i : Fin 16) (c : Fin 8) :
    (s.setPt i c).snapshot = s.snapshot := rfl

/-! ## `robAllocate` -/

@[simp] theorem State.robAllocate_params (s : State) (d : Reg) :
    (s.robAllocate d).params = s.params := rfl
@[simp] theorem State.robAllocate_it (s : State) (d : Reg) :
    (s.robAllocate d).it = s.it := rfl
@[simp] theorem State.robAllocate_grain (s : State) (d : Reg) :
    (s.robAllocate d).grain = s.grain := rfl
@[simp] theorem State.robAllocate_regs (s : State) (d : Reg) :
    (s.robAllocate d).regs = s.regs := rfl
@[simp] theorem State.robAllocate_pc (s : State) (d : Reg) :
    (s.robAllocate d).pc = s.pc := rfl
@[simp] theorem State.robAllocate_fetchHalt (s : State) (d : Reg) :
    (s.robAllocate d).fetchHalt = s.fetchHalt := rfl
@[simp] theorem State.robAllocate_fetchSeq (s : State) (d : Reg) :
    (s.robAllocate d).fetchSeq = s.fetchSeq := rfl
@[simp] theorem State.robAllocate_latches (s : State) (d : Reg) :
    (s.robAllocate d).latches = s.latches := rfl
@[simp] theorem State.robAllocate_fwd (s : State) (d : Reg) :
    (s.robAllocate d).fwd = s.fwd := rfl
@[simp] theorem State.robAllocate_btb (s : State) (d : Reg) :
    (s.robAllocate d).btb = s.btb := rfl
@[simp] theorem State.robAllocate_pt (s : State) (d : Reg) :
    (s.robAllocate d).pt = s.pt := rfl
@[simp] theorem State.robAllocate_rob (s : State) (d : Reg) :
    (s.robAllocate d).rob = s.rob.set s.robTail (some ⟨s.robTail, d, 0, false, false⟩) := rfl
@[simp] theorem State.robAllocate_robHead (s : State) (d : Reg) :
    (s.robAllocate d).robHead = s.robHead := rfl
@[simp] theorem State.robAllocate_robTail (s : State) (d : Reg) :
    (s.robAllocate d).robTail = ringNext s.params.robCap s.robTail := rfl
@[simp] theorem State.robAllocate_rs (s : State) (d : Reg) :
    (s.robAllocate d).rs = s.rs := rfl
@[simp] theorem State.robAllocate_rsHead (s : State) (d : Reg) :
    (s.robAllocate d).rsHead = s.rsHead := rfl
@[simp] theorem State.robAllocate_rsTail (s : State) (d : Reg) :
    (s.robAllocate d).rsTail = s.rsTail := rfl
@[simp] theorem State.robAllocate_stalls (s : State) (d : Reg) :
    (s.robAllocate d).stalls = s.stalls := rfl
@[simp] theorem State.robAllocate_cycles (s : State) (d : Reg) :
    (s.robAllocate d).cycles = s.cycles := rfl
@[simp] theorem State.robAllocate_retired (s : State) (d : Reg) :
    (s.robAllocate d).retired = s.retired := rfl
@[simp] theorem State.robAllocate_status (s : State) (d : Reg) :
    (s.robAllocate d).status = s.status := rfl
@[simp] theorem State.robAllocate_mem (s : State) (d : Reg) :
    (s.robAllocate d).mem = s.mem := rfl
@[simp] theorem State.robAllocate_snapshot (s : State) (d : Reg) :
    (s.robAllocate d).snapshot = s.snapshot := rfl

/-! ## `robComplete` -/

@[simp] theorem State.robComplete_params (s : State) (id : RobId) (v : Word) :
    (s.robComplete id v).params = s.params := rfl
@[simp] theorem State.robComplete_it (s : State) (id : RobId) (v : Word) :
    (s.robComplete id v).it = s.it := rfl
@[simp] theorem State.robComplete_grain (s : State) (id : RobId) (v : Word) :
    (s.robComplete id v).grain = s.grain := rfl
@[simp] theorem State.robComplete_regs (s : State) (id : RobId) (v : Word) :
    (s.robComplete id v).regs = s.regs := rfl
@[simp] theorem State.robComplete_pc (s : State) (id : RobId) (v : Word) :
    (s.robComplete id v).pc = s.pc := rfl
@[simp] theorem State.robComplete_fetchHalt (s : State) (id : RobId) (v : Word) :
    (s.robComplete id v).fetchHalt = s.fetchHalt := rfl
@[simp] theorem State.robComplete_fetchSeq (s : State) (id : RobId) (v : Word) :
    (s.robComplete id v).fetchSeq = s.fetchSeq := rfl
@[simp] theorem State.robComplete_latches (s : State) (id : RobId) (v : Word) :
    (s.robComplete id v).latches = s.latches := rfl
@[simp] theorem State.robComplete_fwd (s : State) (id : RobId) (v : Word) :
    (s.robComplete id v).fwd = s.fwd := rfl
@[simp] theorem State.robComplete_btb (s : State) (id : RobId) (v : Word) :
    (s.robComplete id v).btb = s.btb := rfl
@[simp] theorem State.robComplete_pt (s : State) (id : RobId) (v : Word) :
    (s.robComplete id v).pt = s.pt := rfl
@[simp] theorem State.robComplete_rob (s : State) (id : RobId) (v : Word) :
    (s.robComplete id v).rob = s.rob.set id ((s.robEntry id).map fun e => { e with completed := true, result := v }) := rfl
@[simp] theorem State.robComplete_robHead (s : State) (id : RobId) (v : Word) :
    (s.robComplete id v).robHead = s.robHead := rfl
@[simp] theorem State.robComplete_robTail (s : State) (id : RobId) (v : Word) :
    (s.robComplete id v).robTail = s.robTail := rfl
@[simp] theorem State.robComplete_rs (s : State) (id : RobId) (v : Word) :
    (s.robComplete id v).rs = s.rs := rfl
@[simp] theorem State.robComplete_rsHead (s : State) (id : RobId) (v : Word) :
    (s.robComplete id v).rsHead = s.rsHead := rfl
@[simp] theorem State.robComplete_rsTail (s : State) (id : RobId) (v : Word) :
    (s.robComplete id v).rsTail = s.rsTail := rfl
@[simp] theorem State.robComplete_stalls (s : State) (id : RobId) (v : Word) :
    (s.robComplete id v).stalls = s.stalls := rfl
@[simp] theorem State.robComplete_cycles (s : State) (id : RobId) (v : Word) :
    (s.robComplete id v).cycles = s.cycles := rfl
@[simp] theorem State.robComplete_retired (s : State) (id : RobId) (v : Word) :
    (s.robComplete id v).retired = s.retired := rfl
@[simp] theorem State.robComplete_status (s : State) (id : RobId) (v : Word) :
    (s.robComplete id v).status = s.status := rfl
@[simp] theorem State.robComplete_mem (s : State) (id : RobId) (v : Word) :
    (s.robComplete id v).mem = s.mem := rfl
@[simp] theorem State.robComplete_snapshot (s : State) (id : RobId) (v : Word) :
    (s.robComplete id v).snapshot = s.snapshot := rfl

/-! ## `robFree` -/

@[simp] theorem State.robFree_params (s : State) :
    (s.robFree).params = s.params := rfl
@[simp] theorem State.robFree_it (s : State) :
    (s.robFree).it = s.it := rfl
@[simp] theorem State.robFree_grain (s : State) :
    (s.robFree).grain = s.grain := rfl
@[simp] theorem State.robFree_regs (s : State) :
    (s.robFree).regs = s.regs := rfl
@[simp] theorem State.robFree_pc (s : State) :
    (s.robFree).pc = s.pc := rfl
@[simp] theorem State.robFree_fetchHalt (s : State) :
    (s.robFree).fetchHalt = s.fetchHalt := rfl
@[simp] theorem State.robFree_fetchSeq (s : State) :
    (s.robFree).fetchSeq = s.fetchSeq := rfl
@[simp] theorem State.robFree_latches (s : State) :
    (s.robFree).latches = s.latches := rfl
@[simp] theorem State.robFree_fwd (s : State) :
    (s.robFree).fwd = s.fwd := rfl
@[simp] theorem State.robFree_btb (s : State) :
    (s.robFree).btb = s.btb := rfl
@[simp] theorem State.robFree_pt (s : State) :
    (s.robFree).pt = s.pt := rfl
@[simp] theorem State.robFree_rob (s : State) :
    (s.robFree).rob = s.rob.set s.robHead none := rfl
@[simp] theorem State.robFree_robHead (s : State) :
    (s.robFree).robHead = ringNext s.params.robCap s.robHead := rfl
@[simp] theorem State.robFree_robTail (s : State) :
    (s.robFree).robTail = s.robTail := rfl
@[simp] theorem State.robFree_rs (s : State) :
    (s.robFree).rs = s.rs := rfl
@[simp] theorem State.robFree_rsHead (s : State) :
    (s.robFree).rsHead = s.rsHead := rfl
@[simp] theorem State.robFree_rsTail (s : State) :
    (s.robFree).rsTail = s.rsTail := rfl
@[simp] theorem State.robFree_stalls (s : State) :
    (s.robFree).stalls = s.stalls := rfl
@[simp] theorem State.robFree_cycles (s : State) :
    (s.robFree).cycles = s.cycles := rfl
@[simp] theorem State.robFree_retired (s : State) :
    (s.robFree).retired = s.retired := rfl
@[simp] theorem State.robFree_status (s : State) :
    (s.robFree).status = s.status := rfl
@[simp] theorem State.robFree_mem (s : State) :
    (s.robFree).mem = s.mem := rfl
@[simp] theorem State.robFree_snapshot (s : State) :
    (s.robFree).snapshot = s.snapshot := rfl

/-! ## `rsEnqueue` -/

@[simp] theorem State.rsEnqueue_params (s : State) (l : Latch) :
    (s.rsEnqueue l).params = s.params := rfl
@[simp] theorem State.rsEnqueue_it (s : State) (l : Latch) :
    (s.rsEnqueue l).it = s.it := rfl
@[simp] theorem State.rsEnqueue_grain (s : State) (l : Latch) :
    (s.rsEnqueue l).grain = s.grain := rfl
@[simp] theorem State.rsEnqueue_regs (s : State) (l : Latch) :
    (s.rsEnqueue l).regs = s.regs := rfl
@[simp] theorem State.rsEnqueue_pc (s : State) (l : Latch) :
    (s.rsEnqueue l).pc = s.pc := rfl
@[simp] theorem State.rsEnqueue_fetchHalt (s : State) (l : Latch) :
    (s.rsEnqueue l).fetchHalt = s.fetchHalt := rfl
@[simp] theorem State.rsEnqueue_fetchSeq (s : State) (l : Latch) :
    (s.rsEnqueue l).fetchSeq = s.fetchSeq := rfl
@[simp] theorem State.rsEnqueue_latches (s : State) (l : Latch) :
    (s.rsEnqueue l).latches = s.latches := rfl
@[simp] theorem State.rsEnqueue_fwd (s : State) (l : Latch) :
    (s.rsEnqueue l).fwd = s.fwd := rfl
@[simp] theorem State.rsEnqueue_btb (s : State) (l : Latch) :
    (s.rsEnqueue l).btb = s.btb := rfl
@[simp] theorem State.rsEnqueue_pt (s : State) (l : Latch) :
    (s.rsEnqueue l).pt = s.pt := rfl
@[simp] theorem State.rsEnqueue_rob (s : State) (l : Latch) :
    (s.rsEnqueue l).rob = s.rob := rfl
@[simp] theorem State.rsEnqueue_robHead (s : State) (l : Latch) :
    (s.rsEnqueue l).robHead = s.robHead := rfl
@[simp] theorem State.rsEnqueue_robTail (s : State) (l : Latch) :
    (s.rsEnqueue l).robTail = s.robTail := rfl
@[simp] theorem State.rsEnqueue_rs (s : State) (l : Latch) :
    (s.rsEnqueue l).rs = s.rs.set s.rsTail (some { l with done := false }) := rfl
@[simp] theorem State.rsEnqueue_rsHead (s : State) (l : Latch) :
    (s.rsEnqueue l).rsHead = s.rsHead := rfl
@[simp] theorem State.rsEnqueue_rsTail (s : State) (l : Latch) :
    (s.rsEnqueue l).rsTail = ringNext s.params.rsCap s.rsTail := rfl
@[simp] theorem State.rsEnqueue_stalls (s : State) (l : Latch) :
    (s.rsEnqueue l).stalls = s.stalls := rfl
@[simp] theorem State.rsEnqueue_cycles (s : State) (l : Latch) :
    (s.rsEnqueue l).cycles = s.cycles := rfl
@[simp] theorem State.rsEnqueue_retired (s : State) (l : Latch) :
    (s.rsEnqueue l).retired = s.retired := rfl
@[simp] theorem State.rsEnqueue_status (s : State) (l : Latch) :
    (s.rsEnqueue l).status = s.status := rfl
@[simp] theorem State.rsEnqueue_mem (s : State) (l : Latch) :
    (s.rsEnqueue l).mem = s.mem := rfl
@[simp] theorem State.rsEnqueue_snapshot (s : State) (l : Latch) :
    (s.rsEnqueue l).snapshot = s.snapshot := rfl

/-! ## `rsDequeue` -/

@[simp] theorem State.rsDequeue_params (s : State) :
    (s.rsDequeue).params = s.params := rfl
@[simp] theorem State.rsDequeue_it (s : State) :
    (s.rsDequeue).it = s.it := rfl
@[simp] theorem State.rsDequeue_grain (s : State) :
    (s.rsDequeue).grain = s.grain := rfl
@[simp] theorem State.rsDequeue_regs (s : State) :
    (s.rsDequeue).regs = s.regs := rfl
@[simp] theorem State.rsDequeue_pc (s : State) :
    (s.rsDequeue).pc = s.pc := rfl
@[simp] theorem State.rsDequeue_fetchHalt (s : State) :
    (s.rsDequeue).fetchHalt = s.fetchHalt := rfl
@[simp] theorem State.rsDequeue_fetchSeq (s : State) :
    (s.rsDequeue).fetchSeq = s.fetchSeq := rfl
@[simp] theorem State.rsDequeue_latches (s : State) :
    (s.rsDequeue).latches = s.latches := rfl
@[simp] theorem State.rsDequeue_fwd (s : State) :
    (s.rsDequeue).fwd = s.fwd := rfl
@[simp] theorem State.rsDequeue_btb (s : State) :
    (s.rsDequeue).btb = s.btb := rfl
@[simp] theorem State.rsDequeue_pt (s : State) :
    (s.rsDequeue).pt = s.pt := rfl
@[simp] theorem State.rsDequeue_rob (s : State) :
    (s.rsDequeue).rob = s.rob := rfl
@[simp] theorem State.rsDequeue_robHead (s : State) :
    (s.rsDequeue).robHead = s.robHead := rfl
@[simp] theorem State.rsDequeue_robTail (s : State) :
    (s.rsDequeue).robTail = s.robTail := rfl
@[simp] theorem State.rsDequeue_rs (s : State) :
    (s.rsDequeue).rs = s.rs.set s.rsHead none := rfl
@[simp] theorem State.rsDequeue_rsHead (s : State) :
    (s.rsDequeue).rsHead = ringNext s.params.rsCap s.rsHead := rfl
@[simp] theorem State.rsDequeue_rsTail (s : State) :
    (s.rsDequeue).rsTail = s.rsTail := rfl
@[simp] theorem State.rsDequeue_stalls (s : State) :
    (s.rsDequeue).stalls = s.stalls := rfl
@[simp] theorem State.rsDequeue_cycles (s : State) :
    (s.rsDequeue).cycles = s.cycles := rfl
@[simp] theorem State.rsDequeue_retired (s : State) :
    (s.rsDequeue).retired = s.retired := rfl
@[simp] theorem State.rsDequeue_status (s : State) :
    (s.rsDequeue).status = s.status := rfl
@[simp] theorem State.rsDequeue_mem (s : State) :
    (s.rsDequeue).mem = s.mem := rfl
@[simp] theorem State.rsDequeue_snapshot (s : State) :
    (s.rsDequeue).snapshot = s.snapshot := rfl

/-! ## `setPc` -/

@[simp] theorem State.setPc_params (s : State) (p : Int) :
    (s.setPc p).params = s.params := rfl
@[simp] theorem State.setPc_it (s : State) (p : Int) :
    (s.setPc p).it = s.it := rfl
@[simp] theorem State.setPc_grain (s : State) (p : Int) :
    (s.setPc p).grain = s.grain := rfl
@[simp] theorem State.setPc_regs (s : State) (p : Int) :
    (s.setPc p).regs = s.regs := rfl
@[simp] theorem State.setPc_pc (s : State) (p : Int) :
    (s.setPc p).pc = p := rfl
@[simp] theorem State.setPc_fetchHalt (s : State) (p : Int) :
    (s.setPc p).fetchHalt = s.fetchHalt := rfl
@[simp] theorem State.setPc_fetchSeq (s : State) (p : Int) :
    (s.setPc p).fetchSeq = s.fetchSeq := rfl
@[simp] theorem State.setPc_latches (s : State) (p : Int) :
    (s.setPc p).latches = s.latches := rfl
@[simp] theorem State.setPc_fwd (s : State) (p : Int) :
    (s.setPc p).fwd = s.fwd := rfl
@[simp] theorem State.setPc_btb (s : State) (p : Int) :
    (s.setPc p).btb = s.btb := rfl
@[simp] theorem State.setPc_pt (s : State) (p : Int) :
    (s.setPc p).pt = s.pt := rfl
@[simp] theorem State.setPc_rob (s : State) (p : Int) :
    (s.setPc p).rob = s.rob := rfl
@[simp] theorem State.setPc_robHead (s : State) (p : Int) :
    (s.setPc p).robHead = s.robHead := rfl
@[simp] theorem State.setPc_robTail (s : State) (p : Int) :
    (s.setPc p).robTail = s.robTail := rfl
@[simp] theorem State.setPc_rs (s : State) (p : Int) :
    (s.setPc p).rs = s.rs := rfl
@[simp] theorem State.setPc_rsHead (s : State) (p : Int) :
    (s.setPc p).rsHead = s.rsHead := rfl
@[simp] theorem State.setPc_rsTail (s : State) (p : Int) :
    (s.setPc p).rsTail = s.rsTail := rfl
@[simp] theorem State.setPc_stalls (s : State) (p : Int) :
    (s.setPc p).stalls = s.stalls := rfl
@[simp] theorem State.setPc_cycles (s : State) (p : Int) :
    (s.setPc p).cycles = s.cycles := rfl
@[simp] theorem State.setPc_retired (s : State) (p : Int) :
    (s.setPc p).retired = s.retired := rfl
@[simp] theorem State.setPc_status (s : State) (p : Int) :
    (s.setPc p).status = s.status := rfl
@[simp] theorem State.setPc_mem (s : State) (p : Int) :
    (s.setPc p).mem = s.mem := rfl
@[simp] theorem State.setPc_snapshot (s : State) (p : Int) :
    (s.setPc p).snapshot = s.snapshot := rfl

/-! ## `setFetchHalt` -/

@[simp] theorem State.setFetchHalt_params (s : State) (b : Bool) :
    (s.setFetchHalt b).params = s.params := rfl
@[simp] theorem State.setFetchHalt_it (s : State) (b : Bool) :
    (s.setFetchHalt b).it = s.it := rfl
@[simp] theorem State.setFetchHalt_grain (s : State) (b : Bool) :
    (s.setFetchHalt b).grain = s.grain := rfl
@[simp] theorem State.setFetchHalt_regs (s : State) (b : Bool) :
    (s.setFetchHalt b).regs = s.regs := rfl
@[simp] theorem State.setFetchHalt_pc (s : State) (b : Bool) :
    (s.setFetchHalt b).pc = s.pc := rfl
@[simp] theorem State.setFetchHalt_fetchHalt (s : State) (b : Bool) :
    (s.setFetchHalt b).fetchHalt = b := rfl
@[simp] theorem State.setFetchHalt_fetchSeq (s : State) (b : Bool) :
    (s.setFetchHalt b).fetchSeq = s.fetchSeq := rfl
@[simp] theorem State.setFetchHalt_latches (s : State) (b : Bool) :
    (s.setFetchHalt b).latches = s.latches := rfl
@[simp] theorem State.setFetchHalt_fwd (s : State) (b : Bool) :
    (s.setFetchHalt b).fwd = s.fwd := rfl
@[simp] theorem State.setFetchHalt_btb (s : State) (b : Bool) :
    (s.setFetchHalt b).btb = s.btb := rfl
@[simp] theorem State.setFetchHalt_pt (s : State) (b : Bool) :
    (s.setFetchHalt b).pt = s.pt := rfl
@[simp] theorem State.setFetchHalt_rob (s : State) (b : Bool) :
    (s.setFetchHalt b).rob = s.rob := rfl
@[simp] theorem State.setFetchHalt_robHead (s : State) (b : Bool) :
    (s.setFetchHalt b).robHead = s.robHead := rfl
@[simp] theorem State.setFetchHalt_robTail (s : State) (b : Bool) :
    (s.setFetchHalt b).robTail = s.robTail := rfl
@[simp] theorem State.setFetchHalt_rs (s : State) (b : Bool) :
    (s.setFetchHalt b).rs = s.rs := rfl
@[simp] theorem State.setFetchHalt_rsHead (s : State) (b : Bool) :
    (s.setFetchHalt b).rsHead = s.rsHead := rfl
@[simp] theorem State.setFetchHalt_rsTail (s : State) (b : Bool) :
    (s.setFetchHalt b).rsTail = s.rsTail := rfl
@[simp] theorem State.setFetchHalt_stalls (s : State) (b : Bool) :
    (s.setFetchHalt b).stalls = s.stalls := rfl
@[simp] theorem State.setFetchHalt_cycles (s : State) (b : Bool) :
    (s.setFetchHalt b).cycles = s.cycles := rfl
@[simp] theorem State.setFetchHalt_retired (s : State) (b : Bool) :
    (s.setFetchHalt b).retired = s.retired := rfl
@[simp] theorem State.setFetchHalt_status (s : State) (b : Bool) :
    (s.setFetchHalt b).status = s.status := rfl
@[simp] theorem State.setFetchHalt_mem (s : State) (b : Bool) :
    (s.setFetchHalt b).mem = s.mem := rfl
@[simp] theorem State.setFetchHalt_snapshot (s : State) (b : Bool) :
    (s.setFetchHalt b).snapshot = s.snapshot := rfl

/-! ## `countFetch` -/

@[simp] theorem State.countFetch_params (s : State) :
    (s.countFetch).params = s.params := rfl
@[simp] theorem State.countFetch_it (s : State) :
    (s.countFetch).it = s.it := rfl
@[simp] theorem State.countFetch_grain (s : State) :
    (s.countFetch).grain = s.grain := rfl
@[simp] theorem State.countFetch_regs (s : State) :
    (s.countFetch).regs = s.regs := rfl
@[simp] theorem State.countFetch_pc (s : State) :
    (s.countFetch).pc = s.pc := rfl
@[simp] theorem State.countFetch_fetchHalt (s : State) :
    (s.countFetch).fetchHalt = s.fetchHalt := rfl
@[simp] theorem State.countFetch_fetchSeq (s : State) :
    (s.countFetch).fetchSeq = s.fetchSeq + 1 := rfl
@[simp] theorem State.countFetch_latches (s : State) :
    (s.countFetch).latches = s.latches := rfl
@[simp] theorem State.countFetch_fwd (s : State) :
    (s.countFetch).fwd = s.fwd := rfl
@[simp] theorem State.countFetch_btb (s : State) :
    (s.countFetch).btb = s.btb := rfl
@[simp] theorem State.countFetch_pt (s : State) :
    (s.countFetch).pt = s.pt := rfl
@[simp] theorem State.countFetch_rob (s : State) :
    (s.countFetch).rob = s.rob := rfl
@[simp] theorem State.countFetch_robHead (s : State) :
    (s.countFetch).robHead = s.robHead := rfl
@[simp] theorem State.countFetch_robTail (s : State) :
    (s.countFetch).robTail = s.robTail := rfl
@[simp] theorem State.countFetch_rs (s : State) :
    (s.countFetch).rs = s.rs := rfl
@[simp] theorem State.countFetch_rsHead (s : State) :
    (s.countFetch).rsHead = s.rsHead := rfl
@[simp] theorem State.countFetch_rsTail (s : State) :
    (s.countFetch).rsTail = s.rsTail := rfl
@[simp] theorem State.countFetch_stalls (s : State) :
    (s.countFetch).stalls = s.stalls := rfl
@[simp] theorem State.countFetch_cycles (s : State) :
    (s.countFetch).cycles = s.cycles := rfl
@[simp] theorem State.countFetch_retired (s : State) :
    (s.countFetch).retired = s.retired := rfl
@[simp] theorem State.countFetch_status (s : State) :
    (s.countFetch).status = s.status := rfl
@[simp] theorem State.countFetch_mem (s : State) :
    (s.countFetch).mem = s.mem := rfl
@[simp] theorem State.countFetch_snapshot (s : State) :
    (s.countFetch).snapshot = s.snapshot := rfl

/-! ## `countStall` -/

@[simp] theorem State.countStall_params (s : State) :
    (s.countStall).params = s.params := rfl
@[simp] theorem State.countStall_it (s : State) :
    (s.countStall).it = s.it := rfl
@[simp] theorem State.countStall_grain (s : State) :
    (s.countStall).grain = s.grain := rfl
@[simp] theorem State.countStall_regs (s : State) :
    (s.countStall).regs = s.regs := rfl
@[simp] theorem State.countStall_pc (s : State) :
    (s.countStall).pc = s.pc := rfl
@[simp] theorem State.countStall_fetchHalt (s : State) :
    (s.countStall).fetchHalt = s.fetchHalt := rfl
@[simp] theorem State.countStall_fetchSeq (s : State) :
    (s.countStall).fetchSeq = s.fetchSeq := rfl
@[simp] theorem State.countStall_latches (s : State) :
    (s.countStall).latches = s.latches := rfl
@[simp] theorem State.countStall_fwd (s : State) :
    (s.countStall).fwd = s.fwd := rfl
@[simp] theorem State.countStall_btb (s : State) :
    (s.countStall).btb = s.btb := rfl
@[simp] theorem State.countStall_pt (s : State) :
    (s.countStall).pt = s.pt := rfl
@[simp] theorem State.countStall_rob (s : State) :
    (s.countStall).rob = s.rob := rfl
@[simp] theorem State.countStall_robHead (s : State) :
    (s.countStall).robHead = s.robHead := rfl
@[simp] theorem State.countStall_robTail (s : State) :
    (s.countStall).robTail = s.robTail := rfl
@[simp] theorem State.countStall_rs (s : State) :
    (s.countStall).rs = s.rs := rfl
@[simp] theorem State.countStall_rsHead (s : State) :
    (s.countStall).rsHead = s.rsHead := rfl
@[simp] theorem State.countStall_rsTail (s : State) :
    (s.countStall).rsTail = s.rsTail := rfl
@[simp] theorem State.countStall_stalls (s : State) :
    (s.countStall).stalls = s.stalls + 1 := rfl
@[simp] theorem State.countStall_cycles (s : State) :
    (s.countStall).cycles = s.cycles := rfl
@[simp] theorem State.countStall_retired (s : State) :
    (s.countStall).retired = s.retired := rfl
@[simp] theorem State.countStall_status (s : State) :
    (s.countStall).status = s.status := rfl
@[simp] theorem State.countStall_mem (s : State) :
    (s.countStall).mem = s.mem := rfl
@[simp] theorem State.countStall_snapshot (s : State) :
    (s.countStall).snapshot = s.snapshot := rfl

/-! ## `countRetire` -/

@[simp] theorem State.countRetire_params (s : State) :
    (s.countRetire).params = s.params := rfl
@[simp] theorem State.countRetire_it (s : State) :
    (s.countRetire).it = s.it := rfl
@[simp] theorem State.countRetire_grain (s : State) :
    (s.countRetire).grain = s.grain := rfl
@[simp] theorem State.countRetire_regs (s : State) :
    (s.countRetire).regs = s.regs := rfl
@[simp] theorem State.countRetire_pc (s : State) :
    (s.countRetire).pc = s.pc := rfl
@[simp] theorem State.countRetire_fetchHalt (s : State) :
    (s.countRetire).fetchHalt = s.fetchHalt := rfl
@[simp] theorem State.countRetire_fetchSeq (s : State) :
    (s.countRetire).fetchSeq = s.fetchSeq := rfl
@[simp] theorem State.countRetire_latches (s : State) :
    (s.countRetire).latches = s.latches := rfl
@[simp] theorem State.countRetire_fwd (s : State) :
    (s.countRetire).fwd = s.fwd := rfl
@[simp] theorem State.countRetire_btb (s : State) :
    (s.countRetire).btb = s.btb := rfl
@[simp] theorem State.countRetire_pt (s : State) :
    (s.countRetire).pt = s.pt := rfl
@[simp] theorem State.countRetire_rob (s : State) :
    (s.countRetire).rob = s.rob := rfl
@[simp] theorem State.countRetire_robHead (s : State) :
    (s.countRetire).robHead = s.robHead := rfl
@[simp] theorem State.countRetire_robTail (s : State) :
    (s.countRetire).robTail = s.robTail := rfl
@[simp] theorem State.countRetire_rs (s : State) :
    (s.countRetire).rs = s.rs := rfl
@[simp] theorem State.countRetire_rsHead (s : State) :
    (s.countRetire).rsHead = s.rsHead := rfl
@[simp] theorem State.countRetire_rsTail (s : State) :
    (s.countRetire).rsTail = s.rsTail := rfl
@[simp] theorem State.countRetire_stalls (s : State) :
    (s.countRetire).stalls = s.stalls := rfl
@[simp] theorem State.countRetire_cycles (s : State) :
    (s.countRetire).cycles = s.cycles := rfl
@[simp] theorem State.countRetire_retired (s : State) :
    (s.countRetire).retired = s.retired + 1 := rfl
@[simp] theorem State.countRetire_status (s : State) :
    (s.countRetire).status = s.status := rfl
@[simp] theorem State.countRetire_mem (s : State) :
    (s.countRetire).mem = s.mem := rfl
@[simp] theorem State.countRetire_snapshot (s : State) :
    (s.countRetire).snapshot = s.snapshot := rfl

/-! ## `takeAbort` -/

@[simp] theorem State.takeAbort_params (s : State) (r : AbortReason) :
    (s.takeAbort r).params = s.params := rfl
@[simp] theorem State.takeAbort_it (s : State) (r : AbortReason) :
    (s.takeAbort r).it = s.it := rfl
@[simp] theorem State.takeAbort_grain (s : State) (r : AbortReason) :
    (s.takeAbort r).grain = s.grain := rfl
@[simp] theorem State.takeAbort_regs (s : State) (r : AbortReason) :
    (s.takeAbort r).regs = s.regs := rfl
@[simp] theorem State.takeAbort_pc (s : State) (r : AbortReason) :
    (s.takeAbort r).pc = s.pc := rfl
@[simp] theorem State.takeAbort_fetchHalt (s : State) (r : AbortReason) :
    (s.takeAbort r).fetchHalt = s.fetchHalt := rfl
@[simp] theorem State.takeAbort_fetchSeq (s : State) (r : AbortReason) :
    (s.takeAbort r).fetchSeq = s.fetchSeq := rfl
@[simp] theorem State.takeAbort_latches (s : State) (r : AbortReason) :
    (s.takeAbort r).latches = s.latches := rfl
@[simp] theorem State.takeAbort_fwd (s : State) (r : AbortReason) :
    (s.takeAbort r).fwd = s.fwd := rfl
@[simp] theorem State.takeAbort_btb (s : State) (r : AbortReason) :
    (s.takeAbort r).btb = s.btb := rfl
@[simp] theorem State.takeAbort_pt (s : State) (r : AbortReason) :
    (s.takeAbort r).pt = s.pt := rfl
@[simp] theorem State.takeAbort_rob (s : State) (r : AbortReason) :
    (s.takeAbort r).rob = s.rob := rfl
@[simp] theorem State.takeAbort_robHead (s : State) (r : AbortReason) :
    (s.takeAbort r).robHead = s.robHead := rfl
@[simp] theorem State.takeAbort_robTail (s : State) (r : AbortReason) :
    (s.takeAbort r).robTail = s.robTail := rfl
@[simp] theorem State.takeAbort_rs (s : State) (r : AbortReason) :
    (s.takeAbort r).rs = s.rs := rfl
@[simp] theorem State.takeAbort_rsHead (s : State) (r : AbortReason) :
    (s.takeAbort r).rsHead = s.rsHead := rfl
@[simp] theorem State.takeAbort_rsTail (s : State) (r : AbortReason) :
    (s.takeAbort r).rsTail = s.rsTail := rfl
@[simp] theorem State.takeAbort_stalls (s : State) (r : AbortReason) :
    (s.takeAbort r).stalls = s.stalls := rfl
@[simp] theorem State.takeAbort_cycles (s : State) (r : AbortReason) :
    (s.takeAbort r).cycles = s.cycles := rfl
@[simp] theorem State.takeAbort_retired (s : State) (r : AbortReason) :
    (s.takeAbort r).retired = s.retired := rfl
@[simp] theorem State.takeAbort_status (s : State) (r : AbortReason) :
    (s.takeAbort r).status = .aborted r := rfl
@[simp] theorem State.takeAbort_mem (s : State) (r : AbortReason) :
    (s.takeAbort r).mem = s.mem := rfl
@[simp] theorem State.takeAbort_snapshot (s : State) (r : AbortReason) :
    (s.takeAbort r).snapshot = s.snapshot := rfl

/-! ## `haltRun` -/

@[simp] theorem State.haltRun_params (s : State) :
    (s.haltRun).params = s.params := rfl
@[simp] theorem State.haltRun_it (s : State) :
    (s.haltRun).it = s.it := rfl
@[simp] theorem State.haltRun_grain (s : State) :
    (s.haltRun).grain = s.grain := rfl
@[simp] theorem State.haltRun_regs (s : State) :
    (s.haltRun).regs = s.regs := rfl
@[simp] theorem State.haltRun_pc (s : State) :
    (s.haltRun).pc = s.pc := rfl
@[simp] theorem State.haltRun_fetchHalt (s : State) :
    (s.haltRun).fetchHalt = s.fetchHalt := rfl
@[simp] theorem State.haltRun_fetchSeq (s : State) :
    (s.haltRun).fetchSeq = s.fetchSeq := rfl
@[simp] theorem State.haltRun_latches (s : State) :
    (s.haltRun).latches = s.latches := rfl
@[simp] theorem State.haltRun_fwd (s : State) :
    (s.haltRun).fwd = s.fwd := rfl
@[simp] theorem State.haltRun_btb (s : State) :
    (s.haltRun).btb = s.btb := rfl
@[simp] theorem State.haltRun_pt (s : State) :
    (s.haltRun).pt = s.pt := rfl
@[simp] theorem State.haltRun_rob (s : State) :
    (s.haltRun).rob = s.rob := rfl
@[simp] theorem State.haltRun_robHead (s : State) :
    (s.haltRun).robHead = s.robHead := rfl
@[simp] theorem State.haltRun_robTail (s : State) :
    (s.haltRun).robTail = s.robTail := rfl
@[simp] theorem State.haltRun_rs (s : State) :
    (s.haltRun).rs = s.rs := rfl
@[simp] theorem State.haltRun_rsHead (s : State) :
    (s.haltRun).rsHead = s.rsHead := rfl
@[simp] theorem State.haltRun_rsTail (s : State) :
    (s.haltRun).rsTail = s.rsTail := rfl
@[simp] theorem State.haltRun_stalls (s : State) :
    (s.haltRun).stalls = s.stalls := rfl
@[simp] theorem State.haltRun_cycles (s : State) :
    (s.haltRun).cycles = s.cycles := rfl
@[simp] theorem State.haltRun_retired (s : State) :
    (s.haltRun).retired = s.retired := rfl
@[simp] theorem State.haltRun_status (s : State) :
    (s.haltRun).status = .halted := rfl
@[simp] theorem State.haltRun_mem (s : State) :
    (s.haltRun).mem = s.mem := rfl
@[simp] theorem State.haltRun_snapshot (s : State) :
    (s.haltRun).snapshot = s.snapshot := rfl

/-! ## `flush` -/

@[simp] theorem State.flush_params (s : State) (p : Int) :
    (s.flush p).params = s.params := rfl
@[simp] theorem State.flush_it (s : State) (p : Int) :
    (s.flush p).it = s.it := rfl
@[simp] theorem State.flush_grain (s : State) (p : Int) :
    (s.flush p).grain = s.grain := rfl
@[simp] theorem State.flush_regs (s : State) (p : Int) :
    (s.flush p).regs = s.regs := rfl
@[simp] theorem State.flush_pc (s : State) (p : Int) :
    (s.flush p).pc = p := rfl
@[simp] theorem State.flush_fetchHalt (s : State) (p : Int) :
    (s.flush p).fetchHalt = false := rfl
@[simp] theorem State.flush_fetchSeq (s : State) (p : Int) :
    (s.flush p).fetchSeq = s.fetchSeq := rfl
@[simp] theorem State.flush_latches (s : State) (p : Int) :
    (s.flush p).latches = { s.latches with f := none, d := none, oa := none, rr := none } := rfl
@[simp] theorem State.flush_fwd (s : State) (p : Int) :
    (s.flush p).fwd = s.fwd := rfl
@[simp] theorem State.flush_btb (s : State) (p : Int) :
    (s.flush p).btb = s.btb := rfl
@[simp] theorem State.flush_pt (s : State) (p : Int) :
    (s.flush p).pt = s.pt := rfl
@[simp] theorem State.flush_rob (s : State) (p : Int) :
    (s.flush p).rob = s.rob := rfl
@[simp] theorem State.flush_robHead (s : State) (p : Int) :
    (s.flush p).robHead = s.robHead := rfl
@[simp] theorem State.flush_robTail (s : State) (p : Int) :
    (s.flush p).robTail = s.robTail := rfl
@[simp] theorem State.flush_rs (s : State) (p : Int) :
    (s.flush p).rs = s.rs := rfl
@[simp] theorem State.flush_rsHead (s : State) (p : Int) :
    (s.flush p).rsHead = s.rsHead := rfl
@[simp] theorem State.flush_rsTail (s : State) (p : Int) :
    (s.flush p).rsTail = s.rsTail := rfl
@[simp] theorem State.flush_stalls (s : State) (p : Int) :
    (s.flush p).stalls = s.stalls := rfl
@[simp] theorem State.flush_cycles (s : State) (p : Int) :
    (s.flush p).cycles = s.cycles := rfl
@[simp] theorem State.flush_retired (s : State) (p : Int) :
    (s.flush p).retired = s.retired := rfl
@[simp] theorem State.flush_status (s : State) (p : Int) :
    (s.flush p).status = s.status := rfl
@[simp] theorem State.flush_mem (s : State) (p : Int) :
    (s.flush p).mem = s.mem := rfl
@[simp] theorem State.flush_snapshot (s : State) (p : Int) :
    (s.flush p).snapshot = s.snapshot := rfl

/-! ## `wakeUp` -/

@[simp] theorem State.wakeUp_params (s : State) (id : RobId) (v : Word) :
    (s.wakeUp id v).params = s.params := rfl
@[simp] theorem State.wakeUp_it (s : State) (id : RobId) (v : Word) :
    (s.wakeUp id v).it = s.it := rfl
@[simp] theorem State.wakeUp_grain (s : State) (id : RobId) (v : Word) :
    (s.wakeUp id v).grain = s.grain := rfl
@[simp] theorem State.wakeUp_regs (s : State) (id : RobId) (v : Word) :
    (s.wakeUp id v).regs = s.regs := rfl
@[simp] theorem State.wakeUp_pc (s : State) (id : RobId) (v : Word) :
    (s.wakeUp id v).pc = s.pc := rfl
@[simp] theorem State.wakeUp_fetchHalt (s : State) (id : RobId) (v : Word) :
    (s.wakeUp id v).fetchHalt = s.fetchHalt := rfl
@[simp] theorem State.wakeUp_fetchSeq (s : State) (id : RobId) (v : Word) :
    (s.wakeUp id v).fetchSeq = s.fetchSeq := rfl
@[simp] theorem State.wakeUp_latches (s : State) (id : RobId) (v : Word) :
    (s.wakeUp id v).latches = s.latches.set .rr (wakeIssued s.latches.rr id v) := rfl
@[simp] theorem State.wakeUp_fwd (s : State) (id : RobId) (v : Word) :
    (s.wakeUp id v).fwd = s.fwd := rfl
@[simp] theorem State.wakeUp_btb (s : State) (id : RobId) (v : Word) :
    (s.wakeUp id v).btb = s.btb := rfl
@[simp] theorem State.wakeUp_pt (s : State) (id : RobId) (v : Word) :
    (s.wakeUp id v).pt = s.pt := rfl
@[simp] theorem State.wakeUp_rob (s : State) (id : RobId) (v : Word) :
    (s.wakeUp id v).rob = s.rob := rfl
@[simp] theorem State.wakeUp_robHead (s : State) (id : RobId) (v : Word) :
    (s.wakeUp id v).robHead = s.robHead := rfl
@[simp] theorem State.wakeUp_robTail (s : State) (id : RobId) (v : Word) :
    (s.wakeUp id v).robTail = s.robTail := rfl
@[simp] theorem State.wakeUp_rs (s : State) (id : RobId) (v : Word) :
    (s.wakeUp id v).rs = s.rs.map fun e => e.map fun l => l.wake id v := rfl
@[simp] theorem State.wakeUp_rsHead (s : State) (id : RobId) (v : Word) :
    (s.wakeUp id v).rsHead = s.rsHead := rfl
@[simp] theorem State.wakeUp_rsTail (s : State) (id : RobId) (v : Word) :
    (s.wakeUp id v).rsTail = s.rsTail := rfl
@[simp] theorem State.wakeUp_stalls (s : State) (id : RobId) (v : Word) :
    (s.wakeUp id v).stalls = s.stalls := rfl
@[simp] theorem State.wakeUp_cycles (s : State) (id : RobId) (v : Word) :
    (s.wakeUp id v).cycles = s.cycles := rfl
@[simp] theorem State.wakeUp_retired (s : State) (id : RobId) (v : Word) :
    (s.wakeUp id v).retired = s.retired := rfl
@[simp] theorem State.wakeUp_status (s : State) (id : RobId) (v : Word) :
    (s.wakeUp id v).status = s.status := rfl
@[simp] theorem State.wakeUp_mem (s : State) (id : RobId) (v : Word) :
    (s.wakeUp id v).mem = s.mem := rfl
@[simp] theorem State.wakeUp_snapshot (s : State) (id : RobId) (v : Word) :
    (s.wakeUp id v).snapshot = s.snapshot := rfl

/-! ## `takeSnapshot` -/

@[simp] theorem State.takeSnapshot_params (s : State) :
    (s.takeSnapshot).params = s.params := rfl
@[simp] theorem State.takeSnapshot_it (s : State) :
    (s.takeSnapshot).it = s.it := rfl
@[simp] theorem State.takeSnapshot_grain (s : State) :
    (s.takeSnapshot).grain = s.grain := rfl
@[simp] theorem State.takeSnapshot_regs (s : State) :
    (s.takeSnapshot).regs = s.regs := rfl
@[simp] theorem State.takeSnapshot_pc (s : State) :
    (s.takeSnapshot).pc = s.pc := rfl
@[simp] theorem State.takeSnapshot_fetchHalt (s : State) :
    (s.takeSnapshot).fetchHalt = s.fetchHalt := rfl
@[simp] theorem State.takeSnapshot_fetchSeq (s : State) :
    (s.takeSnapshot).fetchSeq = s.fetchSeq := rfl
@[simp] theorem State.takeSnapshot_latches (s : State) :
    (s.takeSnapshot).latches = s.latches := rfl
@[simp] theorem State.takeSnapshot_fwd (s : State) :
    (s.takeSnapshot).fwd = s.fwd := rfl
@[simp] theorem State.takeSnapshot_btb (s : State) :
    (s.takeSnapshot).btb = s.btb := rfl
@[simp] theorem State.takeSnapshot_pt (s : State) :
    (s.takeSnapshot).pt = s.pt := rfl
@[simp] theorem State.takeSnapshot_rob (s : State) :
    (s.takeSnapshot).rob = s.rob := rfl
@[simp] theorem State.takeSnapshot_robHead (s : State) :
    (s.takeSnapshot).robHead = s.robHead := rfl
@[simp] theorem State.takeSnapshot_robTail (s : State) :
    (s.takeSnapshot).robTail = s.robTail := rfl
@[simp] theorem State.takeSnapshot_rs (s : State) :
    (s.takeSnapshot).rs = s.rs := rfl
@[simp] theorem State.takeSnapshot_rsHead (s : State) :
    (s.takeSnapshot).rsHead = s.rsHead := rfl
@[simp] theorem State.takeSnapshot_rsTail (s : State) :
    (s.takeSnapshot).rsTail = s.rsTail := rfl
@[simp] theorem State.takeSnapshot_stalls (s : State) :
    (s.takeSnapshot).stalls = s.stalls := rfl
@[simp] theorem State.takeSnapshot_cycles (s : State) :
    (s.takeSnapshot).cycles = s.cycles := rfl
@[simp] theorem State.takeSnapshot_retired (s : State) :
    (s.takeSnapshot).retired = s.retired := rfl
@[simp] theorem State.takeSnapshot_status (s : State) :
    (s.takeSnapshot).status = s.status := rfl
@[simp] theorem State.takeSnapshot_mem (s : State) :
    (s.takeSnapshot).mem = s.mem := rfl
@[simp] theorem State.takeSnapshot_snapshot (s : State) :
    (s.takeSnapshot).snapshot = s.latches.map fun l => l.map fun k => k.idx := rfl

/-! ## `endCycle` -/

@[simp] theorem State.endCycle_params (s : State) (outs : List (Stage × HandlerOut)) :
    (s.endCycle outs).params = s.params := rfl
@[simp] theorem State.endCycle_it (s : State) (outs : List (Stage × HandlerOut)) :
    (s.endCycle outs).it = s.it := rfl
@[simp] theorem State.endCycle_grain (s : State) (outs : List (Stage × HandlerOut)) :
    (s.endCycle outs).grain = s.grain := rfl
@[simp] theorem State.endCycle_regs (s : State) (outs : List (Stage × HandlerOut)) :
    (s.endCycle outs).regs = s.regs := rfl
@[simp] theorem State.endCycle_pc (s : State) (outs : List (Stage × HandlerOut)) :
    (s.endCycle outs).pc = s.pc := rfl
@[simp] theorem State.endCycle_fetchHalt (s : State) (outs : List (Stage × HandlerOut)) :
    (s.endCycle outs).fetchHalt = s.fetchHalt := rfl
@[simp] theorem State.endCycle_fetchSeq (s : State) (outs : List (Stage × HandlerOut)) :
    (s.endCycle outs).fetchSeq = s.fetchSeq := rfl
@[simp] theorem State.endCycle_latches (s : State) (outs : List (Stage × HandlerOut)) :
    (s.endCycle outs).latches = s.latches := rfl
@[simp] theorem State.endCycle_fwd (s : State) (outs : List (Stage × HandlerOut)) :
    (s.endCycle outs).fwd = channelsWritten (committedWrites outs) := rfl
@[simp] theorem State.endCycle_btb (s : State) (outs : List (Stage × HandlerOut)) :
    (s.endCycle outs).btb = s.btb := rfl
@[simp] theorem State.endCycle_pt (s : State) (outs : List (Stage × HandlerOut)) :
    (s.endCycle outs).pt = s.pt := rfl
@[simp] theorem State.endCycle_rob (s : State) (outs : List (Stage × HandlerOut)) :
    (s.endCycle outs).rob = s.rob := rfl
@[simp] theorem State.endCycle_robHead (s : State) (outs : List (Stage × HandlerOut)) :
    (s.endCycle outs).robHead = s.robHead := rfl
@[simp] theorem State.endCycle_robTail (s : State) (outs : List (Stage × HandlerOut)) :
    (s.endCycle outs).robTail = s.robTail := rfl
@[simp] theorem State.endCycle_rs (s : State) (outs : List (Stage × HandlerOut)) :
    (s.endCycle outs).rs = s.rs := rfl
@[simp] theorem State.endCycle_rsHead (s : State) (outs : List (Stage × HandlerOut)) :
    (s.endCycle outs).rsHead = s.rsHead := rfl
@[simp] theorem State.endCycle_rsTail (s : State) (outs : List (Stage × HandlerOut)) :
    (s.endCycle outs).rsTail = s.rsTail := rfl
@[simp] theorem State.endCycle_stalls (s : State) (outs : List (Stage × HandlerOut)) :
    (s.endCycle outs).stalls = s.stalls := rfl
@[simp] theorem State.endCycle_cycles (s : State) (outs : List (Stage × HandlerOut)) :
    (s.endCycle outs).cycles = s.cycles + 1 := rfl
@[simp] theorem State.endCycle_retired (s : State) (outs : List (Stage × HandlerOut)) :
    (s.endCycle outs).retired = s.retired := rfl
@[simp] theorem State.endCycle_status (s : State) (outs : List (Stage × HandlerOut)) :
    (s.endCycle outs).status = if retiresRet outs then .halted else s.status := rfl
@[simp] theorem State.endCycle_mem (s : State) (outs : List (Stage × HandlerOut)) :
    (s.endCycle outs).mem = s.mem := rfl
@[simp] theorem State.endCycle_snapshot (s : State) (outs : List (Stage × HandlerOut)) :
    (s.endCycle outs).snapshot = s.snapshot := rfl

/-! ## `pass` -/

@[simp] theorem State.pass_params (s : State) (i : Instr) (p : Int) :
    (s.pass i p).params = s.params := rfl
@[simp] theorem State.pass_it (s : State) (i : Instr) (p : Int) :
    (s.pass i p).it = s.it := rfl
@[simp] theorem State.pass_grain (s : State) (i : Instr) (p : Int) :
    (s.pass i p).grain = s.grain := rfl
@[simp] theorem State.pass_regs (s : State) (i : Instr) (p : Int) :
    (s.pass i p).regs = s.regs := rfl
@[simp] theorem State.pass_pc (s : State) (i : Instr) (p : Int) :
    (s.pass i p).pc = p := rfl
@[simp] theorem State.pass_fetchHalt (s : State) (i : Instr) (p : Int) :
    (s.pass i p).fetchHalt = s.fetchHalt := rfl
@[simp] theorem State.pass_fetchSeq (s : State) (i : Instr) (p : Int) :
    (s.pass i p).fetchSeq = s.fetchSeq + 1 := rfl
@[simp] theorem State.pass_latches (s : State) (i : Instr) (p : Int) :
    (s.pass i p).latches = s.latches := rfl
@[simp] theorem State.pass_fwd (s : State) (i : Instr) (p : Int) :
    (s.pass i p).fwd = s.fwd := rfl
@[simp] theorem State.pass_btb (s : State) (i : Instr) (p : Int) :
    (s.pass i p).btb = s.btb := rfl
@[simp] theorem State.pass_pt (s : State) (i : Instr) (p : Int) :
    (s.pass i p).pt = s.pt := rfl
@[simp] theorem State.pass_rob (s : State) (i : Instr) (p : Int) :
    (s.pass i p).rob = s.rob := rfl
@[simp] theorem State.pass_robHead (s : State) (i : Instr) (p : Int) :
    (s.pass i p).robHead = pointerAfter (s.usesRob i) s.params.robCap s.robHead := rfl
@[simp] theorem State.pass_robTail (s : State) (i : Instr) (p : Int) :
    (s.pass i p).robTail = pointerAfter (s.usesRob i) s.params.robCap s.robTail := rfl
@[simp] theorem State.pass_rs (s : State) (i : Instr) (p : Int) :
    (s.pass i p).rs = s.rs := rfl
@[simp] theorem State.pass_rsHead (s : State) (i : Instr) (p : Int) :
    (s.pass i p).rsHead = pointerAfter (s.usesRs i) s.params.rsCap s.rsHead := rfl
@[simp] theorem State.pass_rsTail (s : State) (i : Instr) (p : Int) :
    (s.pass i p).rsTail = pointerAfter (s.usesRs i) s.params.rsCap s.rsTail := rfl
@[simp] theorem State.pass_stalls (s : State) (i : Instr) (p : Int) :
    (s.pass i p).stalls = s.stalls := rfl
@[simp] theorem State.pass_cycles (s : State) (i : Instr) (p : Int) :
    (s.pass i p).cycles = s.cycles + s.passCycles i := rfl
@[simp] theorem State.pass_retired (s : State) (i : Instr) (p : Int) :
    (s.pass i p).retired = s.retired + 1 := rfl
@[simp] theorem State.pass_status (s : State) (i : Instr) (p : Int) :
    (s.pass i p).status = s.status := rfl
@[simp] theorem State.pass_mem (s : State) (i : Instr) (p : Int) :
    (s.pass i p).mem = s.mem := rfl
@[simp] theorem State.pass_snapshot (s : State) (i : Instr) (p : Int) :
    (s.pass i p).snapshot = snapshotOnly .rt s.pc.toNat := rfl

/-! ## Accessors after an update -/

theorem PerStage.get_set {α : Type} (l : PerStage α) (a b : Stage) (x : α) :
    (l.set a x).get b = if b = a then x else l.get b := by
  cases a <;> cases b <;> rfl

@[simp] theorem PerStage.get_set_same {α : Type} (l : PerStage α) (a : Stage) (x : α) :
    (l.set a x).get a = x := by
  cases a <;> rfl

@[simp] theorem PerStage.get_const {α : Type} (x : α) (a : Stage) : (PerStage.const x).get a = x := by
  cases a <;> rfl

theorem PerStage.ext_get {α : Type} {l k : PerStage α} (h : ∀ a, l.get a = k.get a) : l = k := by
  cases l; cases k
  simp only [PerStage.mk.injEq]
  exact ⟨h .f, h .d, h .oa, h .rr, h .exa, h .exm, h .exd, h .exb, h .m1, h .m2, h .wb, h .rt⟩

theorem State.latch_setLatch (s : State) (a b : Stage) (l : Option Latch) :
    (s.setLatch a l).latch b = if b = a then l else s.latch b :=
  PerStage.get_set s.latches a b l

@[simp] theorem State.latch_setLatch_same (s : State) (a : Stage) (l : Option Latch) :
    (s.setLatch a l).latch a = l :=
  PerStage.get_set_same s.latches a l

theorem State.latch_setLatch_ne (s : State) {a b : Stage} (l : Option Latch) (h : b ≠ a) :
    (s.setLatch a l).latch b = s.latch b := by
  rw [State.latch_setLatch, if_neg h]

theorem State.regs_setEntry (s : State) (r q : Reg) (e : RegEntry) :
    (s.setEntry r e).regs[q] = if q = r then e else s.regs[q] := by
  simp only [State.setEntry, Fin.getElem_fin, Vector.getElem_set, Fin.ext_iff, eq_comm]

@[simp] theorem State.regs_setEntry_same (s : State) (r : Reg) (e : RegEntry) :
    (s.setEntry r e).regs[r] = e := by
  rw [State.regs_setEntry, if_pos rfl]

theorem State.x_setEntry (s : State) (r q : Reg) (e : RegEntry) :
    (s.setEntry r e).x q = if q = r then e.value else s.x q := by
  unfold State.x; rw [State.regs_setEntry]; split <;> rfl

theorem State.ready_setEntry (s : State) (r q : Reg) (e : RegEntry) :
    (s.setEntry r e).ready q = if q = r then e.readyFlag else s.ready q := by
  unfold State.ready; rw [State.regs_setEntry]; split <;> rfl

theorem State.tag_setEntry (s : State) (r q : Reg) (e : RegEntry) :
    (s.setEntry r e).tag q = if q = r then e.producerTag else s.tag q := by
  unfold State.tag; rw [State.regs_setEntry]; split <;> rfl

theorem State.x_setValue (s : State) (r q : Reg) (v : Word) :
    (s.setValue r v).x q = if q = r then v else s.x q :=
  State.x_setEntry s r q _

@[simp] theorem State.ready_setValue (s : State) (r q : Reg) (v : Word) : (s.setValue r v).ready q = s.ready q := by
  unfold State.setValue; rw [State.ready_setEntry]; split
  · subst q; rfl
  · rfl

@[simp] theorem State.tag_setValue (s : State) (r q : Reg) (v : Word) : (s.setValue r v).tag q = s.tag q := by
  unfold State.setValue; rw [State.tag_setEntry]; split
  · subst q; rfl
  · rfl

@[simp] theorem State.x_setReady (s : State) (r q : Reg) (b : Bool) : (s.setReady r b).x q = s.x q := by
  unfold State.setReady; rw [State.x_setEntry]; split
  · subst q; rfl
  · rfl

theorem State.ready_setReady (s : State) (r q : Reg) (b : Bool) :
    (s.setReady r b).ready q = if q = r then b else s.ready q :=
  State.ready_setEntry s r q _

@[simp] theorem State.tag_setReady (s : State) (r q : Reg) (b : Bool) : (s.setReady r b).tag q = s.tag q := by
  unfold State.setReady; rw [State.tag_setEntry]; split
  · subst q; rfl
  · rfl

@[simp] theorem State.x_setTag (s : State) (r q : Reg) (t : Option RobId) : (s.setTag r t).x q = s.x q := by
  unfold State.setTag; rw [State.x_setEntry]; split
  · subst q; rfl
  · rfl

@[simp] theorem State.ready_setTag (s : State) (r q : Reg) (t : Option RobId) : (s.setTag r t).ready q = s.ready q := by
  unfold State.setTag; rw [State.ready_setEntry]; split
  · subst q; rfl
  · rfl

theorem State.tag_setTag (s : State) (r q : Reg) (t : Option RobId) :
    (s.setTag r t).tag q = if q = r then t else s.tag q :=
  State.tag_setEntry s r q _

theorem State.btb_setBtb (s : State) (i j : Fin 16) (e : BtbEntry) :
    (s.setBtb i e).btb[j] = if j = i then e else s.btb[j] := by
  simp only [State.setBtb, Fin.getElem_fin, Vector.getElem_set, Fin.ext_iff, eq_comm]

theorem State.pt_setPt (s : State) (i j : Fin 16) (c : Fin 8) :
    (s.setPt i c).pt[j] = if j = i then c else s.pt[j] := by
  simp only [State.setPt, Fin.getElem_fin, Vector.getElem_set, Fin.ext_iff, eq_comm]

end Sys2Proof.Machine
end

