-- ==== Sys2Proof/Laws/Cycle.lean ====
section
/-! SUPPORT. What each stage handler can answer, what the commit phase can do, and what one cycle can do, each said once. -/

namespace Sys2Proof.Machine

/-! ## Free and finished latches (R77) -/

theorem handleD_free {s : State} (h : s.latch .d = none) : handleD s = {} := by simp [handleD, h]
theorem handleOA_free {s : State} (h : s.latch .oa = none) : handleOA s = {} := by simp [handleOA, h]
theorem handleRR_free {s : State} (h : s.latch .rr = none) : handleRR s = {} := by simp [handleRR, h]
theorem handleAlu_free {s : State} {st : Stage} (h : s.latch st = none) : handleAlu st s = {} := by
  simp [handleAlu, h]
theorem handleEXB_free {s : State} (h : s.latch .exb = none) : handleEXB s = {} := by simp [handleEXB, h]
theorem handleM1_free {s : State} (h : s.latch .m1 = none) : handleM1 s = {} := by simp [handleM1, h]
theorem handleM2_free {s : State} (h : s.latch .m2 = none) : handleM2 s = {} := by simp [handleM2, h]
theorem handleWB_free {s : State} (h : s.latch .wb = none) : handleWB s = {} := by simp [handleWB, h]
theorem retireLatch_free {s : State} (h : s.latch .rt = none) : retireLatch s = {} := by simp [retireLatch, h]
theorem handleF_idle {s : State} (h : s.fetchRecord = none) : handleF s = {} := by
  simp only [handleF, h]
  split <;> simp_all

theorem handleD_done {s : State} {l : Latch} (h : s.latch .d = some l) (hd : l.done = true) : handleD s = {} := by
  simp [handleD, h, hd]
theorem handleOA_done {s : State} {l : Latch} (h : s.latch .oa = some l) (hd : l.done = true) : handleOA s = {} := by
  simp [handleOA, h, hd]
theorem handleRR_done {s : State} {l : Latch} (h : s.latch .rr = some l) (hd : l.done = true) : handleRR s = {} := by
  simp [handleRR, h, hd]
theorem handleAlu_done {s : State} {st : Stage} {l : Latch} (h : s.latch st = some l) (hd : l.done = true) :
    handleAlu st s = {} := by
  simp [handleAlu, h, hd]
theorem handleEXB_done {s : State} {l : Latch} (h : s.latch .exb = some l) (hd : l.done = true) :
    handleEXB s = {} := by
  simp [handleEXB, h, hd]
theorem handleM1_done {s : State} {l : Latch} (h : s.latch .m1 = some l) (hd : l.done = true) : handleM1 s = {} := by
  simp [handleM1, h, hd]
theorem handleM2_done {s : State} {l : Latch} (h : s.latch .m2 = some l) (hd : l.done = true) : handleM2 s = {} := by
  simp [handleM2, h, hd]
theorem handleWB_done {s : State} {l : Latch} (h : s.latch .wb = some l) (hd : l.done = true) : handleWB s = {} := by
  simp [handleWB, h, hd]
theorem retireLatch_done {s : State} {l : Latch} (h : s.latch .rt = some l) (hd : l.done = true) :
    retireLatch s = {} := by
  simp [retireLatch, h, hd]

/-! ## Everything a handler can answer -/

theorem handleF_cases (s : State) :
    handleF s = {} ∨
      ∃ r, s.latch .f = none ∧ s.fetchRecord = some r ∧
        handleF s = { writes := [.latch .f s.fetchedLatch, .fetchSeqNext, .pc (s.nextPc r)] ++
          (if Opcode.ofCode? r.opcode = some .ret then [.fetchHalt true] else []) } := by
  unfold handleF
  split
  · rename_i r hf hr
    exact .inr ⟨r, hf, hr, rfl⟩
  · exact .inl rfl

theorem handleD_cases (s : State) :
    handleD s = {} ∨
      ∃ l, s.latch .d = some l ∧ l.done = false ∧
        ((∃ i, s.decodeAt l.idx = .ok i ∧ handleD s = { writes := [.latch .d (l.decoded i)] }) ∨
          ∃ e, s.decodeAt l.idx = .error e ∧ handleD s = { signal := some (.abort .malformedInstruction) }) := by
  unfold handleD
  split
  · rename_i l hl
    cases hd : l.done
    · refine .inr ⟨l, hl, hd, ?_⟩
      cases he : s.decodeAt l.idx with
      | ok i => exact .inl ⟨i, rfl, rfl⟩
      | error e => exact .inr ⟨e, rfl, rfl⟩
    · exact .inl rfl
  · exact .inl rfl

theorem handleOA_cases (s : State) :
    handleOA s = {} ∨
      ∃ l, s.latch .oa = some l ∧ l.done = false ∧ handleOA s = { writes := [.latch .oa l.analysed] } := by
  unfold handleOA
  split
  · rename_i l hl
    cases hd : l.done
    · exact .inr ⟨l, hl, hd, rfl⟩
    · exact .inl rfl
  · exact .inl rfl

theorem issueInOrder_cases (s : State) (l : Latch) :
    issueInOrder s l = stalled ∨
      ∃ a b c, s.lookSlot l.s1 l.v1 = some a ∧ s.lookSlot l.s2 l.v2 = some b ∧ s.lookSlot l.s3 l.v3 = some c ∧
        s.destBusy l = false ∧
        issueInOrder s l =
          { writes := .latch .rr { l with v1 := a, v2 := b, v3 := c, done := true } :: busyMark l } := by
  unfold issueInOrder
  split
  · rename_i a b c h1 h2 h3
    cases hd : s.destBusy l
    · exact .inr ⟨a, b, c, h1, h2, h3, rfl, rfl⟩
    · exact .inl rfl
  · exact .inl rfl

theorem issueOutOfOrder_cases (s : State) (l : Latch) :
    issueOutOfOrder s l = stalled ∨
      (isBranch l.op = true ∧ ∃ v, (∀ r, l.s1 = some r → s.tag r = none ∧ v = s.x r) ∧ (l.s1 = none → v = l.v1) ∧
        issueOutOfOrder s l = { writes := [.latch .rr { l with v1 := v, done := true }] }) ∨
      (l.op = .ret ∧ s.drained = true ∧
        issueOutOfOrder s l = { writes := [.latch .rr { l with done := true }] }) ∨
      (isBranch l.op = false ∧ l.op ≠ .ret ∧ (l.dest.isSome = true → s.robFull = false) ∧
        (isRsForm l.op = true → s.rsFull = false) ∧
        issueOutOfOrder s l = { writes := .latch .rr (s.captured l) :: renameWrites s l }) := by
  cases hb : isBranch l.op
  · by_cases hr : l.op = .ret
    · have e : issueOutOfOrder s l = issueRet s l := by simp [issueOutOfOrder, hr, isBranch]
      cases hd : s.drained
      · exact .inl (by simp [e, issueRet, hd])
      · exact .inr (.inr (.inl ⟨hr, rfl, by simp [e, issueRet, hd]⟩))
    · have e : issueOutOfOrder s l = issueRenamed s l := by simp [issueOutOfOrder, hr, hb]
      by_cases hf : ((l.dest.isSome && s.robFull) || (isRsForm l.op && s.rsFull)) = true
      · exact .inl (by rw [e, issueRenamed, if_pos hf])
      · refine .inr (.inr (.inr ⟨rfl, hr, ?_, ?_, by rw [e, issueRenamed, if_neg hf]⟩)) <;>
          simp_all
  · have e : issueOutOfOrder s l = issueBranch s l := by simp [issueOutOfOrder, hb]
    cases h1 : l.s1 with
    | none => exact .inr (.inl ⟨rfl, l.v1, by simp, by simp, by rw [e, issueBranch, h1]⟩)
    | some r =>
      cases ht : s.tag r with
      | none => exact .inr (.inl ⟨rfl, s.x r, by simp [ht], by simp, by simp [e, issueBranch, h1, ht]⟩)
      | some id => exact .inl (by simp [e, issueBranch, h1, ht])

theorem handleRR_cases (s : State) :
    handleRR s = {} ∨
      ∃ l, s.latch .rr = some l ∧ l.done = false ∧
        ((s.params.variant = .inOrder ∧ handleRR s = issueInOrder s l) ∨
          (s.params.variant = .outOfOrder ∧ handleRR s = issueOutOfOrder s l)) := by
  unfold handleRR
  split
  · rename_i l hl
    cases hd : l.done
    · refine .inr ⟨l, hl, hd, ?_⟩
      cases hv : s.params.variant
      · exact .inl ⟨rfl, rfl⟩
      · exact .inr ⟨rfl, rfl⟩
    · exact .inl rfl
  · exact .inl rfl

theorem handleAlu_cases (st : Stage) (s : State) :
    handleAlu st s = {} ∨
      ∃ l, s.latch st = some l ∧ l.done = false ∧
        ((∃ v, aluResult l.op l.v1 l.secondOperand = some (.ok v) ∧
            handleAlu st s = { writes := .latch st { l with result := v, done := true } :: completion s l v }) ∨
          ∃ r, aluResult l.op l.v1 l.secondOperand = some (.error r) ∧
            handleAlu st s = { signal := some (.abort r) }) := by
  unfold handleAlu
  split
  · rename_i l hl
    cases hd : l.done
    · cases ha : aluResult l.op l.v1 l.secondOperand with
      | none => exact .inl (by simp)
      | some e =>
        refine .inr ⟨l, hl, hd, ?_⟩
        cases e with
        | ok v => exact .inl ⟨v, ha, by simp⟩
        | error r => exact .inr ⟨r, ha, by simp⟩
    · exact .inl rfl
  · exact .inl rfl

theorem handleM1_cases (s : State) :
    handleM1 s = {} ∨
      ∃ l, s.latch .m1 = some l ∧ l.done = false ∧ isMemory l.op = true ∧
        handleM1 s = { writes := [.latch .m1 { l with addr := effectiveAddr l.v1 l.addrOffset, done := true }] } := by
  unfold handleM1
  split
  · rename_i l hl
    cases hd : l.done
    · cases hm : isMemory l.op
      · exact .inl rfl
      · exact .inr ⟨l, hl, hd, hm, by simp⟩
    · exact .inl rfl
  · exact .inl rfl

theorem handleM2_cases (s : State) :
    handleM2 s = {} ∨
      ∃ l, s.latch .m2 = some l ∧ l.done = false ∧
        ((isLoad l.op = true ∧ s.inRange l.addr = true ∧
            handleM2 s =
              { writes := .latch .m2 { l with result := s.mem.readWord (widx l.addr), done := true } ::
                  completion s l (s.mem.readWord (widx l.addr)) }) ∨
          (isLoad l.op = false ∧ isStore l.op = true ∧ s.inRange l.addr = true ∧
            handleM2 s = { writes := [.store l.addr l.v3, .latch .m2 { l with done := true }] }) ∨
          ((isLoad l.op = true ∨ isStore l.op = true) ∧ s.inRange l.addr = false ∧
            handleM2 s = { signal := some (.abort .memoryOutOfRange) })) := by
  unfold handleM2
  split
  · rename_i l hl
    cases hd : l.done
    · cases h1 : isLoad l.op
      · cases h2 : isStore l.op
        · exact .inl (by simp)
        · refine .inr ⟨l, hl, hd, ?_⟩
          cases hr : s.inRange l.addr <;> simp [h1, h2]
      · refine .inr ⟨l, hl, hd, ?_⟩
        cases hr : s.inRange l.addr <;> simp [State.memRead, h1, hr]
    · exact .inl rfl
  · exact .inl rfl

theorem handleEXB_cases (s : State) :
    handleEXB s = {} ∨
      ∃ l, s.latch .exb = some l ∧ l.done = false ∧
        ((isBranch l.op = true ∧ handleEXB s = resolveBranch s l) ∨
          (l.op = .ret ∧ handleEXB s = { writes := [.latch .exb { l with done := true }] })) := by
  unfold handleEXB
  split
  · rename_i l hl
    cases hd : l.done
    · cases hb : isBranch l.op
      · by_cases hr : l.op = .ret
        · exact .inr ⟨l, hl, hd, .inr ⟨hr, by simp [hr]⟩⟩
        · exact .inl (by simp [hr])
      · exact .inr ⟨l, hl, hd, .inl ⟨hb, by simp⟩⟩
    · exact .inl rfl
  · exact .inl rfl

theorem handleWB_cases (s : State) :
    handleWB s = {} ∨
      ∃ l, s.latch .wb = some l ∧ l.done = false ∧ handleWB s = { writes := [.latch .wb { l with done := true }] } := by
  unfold handleWB
  split
  · rename_i l hl
    cases hd : l.done
    · exact .inr ⟨l, hl, hd, rfl⟩
    · exact .inl rfl
  · exact .inl rfl

theorem retireLatch_cases (s : State) :
    retireLatch s = {} ∨
      ∃ l, s.latch .rt = some l ∧ l.done = false ∧
        retireLatch s =
          { writes := [.retire, .latch .rt { l with done := true }] ++ retireWrites s l
            signal := if l.op = .ret then some .retireRet else none } := by
  unfold retireLatch
  split
  · rename_i l hl
    cases hd : l.done
    · exact .inr ⟨l, hl, hd, rfl⟩
    · exact .inl rfl
  · exact .inl rfl

/-- What a committing entry is (R140). -/
theorem committing_some {s : State} {e : RobEntry} (h : s.committing = some e) :
    s.params.variant = .outOfOrder ∧ s.robHead ≠ s.robTail ∧ s.robEntry s.robHead = some e ∧
      e.completed = true ∧ e.exception = false := by
  unfold State.committing at h
  split at h
  · cases h
  · rename_i hv
    split at h
    · cases h
    · rename_i hn
      split at h
      · rename_i k hk
        split at h
        · rename_i hc
          cases h
          simp only [Bool.and_eq_true, Bool.not_eq_true'] at hc
          exact ⟨hv, hn, hk, hc.1, hc.2⟩
        · cases h
      · cases h

theorem handleRT_cases (s : State) :
    (s.committing = none ∧ handleRT s = retireLatch s) ∨
      ∃ e, s.committing = some e ∧
        handleRT s =
          { writes := (retireLatch s).writes ++ commitWrites s e
            signal := (retireLatch s).signal
            commit := some (e.id, e.result) } := by
  unfold handleRT
  cases h : s.committing with
  | none => exact .inl ⟨rfl, rfl⟩
  | some e => exact .inr ⟨e, rfl, rfl⟩

/-! ## Pending writes -/

@[simp] theorem State.applyAll_nil (s : State) : s.applyAll [] = s := rfl

@[simp] theorem State.applyAll_cons (s : State) (w : Write) (ws : List Write) :
    s.applyAll (w :: ws) = (s.apply w).applyAll ws := rfl

theorem State.applyAll_append (s : State) (ws us : List Write) :
    s.applyAll (ws ++ us) = (s.applyAll ws).applyAll us :=
  List.foldl_append

/-- What every single write keeps, a list of writes keeps. -/
theorem State.applyAll_induct {P : State → Prop} {ws : List Write} {s : State} (h0 : P s)
    (h : ∀ w ∈ ws, ∀ t, P t → P (t.apply w)) : P (s.applyAll ws) := by
  induction ws generalizing s with
  | nil => exact h0
  | cons w rest ih =>
    exact ih (h w (by simp) s h0) fun u hu t ht => h u (by simp [hu]) t ht

@[simp] theorem State.apply_params (s : State) (w : Write) : (s.apply w).params = s.params := by cases w <;> rfl
@[simp] theorem State.apply_it (s : State) (w : Write) : (s.apply w).it = s.it := by cases w <;> rfl
@[simp] theorem State.apply_grain (s : State) (w : Write) : (s.apply w).grain = s.grain := by cases w <;> rfl
@[simp] theorem State.apply_fwd (s : State) (w : Write) : (s.apply w).fwd = s.fwd := by cases w <;> rfl
@[simp] theorem State.apply_rs (s : State) (w : Write) : (s.apply w).rs = s.rs := by cases w <;> rfl
@[simp] theorem State.apply_rsHead (s : State) (w : Write) : (s.apply w).rsHead = s.rsHead := by cases w <;> rfl
@[simp] theorem State.apply_rsTail (s : State) (w : Write) : (s.apply w).rsTail = s.rsTail := by cases w <;> rfl
@[simp] theorem State.apply_cycles (s : State) (w : Write) : (s.apply w).cycles = s.cycles := by cases w <;> rfl
@[simp] theorem State.apply_status (s : State) (w : Write) : (s.apply w).status = s.status := by cases w <;> rfl
@[simp] theorem State.apply_snapshot (s : State) (w : Write) : (s.apply w).snapshot = s.snapshot := by
  cases w <;> rfl

/-! ## The advance pass -/

/-- What a move can do (R80). -/
theorem State.move_cases (s : State) (src dst : Stage) :
    s.move src dst = s ∨
      ∃ l, s.latch src = some l ∧ s.latch dst = none ∧ l.done = true ∧
        s.move src dst = (s.setLatch dst (some { l with done := false })).setLatch src none := by
  unfold State.move
  split
  · rename_i l hl hd
    cases hk : l.done
    · exact .inl rfl
    · exact .inr ⟨l, hl, hd, hk, rfl⟩
  · exact .inl rfl

theorem State.leaveRT_cases (s : State) : s.leaveRT = s ∨ s.leaveRT = s.setLatch .rt none := by
  unfold State.leaveRT
  split
  · rename_i l hl
    cases hk : l.done
    · exact .inl rfl
    · exact .inr rfl
  · exact .inl rfl

theorem State.arbitrate_cases (s : State) : s.arbitrate = s ∨ ∃ st, s.arbitrate = s.move st .wb := by
  unfold State.arbitrate
  split
  · rename_i st hst
    exact .inr ⟨st, rfl⟩
  · exact .inl rfl

/-- What RS dispatch can do (R144). -/
theorem State.dispatchRs_cases (s : State) :
    s.dispatchRs = s ∨
      ∃ e u, s.params.variant = .outOfOrder ∧ s.rsHead ≠ s.rsTail ∧ s.rs.getD s.rsHead none = some e ∧
        e.unit = some u ∧ e.allReady = true ∧ s.latch (unitStage u) = none ∧
        s.dispatchRs = (s.setLatch (unitStage u) (some { e with done := false })).rsDequeue := by
  unfold State.dispatchRs
  split
  · exact .inl rfl
  · rename_i hv
    split
    · exact .inl rfl
    · rename_i hn
      split
      · exact .inl rfl
      · rename_i e he
        split
        · exact .inl rfl
        · rename_i u hu
          split
          · rename_i hc
            simp only [Bool.and_eq_true, Option.isNone_iff_eq_none] at hc
            exact .inr ⟨e, u, hv, hn, he, hu, hc.1, hc.2, rfl⟩
          · exact .inl rfl

/-- What the RR latch's departure can do (R80, R143). -/
theorem State.leaveRR_cases (s : State) :
    s.leaveRR = s ∨
      ∃ l, s.latch .rr = some l ∧ l.done = true ∧
        ((s.params.variant = .outOfOrder ∧ isRsForm l.op = true ∧ s.leaveRR = (s.rsEnqueue l).setLatch .rr none) ∨
          (¬ (s.params.variant = .outOfOrder ∧ isRsForm l.op = true) ∧
            ∃ u, l.unit = some u ∧ s.leaveRR = s.move .rr (unitStage u))) := by
  unfold State.leaveRR
  split
  · exact .inl rfl
  · rename_i l hl
    cases hd : l.done
    · exact .inl (by simp)
    · by_cases hc : s.params.variant = .outOfOrder ∧ isRsForm l.op = true
      · exact .inr ⟨l, hl, hd, .inl ⟨hc.1, hc.2, by simp [hc]⟩⟩
      · cases hu : l.unit with
        | none => exact .inl (by simp [hc])
        | some u => exact .inr ⟨l, hl, hd, .inr ⟨hc, u, hu, by simp [hc]⟩⟩

/-- A property that latch placement, RS dequeue and RS enqueue keep survives the advance pass. -/
theorem State.advance_induct {P : State → Prop} (hl : ∀ t st l, P t → P (t.setLatch st l))
    (hd : ∀ t, P t → P t.rsDequeue) (he : ∀ t l, P t → P (t.rsEnqueue l)) {s : State} (h : P s) : P s.advance := by
  have mv : ∀ (t : State) (a b : Stage), P t → P (t.move a b) := by
    intro t a b ht
    rcases t.move_cases a b with h | ⟨l, _, _, _, h⟩
    · rw [h]; exact ht
    · rw [h]; exact hl _ _ _ (hl _ _ _ ht)
  have h1 : P s.leaveRT := by
    rcases s.leaveRT_cases with e | e <;> rw [e]
    · exact h
    · exact hl _ _ _ h
  have h2 := mv _ .wb .rt h1
  have h3 : P ((s.leaveRT.move .wb .rt).arbitrate) := by
    rcases (s.leaveRT.move .wb .rt).arbitrate_cases with e | ⟨st, e⟩ <;> rw [e]
    · exact h2
    · exact mv _ _ _ h2
  have h4 := mv _ .m1 .m2 h3
  have h5 : P ((((s.leaveRT.move .wb .rt).arbitrate).move .m1 .m2).dispatchRs) := by
    rcases State.dispatchRs_cases (((s.leaveRT.move .wb .rt).arbitrate).move .m1 .m2) with
      e | ⟨_, _, _, _, _, _, _, _, e⟩ <;> rw [e]
    · exact h4
    · exact hd _ (hl _ _ _ h4)
  have h6 : P (((((s.leaveRT.move .wb .rt).arbitrate).move .m1 .m2).dispatchRs).leaveRR) := by
    rcases State.leaveRR_cases ((((s.leaveRT.move .wb .rt).arbitrate).move .m1 .m2).dispatchRs) with
      e | ⟨_, _, _, ⟨_, _, e⟩ | ⟨_, _, _, e⟩⟩ <;> rw [e]
    · exact h5
    · exact hl _ _ _ (he _ _ h5)
    · exact mv _ _ _ h5
  exact mv _ _ _ (mv _ _ _ (mv _ _ _ h6))

/-! ## The wake-up broadcast -/

/-- What the broadcast does to one record (R142). -/
theorem Latch.wake_woken (l : Latch) (id : RobId) (v : Word) : l.Woken (l.wake id v) id v := by
  constructor
  · exact ⟨fun h => by simp_all [Latch.wake], fun h => by simp_all [Latch.wake]⟩
  · exact ⟨fun h => by simp_all [Latch.wake], fun h => by simp_all [Latch.wake]⟩
  · exact ⟨fun h => by simp_all [Latch.wake], fun h => by simp_all [Latch.wake]⟩
  · exact ⟨rfl, rfl, rfl, rfl, rfl, rfl, rfl, rfl, rfl, rfl, rfl, rfl, rfl⟩

/-- The committing entry is the one the statements speak of (R140). -/
theorem committing_iff (s : State) (e : RobEntry) : s.committing = some e ↔ s.Commits e := by
  constructor
  · intro h
    obtain ⟨h1, h2, h3, h4, h5⟩ := committing_some h
    exact ⟨h1, h2, h3, h4, h5⟩
  · rintro ⟨h1, h2, h3, h4, h5⟩
    simp [State.committing, h1, h2, h3, h4, h5]

/-! ## The cycle -/

/-- What one cycle is: cut short by an abort, or completed (R72, R92). -/
theorem cycle_cases (s : State) :
    (∃ r, abortOf (evaluate s) = some r ∧
        cycle s = (s.applyAll (writesBeforeAbort (evaluate s))).takeAbort r) ∨
      (abortOf (evaluate s) = none ∧
        cycle s = ((commitPhase (evaluate s) s).takeSnapshot.advance).endCycle (evaluate s)) := by
  cases h : abortOf (evaluate s) with
  | none => exact .inr ⟨rfl, by simp only [cycle, h]⟩
  | some r => exact .inl ⟨r, rfl, by simp only [cycle, h]⟩

end Sys2Proof.Machine
end

