-- ==== Sys2Proof/Laws/Memory.lean ====
section
/-! SUPPORT. Laws of the data memory: every memory operation keeps the canonical form, and a byte reads as it was last
written. -/

namespace Sys2Proof.Machine

theorem Memory.wfAbove_mono {lo hi : Nat} (h : lo ≤ hi) {m : Memory} (hm : m.wfAbove hi = true) :
    m.wfAbove lo = true := by
  cases m with
  | nil => rfl
  | cons c rest =>
    simp only [Memory.wfAbove, Bool.and_eq_true, decide_eq_true_eq] at hm ⊢
    exact ⟨⟨h.trans hm.1.1, hm.1.2⟩, hm.2⟩

/-- A byte below every listed address reads as 0. -/
theorem Memory.readByte_below {m : Memory} {lo a : Nat} (hm : m.wfAbove lo = true) (h : a < lo) :
    m.readByte a = 0 := by
  induction m generalizing lo with
  | nil => rfl
  | cons c rest ih =>
    obtain ⟨k, b⟩ := c
    simp only [Memory.wfAbove, Bool.and_eq_true, decide_eq_true_eq] at hm
    rw [Memory.readByte, if_neg (by omega)]
    exact ih hm.2 (by omega)

theorem Memory.wfAbove_writeByte {m : Memory} {lo a : Nat} (b : Byte) (hm : m.wfAbove lo = true) (h : lo ≤ a) :
    (m.writeByte a b).wfAbove lo = true := by
  induction m generalizing lo with
  | nil =>
    rw [Memory.writeByte]
    split
    · rfl
    · rename_i hb
      simp only [Memory.wfAbove, Bool.and_true, Bool.and_eq_true, decide_eq_true_eq, bne_iff_ne]
      exact ⟨h, hb⟩
  | cons c rest ih =>
    obtain ⟨k, c⟩ := c
    have hm' := hm
    simp only [Memory.wfAbove, Bool.and_eq_true, decide_eq_true_eq, bne_iff_ne] at hm'
    obtain ⟨⟨hk, hc⟩, hr⟩ := hm'
    rw [Memory.writeByte]
    split
    · rename_i hlt
      split
      · exact hm
      · rename_i hb
        simp only [Memory.wfAbove, Bool.and_eq_true, decide_eq_true_eq, bne_iff_ne]
        exact ⟨⟨h, hb⟩, ⟨by omega, hc⟩, hr⟩
    · split
      · rename_i heq
        split
        · exact Memory.wfAbove_mono (by omega) hr
        · rename_i hb
          simp only [Memory.wfAbove, Bool.and_eq_true, decide_eq_true_eq, bne_iff_ne]
          exact ⟨⟨h, hb⟩, heq ▸ hr⟩
      · simp only [Memory.wfAbove, Bool.and_eq_true, decide_eq_true_eq, bne_iff_ne]
        exact ⟨⟨hk, hc⟩, ih hr (by omega)⟩

/-- Writing a byte keeps the canonical form. -/
theorem Memory.wf_writeByte {m : Memory} (a : Nat) (b : Byte) (hm : m.wf = true) : (m.writeByte a b).wf = true :=
  Memory.wfAbove_writeByte b hm (Nat.zero_le a)

/-- Writing a word keeps the canonical form. -/
theorem Memory.wf_writeWord {m : Memory} (w : Nat) (v : Word) (hm : m.wf = true) : (m.writeWord w v).wf = true :=
  Memory.wf_writeByte _ _ (Memory.wf_writeByte _ _ (Memory.wf_writeByte _ _ (Memory.wf_writeByte _ _ hm)))

/-- A store keeps the canonical form. -/
theorem State.wf_storeWord {s : State} (a v : Word) (hm : s.mem.wf = true) : (s.storeWord a v).mem.wf = true :=
  Memory.wf_writeWord _ _ hm

/-- `MemWrite` keeps the canonical form. -/
theorem State.wf_memWrite {s t : State} {a v : Word} (hm : s.mem.wf = true) (h : s.memWrite a v = .ok t) :
    t.mem.wf = true := by
  unfold State.memWrite at h
  split at h
  · cases h; exact State.wf_storeWord a v hm
  · cases h

theorem Memory.readByte_writeByte_above {m : Memory} {lo : Nat} (a c : Nat) (b : Byte) (hm : m.wfAbove lo = true) :
    (m.writeByte a b).readByte c = if c = a then b else m.readByte c := by
  induction m generalizing lo with
  | nil =>
    rw [Memory.writeByte]
    split
    · rename_i hb
      simp [Memory.readByte, hb]
    · simp only [Memory.readByte, eq_comm]
  | cons p rest ih =>
    obtain ⟨k, d⟩ := p
    have hw := hm
    simp only [Memory.wfAbove, Bool.and_eq_true, decide_eq_true_eq, bne_iff_ne] at hm
    obtain ⟨⟨hk, hd⟩, hr⟩ := hm
    rw [Memory.writeByte]
    split
    · rename_i hlt
      have below : Memory.readByte ((k, d) :: rest) a = 0 := by
        rw [Memory.readByte, if_neg (by omega)]
        exact Memory.readByte_below hr (by omega)
      split
      · rename_i hb
        split
        · rename_i hc; subst hc; rw [below, hb]
        · rfl
      · rw [Memory.readByte]; simp only [eq_comm]
    · split
      · rename_i heq
        subst heq
        split
        · rename_i hb
          split
          · rename_i hc; subst hc; rw [Memory.readByte_below hr (by omega), hb]
          · rename_i hc; rw [Memory.readByte, if_neg (Ne.symm hc)]
        · by_cases hc : c = a
          · subst hc; simp [Memory.readByte]
          · simp [Memory.readByte, hc, Ne.symm hc]
      · rename_i hne
        by_cases hc : k = c
        · subst hc; simp [Memory.readByte, Ne.symm hne]
        · simp only [Memory.readByte, if_neg hc]; exact ih hr

/-- A byte reads as it was last written. -/
theorem Memory.readByte_writeByte {m : Memory} (a c : Nat) (b : Byte) (hm : m.wf = true) :
    (m.writeByte a b).readByte c = if c = a then b else m.readByte c :=
  Memory.readByte_writeByte_above a c b hm

/-- The empty memory has the canonical form. -/
@[simp] theorem Memory.wf_nil : Memory.wf [] = true := rfl

/-- Memory right after reset has the canonical form. -/
theorem State.wf_reset : State.reset.mem.wf = true := rfl

end Sys2Proof.Machine
end

