-- ==== Sys2Proof/Laws/Exec.lean ====
section
/-! SUPPORT. What the shared operations of the meanings answer, said once, and what one step can do. -/

namespace Sys2Proof.Machine

/-- What one step can do: it runs only a running machine, and answers one cycle, or one whole instruction. -/
theorem step_cases {s t : State} (h : step s = .next t) :
    s.status = .running ∧
      (((s.grain = .clock ∨ s.wholeInstr = none) ∧ t = cycle s) ∨
        ∃ i, s.grain = .instruction ∧ s.wholeInstr = some i ∧ exec i s = .next t) := by
  unfold step at h
  split at h
  · cases h
  · cases h
  · rename_i hr
    refine ⟨hr, ?_⟩
    split at h
    · rename_i hg
      cases h
      exact .inl ⟨.inl hg, rfl⟩
    · rename_i hg
      split at h
      · rename_i i hi
        exact .inr ⟨i, hg, hi, h⟩
      · rename_i hi
        cases h
        exact .inl ⟨.inr hi, rfl⟩

/-- The whole instruction of a step: the pipeline is empty and the record at `pc` decodes to it. -/
theorem wholeInstr_some {s : State} {i : Instr} (h : s.wholeInstr = some i) :
    s.idle = true ∧ s.fetchHalt = false ∧ 0 ≤ s.pc ∧ ∃ w, s.it[s.pc.toNat]? = some w ∧ decode w = .ok i := by
  unfold State.wholeInstr State.nextInstr State.instrAt at h
  split at h
  · rename_i hi
    split at h
    · rename_i hf
      split at h
      · rename_i w hw
        split at h
        · rename_i j hd
          cases h
          exact ⟨hi, hf.1, hf.2, w, hw, hd⟩
        · cases h
      · cases h
    · cases h
  · cases h

/-- Decode's part of every meaning. -/
theorem State.decoded_eq (s : State) (i : Instr) (t : State) :
    s.decoded i t = .next (if i.wellFormed s.params.nreg = true then t else s.abortDecode i) := by
  unfold State.decoded
  split <;> rfl

theorem State.decoded_of_wellFormed {s : State} {i : Instr} (t : State) (h : i.wellFormed s.params.nreg = true) :
    s.decoded i t = .next t := by
  rw [State.decoded_eq, if_pos h]

theorem State.decoded_of_malformed {s : State} {i : Instr} (t : State) (h : i.wellFormed s.params.nreg = false) :
    s.decoded i t = .next (s.abortDecode i) := by
  rw [State.decoded_eq, if_neg (by simp [h])]

/-- Everything an arithmetic meaning can do. -/
theorem State.arith_cases {s t : State} {i : Instr} {d : Reg} {result : Except AbortReason Word}
    (h : s.arith i d result = .next t) :
    (i.wellFormed s.params.nreg = false ∧ t = s.abortDecode i) ∨
      (i.wellFormed s.params.nreg = true ∧
        ((∃ v, result = .ok v ∧ t = s.passWrite i d v) ∨ ∃ r, result = .error r ∧ t = s.abortDivide i r)) := by
  unfold State.arith at h
  rw [State.decoded_eq] at h
  cases hw : i.wellFormed s.params.nreg
  · rw [hw] at h; cases h; exact .inl ⟨rfl, rfl⟩
  · rw [hw] at h
    refine .inr ⟨rfl, ?_⟩
    cases result with
    | ok v => cases h; exact .inl ⟨v, rfl, rfl⟩
    | error r => cases h; exact .inr ⟨r, rfl, rfl⟩

/-- Everything a load can do. -/
theorem State.load_cases {s t : State} {i : Instr} {d : Reg} {a : Word} (h : s.load i d a = .next t) :
    (i.wellFormed s.params.nreg = false ∧ t = s.abortDecode i) ∨
      (i.wellFormed s.params.nreg = true ∧
        ((s.inRange a = true ∧ t = s.passWrite i d (s.mem.readWord (widx a))) ∨
          (s.inRange a = false ∧ t = s.abortMemory i a .memoryOutOfRange))) := by
  unfold State.load State.memRead at h
  rw [State.decoded_eq] at h
  cases hw : i.wellFormed s.params.nreg
  · rw [hw] at h; cases h; exact .inl ⟨rfl, rfl⟩
  · rw [hw] at h
    refine .inr ⟨rfl, ?_⟩
    cases hr : s.inRange a
    · rw [hr] at h; cases h; exact .inr ⟨rfl, rfl⟩
    · rw [hr] at h; cases h; exact .inl ⟨rfl, rfl⟩

@[simp] theorem State.inRange_pass (s : State) (i : Instr) (p : Int) (a : Word) :
    (s.pass i p).inRange a = s.inRange a := rfl

/-- Everything a store can do. -/
theorem State.store_cases {s t : State} {i : Instr} {a v : Word} (h : s.store i a v = .next t) :
    (i.wellFormed s.params.nreg = false ∧ t = s.abortDecode i) ∨
      (i.wellFormed s.params.nreg = true ∧
        ((s.inRange a = true ∧ t = (s.pass i (s.pc + 1)).storeWord a v) ∨
          (s.inRange a = false ∧ t = s.abortMemory i a .memoryOutOfRange))) := by
  unfold State.store State.memWrite at h
  rw [State.decoded_eq, State.inRange_pass] at h
  cases hw : i.wellFormed s.params.nreg
  · rw [hw] at h; cases h; exact .inl ⟨rfl, rfl⟩
  · rw [hw] at h
    refine .inr ⟨rfl, ?_⟩
    cases hr : s.inRange a
    · rw [hr] at h; cases h; exact .inr ⟨rfl, rfl⟩
    · rw [hr] at h; cases h; exact .inl ⟨rfl, rfl⟩

/-- Everything a conditional branch can do. -/
theorem State.branch_cases {s t : State} {i : Instr} {r : Reg} {imm : Word} (h : s.branch i r imm = .next t) :
    (i.wellFormed s.params.nreg = false ∧ t = s.abortDecode i) ∨
      (i.wellFormed s.params.nreg = true ∧
        t = (s.pass i (branchNext (cond i.opcode (s.x r)) s.pc imm)).resolve s.pc (cond i.opcode (s.x r)) imm) := by
  unfold State.branch at h
  rw [State.decoded_eq] at h
  cases hw : i.wellFormed s.params.nreg
  · rw [hw] at h; cases h; exact .inl ⟨rfl, rfl⟩
  · rw [hw] at h; cases h; exact .inr ⟨rfl, rfl⟩

/-- Every meaning answers a next state: the hardware refuses nothing it decodes. -/
theorem exec_next (i : Instr) (s : State) : ∃ t, exec i s = .next t := by
  cases i
  case ret => exact ⟨_, State.decoded_eq s .ret _⟩
  all_goals exact ⟨_, State.decoded_eq s _ _⟩

end Sys2Proof.Machine
end

