-- ==== Sys2Proof/Laws/PerInstr.lean ====
section
/-! SUPPORT. Statements for all instructions, made per instruction: the shape of each constructor's record (rules R57 to
R59). -/

namespace Sys2Proof

/-- The record of an instruction has 0 in every field its format does not use and in the reserved bits, and its opcode
field selects the instruction's own variant (R55, R57, R58, R62). -/
def Laws.RecordShape.Statement (i : Instr) : Prop :=
  i.toRecord.unusedZero i.opcode.format = true ∧ i.toRecord.reserved = 0 ∧
    Opcode.ofCode? i.toRecord.opcode = some i.opcode

theorem Laws.RecordShape.mul (a b : Reg) (imm : Word) : Laws.RecordShape.Statement (.mul a b imm) :=
  ⟨rfl, rfl, rfl⟩

theorem Laws.RecordShape.add (a b : Reg) (imm : Word) : Laws.RecordShape.Statement (.add a b imm) :=
  ⟨rfl, rfl, rfl⟩

theorem Laws.RecordShape.sub (a b : Reg) (imm : Word) : Laws.RecordShape.Statement (.sub a b imm) :=
  ⟨rfl, rfl, rfl⟩

theorem Laws.RecordShape.div (a b : Reg) (imm : Word) : Laws.RecordShape.Statement (.div a b imm) :=
  ⟨rfl, rfl, rfl⟩

theorem Laws.RecordShape.mull (a b c : Reg) : Laws.RecordShape.Statement (.mull a b c) :=
  ⟨rfl, rfl, rfl⟩

theorem Laws.RecordShape.addl (a b c : Reg) : Laws.RecordShape.Statement (.addl a b c) :=
  ⟨rfl, rfl, rfl⟩

theorem Laws.RecordShape.subl (a b c : Reg) : Laws.RecordShape.Statement (.subl a b c) :=
  ⟨rfl, rfl, rfl⟩

theorem Laws.RecordShape.divl (a b c : Reg) : Laws.RecordShape.Statement (.divl a b c) :=
  ⟨rfl, rfl, rfl⟩

theorem Laws.RecordShape.ldI (a b : Reg) (imm : Word) : Laws.RecordShape.Statement (.ldI a b imm) :=
  ⟨rfl, rfl, rfl⟩

theorem Laws.RecordShape.stI (a b : Reg) (imm : Word) : Laws.RecordShape.Statement (.stI a b imm) :=
  ⟨rfl, rfl, rfl⟩

theorem Laws.RecordShape.ldR (a b c : Reg) : Laws.RecordShape.Statement (.ldR a b c) :=
  ⟨rfl, rfl, rfl⟩

theorem Laws.RecordShape.stR (a b c : Reg) : Laws.RecordShape.Statement (.stR a b c) :=
  ⟨rfl, rfl, rfl⟩

theorem Laws.RecordShape.set (a : Reg) (imm : Word) : Laws.RecordShape.Statement (.set a imm) :=
  ⟨rfl, rfl, rfl⟩

theorem Laws.RecordShape.bez (a : Reg) (imm : Word) : Laws.RecordShape.Statement (.bez a imm) :=
  ⟨rfl, rfl, rfl⟩

theorem Laws.RecordShape.bgez (a : Reg) (imm : Word) : Laws.RecordShape.Statement (.bgez a imm) :=
  ⟨rfl, rfl, rfl⟩

theorem Laws.RecordShape.blez (a : Reg) (imm : Word) : Laws.RecordShape.Statement (.blez a imm) :=
  ⟨rfl, rfl, rfl⟩

theorem Laws.RecordShape.bgtz (a : Reg) (imm : Word) : Laws.RecordShape.Statement (.bgtz a imm) :=
  ⟨rfl, rfl, rfl⟩

theorem Laws.RecordShape.bltz (a : Reg) (imm : Word) : Laws.RecordShape.Statement (.bltz a imm) :=
  ⟨rfl, rfl, rfl⟩

theorem Laws.RecordShape.ret : Laws.RecordShape.Statement .ret :=
  ⟨rfl, rfl, rfl⟩

end Sys2Proof
end

