-- ==== Sys2Proof/Tests/Slice0.lean ====
section
/-! SUPPORT. Tests on fixed values, their expected results taken from spec/95_test_vectors.md and from the instruction rules'
examples, and for every obligation with hypotheses a witness: concrete values that meet them together. -/

namespace Sys2Proof.Tests

open Sys2Proof.Machine

/-! ## Well-formedness: each register field of each format out of range on a machine with 16 registers (R57) -/

theorem test_wellFormed_ri_a : (Instr.mul 16 0 0).wellFormed 16 = false := by decide
theorem test_wellFormed_ri_b : (Instr.div 0 16 0).wellFormed 16 = false := by decide
theorem test_wellFormed_rrr_a : (Instr.addl 16 0 0).wellFormed 16 = false := by decide
theorem test_wellFormed_rrr_b : (Instr.subl 0 31 0).wellFormed 16 = false := by decide
theorem test_wellFormed_rrr_c : (Instr.divl 0 0 16).wellFormed 16 = false := by decide
theorem test_wellFormed_ldi_b : (Instr.ldI 0 16 0).wellFormed 16 = false := by decide
theorem test_wellFormed_sti_a : (Instr.stI 16 0 0).wellFormed 16 = false := by decide
theorem test_wellFormed_ldr_c : (Instr.ldR 0 0 16).wellFormed 16 = false := by decide
theorem test_wellFormed_str_c : (Instr.stR 0 0 16).wellFormed 16 = false := by decide
theorem test_wellFormed_set_a : (Instr.set 16 5).wellFormed 16 = false := by decide
theorem test_wellFormed_br_a : (Instr.bltz 16 0).wellFormed 16 = false := by decide
theorem test_wellFormed_accepts : (Instr.stR 15 0 15).wellFormed 16 = true := by decide

/-! ## Decoding: the words of 95_test_vectors.md section 2.1, written out there from R59 -/

theorem test_decode_mul : decode 0x0082000000000007 = .ok (.mul 2 1 7) := by decide
theorem test_decode_add : decode 0x08820000FFFFFFF9 = .ok (.add 2 1 (BitVec.ofInt 32 (-7))) := by decide
theorem test_decode_sub : decode 0x118C000000000001 = .ok (.sub 6 6 1) := by decide
theorem test_decode_div : decode 0x1882000000000002 = .ok (.div 2 1 2) := by decide
theorem test_decode_mull : decode 0x20C2200000000000 = .ok (.mull 3 1 2) := by decide
theorem test_decode_addl : decode 0x28C2200000000000 = .ok (.addl 3 1 2) := by decide
theorem test_decode_subl : decode 0x30C2200000000000 = .ok (.subl 3 1 2) := by decide
theorem test_decode_divl : decode 0x38C2200000000000 = .ok (.divl 3 1 2) := by decide
theorem test_decode_ldI : decode 0x4082000000000008 = .ok (.ldI 2 1 8) := by decide
theorem test_decode_stI : decode 0x4882000000000008 = .ok (.stI 2 1 8) := by decide
theorem test_decode_ldR : decode 0x50C2200000000000 = .ok (.ldR 3 1 2) := by decide
theorem test_decode_stR : decode 0x58C2200000000000 = .ok (.stR 3 1 2) := by decide
theorem test_decode_set : decode 0x6040000000000005 = .ok (.set 1 5) := by decide
theorem test_decode_bez : decode 0x684000000000000C = .ok (.bez 1 12) := by decide
theorem test_decode_bgez : decode 0x704000000000000C = .ok (.bgez 1 12) := by decide
theorem test_decode_blez : decode 0x784000000000000C = .ok (.blez 1 12) := by decide
theorem test_decode_bgtz : decode 0x8040000000000004 = .ok (.bgtz 1 4) := by decide
theorem test_decode_bltz : decode 0x88400000FFFFFFFC = .ok (.bltz 1 (BitVec.ofInt 32 (-4))) := by decide
theorem test_decode_ret : decode 0x9000000000000000 = .ok .ret := by decide

/-- The malformed words of the same section, each refused by name. -/
theorem test_decode_opcode_19 : decode 0x9800000000000000 = .error (.badOpcode 19) := by decide
theorem test_decode_opcode_31 : decode 0xF800000000000000 = .error (.badOpcode 31) := by decide
theorem test_decode_reserved : decode 0x6040000100000005 = .error .reservedBits := by decide
theorem test_decode_unused_b : decode 0x6042000000000005 = .error .unusedField := by decide
theorem test_decode_ret_imm : decode 0x9000000000000001 = .error .unusedField := by decide
theorem test_decode_register : decodeFor 16 0x6400000000000005 = .error .registerRange := by decide
theorem test_encode_sub : encode (.sub 6 6 1) = 0x118C000000000001 := by decide
theorem test_decodeTableWord : decodeTableWord 64 0x58C2200000000000 = some (.stR 3 1 2) := by decide
theorem test_text : (Instr.div 2 1 0).text 1 = "1 div R2 R1 #0" := by decide

/-! ## One instruction: register and memory vectors of 95_test_vectors.md sections 2.2 to 2.4 -/

/-- The next state, if there is one. -/
def after (o : Host.Outcome State Fault Refusal) : Option State :=
  match o with
  | .next t => some t
  | _ => none

/-- One instruction at position 0, registers preset, memory word `w` holding `10 + w`, one whole instruction as the step. -/
def one (v : Variant) (i : Instr) (regs : List (Reg × Int)) : State :=
  { (State.start (Params.testVectors v) [encode i] [10, 11, 12, 13, 14, 15, 16, 17]).preset
      (regs.map fun p => (p.1, wrap p.2)) with
    grain := .instruction }

/-- What one step leaves in a register. -/
def reg (v : Variant) (i : Instr) (regs : List (Reg × Int)) (r : Reg) : Option Int :=
  (after (step (one v i regs))).map fun t => (t.x r).toInt

/-- What one step leaves in a memory word. -/
def word (v : Variant) (i : Instr) (regs : List (Reg × Int)) (w : Nat) : Option Int :=
  (after (step (one v i regs))).map fun t => (t.mem.readWord w).toInt

/-- The run status after one step. -/
def status (v : Variant) (i : Instr) (regs : List (Reg × Int)) : Option Status :=
  (after (step (one v i regs))).map fun t => t.status

/-- The fetch position after one step. -/
def pcAfter (v : Variant) (i : Instr) (regs : List (Reg × Int)) : Option Int :=
  (after (step (one v i regs))).map fun t => t.pc

theorem test_mul_low_word : reg .inOrder (.mul 2 1 65536) [(1, 65536)] 2 = some 0 := by decide
theorem test_mul_signed : reg .outOfOrder (.mul 2 1 3) [(1, -7)] 2 = some (-21) := by decide
theorem test_add_wraps : reg .inOrder (.add 2 1 1) [(1, 2147483647)] 2 = some (-2147483648) := by decide
theorem test_add_same_register : reg .outOfOrder (.add 1 1 1) [(1, 41)] 1 = some 42 := by decide
theorem test_sub_wraps : reg .inOrder (.sub 2 1 1) [(1, -2147483648)] 2 = some 2147483647 := by decide
theorem test_sub_lowest_immediate :
    reg .outOfOrder (.sub 2 1 (wrap (-2147483648))) [(1, 0)] 2 = some (-2147483648) := by decide
theorem test_div_toward_zero : reg .inOrder (.div 2 1 2) [(1, -7)] 2 = some (-3) := by decide
theorem test_div_by_zero : status .outOfOrder (.div 2 1 0) [(1, 0)] = some (.aborted .divideByZero) := by decide
theorem test_mull_wraps : reg .inOrder (.mull 3 1 2) [(1, 46341), (2, 46341)] 3 = some (-2147479015) := by decide
theorem test_addl_wraps : reg .inOrder (.addl 3 1 2) [(1, 2147483647), (2, 2147483647)] 3 = some (-2) := by decide
theorem test_addl_twice : reg .outOfOrder (.addl 3 1 1) [(1, 21)] 3 = some 42 := by decide
theorem test_subl_order : reg .inOrder (.subl 3 1 2) [(1, 5), (2, 7)] 3 = some (-2) := by decide
theorem test_divl_quotient_wraps :
    reg .inOrder (.divl 3 1 2) [(1, -2147483648), (2, -1)] 3 = some (-2147483648) := by decide
theorem test_divl_by_zero : status .inOrder (.divl 3 1 2) [(1, 5)] = some (.aborted .divideByZero) := by decide
theorem test_set : reg .outOfOrder (.set 1 2147483647) [(1, 3)] 1 = some 2147483647 := by decide
theorem test_ldI_misaligned : reg .inOrder (.ldI 2 1 7) [] 2 = some 11 := by decide
theorem test_ldI_negative_address :
    status .inOrder (.ldI 2 1 (wrap (-1))) [] = some (.aborted .memoryOutOfRange) := by decide
theorem test_ldR_wraps : reg .outOfOrder (.ldR 3 1 2) [(1, -2147483648), (2, -2147483648)] 3 = some 10 := by decide
theorem test_ldR_index : reg .inOrder (.ldR 3 1 2) [(1, 40), (2, -20)] 3 = some 15 := by decide
theorem test_stI_misaligned : word .inOrder (.stI 2 1 6) [(2, 99)] 1 = some 99 := by decide
theorem test_stI_out_of_range :
    status .outOfOrder (.stI 2 1 32) [(2, 1)] = some (.aborted .memoryOutOfRange) := by decide
theorem test_stR_value : word .inOrder (.stR 3 1 2) [(1, 8), (2, 4), (3, 6)] 3 = some 6 := by decide
theorem test_stR_one_register : word .outOfOrder (.stR 3 3 3) [(3, 10)] 5 = some 10 := by decide
theorem test_bez_taken : pcAfter .inOrder (.bez 1 12) [] = some 3 := by decide
theorem test_bez_not_taken : pcAfter .outOfOrder (.bez 1 12) [(1, 1)] = some 1 := by decide
theorem test_bgez_zero : pcAfter .inOrder (.bgez 1 12) [] = some 3 := by decide
theorem test_bgez_minus : pcAfter .inOrder (.bgez 1 12) [(1, -1)] = some 1 := by decide
theorem test_blez_lowest : pcAfter .inOrder (.blez 1 12) [(1, -2147483648)] = some 3 := by decide
theorem test_blez_one : pcAfter .inOrder (.blez 1 12) [(1, 1)] = some 1 := by decide
theorem test_bgtz_highest : pcAfter .inOrder (.bgtz 1 4) [(1, 2147483647)] = some 1 := by decide
theorem test_bgtz_zero : pcAfter .outOfOrder (.bgtz 1 12) [] = some 1 := by decide
theorem test_bltz_target_toward_zero : pcAfter .inOrder (.bltz 1 (wrap (-7))) [(1, -3)] = some (-1) := by decide
theorem test_bltz_zero : pcAfter .inOrder (.bltz 1 12) [] = some 1 := by decide
theorem test_ret_halts : status .outOfOrder .ret [] = some .halted := by decide

/-- Seven cycles for a `ret` alone in either build (95_test_vectors.md section 2.4, last line). -/
theorem test_ret_cycles : (after (step (one .inOrder .ret []))).map (fun t => t.cycles) = some 7 := by decide

/-- The word of `set R1 #5` placed for the next step after reset (95_test_vectors.md section 1.1). -/
theorem test_withFetchWord :
    (after (step (State.reset.withFetchWord 64 0x6040000000000005))).map (fun t => (t.x 1, t.retired)) =
      some (5, 1) := by decide

/-! ## Single operations (95_test_vectors.md sections 2.4 and 2.5) -/

/-- The hand-made channels of the precedence vectors. -/
def channels (c : Channels) : State :=
  ({ State.resetWith (Params.testVectors .inOrder) with fwd := c }.setValue 3 99).setReady 3 false

theorem test_lookup_add :
    (channels ⟨some (3, 11), some (3, 22), none, some (3, 44)⟩).lookup 3 = .forwarded 11 := by decide
theorem test_lookup_mul : (channels ⟨none, some (3, 22), none, some (3, 44)⟩).lookup 3 = .forwarded 22 := by decide
theorem test_lookup_busy : (channels ⟨none, none, none, some (4, 44)⟩).lookup 3 = .busy := by decide
theorem test_lookup_regfile : ((channels ⟨none, none, none, none⟩).setReady 3 true).lookup 3 = .regfile 99 := by decide
theorem test_trunc4_toward_zero : [0, 3, 7, 12, -1, -3, -4, -7].map (fun n => trunc4 (wrap n)) =
    [0, 0, 1, 3, 0, 0, -1, -1] := by decide
theorem test_flushTest_rows :
    flushTest true none 3 = true ∧ flushTest true (some 0) 4 = false ∧ flushTest false none 3 = false ∧
      flushTest false (some 0) 3 = false ∧ flushTest false (some 0) 4 = true := by decide
theorem test_malformed_aborts :
    let s := (State.start (Params.testVectors .inOrder) [0x9800000000000000, 0x9000000000000000] [])
    (cycles 3 s).status = .aborted .malformedInstruction ∧ (cycles 3 s).cycles = 1 := by decide

/-! ## Witnesses: concrete values that meet the hypotheses of each obligation that has any, clause by clause -/

/-- The reset state of a build at the sizes of the test vectors. -/
def fresh (v : Variant) : State :=
  State.resetWith (Params.testVectors v)

/-- A latch record of an opcode: destination `R3`, tested or first source `R1`, captured values 7 and 3, immediate 2. -/
def record (op : Opcode) : Latch :=
  { idx := 4, pc := 4, seq := 9, op := op, dest := some 3, s1 := some 1, imm := 2, unit := some (unitOf op), v1 := 7,
    v2 := 3, v3 := 5, addr := 28 }

/-- A branch record: no destination. -/
def branchRecord (op : Opcode) : Latch :=
  { record op with dest := none }

/-- One occupant at work. -/
def working (v : Variant) (st : Stage) (l : Latch) : State :=
  (fresh v).setLatch st (some l)

theorem completes {s : State} (h : (cycle s).status = .running) : s.CycleCompletes := by
  intro r hr
  rw [h] at hr
  cases hr

theorem notFlushing {s : State} (h : s.latch .exb = none) : ¬ s.Flushes := by
  rintro ⟨l, hl, _⟩
  rw [h] at hl
  cases hl

theorem witness_DecodeInvertsEncode : (Instr.stR 15 0 15).wellFormed 16 = true ∧ Instr.ret.wellFormed 1 = true := by
  decide

theorem witness_EncodeInvertsDecode : decode 0x88400000FFFFFFFC = .ok (.bltz 1 (BitVec.ofInt 32 (-4))) := by decide

theorem witness_StepRunsDecodedInstruction :
    (let s := one .outOfOrder (.stR 3 1 2) []
     s.status = .running ∧ s.grain = .instruction ∧ s.idle = true ∧ s.fetchHalt = false ∧ 0 ≤ s.pc ∧
       s.it[s.pc.toNat]? = some 0x58C2200000000000 ∧ decode 0x58C2200000000000 = .ok (.stR 3 1 2)) ∧
    (State.reset.status = .running ∧ State.reset.grain = .clock) ∧
    (let s := working .inOrder .rt (record .add)
     s.status = .running ∧ s.idle = false ∧ s.wholeInstr = none) ∧
    (let s := (one .inOrder .ret []).setFetchHalt true
     s.status = .running ∧ s.fetchHalt = true ∧ s.wholeInstr = none) ∧
    (let s := (one .inOrder .ret []).setPc 1
     s.status = .running ∧ (s.it.length : Int) ≤ s.pc ∧ s.wholeInstr = none) ∧
    (let s := { one .inOrder .ret [] with it := [0x9800000000000000] }
     s.status = .running ∧ s.it[s.pc.toNat]? = some 0x9800000000000000 ∧
       decode 0x9800000000000000 = .error (.badOpcode 19) ∧ s.wholeInstr = none) := by
  decide

theorem witness_TerminalStatusStepsNoMore :
    State.reset.haltRun.status ≠ .running ∧ State.reset.haltRun.status = .halted ∧ (State.reset.takeAbort .divideByZero).status = .aborted .divideByZero := by
  decide

theorem witness_PlacedWordRunsNext :
    decode 0x9000000000000000 = .ok .ret ∧ decode 0x67C0000000000005 = .ok (.set 31 5) := by decide

theorem witness_AddFormsWriteWrappedSum :
    (Instr.add 15 0 (-1)).wellFormed State.reset.params.nreg = true ∧
      (Instr.addl 0 15 15).wellFormed State.reset.params.nreg = true := by decide

theorem witness_SubFormsWriteWrappedDifference :
    (Instr.sub 15 0 (-1)).wellFormed State.reset.params.nreg = true ∧
      (Instr.subl 0 15 15).wellFormed State.reset.params.nreg = true := by decide

theorem witness_MulFormsWriteWrappedProduct :
    (Instr.mul 15 0 (-1)).wellFormed State.reset.params.nreg = true ∧
      (Instr.mull 0 15 15).wellFormed State.reset.params.nreg = true := by decide

theorem witness_DivFormsWriteTruncatedQuotient :
    (Instr.div 15 0 (-1)).wellFormed State.reset.params.nreg = true ∧ (-1 : Word) ≠ 0 ∧
      (Instr.divl 0 15 1).wellFormed State.reset.params.nreg = true ∧ (one .inOrder .ret [(1, 1)]).x 1 ≠ 0 := by decide

theorem witness_DivFormsAbortOnZeroDivisor :
    (Instr.div 15 0 0).wellFormed State.reset.params.nreg = true ∧
      (Instr.divl 0 15 15).wellFormed State.reset.params.nreg = true ∧ State.reset.x 15 = 0 := by decide

theorem witness_SetWritesImmediate : (Instr.set 15 0).wellFormed State.reset.params.nreg = true := by decide

/-- The last byte of the last word is in range, for both address forms. -/
theorem witness_LoadFormsReadSelectedWord :
    let s := one .inOrder .ret [(1, 31)]
    (Instr.ldI 15 0 31).wellFormed s.params.nreg = true ∧ s.inRange (effectiveAddr (s.x 0) 31) = true ∧
      (Instr.ldR 15 0 1).wellFormed s.params.nreg = true ∧ s.inRange (effectiveAddr (s.x 0) (s.x 1)) = true := by decide

theorem witness_StoreFormsWriteSelectedWord :
    let s := one .inOrder .ret [(1, 31)]
    s.mem.wf = true ∧ (Instr.stI 15 0 31).wellFormed s.params.nreg = true ∧
      s.inRange (effectiveAddr (s.x 0) 31) = true ∧ (Instr.stR 15 0 1).wellFormed s.params.nreg = true ∧
      s.inRange (effectiveAddr (s.x 0) (s.x 1)) = true := by decide

/-- The first byte behind the memory, and the byte below it, are out of range. -/
theorem witness_MemoryFormsAbortOutOfRange :
    let s := one .inOrder .ret [(1, -1)]
    (Instr.ldI 15 0 32).wellFormed s.params.nreg = true ∧ s.inRange (effectiveAddr (s.x 0) 32) = false ∧
      (Instr.ldR 15 0 1).wellFormed s.params.nreg = true ∧ s.inRange (effectiveAddr (s.x 0) (s.x 1)) = false := by
  decide

/-- The last register, and values on both sides of every condition. -/
theorem witness_BranchFormsResolveOnSignedRegister :
    let s := one .inOrder .ret [(1, 1), (2, -1)]
    (15 : Reg).val < s.params.nreg ∧ (s.x 15).toInt = 0 ∧ 0 < (s.x 1).toInt ∧ (s.x 2).toInt < 0 := by decide

theorem witness_IllFormedInstructionAbortsInDecode :
    (Instr.set 16 0).wellFormed State.reset.params.nreg = false := by decide

theorem witness_AddressSelectsItsWord : State.reset.inRange 0 = true ∧ State.reset.inRange 31 = true := by decide

theorem witness_WordReadsAsLastWritten : Memory.wf [(0, 1), (7, 255)] = true := by decide

theorem fresh_predictorSound (v : Variant) : (fresh v).PredictorSound := by
  intro i _
  simp [fresh, State.resetWith]

theorem witness_FlushExactlyOnMisprediction : (fresh .inOrder).PredictorSound := fresh_predictorSound .inOrder

theorem witness_LookupFollowsItsPrecedence :
    (channels ⟨some (3, 11), some (3, 22), none, none⟩).fwd.add = some (3, 11) ∧
    (let s := channels ⟨some (4, 11), some (3, 22), none, none⟩
     (∀ u, s.fwd.add ≠ some (3, u)) ∧ s.fwd.mul = some (3, 22)) ∧
    (let s := channels ⟨none, none, some (3, 33), none⟩
     (∀ u, s.fwd.add ≠ some (3, u)) ∧ (∀ u, s.fwd.mul ≠ some (3, u)) ∧ s.fwd.div = some (3, 33)) ∧
    (let s := channels ⟨none, none, none, some (3, 44)⟩
     (∀ u, s.fwd.add ≠ some (3, u)) ∧ (∀ u, s.fwd.mul ≠ some (3, u)) ∧ (∀ u, s.fwd.div ≠ some (3, u)) ∧
       s.fwd.mem = some (3, 44)) ∧
    (let s := channels ⟨none, none, none, some (4, 44)⟩
     (∀ u, s.fwd.add ≠ some (3, u)) ∧ (∀ u, s.fwd.mul ≠ some (3, u)) ∧ (∀ u, s.fwd.div ≠ some (3, u)) ∧
       ∀ u, s.fwd.mem ≠ some (3, u)) := by
  simp [channels, State.setReady, State.setValue, State.setEntry]

/-- A table of a branch, a `ret` and a `set` before Fetch, at a position. -/
def fetching (p : Int) (c : Fin 8) : State :=
  ({ State.start (Params.testVectors .inOrder) [0x684000000000000C, 0x9000000000000000, 0x6040000000000005] [] with
      pc := p }).setPt 0 c

theorem witness_FetchFollowsThePrediction :
    (∀ a ∈ [((0 : Int), (4 : Fin 8)), (0, 3), (1, 3), (2, 3)],
      (fetching a.1 a.2).CycleCompletes ∧ ¬ (fetching a.1 a.2).Flushes ∧ (fetching a.1 a.2).latch .f = none ∧
        (fetching a.1 a.2).fetchHalt = false ∧ 0 ≤ (fetching a.1 a.2).pc ∧
        ∃ r, (fetching a.1 a.2).it[(fetching a.1 a.2).pc.toNat]?.map Record.ofWord = some r) := by
  intro a ha
  simp only [List.mem_cons, List.not_mem_nil, or_false] at ha
  rcases ha with rfl | rfl | rfl | rfl <;>
    exact ⟨completes (by decide), notFlushing (by decide), by decide, by decide, by decide, ⟨_, rfl⟩⟩

/-- A busy source, and a busy destination. -/
theorem witness_InOrderHazardStalls :
    (let s := (working .inOrder .rr (record .add)).setReady 1 false
     s.params.variant = .inOrder ∧ s.WorksOn .rr (record .add) ∧ s.CycleCompletes ∧ ¬ s.Flushes ∧
       s.Hazard (record .add)) ∧
    (let s := (working .inOrder .rr (record .set)).setReady 3 false
     s.params.variant = .inOrder ∧ s.WorksOn .rr (record .set) ∧ s.CycleCompletes ∧ ¬ s.Flushes ∧
       s.Hazard (record .set)) :=
  ⟨⟨by decide, ⟨by decide, by decide⟩, completes (by decide), notFlushing (by decide),
      .inl ⟨1, .inl (by decide), by decide⟩⟩,
    ⟨by decide, ⟨by decide, by decide⟩, completes (by decide), notFlushing (by decide),
      .inr ⟨3, by decide, by decide⟩⟩⟩

/-- A source that a channel holds while its register is busy, and a free destination. -/
theorem witness_InOrderIssueCapturesAndMarksBusy :
    let s := { (working .inOrder .rr (record .add)).setReady 1 false with fwd := ⟨none, some (1, 6), none, none⟩ }
    s.params.variant = .inOrder ∧ s.WorksOn .rr (record .add) ∧ s.CycleCompletes ∧ ¬ s.Flushes ∧
      ¬ s.Hazard (record .add) := by
  refine ⟨by decide, ⟨by decide, by decide⟩, completes (by decide), notFlushing (by decide), ?_⟩
  rintro (⟨r, h | h | h, hb⟩ | ⟨d, h, hb⟩)
  · cases h
    exact absurd hb (by decide)
  · cases h
  · cases h
  · cases h
    exact absurd hb (by decide)

/-- A full ROB, a full RS, a branch on a renamed register, a `ret` before the drain. -/
theorem witness_OutOfOrderStallAllocatesNothing :
    (let s := { working .outOfOrder .rr (record .set) with robTail := 7 }
     s.WorksOn .rr (record .set) ∧ s.CycleCompletes ∧ ¬ s.Flushes ∧ s.HeldBack (record .set)) ∧
    (let s := { working .outOfOrder .rr (branchRecord .stI) with rsTail := 3 }
     s.WorksOn .rr (branchRecord .stI) ∧ s.CycleCompletes ∧ ¬ s.Flushes ∧ s.HeldBack (branchRecord .stI)) ∧
    (let s := (working .outOfOrder .rr (branchRecord .bez)).setTag 1 (some 0)
     s.WorksOn .rr (branchRecord .bez) ∧ s.CycleCompletes ∧ ¬ s.Flushes ∧ s.HeldBack (branchRecord .bez)) ∧
    (let s := (working .outOfOrder .rr (branchRecord .ret)).setLatch .m1 (some (record .ldI))
     s.WorksOn .rr (branchRecord .ret) ∧ s.CycleCompletes ∧ ¬ s.Flushes ∧ s.HeldBack (branchRecord .ret)) :=
  ⟨⟨⟨by decide, by decide⟩, completes (by decide), notFlushing (by decide), .inr (.inr (.inl (by decide)))⟩,
    ⟨⟨by decide, by decide⟩, completes (by decide), notFlushing (by decide), .inr (.inr (.inr (by decide)))⟩,
    ⟨⟨by decide, by decide⟩, completes (by decide), notFlushing (by decide), .inl ⟨by decide, 1, by decide, by decide⟩⟩,
    ⟨⟨by decide, by decide⟩, completes (by decide), notFlushing (by decide), .inr (.inl (by decide))⟩⟩

/-- The destination `R3` still names ROB slot 0, which commits in the same cycle. -/
def renamingCommit : State :=
  (({ working .outOfOrder .rr (record .add) with
      rob := [some ⟨0, 3, 8, true, false⟩, none, none, none, none, none, none, none], robTail := 1 }).setTag 3
    (some 0)).setReady 3 false

theorem witness_OutOfOrderIssueRenames :
    renamingCommit.params.variant = .outOfOrder ∧ renamingCommit.WorksOn .rr (record .add) ∧ renamingCommit.CycleCompletes ∧
      ¬ renamingCommit.Flushes ∧ ¬ renamingCommit.HeldBack (record .add) ∧ isBranch (record .add).op = false ∧
      (record .add).op ≠ .ret ∧ (record .add).dest = some 3 ∧ renamingCommit.robTail < renamingCommit.rob.length := by
  refine ⟨by decide, ⟨by decide, by decide⟩, completes (by decide), notFlushing (by decide), ?_, by decide, by decide,
    by decide, by decide⟩
  rintro (⟨h, _⟩ | ⟨h, _⟩ | ⟨_, _, _, h⟩ | ⟨_, h⟩) <;> exact absurd h (by decide)

theorem witness_UnitsComputeResults :
    ∀ a ∈ [(Stage.exa, Opcode.add), (.exa, .addl), (.exa, .sub), (.exa, .subl), (.exm, .mul), (.exm, .mull),
        (.exd, .div), (.exd, .divl), (.exa, .set)],
      a.1 ∈ [Stage.exa, Stage.exm, Stage.exd] ∧ (working .inOrder a.1 (record a.2)).WorksOn a.1 (record a.2) ∧
        (working .inOrder a.1 (record a.2)).CycleCompletes ∧
        unitOf (record a.2).op ∈ [FuncUnit.exa, FuncUnit.exm, FuncUnit.exd] := by
  intro a ha
  simp only [List.mem_cons, List.not_mem_nil, or_false] at ha
  rcases ha with rfl | rfl | rfl | rfl | rfl | rfl | rfl | rfl | rfl <;>
    exact ⟨by decide, ⟨by decide, by decide⟩, completes (by decide), by decide⟩

/-- A taken branch on the reset counter, and one not taken on a counter of 4 with an instruction at work in RR. -/
theorem witness_FlushSquashesTheFrontAndRedirects :
    (let s := working .inOrder .exb (branchRecord .bgtz)
     s.CycleCompletes ∧ s.WorksOn .exb (branchRecord .bgtz) ∧ isBranch (branchRecord .bgtz).op = true ∧ s.Flushes) ∧
    (let s := (((working .outOfOrder .exb (branchRecord .bez)).setPt 4 4).setBtb 4 ⟨some 16, 2⟩).setLatch .rr
       (some (record .add))
     s.CycleCompletes ∧ s.WorksOn .exb (branchRecord .bez) ∧ isBranch (branchRecord .bez).op = true ∧ s.Flushes) :=
  ⟨⟨completes (by decide), ⟨by decide, by decide⟩, by decide, ⟨_, rfl, by decide⟩⟩,
    ⟨completes (by decide), ⟨by decide, by decide⟩, by decide, ⟨_, rfl, by decide⟩⟩⟩

theorem witness_BranchResolveWritesThePredictor :
    (let s := working .inOrder .exb (branchRecord .bgtz)
     (s.WorksOn .exb (branchRecord .bgtz) ∧ isBranch (branchRecord .bgtz).op = true ∧
       (cycle s).status ≠ .aborted .divideByZero) ∧
     (cycle s).btb[(4 : Fin 16)] ≠ s.btb[(4 : Fin 16)] ∧ (cycle s).pt[(4 : Fin 16)] ≠ s.pt[(4 : Fin 16)]) ∧
    let s := (fresh .inOrder).setBtb 4 ⟨some 16, 2⟩
    (∃ t, step s = .next t) ∧ s.btb[(4 : Fin 16)].tag ≠ none :=
  ⟨⟨⟨⟨by decide, by decide⟩, by decide, by decide⟩, by decide, by decide⟩, ⟨_, rfl⟩, by decide⟩

theorem witness_RegistersWrittenOnlyByRetire :
    (let s := working .inOrder .rt { record .add with result := 9 }
     (cycle s).x 3 ≠ s.x 3 ∧ s.params.variant = .inOrder) ∧
    ((cycle renamingCommit).x 3 ≠ renamingCommit.x 3 ∧ renamingCommit.params.variant = .outOfOrder) := by decide

theorem witness_MemoryWrittenOnlyByStoreInM2 :
    let s := working .inOrder .m2 (branchRecord .stI)
    s.mem.wf = true ∧ (cycle s).mem.readByte 28 ≠ s.mem.readByte 28 := by decide

theorem witness_M2AccessesItsWord :
    (let s := working .inOrder .m2 (branchRecord .stI)
     s.mem.wf = true ∧ s.WorksOn .m2 (branchRecord .stI) ∧ isStore (branchRecord .stI).op = true ∧ s.CycleCompletes) ∧
    (let s := working .outOfOrder .m2 (record .ldR)
     s.WorksOn .m2 (record .ldR) ∧ isLoad (record .ldR).op = true ∧ s.CycleCompletes) :=
  ⟨⟨by decide, ⟨by decide, by decide⟩, by decide, completes (by decide)⟩,
    ⟨⟨by decide, by decide⟩, by decide, completes (by decide)⟩⟩

theorem witness_InOrderRetireWritesBack :
    let s := (working .inOrder .rt (record .add)).setReady 3 false
    s.params.variant = .inOrder ∧ s.WorksOn .rt (record .add) ∧ (record .add).dest = some 3 ∧ s.ready 3 = false :=
  ⟨by decide, ⟨by decide, by decide⟩, by decide, by decide⟩

/-- A completed head entry for `R3`, `R3` naming it or a younger slot, and an RS entry behind the head that awaits it. -/
def committing (tag : Option RobId) (l : Latch) : State :=
  (({ fresh .outOfOrder with
      rob := [some ⟨0, 3, 8, true, false⟩, none, none, none, none, none, none, none]
      robTail := 1
      rs := [some { record .add with t1 := some 0 }, some l, none, none]
      rsTail := 2 }).setTag 3 tag).setReady 3 false

theorem witness_RobHeadCommitsInOrder :
    (∀ tag ∈ [some 0, some 5],
      (committing tag (record .add)).params.variant = .outOfOrder ∧
        (committing tag (record .add)).robHead ≠ (committing tag (record .add)).robTail ∧
        (committing tag (record .add)).robEntry 0 = some ⟨0, 3, 8, true, false⟩ ∧
        (committing tag (record .add)).latch .rr = none) ∧
    (committing (some 0) (record .add)).tag 3 = some 0 ∧ (committing (some 5) (record .add)).tag 3 ≠ some 0 := by decide

theorem committing_commits (tag : Option RobId) (l : Latch) :
    (committing tag l).Commits ⟨0, 3, 8, true, false⟩ :=
  ⟨rfl, (by decide : (0 : Nat) ≠ 1), rfl, rfl, rfl⟩

/-- The RS head and the entry behind it, each awaiting the committing slot in slot 1, 2 or 3; an instruction in RR that has
issued; and one that issues in this cycle and reads the committing register. -/
theorem witness_CommitWakesWaitingEntry :
    (∀ l ∈ [{ record .add with t1 := some 0 }, { record .add with t2 := some 0 }, { record .add with t3 := some 0 }],
      (committing (some 0) l).Commits ⟨0, 3, 8, true, false⟩ ∧ (committing (some 0) l).CycleCompletes ∧
        (committing (some 0) l).rs.getD 0 none = some { record .add with t1 := some 0 } ∧
        0 ≠ (committing (some 0) l).rsTail ∧ 0 = (committing (some 0) l).rsHead ∧
        (committing (some 0) l).rs.getD 1 none = some l ∧ 1 ≠ (committing (some 0) l).rsTail) ∧
    (let w : Latch := { record .set with done := true, t1 := some 0 }
     let s := (committing (some 0) (record .add)).setLatch .rr (some w)
     s.Commits ⟨0, 3, 8, true, false⟩ ∧ s.CycleCompletes ∧ ¬ s.Flushes ∧ s.latch .rr = some w ∧ w.done = true ∧
       s.rsTail < s.rs.length) ∧
    (let w : Latch := { record .mull with s1 := some 3, s2 := some 3, s3 := some 3 }
     let s := (committing (some 0) (record .add)).setLatch .rr (some w)
     s.Commits ⟨0, 3, 8, true, false⟩ ∧ s.CycleCompletes ∧ ¬ s.Flushes ∧ s.WorksOn .rr w ∧ ¬ s.HeldBack w ∧
       isRsForm w.op = true ∧ s.rsTail < s.rs.length ∧ s.tag 3 = some 0) := by
  refine ⟨?_, ⟨⟨rfl, by decide, rfl, rfl, rfl⟩, completes (by decide), notFlushing (by decide), by decide, by decide,
    by decide⟩, ⟨rfl, by decide, rfl, rfl, rfl⟩, completes (by decide), notFlushing (by decide),
    ⟨by decide, by decide⟩, ?_, by decide, by decide, by decide⟩
  · intro l hl
    simp only [List.mem_cons, List.not_mem_nil, or_false] at hl
    rcases hl with rfl | rfl | rfl <;>
      exact ⟨committing_commits _ _, completes (by decide), by decide, by decide, by decide, by decide, by decide⟩
  · rintro (⟨h, _⟩ | ⟨h, _⟩ | ⟨_, _, _, h⟩ | ⟨_, h⟩) <;> exact absurd h (by decide)

/-- A state whose only occupant stands in its own unit keeps the unit classes. -/
theorem working_unitClasses (v : Variant) (u : FuncUnit) (l : Latch) (h : unitOf l.op = u) :
    (working v (unitStage u) l).UnitClasses := by
  constructor
  · intro k hk
    cases u <;> cases hk
  · intro k hk
    cases u <;> cases hk
  · intro k hk
    simp [working, fresh, State.resetWith, State.setLatch] at hk
  · intro w k hk
    cases u <;> cases w <;> cases hk <;> exact h
  · intro k hk
    cases u <;> cases hk

/-- A state whose only occupant is a memory instruction in M2 keeps the unit classes. -/
theorem working_m2_unitClasses (v : Variant) (l : Latch) (h : unitOf l.op = .m1) :
    (working v .m2 l).UnitClasses := by
  constructor
  · intro k hk
    cases hk
  · intro k hk
    cases hk
  · intro k hk
    simp [working, fresh, State.resetWith, State.setLatch] at hk
  · intro w k hk
    cases w <;> cases hk
  · intro k hk
    cases hk
    exact h

/-- Nothing at work; nothing at work but a store in M2; and a result from each of the four writers of a channel. -/
theorem witness_ChannelsLiveOneCycle :
    (let s := { fresh .inOrder with fwd := ⟨some (1, 1), none, none, none⟩ }
     s.CycleCompletes ∧ ∀ st ∈ [Stage.exa, Stage.exm, Stage.exd, Stage.m2], ∀ l, ¬ s.WorksOn st l) ∧
    (let s := working .inOrder .m2 (branchRecord .stI)
     s.CycleCompletes ∧ s.UnitClasses ∧ (∀ st ∈ [Stage.exa, Stage.exm, Stage.exd], ∀ l, ¬ s.WorksOn st l) ∧
       ∀ l, s.WorksOn .m2 l → isLoad l.op = false) ∧
    (∀ a ∈ [(Stage.exa, Opcode.set), (.exm, .mull), (.exd, .div), (.m2, .ldI)],
      (working .inOrder a.1 (record a.2)).params.variant = .inOrder ∧
        (working .inOrder a.1 (record a.2)).CycleCompletes ∧ (working .inOrder a.1 (record a.2)).UnitClasses ∧
        (record a.2).dest = some 3 ∧ (working .inOrder a.1 (record a.2)).WorksOn a.1 (record a.2)) ∧
    isLoad (record .ldI).op = true := by
  refine ⟨⟨completes (by decide), ?_⟩, ⟨completes (by decide), working_m2_unitClasses .inOrder _ rfl, ?_, ?_⟩, ?_,
    by decide⟩
  · intro st hst l hl
    simp only [List.mem_cons, List.not_mem_nil, or_false] at hst
    rcases hst with rfl | rfl | rfl | rfl <;> cases hl.1
  · intro st hst l hl
    simp only [List.mem_cons, List.not_mem_nil, or_false] at hst
    rcases hst with rfl | rfl | rfl <;> cases hl.1
  · intro l hl
    cases hl.1
    decide
  · intro a ha
    simp only [List.mem_cons, List.not_mem_nil, or_false] at ha
    rcases ha with rfl | rfl | rfl | rfl
    · exact ⟨rfl, completes (by decide), working_unitClasses .inOrder .exa _ rfl, rfl, rfl, rfl⟩
    · exact ⟨rfl, completes (by decide), working_unitClasses .inOrder .exm _ rfl, rfl, rfl, rfl⟩
    · exact ⟨rfl, completes (by decide), working_unitClasses .inOrder .exd _ rfl, rfl, rfl, rfl⟩
    · exact ⟨rfl, completes (by decide), working_m2_unitClasses .inOrder _ rfl, rfl, rfl, rfl⟩

/-- Two candidates, the younger in the earlier unit. -/
def contending : State :=
  ((fresh .inOrder).setLatch .exa (some { record .add with done := true, seq := 5 })).setLatch .m2
    (some { record .ldI with done := true, seq := 4 })

theorem contending_unitClasses : contending.UnitClasses := by
  constructor
  · intro k hk
    cases hk
  · intro k hk
    cases hk
  · intro k hk
    simp [contending, fresh, State.resetWith, State.setLatch] at hk
  · intro w k hk
    cases w <;> cases hk
    rfl
  · intro k hk
    cases hk
    rfl

/-- Two candidates before a free and before an occupied Writeback, the older of two occupants, and no occupant at all. -/
theorem witness_OldestCandidateEntersWriteback :
    (contending.latch .wb = none ∧ contending.oldestFeeder = some .m2 ∧
      contending.latch .m2 = some { record .ldI with done := true, seq := 4 }) ∧
    (working .inOrder .wb (record .add)).latch .wb ≠ none ∧
    (contending.CycleCompletes ∧ contending.UnitClasses ∧
      contending.OldestInFeeders .m2 { record .ldI with done := true, seq := 4 }) ∧
    ((fresh .inOrder).oldestFeeder = none ∧ (fresh .inOrder).CycleCompletes ∧
      ∀ st ∈ wbFeeders, (fresh .inOrder).latch st = none) := by
  refine ⟨by decide, by decide, ⟨completes (by decide), contending_unitClasses, by decide, by decide, ?_⟩,
    by decide, completes (by decide), by decide⟩
  intro other ho hne m hm
  simp only [wbFeeders, List.mem_cons, List.not_mem_nil, or_false] at ho
  rcases ho with rfl | rfl | rfl | rfl | rfl
  · cases hm
    decide
  · cases hm
  · cases hm
  · cases hm
  · exact absurd rfl hne

theorem witness_CycleMovesItsCounters :
    (let s := working .inOrder .rt (record .add)
     s.status = .running ∧ (∃ l, s.WorksOn .rt l) ∧ s.CycleCompletes) ∧
    (let s := working .inOrder .exd { record .divl with v2 := 0 }
     s.status = .running ∧ (¬ ∃ l, s.WorksOn .rt l) ∧ ¬ s.CycleCompletes) := by
  refine ⟨⟨by decide, ⟨_, rfl, rfl⟩, completes (by decide)⟩, by decide, ?_, ?_⟩
  · rintro ⟨l, h, _⟩
    cases h
  · intro h
    exact h .divideByZero (by decide)

theorem witness_DivideAbortComesFirst :
    let s := working .outOfOrder .exd { record .divl with v2 := 0 }
    s.UnitClasses ∧ s.WorksOn .exd { record .divl with v2 := 0 } ∧ ({ record .divl with v2 := 0 } : Latch).secondOperand = 0 :=
  ⟨working_unitClasses .outOfOrder .exd _ rfl, ⟨by decide, by decide⟩, by decide⟩

/-- A `ret` that retires, and one run whole. -/
theorem witness_OnlyRetHalts :
    (∃ t, step (working .inOrder .rt (branchRecord .ret)) = .next t ∧ t.status = .halted) ∧
      ∃ t, step (one .outOfOrder .ret []) = .next t ∧ t.status = .halted :=
  ⟨⟨_, rfl, rfl⟩, ⟨_, rfl, rfl⟩⟩

theorem witness_AbortsOnlyForTheirCauses :
    (∃ t, step (one .inOrder (.div 2 1 0) []) = .next t ∧ t.status = .aborted .divideByZero) ∧
    ((∃ t, step (working .inOrder .exd { record .divl with v2 := 0 }) = .next t ∧
        t.status = .aborted .divideByZero) ∧
      (working .inOrder .exd { record .divl with v2 := 0 }).UnitClasses) ∧
    (∃ t, step (one .inOrder (.ldI 2 1 32) []) = .next t ∧ t.status = .aborted .memoryOutOfRange) ∧
    (∃ t, step (working .outOfOrder .m2 { record .ldI with addr := 32 }) = .next t ∧
      t.status = .aborted .memoryOutOfRange) ∧
    (∃ t, step (one .inOrder (.set 16 5) []) = .next t ∧ t.status = .aborted .malformedInstruction) ∧
    ∃ t, step (working .inOrder .d { record .add with idx := 4 }) = .next t ∧
      t.status = .aborted .malformedInstruction :=
  ⟨⟨_, rfl, rfl⟩, ⟨⟨_, rfl, rfl⟩, working_unitClasses .inOrder .exd _ rfl⟩, ⟨_, rfl, rfl⟩, ⟨_, rfl, rfl⟩, ⟨_, rfl, rfl⟩,
    ⟨_, rfl, rfl⟩⟩

theorem witness_HungRunNeverEnds : State.reset.Hung :=
  ⟨rfl, rfl, rfl, rfl, .inr (.inr (by decide))⟩

theorem witness_ResetMeetsTheInvariants :
    (Params.testVectors .inOrder).Legal ∧ (⟨.outOfOrder, 32, 1, 2, 2⟩ : Params).Legal := by decide

/-! ### Invariants: a state that meets each of them and has a next state -/

theorem committing_sized : (committing (some 0) (record .add)).Sized := by
  constructor <;> decide

theorem committing_robRing : (committing (some 0) (record .add)).RobRing := by
  intro k hk
  have h8 : k < 8 := hk
  unfold inRing
  interval_cases k
  · exact ⟨by decide, fun e he => by cases he; rfl⟩
  all_goals exact ⟨by decide, fun e he => by cases he⟩

theorem committing_rsRing : (committing (some 0) (record .add)).RsRing := by
  constructor
  · intro k hk
    have h4 : k < 4 := hk
    unfold inRing
    interval_cases k <;> decide
  · intro _ _ l hl
    cases hl

theorem committing_next : ∃ t, step (committing (some 0) (record .add)) = .next t := ⟨_, rfl⟩

theorem witness_StepKeepsMemoryCanonical :
    (working .inOrder .m2 (branchRecord .stI)).mem.wf = true ∧
      ∃ t, step (working .inOrder .m2 (branchRecord .stI)) = .next t := ⟨by decide, _, rfl⟩

theorem witness_StepKeepsItsArguments : ∃ t, step (one .inOrder (.stI 2 1 6) []) = .next t := ⟨_, rfl⟩

theorem witness_StepKeepsRingSizes :
    (committing (some 0) (record .add)).Sized ∧ ∃ t, step (committing (some 0) (record .add)) = .next t :=
  ⟨committing_sized, committing_next⟩

theorem witness_StepKeepsRobRing :
    (committing (some 0) (record .add)).Sized ∧ (committing (some 0) (record .add)).RobRing ∧
      ∃ t, step (committing (some 0) (record .add)) = .next t :=
  ⟨committing_sized, committing_robRing, committing_next⟩

theorem witness_StepKeepsRsRing :
    (committing (some 0) (record .add)).Sized ∧ (committing (some 0) (record .add)).RsRing ∧
      ∃ t, step (committing (some 0) (record .add)) = .next t :=
  ⟨committing_sized, committing_rsRing, committing_next⟩

theorem witness_StepKeepsPredictorSound :
    (working .inOrder .exb (branchRecord .bgtz)).PredictorSound ∧
      ∃ t, step (working .inOrder .exb (branchRecord .bgtz)) = .next t :=
  ⟨fresh_predictorSound .inOrder, _, rfl⟩

theorem witness_StepKeepsReadyUntagged :
    renamingCommit.params.variant = .outOfOrder ∧ renamingCommit.ReadyUntagged ∧ ∃ t, step renamingCommit = .next t := by
  refine ⟨by decide, ?_, _, rfl⟩
  unfold State.ReadyUntagged
  decide

theorem witness_InOrderBuildNeverRenames :
    (working .inOrder .rr (record .add)).params.variant = .inOrder ∧ (working .inOrder .rr (record .add)).Untagged ∧
      ∃ t, step (working .inOrder .rr (record .add)) = .next t := by
  refine ⟨by decide, ?_, _, rfl⟩
  unfold State.Untagged
  decide

theorem witness_OutOfOrderBuildNeverForwards :
    (working .outOfOrder .exa (record .add)).params.variant = .outOfOrder ∧
      (working .outOfOrder .exa (record .add)).ChannelsEmpty ∧
      ∃ t, step (working .outOfOrder .exa (record .add)) = .next t := ⟨by decide, rfl, _, rfl⟩

theorem witness_StepKeepsUnitClasses :
    (working .inOrder .m1 (record .ldR)).UnitClasses ∧ ∃ t, step (working .inOrder .m1 (record .ldR)) = .next t :=
  ⟨working_unitClasses .inOrder .m1 _ rfl, _, rfl⟩

/-! ### A pass alone -/

/-- One instruction alone before the empty pipeline is isolated. -/
theorem one_isolated (v : Variant) (i : Instr) (hn : (one v i []).nextInstr = some i)
    (ht : isBranch i.opcode = true → (one v i []).outside (trunc4 (slots i).imm)) : (one v i []).Isolated i := by
  refine ⟨rfl, ?_, hn, ?_, ?_, ?_, ?_, .inr (Int.le_refl 1), ht⟩
  · cases v <;> rfl
  · constructor
    · exact (by decide : (1 : Nat) ≤ 16 ∧ 16 ≤ 32 ∧ 1 ≤ 8 ∧ 2 ≤ 8 ∧ 2 ≤ 4)
    · rfl
    · rfl
    · exact (by decide : 0 < 8)
    · exact (by decide : 0 < 8)
    · exact (by decide : 0 < 4)
    · exact (by decide : 0 < 4)
  · intro e he
    exact List.eq_of_mem_replicate he
  · intro e he
    exact List.eq_of_mem_replicate he
  · intro k _
    simp [one, State.preset, State.start, State.resetWith]

theorem witness_IsolatedPassMatchesExecInOrder :
    ((one .inOrder (.stI 2 1 6) []).Isolated (.stI 2 1 6) ∧
      ∃ t, exec (.stI 2 1 6) (one .inOrder (.stI 2 1 6) []) = .next t) ∧
    (one .inOrder (.bez 1 12) []).Isolated (.bez 1 12) ∧
      ∃ t, exec (.bez 1 12) (one .inOrder (.bez 1 12) []) = .next t :=
  ⟨⟨one_isolated _ _ (by decide) (fun h => by cases h), _, rfl⟩,
    ⟨one_isolated _ _ (by decide) (fun _ => .inr (by decide)), _, rfl⟩⟩

theorem witness_IsolatedPassMatchesExecOutOfOrder :
    ((one .outOfOrder (.div 2 1 0) []).Isolated (.div 2 1 0) ∧
      ∃ t, exec (.div 2 1 0) (one .outOfOrder (.div 2 1 0) []) = .next t) ∧
    (one .outOfOrder (.bez 1 12) []).Isolated (.bez 1 12) ∧
      ∃ t, exec (.bez 1 12) (one .outOfOrder (.bez 1 12) []) = .next t :=
  ⟨⟨one_isolated _ _ (by decide) (fun h => by cases h), _, rfl⟩,
    ⟨one_isolated _ _ (by decide) (fun _ => .inr (by decide)), _, rfl⟩⟩

end Sys2Proof.Tests
end

section
/-! SUPPORT. No step changes the arguments of a run (R7, R26) or the grain. First, two general lemmas: what survives the
commit phase, and which of the shared shapes each instruction's meaning has. -/

namespace Sys2Proof.Machine

/-- A property that every committed write, the flush and the wake-up keep survives the commit phase (R78, R79, R142). -/
theorem commitPhase_induct {P : State → Prop} {outs : List (Stage × HandlerOut)} {s : State} (h0 : P s)
    (hw : ∀ w ∈ committedWrites outs, ∀ t, P t → P (t.apply w)) (hf : ∀ t p, P t → P (t.flush p))
    (hu : ∀ t id v, P t → P (t.wakeUp id v)) : P (commitPhase outs s) := by
  have written : P (s.applyAll (committedWrites outs)) := State.applyAll_induct h0 hw
  unfold commitPhase
  cases flushOf outs with
  | none => cases commitOf outs with
    | none => exact written
    | some c => exact hu _ _ _ written
  | some p => cases commitOf outs with
    | none => exact hf _ _ written
    | some c => exact hu _ _ _ (hf _ _ written)

/-- The second operand of an instruction run alone: the value of its second source, or its immediate (R155, R171). -/
def State.secondValue (s : State) (i : Instr) : Word :=
  (slots i).s2.elim (slots i).imm s.x

/-- Every meaning has one of the four shared shapes of Machine/Alone.lean, or is that of `ret`. -/
theorem exec_shape (i : Instr) (s : State) :
    (∃ d result, (slots i).dest = some d ∧
        aluResult i.opcode (s.slotValue (slots i).s1) (s.secondValue i) = some result ∧
        exec i s = s.arith i d result) ∨
      (∃ d, isLoad i.opcode = true ∧ (slots i).dest = some d ∧
        exec i s = s.load i d (effectiveAddr (s.slotValue (slots i).s1) (s.secondValue i))) ∨
      (isStore i.opcode = true ∧
        exec i s =
          s.store i (effectiveAddr (s.slotValue (slots i).s1) (s.secondValue i)) (s.slotValue (slots i).s3)) ∨
      (∃ r, isBranch i.opcode = true ∧ (slots i).s1 = some r ∧ exec i s = s.branch i r (slots i).imm) ∨
      (i = .ret ∧ exec i s = s.decoded i (((s.pass i (s.pc + 1)).setFetchHalt true).haltRun)) := by
  cases i with
  | mul | add | sub | div | mull | addl | subl | divl | set => exact .inl ⟨_, _, rfl, rfl, rfl⟩
  | ldI | ldR => exact .inr (.inl ⟨_, rfl, rfl, rfl⟩)
  | stI | stR => exact .inr (.inr (.inl ⟨rfl, rfl⟩))
  | bez | bgez | blez | bgtz | bltz => exact .inr (.inr (.inr (.inl ⟨_, rfl, rfl, rfl⟩)))
  | ret => exact .inr (.inr (.inr (.inr ⟨rfl, rfl⟩)))

/-! ## A cycle keeps the arguments -/

theorem KeepsArguments.refl (s : State) : KeepsArguments s s :=
  ⟨rfl, rfl, rfl⟩

theorem KeepsArguments.trans {s t u : State} (h : KeepsArguments s t) (k : KeepsArguments t u) :
    KeepsArguments s u := by
  obtain ⟨params, it, grain⟩ := h
  obtain ⟨params', it', grain'⟩ := k
  exact ⟨params'.trans params, it'.trans it, grain'.trans grain⟩

theorem apply_keepsArguments (s : State) (w : Write) : KeepsArguments s (s.apply w) :=
  ⟨s.apply_params w, s.apply_it w, s.apply_grain w⟩

theorem applyAll_keepsArguments (s : State) (ws : List Write) : KeepsArguments s (s.applyAll ws) :=
  State.applyAll_induct (.refl s) fun w _ t h => h.trans (apply_keepsArguments t w)

theorem commitPhase_keepsArguments (outs : List (Stage × HandlerOut)) (s : State) :
    KeepsArguments s (commitPhase outs s) :=
  commitPhase_induct (.refl s) (fun w _ t h => h.trans (apply_keepsArguments t w))
    (fun _ _ h => h.trans ⟨rfl, rfl, rfl⟩) (fun _ _ _ h => h.trans ⟨rfl, rfl, rfl⟩)

theorem advance_keepsArguments (s : State) : KeepsArguments s s.advance :=
  State.advance_induct (fun _ _ _ h => h.trans ⟨rfl, rfl, rfl⟩) (fun _ h => h.trans ⟨rfl, rfl, rfl⟩)
    (fun _ _ h => h.trans ⟨rfl, rfl, rfl⟩) (.refl s)

theorem cycle_keepsArguments (s : State) : KeepsArguments s (cycle s) := by
  rcases cycle_cases s with ⟨r, _, aborted⟩ | ⟨_, completed⟩
  · rw [aborted]
    have written : KeepsArguments s (s.applyAll (writesBeforeAbort (evaluate s))) := applyAll_keepsArguments s _
    exact written.trans ⟨rfl, rfl, rfl⟩
  · rw [completed]
    have committed : KeepsArguments s (commitPhase (evaluate s) s).takeSnapshot :=
      (commitPhase_keepsArguments (evaluate s) s).trans ⟨rfl, rfl, rfl⟩
    have advanced := committed.trans (advance_keepsArguments _)
    exact advanced.trans ⟨rfl, rfl, rfl⟩

/-! ## An instruction's whole pass keeps the arguments -/

theorem pass_keepsArguments (s : State) (i : Instr) (next : Int) : KeepsArguments s (s.pass i next) :=
  ⟨s.pass_params i next, s.pass_it i next, s.pass_grain i next⟩

theorem resolve_keepsArguments (s : State) (p : Int) (taken : Bool) (imm : Word) :
    KeepsArguments s (s.resolve p taken imm) :=
  ⟨rfl, rfl, rfl⟩

theorem markIssued_keepsArguments (s : State) (i : Instr) : KeepsArguments s (s.markIssued i) := by
  unfold State.markIssued
  cases (slots i).dest with
  | none => exact .refl s
  | some d => cases s.params.variant with
    | inOrder => exact ⟨rfl, rfl, rfl⟩
    | outOfOrder => exact ⟨rfl, rfl, rfl⟩

theorem abortIn_keepsArguments (s : State) (i : Instr) (st : Stage) (a : Word) (before : Nat)
    (shown : PerStage (Option Nat)) (r : AbortReason) : KeepsArguments s (s.abortIn i st a before shown r) :=
  (markIssued_keepsArguments s i).trans ⟨rfl, rfl, rfl⟩

theorem abortDivide_keepsArguments (s : State) (i : Instr) (r : AbortReason) :
    KeepsArguments s (s.abortDivide i r) := by
  unfold State.abortDivide
  split
  · exact abortIn_keepsArguments ..
  · exact abortIn_keepsArguments ..

theorem abortMemory_keepsArguments (s : State) (i : Instr) (a : Word) (r : AbortReason) :
    KeepsArguments s (s.abortMemory i a r) :=
  abortIn_keepsArguments ..

theorem abortDecode_keepsArguments (s : State) (i : Instr) : KeepsArguments s (s.abortDecode i) :=
  ⟨rfl, rfl, rfl⟩

theorem exec_keepsArguments {i : Instr} {s t : State} (h : exec i s = .next t) : KeepsArguments s t := by
  rcases exec_shape i s with
    ⟨d, result, _, _, arith⟩ | ⟨d, _, _, load⟩ | ⟨_, store⟩ | ⟨r, _, _, branch⟩ | ⟨_, ret⟩
  · rcases State.arith_cases (arith ▸ h) with ⟨_, rfl⟩ | ⟨_, ⟨v, _, rfl⟩ | ⟨e, _, rfl⟩⟩
    · exact abortDecode_keepsArguments s i
    · exact (pass_keepsArguments s i (s.pc + 1)).trans ⟨rfl, rfl, rfl⟩
    · exact abortDivide_keepsArguments s i e
  · rcases State.load_cases (load ▸ h) with ⟨_, rfl⟩ | ⟨_, ⟨_, rfl⟩ | ⟨_, rfl⟩⟩
    · exact abortDecode_keepsArguments s i
    · exact (pass_keepsArguments s i (s.pc + 1)).trans ⟨rfl, rfl, rfl⟩
    · exact abortMemory_keepsArguments s i _ _
  · rcases State.store_cases (store ▸ h) with ⟨_, rfl⟩ | ⟨_, ⟨_, rfl⟩ | ⟨_, rfl⟩⟩
    · exact abortDecode_keepsArguments s i
    · exact (pass_keepsArguments s i (s.pc + 1)).trans ⟨rfl, rfl, rfl⟩
    · exact abortMemory_keepsArguments s i _ _
  · rcases State.branch_cases (branch ▸ h) with ⟨_, rfl⟩ | ⟨_, rfl⟩
    · exact abortDecode_keepsArguments s i
    · exact (pass_keepsArguments s i _).trans (resolve_keepsArguments ..)
  · rw [ret, State.decoded_eq] at h
    split at h <;> cases h
    · exact (pass_keepsArguments s i (s.pc + 1)).trans ⟨rfl, rfl, rfl⟩
    · exact abortDecode_keepsArguments s i

/-- Settles O50: a step is a cycle or one whole instruction, and neither changes the arguments. -/
theorem stepKeepsItsArguments : Obligations.StepKeepsItsArguments := by
  intro s t h
  obtain ⟨_, ⟨_, rfl⟩ | ⟨i, _, _, ran⟩⟩ := step_cases h
  · exact cycle_keepsArguments s
  · exact exec_keepsArguments ran

end Sys2Proof.Machine
end

section
/-! SUPPORT. One cycle whose handlers are silent but for a few: the cycle depends only on the answers that are not
empty, so the cycle of a machine with one occupied latch is that latch's handler followed by one move (R72 to R83). -/

namespace Sys2Proof.Machine

/-! ## The cycle on given answers -/

/-- The body of `cycle`, on any handler answers (R72, R92). -/
def cycleOn (outs : List (Stage × HandlerOut)) (s : State) : State :=
  match abortOf outs with
  | some r => (s.applyAll (writesBeforeAbort outs)).takeAbort r
  | none => ((commitPhase outs s).takeSnapshot.advance).endCycle outs

theorem cycle_eq_cycleOn (s : State) : cycle s = cycleOn (evaluate s) s := rfl

/-- The handler answered something. -/
def speaks (o : Stage × HandlerOut) : Bool :=
  decide (o.2 ≠ {})

theorem eq_empty_of_not_speaks {o : Stage × HandlerOut} (h : ¬ speaks o = true) : o.2 = {} := by
  simpa [speaks] using h

/-- A search that passes over empty answers finds the same without them. -/
theorem findSome?_filter_speaks {β : Type} (f : Stage × HandlerOut → Option β) (passes : ∀ st, f (st, {}) = none)
    (outs : List (Stage × HandlerOut)) : (outs.filter speaks).findSome? f = outs.findSome? f := by
  induction outs with
  | nil => rfl
  | cons o rest ih =>
    by_cases h : speaks o = true
    · rw [List.filter_cons_of_pos h, List.findSome?_cons, List.findSome?_cons, ih]
    · have found : f o = none := by
        rw [← passes o.1, ← eq_empty_of_not_speaks h]
      rw [List.filter_cons_of_neg h, List.findSome?_cons, found, ih]

theorem abortOf_filter_speaks (outs : List (Stage × HandlerOut)) : abortOf (outs.filter speaks) = abortOf outs :=
  findSome?_filter_speaks _ (fun _ => rfl) outs

theorem flushOf_filter_speaks (outs : List (Stage × HandlerOut)) : flushOf (outs.filter speaks) = flushOf outs :=
  findSome?_filter_speaks _ (fun _ => rfl) outs

theorem commitOf_filter_speaks (outs : List (Stage × HandlerOut)) : commitOf (outs.filter speaks) = commitOf outs :=
  findSome?_filter_speaks _ (fun _ => rfl) outs

theorem retiresRet_filter_speaks (outs : List (Stage × HandlerOut)) :
    retiresRet (outs.filter speaks) = retiresRet outs := by
  induction outs with
  | nil => rfl
  | cons o rest ih =>
    by_cases h : speaks o = true
    · simp_all [retiresRet]
    · have silent := eq_empty_of_not_speaks h
      simp_all [retiresRet]

theorem writesBeforeAbort_filter_speaks (outs : List (Stage × HandlerOut)) :
    writesBeforeAbort (outs.filter speaks) = writesBeforeAbort outs := by
  induction outs with
  | nil => rfl
  | cons o rest ih =>
    by_cases h : speaks o = true
    · cases ha : o.2.abort? <;> simp_all [writesBeforeAbort]
    · have silent := eq_empty_of_not_speaks h
      simp_all [writesBeforeAbort, HandlerOut.abort?]

/-- A silent handler writes nothing, whether or not its stage is kept. -/
theorem flatMap_writes_filter_speaks (outs : List (Stage × HandlerOut)) (keep : Stage × HandlerOut → Bool) :
    ((outs.filter speaks).filter keep).flatMap (fun o => o.2.writes) =
      (outs.filter keep).flatMap fun o => o.2.writes := by
  induction outs with
  | nil => rfl
  | cons o rest ih =>
    by_cases h : speaks o = true
    · by_cases hk : keep o = true <;> simp_all
    · have silent := eq_empty_of_not_speaks h
      by_cases hk : keep o = true <;> simp_all

theorem committedWrites_filter_speaks (outs : List (Stage × HandlerOut)) :
    committedWrites (outs.filter speaks) = committedWrites outs := by
  unfold committedWrites
  rw [flushOf_filter_speaks]
  cases flushOf outs with
  | none => simpa using flatMap_writes_filter_speaks outs fun _ => true
  | some p => exact flatMap_writes_filter_speaks outs fun o => !isFront o.1

/-- The cycle depends only on the answers that are not empty. -/
theorem cycleOn_filter_speaks (outs : List (Stage × HandlerOut)) (s : State) :
    cycleOn (outs.filter speaks) s = cycleOn outs s := by
  simp only [cycleOn, commitPhase, State.endCycle, abortOf_filter_speaks, writesBeforeAbort_filter_speaks,
    flushOf_filter_speaks, commitOf_filter_speaks, retiresRet_filter_speaks, committedWrites_filter_speaks]

/-! ## Silent stages -/

/-- A free stage other than Retire answers nothing; Fetch, when it has nothing to read. -/
theorem handler_free {s : State} {st : Stage} (free : s.latch st = none) (noFetch : st = .f → s.fetchRecord = none)
    (hrt : st ≠ .rt) : handler st s = {} := by
  cases st with
  | f => exact handleF_idle (noFetch rfl)
  | d => exact handleD_free free
  | oa => exact handleOA_free free
  | rr => exact handleRR_free free
  | exa | exm | exd => exact handleAlu_free free
  | exb => exact handleEXB_free free
  | m1 => exact handleM1_free free
  | m2 => exact handleM2_free free
  | wb => exact handleWB_free free
  | rt => exact absurd rfl hrt

theorem handleRT_of_noCommit {s : State} (noCommit : s.committing = none) : handleRT s = retireLatch s := by
  simp [handleRT, noCommit]

/-- A cycle in which only one handler can speak. -/
theorem cycle_of_lone {s : State} (st : Stage) (silent : ∀ other, other ≠ st → handler other s = {}) :
    cycle s = cycleOn [(st, handler st s)] s := by
  have speakers : (evaluate s).filter speaks = [(st, handler st s)].filter speaks := by
    cases st <;> simp [evaluate, evalOrder, List.filter_cons, speaks, silent]
  rw [cycle_eq_cycleOn, ← cycleOn_filter_speaks, speakers, cycleOn_filter_speaks]

/-- A cycle in which only Retire and Writeback can speak. -/
theorem cycle_of_rt_wb {s : State} (silent : ∀ other, other ≠ .rt → other ≠ .wb → handler other s = {}) :
    cycle s = cycleOn [(.rt, handler .rt s), (.wb, handler .wb s)] s := by
  have speakers : (evaluate s).filter speaks = [(.rt, handler .rt s), (.wb, handler .wb s)].filter speaks := by
    simp [evaluate, evalOrder, List.filter_cons, speaks, silent]
  rw [cycle_eq_cycleOn, ← cycleOn_filter_speaks, speakers, cycleOn_filter_speaks]

/-- The machine runs, but nothing in it will act by itself: no latch is occupied, no entry commits, no RS entry waits,
and Fetch has nothing to read. -/
structure State.Vacant (u : State) : Prop where
  running : u.status = .running
  latches : u.latches = PerStage.const none
  noFetch : u.fetchRecord = none
  noCommit : u.committing = none
  noWait : u.rsHead = u.rsTail

theorem State.latch_of_free {u : State} (h : u.latches = PerStage.const none) (st : Stage) : u.latch st = none := by
  rw [State.latch, h, PerStage.get_const]

/-- The cycle of a machine with one occupied latch is that latch's handler's. -/
theorem cycle_lone {u : State} (v : u.Vacant) (st : Stage) (l : Latch) :
    cycle (u.setLatch st (some l)) =
      cycleOn [(st, handler st (u.setLatch st (some l)))] (u.setLatch st (some l)) := by
  refine cycle_of_lone st fun other hne => ?_
  have free : (u.setLatch st (some l)).latch other = none := by
    rw [State.latch_setLatch_ne _ _ hne, State.latch_of_free v.latches]
  by_cases hrt : other = .rt
  · subst hrt
    have noCommit : (u.setLatch st (some l)).committing = none := v.noCommit
    exact (handleRT_of_noCommit noCommit).trans (retireLatch_free free)
  · exact handler_free free (fun _ => v.noFetch) hrt

/-! ## The advance of a lone latch -/

/-- The stage a done occupant `l` of `st` leaves for in the machine `s`, if it does not leave for the RS or the outside
(R80). -/
def State.nextStage (s : State) (st : Stage) (l : Latch) : Option Stage :=
  match st with
  | .f => some .d
  | .d => some .oa
  | .oa => some .rr
  | .rr => if s.params.variant = .outOfOrder ∧ isRsForm l.op = true then none else l.unit.map unitStage
  | .exa | .exm | .exd | .exb | .m2 => some .wb
  | .m1 => some .m2
  | .wb => some .rt
  | .rt => none

/-- A latch that moves away leaves its stage as free as it was before. -/
theorem State.setLatch_moved {u : State} {src dst : Stage} (free : u.latch src = none) (hne : src ≠ dst)
    (l k : Option Latch) : ((u.setLatch src l).setLatch dst k).setLatch src none = u.setLatch dst k := by
  have latches : ((u.latches.set src l).set dst k).set src none = u.latches.set dst k := by
    refine PerStage.ext_get fun a => ?_
    simp only [PerStage.get_set]
    by_cases ha : a = src
    · subst ha
      simp only [if_true, if_neg hne]
      exact free.symm
    · simp [ha]
  simp only [State.setLatch, latches]

theorem State.move_of_free {s : State} {src : Stage} (free : s.latch src = none) (dst : Stage) :
    s.move src dst = s := by
  simp [State.move, free]

/-- A latch record as it arrives in its next stage: its handler has yet to work on it (R82). -/
def Latch.arrived (l : Latch) : Latch :=
  { l with done := false }

theorem State.move_lone {u : State} (free : ∀ a, u.latch a = none) {src dst : Stage} (hne : src ≠ dst) {l : Latch}
    (done : l.done = true) :
    (u.setLatch src (some l)).move src dst = u.setLatch dst (some l.arrived) := by
  simp [State.move, State.latch_setLatch_ne _ _ hne.symm, free, done, Latch.arrived,
    State.setLatch_moved (free src) hne]

theorem State.leaveRT_of_free {s : State} (free : s.latch .rt = none) : s.leaveRT = s := by
  simp [State.leaveRT, free]

theorem State.leaveRR_of_free {s : State} (free : s.latch .rr = none) : s.leaveRR = s := by
  simp [State.leaveRR, free]

theorem State.arbitrate_of_free {s : State} (free : ∀ a ∈ wbFeeders, s.latch a = none) : s.arbitrate = s := by
  simp_all [State.arbitrate, State.oldestFeeder, wbFeeders, olderCandidate, State.candidateSeq]

/-- A lone done occupant of a feeder enters Writeback (R81). -/
theorem State.arbitrate_lone {u : State} (free : ∀ a, u.latch a = none) {st : Stage} (feeder : st ∈ wbFeeders)
    {l : Latch} (done : l.done = true) :
    (u.setLatch st (some l)).arbitrate = u.setLatch .wb (some l.arrived) := by
  have oldest : (u.setLatch st (some l)).oldestFeeder = some st := by
    simp only [wbFeeders, List.mem_cons, List.not_mem_nil, or_false] at feeder
    rcases feeder with rfl | rfl | rfl | rfl | rfl <;>
      simp [State.oldestFeeder, wbFeeders, olderCandidate, State.candidateSeq, State.latch_setLatch, free, done]
  have hne : st ≠ .wb := by
    rintro rfl
    simp [wbFeeders] at feeder
  simp only [State.arbitrate, oldest]
  exact State.move_lone free hne done

theorem State.dispatchRs_of_empty {s : State} (h : s.rsHead = s.rsTail) : s.dispatchRs = s := by
  unfold State.dispatchRs
  split
  · rfl
  · rw [if_pos h]

/-- A lone done occupant of RR that is not bound for the RS enters its unit. -/
theorem State.leaveRR_lone {u : State} (free : ∀ a, u.latch a = none) {nxt : Stage} {l : Latch}
    (done : l.done = true) (next : u.nextStage .rr l = some nxt) :
    (u.setLatch .rr (some l)).leaveRR = u.setLatch nxt (some l.arrived) := by
  simp only [State.nextStage] at next
  split at next
  · cases next
  · rename_i notRs
    obtain ⟨x, unit, rfl⟩ := Option.map_eq_some_iff.mp next
    have hne : Stage.rr ≠ unitStage x := by cases x <;> decide
    have leaves : (u.setLatch .rr (some l)).leaveRR = (u.setLatch .rr (some l)).move .rr (unitStage x) := by
      simp [State.leaveRR, done, notRs, unit, -State.setLatch_latches]
    rw [leaves]
    exact State.move_lone free hne done

/-- A lone done occupant moves to its next stage and arrives not done: every other step of the pass finds nothing to
move. -/
theorem State.advance_lone {u : State} {st nxt : Stage} {l : Latch} (free : ∀ a, u.latch a = none)
    (noWait : u.rsHead = u.rsTail) (done : l.done = true) (next : u.nextStage st l = some nxt) :
    (u.setLatch st (some l)).advance = u.setLatch nxt (some l.arrived) := by
  have still : ∀ (a : Stage) (k : Option Latch), (u.setLatch a k).dispatchRs = u.setLatch a k :=
    fun a k => State.dispatchRs_of_empty noWait
  have front : ∀ (a : Stage) (k : Option Latch), a ≠ .rr → (u.setLatch a k).leaveRR = u.setLatch a k :=
    fun a k ha => State.leaveRR_of_free (by rw [State.latch_setLatch_ne _ _ ha.symm, free])
  have noFeeder : ∀ (a : Stage) (k : Option Latch), a ∉ wbFeeders → (u.setLatch a k).arbitrate = u.setLatch a k := by
    intro a k ha
    refine State.arbitrate_of_free fun b hb => ?_
    have hne : b ≠ a := fun e => ha (e ▸ hb)
    rw [State.latch_setLatch_ne _ _ hne, free]
  have feeds : st ∈ wbFeeders →
      (u.setLatch st (some l)).arbitrate = u.setLatch .wb (some l.arrived) :=
    fun feeder => State.arbitrate_lone free feeder done
  unfold State.advance
  cases st with
  | rt => cases next
  | rr =>
    obtain ⟨x, rfl⟩ : ∃ x, nxt = unitStage x := by
      simp only [State.nextStage] at next
      split at next
      · cases next
      · obtain ⟨x, _, rfl⟩ := Option.map_eq_some_iff.mp next
        exact ⟨x, rfl⟩
    have leaves := State.leaveRR_lone free done next
    cases x <;>
      simp [State.leaveRT_of_free, State.move_of_free, noFeeder, wbFeeders, still, leaves, unitStage,
        State.latch_setLatch, free, -State.setLatch_latches]
  | exa | exm | exd | exb | m2 =>
    cases next
    have entered := feeds (by decide)
    simp [State.leaveRT_of_free, State.move_of_free, entered, still, front, State.latch_setLatch, free,
      -State.setLatch_latches]
  | _ =>
    cases next
    simp [State.leaveRT_of_free, State.move_of_free, State.move_lone free _ done, noFeeder, wbFeeders,
      still, front, State.latch_setLatch, free]

end Sys2Proof.Machine
end

section
/-! SUPPORT. One occupant through one stage of an otherwise vacant machine: the stage's handler and the move to the next
stage (R74 to R89), and how cycles add up (R25). -/

namespace Sys2Proof.Machine

/-! ## Classes of opcodes (R55, R60) -/

theorem notRet_of_branch {op : Opcode} (h : isBranch op = true) : op ≠ .ret := by
  rintro rfl
  cases h

theorem not_isLoad_of_isStore {op : Opcode} (h : isStore op = true) : isLoad op = false := by
  cases op with
  | stI | stR => rfl
  | _ => cases h

theorem isStore_of_not_isLoad {op : Opcode} (memory : isMemory op = true) (h : isLoad op = false) :
    isStore op = true := by
  cases op with
  | stI | stR => rfl
  | ldI | ldR => cases h
  | _ => cases memory

theorem isMemory_of_isLoad {op : Opcode} (h : isLoad op = true) : isMemory op = true := by
  cases op with
  | ldI | ldR => rfl
  | _ => cases h

theorem isMemory_of_isStore {op : Opcode} (h : isStore op = true) : isMemory op = true := by
  cases op with
  | stI | stR => rfl
  | _ => cases h

theorem memory_class {op : Opcode} (h : isMemory op = true) :
    isBranch op = false ∧ op ≠ .ret ∧ unitOf op = .m1 := by
  cases op with
  | ldI | ldR | stI | stR => exact ⟨rfl, by decide, rfl⟩
  | _ => cases h

/-! ## Time -/

/-- The same state `n` cycles on, with the channels and the snapshot of the last of them. -/
def State.elapse (s : State) (n : Nat) (shown : PerStage (Option Nat)) (c : Channels) : State :=
  { s with fwd := c, cycles := s.cycles + n, snapshot := shown }

@[simp] theorem State.elapse_elapse (s : State) (n m : Nat) (a b : PerStage (Option Nat)) (c d : Channels) :
    (s.elapse n a c).elapse m b d = s.elapse (n + m) b d := by
  simp [State.elapse, Nat.add_assoc]

theorem State.Vacant.elapse {u : State} (v : u.Vacant) (n : Nat) (shown : PerStage (Option Nat)) (c : Channels) :
    (u.elapse n shown c).Vacant :=
  ⟨v.running, v.latches, v.noFetch, v.noCommit, v.noWait⟩

/-- Running `n` cycles takes `s` to `t`, whatever is run after them. -/
def Reaches (n : Nat) (s t : State) : Prop :=
  ∀ k, cycles (n + k) s = cycles k t

theorem Reaches.trans {n m : Nat} {s t u : State} (h : Reaches n s t) (k : Reaches m t u) :
    Reaches (n + m) s u := by
  intro j
  rw [Nat.add_assoc, h, k]

theorem Reaches.cycles_eq {n : Nat} {s t : State} (h : Reaches n s t) : cycles n s = t :=
  h 0

theorem Reaches.of_cycle {s t : State} (running : s.status = .running) (h : cycle s = t) : Reaches 1 s t := by
  intro k
  rw [Nat.add_comm, cycles, if_pos running, h]

/-- One cycle of an otherwise vacant machine. -/
theorem State.Vacant.reaches {u : State} (v : u.Vacant) {st : Stage} {l : Option Latch} {t : State}
    (h : cycle (u.setLatch st l) = t) : Reaches 1 (u.setLatch st l) t :=
  .of_cycle v.running h

/-- No cycle runs from a terminal status (R25). -/
theorem cycles_of_terminal {s : State} (h : s.status ≠ .running) (n : Nat) : cycles n s = s := by
  cases n with
  | zero => rfl
  | succ n => rw [cycles, if_neg h]

/-- A run that has ended stays where it ended. -/
theorem Reaches.of_terminal {n m : Nat} {s t : State} (h : Reaches n s t) (ended : t.status ≠ .running)
    (hle : n ≤ m) : cycles m s = t := by
  obtain ⟨k, rfl⟩ := Nat.exists_eq_add_of_le hle
  rw [h, cycles_of_terminal ended]

/-! ## A cycle that moves a lone latch -/

/-- No forwarding pair. -/
def noChannels : Channels :=
  ⟨none, none, none, none⟩

theorem State.takeSnapshot_lone {u : State} (free : u.latches = PerStage.const none) (st : Stage) (l : Latch) :
    (u.setLatch st (some l)).takeSnapshot = { u with snapshot := snapshotOnly st l.idx }.setLatch st (some l) := by
  have shown : (u.latches.set st (some l)).map (fun k => k.map fun k => k.idx) = snapshotOnly st l.idx := by
    rw [free]
    cases st <;> rfl
  simp only [State.takeSnapshot, State.setLatch, shown]

/-- A cycle whose commit phase leaves one done latch moves it on. -/
theorem cycleOn_moves {outs : List (Stage × HandlerOut)} {s u : State} {st nxt : Stage} {l : Latch}
    (noAbort : abortOf outs = none) (noRet : retiresRet outs = false)
    (committed : commitPhase outs s = u.setLatch st (some l)) (free : u.latches = PerStage.const none)
    (noWait : u.rsHead = u.rsTail) (done : l.done = true) (next : u.nextStage st l = some nxt) :
    cycleOn outs s =
      (u.elapse 1 (snapshotOnly st l.idx) (channelsWritten (committedWrites outs))).setLatch nxt
        (some l.arrived) := by
  have advanced := State.advance_lone (u := { u with snapshot := snapshotOnly st l.idx })
    (fun a => State.latch_of_free free a) noWait done next
  simp only [cycleOn, noAbort, committed, State.takeSnapshot_lone free, advanced]
  simp only [State.endCycle, noRet]
  rfl

/-- The same for a lone occupant whose handler only writes. -/
theorem cycle_lone_moves {u w : State} (v : u.Vacant) {st nxt : Stage} {l k : Latch} {ws : List Write}
    (answer : handler st (u.setLatch st (some l)) = { writes := ws })
    (applied : (u.setLatch st (some l)).applyAll ws = w.setLatch st (some k))
    (free : w.latches = PerStage.const none) (noWait : w.rsHead = w.rsTail) (done : k.done = true)
    (next : w.nextStage st k = some nxt) :
    cycle (u.setLatch st (some l)) =
      (w.elapse 1 (snapshotOnly st k.idx) (channelsWritten ws)).setLatch nxt (some k.arrived) := by
  have writes : committedWrites [(st, { writes := ws })] = ws := by
    simp [committedWrites, flushOf, HandlerOut.flush?]
  have committed : commitPhase [(st, { writes := ws })] (u.setLatch st (some l)) = w.setLatch st (some k) := by
    rw [← applied]
    simp [commitPhase, writes, flushOf, commitOf, HandlerOut.flush?]
  rw [cycle_lone v, answer, cycleOn_moves rfl rfl committed free noWait done next, writes]

/-- A lone occupant whose handler aborts ends the run where it stands (R92). -/
theorem cycle_lone_aborts {u : State} (v : u.Vacant) {st : Stage} {l : Latch} {r : AbortReason}
    (answer : handler st (u.setLatch st (some l)) = { signal := some (.abort r) }) :
    cycle (u.setLatch st (some l)) = (u.setLatch st (some l)).takeAbort r := by
  rw [cycle_lone v, answer]
  rfl

@[simp] theorem State.setLatch_setLatch (s : State) (st : Stage) (l k : Option Latch) :
    (s.setLatch st l).setLatch st k = s.setLatch st k := by
  cases st <;> rfl

/-! ## The front stages -/

theorem cycle_decode {u : State} (v : u.Vacant) {l : Latch} (work : l.done = false) {i : Instr}
    (decodes : u.decodeAt l.idx = .ok i) :
    cycle (u.setLatch .d (some l)) =
      (u.elapse 1 (snapshotOnly .d l.idx) noChannels).setLatch .oa (some (l.decoded i).arrived) := by
  have answer : handleD (u.setLatch .d (some l)) = { writes := [.latch .d (l.decoded i)] } := by
    have decodes' : (u.setLatch .d (some l)).decodeAt l.idx = .ok i := decodes
    simp [handleD, work, decodes']
  exact cycle_lone_moves (st := .d) v answer (State.setLatch_setLatch ..) v.latches v.noWait rfl rfl

theorem cycle_decode_aborts {u : State} (v : u.Vacant) {l : Latch} (work : l.done = false) {e : DecodeError}
    (malformed : u.decodeAt l.idx = .error e) :
    cycle (u.setLatch .d (some l)) = (u.setLatch .d (some l)).takeAbort .malformedInstruction := by
  refine cycle_lone_aborts v ?_
  have malformed' : (u.setLatch .d (some l)).decodeAt l.idx = .error e := malformed
  simp [handler, handleD, work, malformed']

theorem cycle_analyse {u : State} (v : u.Vacant) {l : Latch} (work : l.done = false) :
    cycle (u.setLatch .oa (some l)) =
      (u.elapse 1 (snapshotOnly .oa l.idx) noChannels).setLatch .rr (some l.analysed.arrived) := by
  have answer : handleOA (u.setLatch .oa (some l)) = { writes := [.latch .oa l.analysed] } := by
    simp [handleOA, work]
  exact cycle_lone_moves (st := .oa) v answer (State.setLatch_setLatch ..) v.latches v.noWait rfl rfl

/-! ## The units -/

/-- A completion signal is a forwarding pair or the completion of a ROB entry, or nothing. -/
theorem completion_cases (s : State) (l : Latch) (v : Word) :
    completion s l v = [] ∨ (∃ c d, completion s l v = [.channel c d v]) ∨
      ∃ id, completion s l v = [.robComplete id v] := by
  unfold completion
  split
  · split
    · exact .inr (.inl ⟨_, _, rfl⟩)
    · exact .inl rfl
  · split
    · exact .inr (.inr ⟨_, rfl⟩)
    · exact .inl rfl

/-- The completion signal of a handler that finishes its own latch. -/
theorem applyAll_latch_completion (u : State) (st : Stage) (l k : Latch) (v : Word) :
    (u.setLatch st (some l)).applyAll (.latch st k :: completion u l v) =
      (u.applyAll (completion u l v)).setLatch st (some k) := by
  rw [State.applyAll_cons, State.apply, State.setLatch_setLatch]
  rcases completion_cases u l v with h | ⟨c, d, h⟩ | ⟨id, h⟩ <;> rw [h] <;> rfl

@[simp] theorem applyAll_completion_latches (u : State) (l : Latch) (v : Word) :
    (u.applyAll (completion u l v)).latches = u.latches := by
  rcases completion_cases u l v with h | ⟨c, d, h⟩ | ⟨id, h⟩ <;> rw [h] <;> rfl

theorem applyAll_rsPointers (u : State) (ws : List Write) :
    (u.applyAll ws).rsHead = u.rsHead ∧ (u.applyAll ws).rsTail = u.rsTail :=
  State.applyAll_induct (P := fun t => t.rsHead = u.rsHead ∧ t.rsTail = u.rsTail) ⟨rfl, rfl⟩
    fun w _ t h => ⟨(t.apply_rsHead w).trans h.1, (t.apply_rsTail w).trans h.2⟩

theorem State.nextStage_feeder (s : State) {st : Stage} (feeder : st ∈ wbFeeders) (l : Latch) :
    s.nextStage st l = some .wb := by
  simp only [wbFeeders, List.mem_cons, List.not_mem_nil, or_false] at feeder
  rcases feeder with rfl | rfl | rfl | rfl | rfl <;> rfl

/-- The record with which a unit that computed `v` sends its occupant to Writeback. -/
def Latch.finished (l : Latch) (v : Word) : Latch :=
  { l with result := v, done := false }

/-- A unit's occupant that completes with the result `r` leaves for Writeback. -/
theorem cycle_completes {u : State} (v : u.Vacant) {st : Stage} (feeder : st ∈ wbFeeders)
    {l : Latch} {r : Word}
    (answer : handler st (u.setLatch st (some l)) =
      { writes := .latch st { l with result := r, done := true } :: completion u l r }) :
    cycle (u.setLatch st (some l)) =
      ((u.applyAll (completion u l r)).elapse 1 (snapshotOnly st l.idx)
        (channelsWritten (completion u l r))).setLatch .wb (some (l.finished r)) := by
  have noWait : (u.applyAll (completion u l r)).rsHead = (u.applyAll (completion u l r)).rsTail := by
    obtain ⟨head, tail⟩ := applyAll_rsPointers u (completion u l r)
    rw [head, tail, v.noWait]
  exact cycle_lone_moves v answer (applyAll_latch_completion ..)
    ((applyAll_completion_latches ..).trans v.latches) noWait rfl (State.nextStage_feeder _ feeder _)

/-- The three arithmetic units share one handler (R155). -/
theorem handler_alu {st : Stage} (unit : st ∈ [Stage.exa, .exm, .exd]) (s : State) :
    handler st s = handleAlu st s ∧ st ∈ wbFeeders := by
  simp only [List.mem_cons, List.not_mem_nil, or_false] at unit
  rcases unit with rfl | rfl | rfl <;> exact ⟨rfl, by decide⟩

/-- EXA, EXM and EXD with a result (R155). -/
theorem cycle_alu {u : State} (v : u.Vacant) {st : Stage} (unit : st ∈ [Stage.exa, .exm, .exd]) {l : Latch}
    (work : l.done = false) {r : Word} (result : aluResult l.op l.v1 l.secondOperand = some (.ok r)) :
    cycle (u.setLatch st (some l)) =
      ((u.applyAll (completion u l r)).elapse 1 (snapshotOnly st l.idx)
        (channelsWritten (completion u l r))).setLatch .wb (some (l.finished r)) := by
  obtain ⟨own, feeder⟩ := handler_alu unit (u.setLatch st (some l))
  refine cycle_completes v feeder (own.trans ?_)
  simp [handleAlu, work, result, completion]

theorem cycle_alu_aborts {u : State} (v : u.Vacant) {st : Stage} (unit : st ∈ [Stage.exa, .exm, .exd]) {l : Latch}
    (work : l.done = false) {e : AbortReason} (result : aluResult l.op l.v1 l.secondOperand = some (.error e)) :
    cycle (u.setLatch st (some l)) = (u.setLatch st (some l)).takeAbort e := by
  obtain ⟨own, _⟩ := handler_alu unit (u.setLatch st (some l))
  refine cycle_lone_aborts v (own.trans ?_)
  simp [handleAlu, work, result]

/-- M1 (R171). -/
theorem cycle_address {u : State} (v : u.Vacant) {l : Latch} (work : l.done = false) (memory : isMemory l.op = true) :
    cycle (u.setLatch .m1 (some l)) =
      (u.elapse 1 (snapshotOnly .m1 l.idx) noChannels).setLatch .m2
        (some { l.arrived with addr := effectiveAddr l.v1 l.addrOffset }) := by
  have answer : handleM1 (u.setLatch .m1 (some l)) =
      { writes := [.latch .m1 { l with addr := effectiveAddr l.v1 l.addrOffset, done := true }] } := by
    simp [handleM1, work, memory]
  exact cycle_lone_moves (st := .m1) v answer (State.setLatch_setLatch ..) v.latches v.noWait rfl rfl

/-- M2 with a load in range (R173). -/
theorem cycle_load {u : State} (v : u.Vacant) {l : Latch} (work : l.done = false) (load : isLoad l.op = true)
    (inside : u.inRange l.addr = true) {r : Word} (word : u.mem.readWord (widx l.addr) = r) :
    cycle (u.setLatch .m2 (some l)) =
      ((u.applyAll (completion u l r)).elapse 1 (snapshotOnly .m2 l.idx)
        (channelsWritten (completion u l r))).setLatch .wb (some (l.finished r)) := by
  subst word
  refine cycle_completes v (by decide) ?_
  have inside' : (u.setLatch .m2 (some l)).inRange l.addr = true := inside
  simp [handler, handleM2, work, load, State.memRead, inside', completion]

/-- M2 with a store in range (R174). -/
theorem cycle_store {u : State} (v : u.Vacant) {l : Latch} (work : l.done = false) (store : isStore l.op = true)
    (inside : u.inRange l.addr = true) :
    cycle (u.setLatch .m2 (some l)) =
      ((u.storeWord l.addr l.v3).elapse 1 (snapshotOnly .m2 l.idx) noChannels).setLatch .wb
        (some l.arrived) := by
  have notLoad := not_isLoad_of_isStore store
  have answer : handleM2 (u.setLatch .m2 (some l)) =
      { writes := [.store l.addr l.v3, .latch .m2 { l with done := true }] } := by
    have inside' : (u.setLatch .m2 (some l)).inRange l.addr = true := inside
    simp [handleM2, work, notLoad, store, inside']
  exact cycle_lone_moves (st := .m2) (w := u.storeWord l.addr l.v3) (k := { l with done := true }) v answer rfl
    v.latches v.noWait rfl rfl

/-- M2 out of range (R172). -/
theorem cycle_access_aborts {u : State} (v : u.Vacant) {l : Latch} (work : l.done = false)
    (memory : isMemory l.op = true) (outside : u.inRange l.addr = false) :
    cycle (u.setLatch .m2 (some l)) = (u.setLatch .m2 (some l)).takeAbort .memoryOutOfRange := by
  refine cycle_lone_aborts v ?_
  have outside' : (u.setLatch .m2 (some l)).inRange l.addr = false := outside
  cases load : isLoad l.op
  · have store := isStore_of_not_isLoad memory load
    simp [handler, handleM2, work, load, store, outside']
  · simp [handler, handleM2, work, load, State.memRead, outside']

/-- EXB with `ret` (R180). -/
theorem cycle_exb_ret {u : State} (v : u.Vacant) {l : Latch} (work : l.done = false) (ret : l.op = .ret) :
    cycle (u.setLatch .exb (some l)) =
      (u.elapse 1 (snapshotOnly .exb l.idx) noChannels).setLatch .wb (some l.arrived) := by
  have answer : handleEXB (u.setLatch .exb (some l)) = { writes := [.latch .exb { l with done := true }] } := by
    simp [handleEXB, work, ret, isBranch]
  exact cycle_lone_moves (st := .exb) (k := { l with done := true }) v answer (State.setLatch_setLatch ..) v.latches
    v.noWait rfl rfl

/-- EXB with a conditional branch (R120). -/
theorem handleEXB_branch (u : State) {l : Latch} (work : l.done = false) (branch : isBranch l.op = true) :
    handler .exb (u.setLatch .exb (some l)) =
      { writes := [.btb (predictorIndex l.pc) (resolvedEntry l.pc l.imm),
          .pt (predictorIndex l.pc) (bump (cond l.op l.v1) u.pt[predictorIndex l.pc]),
          .latch .exb { l with done := true }]
        signal :=
          if flushTest (cond l.op l.v1) u.btb[predictorIndex l.pc].tag u.pt[predictorIndex l.pc] then
            some (.flush (branchNext (cond l.op l.v1) l.idx l.imm))
          else none } := by
  simp only [handler, handleEXB, State.latch_setLatch_same, work, branch, Bool.false_eq_true, if_false, if_true]
  rfl

/-- The resolution of a branch that needs no flush (R120). -/
theorem cycle_resolve {u : State} (v : u.Vacant) {l : Latch} (work : l.done = false) (branch : isBranch l.op = true)
    (noFlush : flushTest (cond l.op l.v1) u.btb[predictorIndex l.pc].tag u.pt[predictorIndex l.pc] = false) :
    cycle (u.setLatch .exb (some l)) =
      ((u.resolve l.pc (cond l.op l.v1) l.imm).elapse 1 (snapshotOnly .exb l.idx) noChannels).setLatch .wb
        (some l.arrived) := by
  have answer := handleEXB_branch u work branch
  rw [noFlush] at answer
  exact cycle_lone_moves (w := u.resolve l.pc (cond l.op l.v1) l.imm) (k := { l with done := true }) v answer rfl
    v.latches v.noWait rfl rfl

/-- The resolution of a branch that flushes: nothing stands in the front, so only fetch is redirected (R79, R122). -/
theorem cycle_resolve_flush {u : State} (v : u.Vacant) {l : Latch} (work : l.done = false)
    (branch : isBranch l.op = true)
    (flush : flushTest (cond l.op l.v1) u.btb[predictorIndex l.pc].tag u.pt[predictorIndex l.pc] = true) :
    cycle (u.setLatch .exb (some l)) =
      ((((u.resolve l.pc (cond l.op l.v1) l.imm).setPc (branchNext (cond l.op l.v1) l.idx l.imm)).setFetchHalt
        false).elapse 1 (snapshotOnly .exb l.idx) noChannels).setLatch .wb (some l.arrived) := by
  rw [cycle_lone v, handleEXB_branch u work branch, flush]
  refine cycleOn_moves (l := { l with done := true }) rfl rfl ?_ v.latches v.noWait rfl rfl
  obtain ⟨_, free, _, _, _⟩ := v
  obtain ⟨⟩ := u
  subst free
  rfl

/-! ## Writeback and Retire -/

/-- Writeback while no entry commits (R87). -/
theorem cycle_writeback {u : State} (v : u.Vacant) {l : Latch} (work : l.done = false) :
    cycle (u.setLatch .wb (some l)) =
      (u.elapse 1 (snapshotOnly .wb l.idx) noChannels).setLatch .rt (some l.arrived) := by
  have answer : handleWB (u.setLatch .wb (some l)) = { writes := [.latch .wb { l with done := true }] } := by
    simp [handleWB, work]
  exact cycle_lone_moves (st := .wb) (k := { l with done := true }) v answer (State.setLatch_setLatch ..) v.latches
    v.noWait rfl rfl

/-- A broadcast that nothing awaits (R142). -/
theorem State.wakeUp_idle {s : State} (rsFree : ∀ e ∈ s.rs, e = none) (rrFree : s.latch .rr = none) (id : RobId)
    (v : Word) : s.wakeUp id v = s := by
  have slots : (s.rs.map fun e => e.map fun l => l.wake id v) = s.rs := by
    have kept : ∀ e ∈ s.rs, (e.map fun l => l.wake id v) = e := by
      intro e he
      rw [rsFree e he]
      rfl
    simpa using List.map_congr_left kept
  have latches : s.latches.set .rr (wakeIssued s.latches.rr id v) = s.latches := by
    have rr : s.latches.rr = none := rrFree
    rw [rr]
    exact congrArg (fun k => { s.latches with rr := k }) rr.symm
  simp only [State.wakeUp, slots, latches]

/-- The writes of a commit: the value, the tag and ready flag where the tag names the committing slot, the slot
(R140). -/
theorem commitWrites_cases (s : State) (e : RobEntry) :
    (s.tag e.destinationRegister = some e.id ∧
        commitWrites s e = [.regValue e.destinationRegister e.result, .regTag e.destinationRegister none,
          .regReady e.destinationRegister true, .robFree]) ∨
      (s.tag e.destinationRegister ≠ some e.id ∧
        commitWrites s e = [.regValue e.destinationRegister e.result, .robFree]) := by
  by_cases h : s.tag e.destinationRegister = some e.id
  · exact .inl ⟨h, by simp [commitWrites, h]⟩
  · exact .inr ⟨h, by simp [commitWrites, h]⟩

/-- What Retire, with no occupant, and Writeback, with the occupant `l`, answer when the ROB head commits `e`. -/
def commitAndWriteback (u : State) (e : RobEntry) (l : Latch) : List (Stage × HandlerOut) :=
  [(.rt, { writes := commitWrites u e, commit := some (e.id, e.result) }),
    (.wb, { writes := [.latch .wb { l with done := true }] })]

theorem cycle_eq_commitAndWriteback {u : State} {e : RobEntry} (commits : u.committing = some e)
    (free : u.latches = PerStage.const none) (noFetch : u.fetchRecord = none) {l : Latch} (work : l.done = false) :
    cycle (u.setLatch .wb (some l)) = cycleOn (commitAndWriteback u e l) (u.setLatch .wb (some l)) := by
  have otherFree : ∀ other, other ≠ .wb → (u.setLatch .wb (some l)).latch other = none := by
    intro other hne
    rw [State.latch_setLatch_ne _ _ hne, State.latch_of_free free]
  have silent : ∀ other, other ≠ .rt → other ≠ .wb → handler other (u.setLatch .wb (some l)) = {} :=
    fun other hrt hwb => handler_free (otherFree other hwb) (fun _ => noFetch) hrt
  have retire : handler .rt (u.setLatch .wb (some l)) =
      { writes := commitWrites u e, commit := some (e.id, e.result) } := by
    have commits' : (u.setLatch .wb (some l)).committing = some e := commits
    simp only [handler, handleRT, commits', retireLatch_free (otherFree .rt (by decide))]
    rfl
  have write : handler .wb (u.setLatch .wb (some l)) = { writes := [.latch .wb { l with done := true }] } := by
    simp [handler, handleWB, work]
  rw [cycle_of_rt_wb silent, retire, write]
  rfl

theorem committedWrites_commitAndWriteback (u : State) (e : RobEntry) (l : Latch) :
    committedWrites (commitAndWriteback u e l) = commitWrites u e ++ [.latch .wb { l with done := true }] := by
  simp [commitAndWriteback, committedWrites, flushOf, HandlerOut.flush?]

/-- A commit leaves latches, RS slots and RS pointers alone. -/
theorem applyAll_commitWrites (u : State) (e : RobEntry) :
    (u.applyAll (commitWrites u e)).latches = u.latches ∧ (u.applyAll (commitWrites u e)).rs = u.rs ∧
      (u.applyAll (commitWrites u e)).rsHead = u.rsHead ∧ (u.applyAll (commitWrites u e)).rsTail = u.rsTail := by
  rcases commitWrites_cases u e with ⟨_, h⟩ | ⟨_, h⟩ <;> rw [h] <;> exact ⟨rfl, rfl, rfl, rfl⟩

/-- The commit phase of such a cycle: the broadcast wakes nothing. -/
theorem commitPhase_commitAndWriteback {u : State} (e : RobEntry) (free : u.latches = PerStage.const none)
    (rsFree : ∀ e ∈ u.rs, e = none) (l : Latch) :
    commitPhase (commitAndWriteback u e l) (u.setLatch .wb (some l)) =
      (u.applyAll (commitWrites u e)).setLatch .wb (some { l with done := true }) := by
  obtain ⟨latchesKept, rsKept, _, _⟩ := applyAll_commitWrites u e
  have applied : (u.setLatch .wb (some l)).applyAll (commitWrites u e ++ [.latch .wb { l with done := true }]) =
      (u.applyAll (commitWrites u e)).setLatch .wb (some { l with done := true }) := by
    rcases commitWrites_cases u e with ⟨_, h⟩ | ⟨_, h⟩ <;> rw [h] <;> rfl
  have rrFree : ((u.applyAll (commitWrites u e)).setLatch .wb (some { l with done := true })).latch .rr = none := by
    rw [State.latch_setLatch_ne _ _ (by decide), State.latch_of_free (latchesKept.trans free)]
  rw [commitPhase, committedWrites_commitAndWriteback, applied]
  exact State.wakeUp_idle (by rw [State.setLatch_rs, rsKept]; exact rsFree) rrFree e.id e.result

/-- Writeback while the ROB head commits (R87, R140). -/
theorem cycle_writeback_commit {u : State} {e : RobEntry} (commits : u.committing = some e)
    (free : u.latches = PerStage.const none) (noFetch : u.fetchRecord = none) (noWait : u.rsHead = u.rsTail)
    (rsFree : ∀ e ∈ u.rs, e = none) {l : Latch} (work : l.done = false) :
    cycle (u.setLatch .wb (some l)) =
      ((u.applyAll (commitWrites u e)).elapse 1 (snapshotOnly .wb l.idx) noChannels).setLatch .rt
        (some l.arrived) := by
  obtain ⟨latchesKept, _, headKept, tailKept⟩ := applyAll_commitWrites u e
  have noWait' : (u.applyAll (commitWrites u e)).rsHead = (u.applyAll (commitWrites u e)).rsTail := by
    rw [headKept, tailKept, noWait]
  have channels : channelsWritten (committedWrites (commitAndWriteback u e l)) = noChannels := by
    rw [committedWrites_commitAndWriteback]
    rcases commitWrites_cases u e with ⟨_, h⟩ | ⟨_, h⟩ <;> rw [h] <;> rfl
  rw [cycle_eq_commitAndWriteback commits free noFetch work,
    cycleOn_moves rfl rfl (commitPhase_commitAndWriteback e free rsFree l) (latchesKept.trans free) noWait' rfl rfl,
    channels]
  rfl

/-- The register writes of Retire: one value and its ready flag in the in-order build, or nothing (R88). -/
theorem retireWrites_cases (s : State) (l : Latch) :
    retireWrites s l = [] ∨
      ∃ d, s.params.variant = .inOrder ∧ l.dest = some d ∧
        retireWrites s l = [.regValue d l.result, .regReady d true] := by
  unfold retireWrites
  split
  · rename_i d build dest
    exact .inr ⟨d, build, dest, rfl⟩
  · exact .inl rfl

theorem State.setLatch_none {u : State} {st : Stage} (free : u.latch st = none) : u.setLatch st none = u := by
  have latches : u.latches.set st none = u.latches := by
    refine PerStage.ext_get fun a => ?_
    rw [PerStage.get_set]
    split
    · rename_i ha
      subst ha
      exact free.symm
    · rfl
  simp only [State.setLatch, latches]

/-- The advance pass of a machine whose only occupant is a finished one in Retire. -/
theorem State.advance_retire {u : State} (free : ∀ a, u.latch a = none) (noWait : u.rsHead = u.rsTail) {l : Latch}
    (done : l.done = true) : (u.setLatch .rt (some l)).advance = u := by
  have left : (u.setLatch .rt (some l)).leaveRT = u := by
    simp only [State.leaveRT, State.latch_setLatch_same, done, if_true, State.setLatch_setLatch,
      State.setLatch_none (free .rt)]
  simp only [State.advance, left, State.move_of_free (free _), State.arbitrate_of_free fun a _ => free a,
    State.dispatchRs_of_empty noWait, State.leaveRR_of_free (free _)]

/-- A cycle whose commit phase leaves one done latch in Retire empties the machine. -/
theorem cycleOn_retires {outs : List (Stage × HandlerOut)} {s u : State} {l : Latch} (noAbort : abortOf outs = none)
    (committed : commitPhase outs s = u.setLatch .rt (some l)) (free : u.latches = PerStage.const none)
    (noWait : u.rsHead = u.rsTail) (done : l.done = true) :
    cycleOn outs s =
      { u.elapse 1 (snapshotOnly .rt l.idx) (channelsWritten (committedWrites outs)) with
        status := if retiresRet outs then .halted else u.status } := by
  have advanced := State.advance_retire (u := { u with snapshot := snapshotOnly .rt l.idx })
    (fun a => State.latch_of_free free a) noWait done
  simp only [cycleOn, noAbort, committed, State.takeSnapshot_lone free, advanced]
  rfl

/-- What Retire answers on a lone occupant `l`: a retirement, the register writes, and the signal of a `ret`. -/
def retirement (u : State) (l : Latch) : HandlerOut :=
  { writes := [.retire, .latch .rt { l with done := true }] ++ retireWrites u l
    signal := if l.op = .ret then some .retireRet else none }

theorem handler_rt_eq_retirement {u : State} (noCommit : u.committing = none) {l : Latch} (work : l.done = false) :
    handler .rt (u.setLatch .rt (some l)) = retirement u l := by
  have noCommit' : (u.setLatch .rt (some l)).committing = none := noCommit
  rw [handler, handleRT_of_noCommit noCommit']
  simp only [retireLatch, State.latch_setLatch_same, work, Bool.false_eq_true, if_false]
  rfl

theorem abortOf_retirement (u : State) (l : Latch) : abortOf [(.rt, retirement u l)] = none := by
  by_cases ret : l.op = .ret <;> simp [abortOf, HandlerOut.abort?, retirement, ret]

theorem flushOf_retirement (u : State) (l : Latch) : flushOf [(.rt, retirement u l)] = none := by
  by_cases ret : l.op = .ret <;> simp [flushOf, HandlerOut.flush?, retirement, ret]

theorem retiresRet_retirement (u : State) (l : Latch) :
    retiresRet [(.rt, retirement u l)] = decide (l.op = .ret) := by
  by_cases ret : l.op = .ret <;> simp [retiresRet, retirement, ret]

theorem committedWrites_retirement (u : State) (l : Latch) :
    committedWrites [(.rt, retirement u l)] = (retirement u l).writes := by
  simp [committedWrites, flushOf_retirement]

theorem channelsWritten_retirement (u : State) (l : Latch) : channelsWritten (retirement u l).writes = noChannels := by
  rcases retireWrites_cases u l with h | ⟨d, _, _, h⟩ <;> rw [retirement, h] <;> rfl

theorem commitPhase_retirement (u : State) (l : Latch) :
    commitPhase [(.rt, retirement u l)] (u.setLatch .rt (some l)) =
      (u.countRetire.applyAll (retireWrites u l)).setLatch .rt (some { l with done := true }) := by
  rw [commitPhase, committedWrites_retirement, flushOf_retirement]
  rcases retireWrites_cases u l with h | ⟨d, _, _, h⟩ <;> rw [retirement, h] <;> rfl

/-- The cycle of a lone occupant of Retire: it is counted, writes its register in the in-order build, and leaves; a
`ret` ends the run (R88, R90). -/
theorem cycle_retire {u : State} (v : u.Vacant) {l : Latch} (work : l.done = false) :
    cycle (u.setLatch .rt (some l)) =
      { (u.countRetire.applyAll (retireWrites u l)).elapse 1 (snapshotOnly .rt l.idx) noChannels with
        status := if l.op = .ret then .halted else .running } := by
  have kept : (u.countRetire.applyAll (retireWrites u l)).latches = u.latches := by
    rcases retireWrites_cases u l with h | ⟨d, _, _, h⟩ <;> rw [h] <;> rfl
  have status : (u.countRetire.applyAll (retireWrites u l)).status = .running := by
    rcases retireWrites_cases u l with h | ⟨d, _, _, h⟩ <;> rw [h] <;> exact v.running
  obtain ⟨headKept, tailKept⟩ := applyAll_rsPointers u.countRetire (retireWrites u l)
  have noWait : (u.countRetire.applyAll (retireWrites u l)).rsHead =
      (u.countRetire.applyAll (retireWrites u l)).rsTail := by
    rw [headKept, tailKept]
    exact v.noWait
  rw [cycle_lone v, handler_rt_eq_retirement v.noCommit work,
    cycleOn_retires (abortOf_retirement u l) (commitPhase_retirement u l) (kept.trans v.latches) noWait rfl,
    committedWrites_retirement, channelsWritten_retirement, retiresRet_retirement, status]
  simp

end Sys2Proof.Machine
end

section
/-! SUPPORT. The front of a pass alone: from an isolated state to the latch of the instruction's unit, in both builds
(R74 to R86, R101, R131 to R144). -/

namespace Sys2Proof.Machine

/-! ## What isolation says, field by field -/

theorem State.Isolated.empty {s : State} {i : Instr} (iso : s.Isolated i) :
    s.latches = PerStage.const none ∧ s.fwd = noChannels ∧ s.robHead = s.robTail ∧ s.rsHead = s.rsTail := by
  have idle := iso.idle
  simp only [State.idle, State.latchesFree, State.channelsFree, Bool.and_eq_true, decide_eq_true_eq, beq_iff_eq] at idle
  obtain ⟨⟨⟨⟨latches, channels⟩, _⟩, rob⟩, rs⟩ := idle
  exact ⟨latches, channels, rob, rs⟩

/-- A register of an idle machine is ready and untagged. -/
theorem ready_untagged_of_idle {s : State} (idle : s.idle = true) (r : Reg) : s.ready r = true ∧ s.tag r = none := by
  simp only [State.idle, State.registersFree, Bool.and_eq_true, List.all_eq_true, Option.isNone_iff_eq_none] at idle
  obtain ⟨⟨⟨_, registers⟩, _⟩, _⟩ := idle
  exact registers s.regs[r] (by simp)

theorem State.Isolated.ready {s : State} {i : Instr} (iso : s.Isolated i) (r : Reg) : s.ready r = true :=
  (ready_untagged_of_idle iso.idle r).1

theorem State.Isolated.untagged {s : State} {i : Instr} (iso : s.Isolated i) (r : Reg) : s.tag r = none :=
  (ready_untagged_of_idle iso.idle r).2

/-- The instruction Fetch will read, and the record it is decoded from. -/
theorem nextInstr_some {s : State} {i : Instr} (h : s.nextInstr = some i) :
    s.fetchHalt = false ∧ 0 ≤ s.pc ∧ ∃ w, s.it[s.pc.toNat]? = some w ∧ decode w = .ok i := by
  unfold State.nextInstr State.instrAt at h
  split at h
  · rename_i fetches
    split at h
    · rename_i w hw
      split at h
      · rename_i j decodes
        cases h
        exact ⟨fetches.1, fetches.2, w, hw, decodes⟩
      · cases h
    · cases h
  · cases h

/-- What a record that decodes says of its instruction: the variant, and the immediate of a branch (R58, R62). -/
theorem decode_fields {w : Packed} {i : Instr} (h : decode w = .ok i) :
    Opcode.ofCode? (Record.ofWord w).opcode = some i.opcode ∧
      (isBranch i.opcode = true → (Record.ofWord w).imm = (slots i).imm) := by
  unfold decode Record.decode at h
  split at h
  · cases h
  · rename_i op code
    split at h
    · cases h
    · split at h
      · cases h
        rw [code]
        cases op <;> exact ⟨rfl, by simp [Instr.ofFields, Instr.opcode, isBranch, slots]⟩
      · cases h

/-- Decoding at a table position, with the register check of R57. -/
theorem decodeAt_of_decode {s : State} {p : Nat} {w : Packed} {i : Instr} (hw : s.it[p]? = some w)
    (h : decode w = .ok i) :
    s.decodeAt p = if i.wellFormed s.params.nreg then .ok i else .error .registerRange := by
  simp [State.decodeAt, hw, decodeFor, h]

/-! ## Fetch -/

theorem fetchRecord_of_outside {s : State} (h : s.outside s.pc) : s.fetchRecord = none := by
  unfold State.fetchRecord
  split
  · rename_i fetches
    have beyond : s.it.length ≤ s.pc.toNat := by
      rcases h with h | h <;> omega
    simp [State.record?, beyond]
  · rfl

theorem State.predictNext_of_not_branch (s : State) (p : Int) {op : Opcode} (h : isBranch op = false) (imm : Word) :
    s.predictNext p (some op) imm = p + 1 := by
  simp [State.predictNext, h, branchNext]

theorem State.predictNext_of_branch (s : State) (p : Int) {op : Opcode} (h : isBranch op = true) (imm : Word) :
    s.predictNext p (some op) imm = branchNext (predictsTaken s.pt[predictorIndex p]) p imm := by
  simp [State.predictNext, h]

/-- The state once `i` has been fetched, but for its latch and the time. -/
def State.fetched (s : State) (i : Instr) : State :=
  { s with
    pc := s.predictNext s.pc (some i.opcode) (slots i).imm
    fetchSeq := s.fetchSeq + 1
    fetchHalt := decide (i.opcode = .ret) }

theorem State.Isolated.fetchRecord {s : State} {i : Instr} (iso : s.Isolated i) :
    ∃ r, s.fetchRecord = some r ∧ Opcode.ofCode? r.opcode = some i.opcode ∧ s.nextPc r = (s.fetched i).pc := by
  obtain ⟨running, start, w, hw, decodes⟩ := nextInstr_some iso.next
  obtain ⟨code, imm⟩ := decode_fields decodes
  refine ⟨Record.ofWord w, by simp [State.fetchRecord, running, start, State.record?, hw], code, ?_⟩
  simp only [State.nextPc, code, State.fetched]
  cases branch : isBranch i.opcode
  · rw [State.predictNext_of_not_branch _ _ branch, State.predictNext_of_not_branch _ _ branch]
  · rw [imm branch]

theorem committing_of_empty {s : State} (h : s.robHead = s.robTail) : s.committing = none := by
  unfold State.committing
  split
  · rfl
  · rw [if_pos h]

/-- Fetch finds nothing behind an isolated instruction. -/
theorem State.Isolated.fetched_vacant {s : State} {i : Instr} (iso : s.Isolated i) : (s.fetched i).Vacant := by
  obtain ⟨latches, _, rob, rs⟩ := iso.empty
  refine ⟨iso.running, latches, fetchRecord_of_outside ?_, committing_of_empty rob, rs⟩
  show s.outside (s.predictNext s.pc (some i.opcode) (slots i).imm)
  cases branch : isBranch i.opcode
  · rw [State.predictNext_of_not_branch _ _ branch]
    exact iso.fallThrough
  · rw [State.predictNext_of_branch _ _ branch]
    unfold branchNext
    split
    · exact iso.target branch
    · exact iso.fallThrough

/-- The first cycle: the instruction is fetched and moves to Decode (R74). -/
theorem State.Isolated.cycle_fetch {s : State} {i : Instr} (iso : s.Isolated i) :
    cycle s =
      ((s.fetched i).elapse 1 (snapshotOnly .f s.pc.toNat) noChannels).setLatch .d
        (some s.fetchedLatch.arrived) := by
  obtain ⟨latches, _, rob, rs⟩ := iso.empty
  obtain ⟨running, _⟩ := nextInstr_some iso.next
  obtain ⟨r, record, code, next⟩ := iso.fetchRecord
  have silent : ∀ other, other ≠ .f → handler other s = {} := by
    intro other hf
    by_cases hrt : other = .rt
    · subst hrt
      exact (handleRT_of_noCommit (committing_of_empty rob)).trans (retireLatch_free (State.latch_of_free latches _))
    · exact handler_free (State.latch_of_free latches _) (fun h => absurd h hf) hrt
  have answer : handler .f s = { writes := [.latch .f s.fetchedLatch, .fetchSeqNext, .pc (s.fetched i).pc] ++
      (if i.opcode = .ret then [.fetchHalt true] else []) } := by
    simp [handler, handleF, State.latch_of_free latches, record, next, code]
  rw [cycle_of_lone .f silent, answer]
  by_cases ret : i.opcode = .ret
  · rw [if_pos ret]
    refine cycleOn_moves (l := s.fetchedLatch) rfl rfl ?_ latches rs rfl rfl
    simp only [State.fetched, ret, decide_true]
    rfl
  · rw [if_neg ret]
    refine cycleOn_moves (l := s.fetchedLatch) rfl rfl ?_ latches rs rfl rfl
    simp only [State.fetched, ret, decide_false, ← running]
    rfl

/-- The latch record with which `i` arrives in RR, alone: decoded and analysed, no operand captured (R84, R85). -/
def State.waitingLatch (s : State) (i : Instr) : Latch :=
  (s.fetchedLatch.decoded i).analysed.arrived

/-- Three cycles take a well-formed isolated instruction to RR (R74, R84, R85). -/
theorem State.Isolated.reaches_rr {s : State} {i : Instr} (iso : s.Isolated i)
    (wellFormed : i.wellFormed s.params.nreg = true) :
    Reaches 3 s
      (((s.fetched i).elapse 3 (snapshotOnly .oa s.pc.toNat) noChannels).setLatch .rr (some (s.waitingLatch i))) := by
  obtain ⟨_, _, w, hw, decodes⟩ := nextInstr_some iso.next
  have vacant₁ := iso.fetched_vacant.elapse 1 (snapshotOnly .f s.pc.toNat) noChannels
  have vacant₂ := vacant₁.elapse 1 (snapshotOnly .d s.pc.toNat) noChannels
  have decodes' : ((s.fetched i).elapse 1 (snapshotOnly .f s.pc.toNat) noChannels).decodeAt s.pc.toNat = .ok i :=
    (decodeAt_of_decode hw decodes).trans (if_pos wellFormed)
  have fetch := Reaches.of_cycle iso.running iso.cycle_fetch
  have decode := vacant₁.reaches (cycle_decode vacant₁ (l := s.fetchedLatch.arrived) rfl decodes')
  have analyse := vacant₂.reaches (cycle_analyse vacant₂ (l := (s.fetchedLatch.decoded i).arrived) rfl)
  have all := (fetch.trans decode).trans analyse
  simp only [State.elapse_elapse] at all
  exact all

theorem Instr.eq_ret {i : Instr} (h : i.opcode = .ret) : i = .ret := by
  cases i with
  | ret => rfl
  | _ => cases h

/-- A malformed instruction ends the run in Decode, one cycle after its fetch (R194). -/
theorem State.Isolated.reaches_abortDecode {s : State} {i : Instr} (iso : s.Isolated i)
    (malformed : i.wellFormed s.params.nreg = false) : Reaches 2 s (s.abortDecode i) := by
  obtain ⟨running, _, w, hw, decodes⟩ := nextInstr_some iso.next
  obtain ⟨_, channels, _, _⟩ := iso.empty
  have vacant := iso.fetched_vacant.elapse 1 (snapshotOnly .f s.pc.toNat) noChannels
  have refused : ((s.fetched i).elapse 1 (snapshotOnly .f s.pc.toNat) noChannels).decodeAt s.pc.toNat =
      .error .registerRange :=
    (decodeAt_of_decode hw decodes).trans (if_neg (by rw [malformed]; decide))
  have fetch := Reaches.of_cycle iso.running iso.cycle_fetch
  have abort := vacant.reaches (cycle_decode_aborts vacant (l := s.fetchedLatch.arrived) rfl refused)
  have notRet : i.opcode ≠ .ret := by
    intro ret
    rw [Instr.eq_ret ret] at malformed
    exact absurd malformed (by simp [Instr.wellFormed, Instr.regs])
  have all := fetch.trans abort
  simp only [State.fetched, notRet, decide_false, ← running, ← channels] at all
  exact all

/-! ## Issue -/

/-- The state in which an isolated instruction stands in RR, but for its latch. -/
def State.atIssue (s : State) (i : Instr) : State :=
  (s.fetched i).elapse 3 (snapshotOnly .oa s.pc.toNat) noChannels

theorem State.Isolated.atIssue_vacant {s : State} {i : Instr} (iso : s.Isolated i) : (s.atIssue i).Vacant :=
  iso.fetched_vacant.elapse ..

@[simp] theorem State.markIssued_elapse (s : State) (i : Instr) (n : Nat) (shown : PerStage (Option Nat))
    (c : Channels) : (s.elapse n shown c).markIssued i = (s.markIssued i).elapse n shown c := by
  have params : (s.elapse n shown c).params = s.params := rfl
  unfold State.markIssued
  rw [params]
  cases (slots i).dest with
  | none => rfl
  | some d => cases s.params.variant <;> rfl

/-- Marking a destination touches the registers, the ROB slots and the ROB tail only. -/
theorem State.markIssued_frame (s : State) (i : Instr) :
    s.markIssued i =
      { s with
        regs := (s.markIssued i).regs
        rob := (s.markIssued i).rob
        robTail := (s.markIssued i).robTail } := by
  unfold State.markIssued
  cases (slots i).dest with
  | none => rfl
  | some d => cases s.params.variant <;> rfl

theorem State.markIssued_latches (s : State) (i : Instr) : (s.markIssued i).latches = s.latches := by
  rw [State.markIssued_frame]

theorem State.markIssued_rsPointers (s : State) (i : Instr) :
    (s.markIssued i).rsHead = s.rsHead ∧ (s.markIssued i).rsTail = s.rsTail := by
  rw [State.markIssued_frame]
  exact ⟨rfl, rfl⟩

/-- An issue that marks the destination and is not bound for the RS takes the instruction to its unit. -/
theorem State.Isolated.reaches_unit_of_answer {s : State} {i : Instr} (iso : s.Isolated i)
    (wellFormed : i.wellFormed s.params.nreg = true) {k : Latch} {ws : List Write}
    (answer : handler .rr ((s.atIssue i).setLatch .rr (some (s.waitingLatch i))) = { writes := ws })
    (applied : ((s.atIssue i).setLatch .rr (some (s.waitingLatch i))).applyAll ws =
      ((s.atIssue i).markIssued i).setLatch .rr (some k))
    (channels : channelsWritten ws = noChannels) (done : k.done = true) (idx : k.idx = s.pc.toNat)
    (direct : ¬ (s.params.variant = .outOfOrder ∧ isRsForm k.op = true))
    (unit : k.unit = some (unitOf i.opcode)) :
    Reaches 4 s ((((s.fetched i).markIssued i).elapse 4 (snapshotOnly .rr s.pc.toNat) noChannels).setLatch
      (unitStage (unitOf i.opcode)) (some k.arrived)) := by
  have vacant := iso.atIssue_vacant
  obtain ⟨headKept, tailKept⟩ := (s.atIssue i).markIssued_rsPointers i
  have params : ((s.atIssue i).markIssued i).params = s.params := (markIssued_keepsArguments _ i).1
  have next : ((s.atIssue i).markIssued i).nextStage .rr k = some (unitStage (unitOf i.opcode)) := by
    rw [State.nextStage, params, if_neg direct, unit]
    rfl
  have issue := vacant.reaches (cycle_lone_moves vacant answer applied
    ((State.markIssued_latches _ i).trans vacant.latches) (by rw [headKept, tailKept, vacant.noWait]) done next)
  have all := (iso.reaches_rr wellFormed).trans issue
  rw [idx, channels, State.atIssue, State.markIssued_elapse, State.elapse_elapse] at all
  exact all

/-- A lookup with no forwarding pair and every register ready finds the register file's value (R102). -/
theorem State.lookSlot_of_ready {s : State} (channels : s.fwd = noChannels) (ready : ∀ r, s.ready r = true)
    (slot : Option Reg) {old : Word} (h : old = 0) : s.lookSlot slot old = some (s.slotValue slot) := by
  subst h
  cases slot with
  | none => rfl
  | some r => simp [State.lookSlot, State.lookup, channels, noChannels, channelHit, ready, State.slotValue]

/-- The in-order issue when nothing is in flight: every source from its register, the destination marked busy (R101,
R104). -/
theorem handleRR_inOrder_idle {t : State} {l : Latch} (build : t.params.variant = .inOrder)
    (here : t.latch .rr = some l) (work : l.done = false) (channels : t.fwd = noChannels)
    (ready : ∀ r, t.ready r = true) (v1 : l.v1 = 0) (v2 : l.v2 = 0) (v3 : l.v3 = 0) :
    handleRR t =
      { writes := .latch .rr
          { l with v1 := t.slotValue l.s1, v2 := t.slotValue l.s2, v3 := t.slotValue l.s3, done := true } ::
            busyMark l } := by
  have look := State.lookSlot_of_ready channels ready
  have free : t.destBusy l = false := by
    unfold State.destBusy
    split
    · rw [ready]
      rfl
    · rfl
  simp [handleRR, here, work, build, issueInOrder, look _ v1, look _ v2, look _ v3, free]

/-- The record an instruction issued alone carries, in terms of the one that waited in RR. -/
theorem State.issuedLatch_eq (s : State) (i : Instr) :
    s.issuedLatch i =
      { s.waitingLatch i with
        v1 := s.slotValue (slots i).s1
        v2 := s.slotValue (slots i).s2
        v3 := s.slotValue (slots i).s3
        r1 := s.params.variant == .outOfOrder
        r2 := s.params.variant == .outOfOrder
        r3 := s.params.variant == .outOfOrder
        rob := if s.usesRob i then some s.robTail else none } := rfl

theorem State.issuedLatch_inOrder {s : State} (build : s.params.variant = .inOrder) (i : Instr) :
    s.issuedLatch i =
      { s.waitingLatch i with
        v1 := s.slotValue (slots i).s1
        v2 := s.slotValue (slots i).s2
        v3 := s.slotValue (slots i).s3 } := by
  simp only [State.issuedLatch_eq, State.usesRob, build]
  rfl

/-- In-order build: four cycles take an isolated instruction to its unit. -/
theorem State.Isolated.reaches_unit_inOrder {s : State} {i : Instr} (iso : s.Isolated i)
    (build : s.params.variant = .inOrder) (wellFormed : i.wellFormed s.params.nreg = true) :
    Reaches 4 s ((((s.fetched i).markIssued i).elapse 4 (snapshotOnly .rr s.pc.toNat) noChannels).setLatch
      (unitStage (unitOf i.opcode)) (some (s.issuedLatch i))) := by
  have answer := handleRR_inOrder_idle (t := (s.atIssue i).setLatch .rr (some (s.waitingLatch i))) build
    (State.latch_setLatch_same ..) rfl rfl iso.ready rfl rfl rfl
  have applied : ((s.atIssue i).setLatch .rr (some (s.waitingLatch i))).applyAll
      (.latch .rr { s.issuedLatch i with done := true } :: busyMark (s.waitingLatch i)) =
      ((s.atIssue i).markIssued i).setLatch .rr (some { s.issuedLatch i with done := true }) := by
    have dest : (s.waitingLatch i).dest = (slots i).dest := rfl
    have build' : (s.atIssue i).params.variant = .inOrder := build
    unfold busyMark State.markIssued
    rw [dest, build']
    cases (slots i).dest <;> rfl
  have channels : channelsWritten
      (.latch .rr { s.issuedLatch i with done := true } :: busyMark (s.waitingLatch i)) = noChannels := by
    unfold busyMark
    cases (s.waitingLatch i).dest <;> rfl
  rw [State.issuedLatch_inOrder build] at *
  exact iso.reaches_unit_of_answer wellFormed answer applied channels rfl rfl (by simp [build]) rfl

/-! ## Issue in the out-of-order build -/

/-- A capture with no register tagged finds the register file's value (R137). -/
theorem State.capture_of_untagged {s : State} (untagged : ∀ r, s.tag r = none) (slot : Option Reg) {old : Word}
    (h : old = 0) : s.capture slot old = ⟨s.slotValue slot, true, none⟩ := by
  subst h
  cases slot with
  | none => rfl
  | some r => simp [State.capture, untagged, State.slotValue]

/-- A branch or `ret` in RR when nothing is in flight (R132, R135). -/
theorem handleRR_control_idle {t : State} {l : Latch} (build : t.params.variant = .outOfOrder)
    (here : t.latch .rr = some l) (work : l.done = false) (untagged : ∀ r, t.tag r = none) (drained : t.drained = true)
    (v1 : l.v1 = 0) (control : isBranch l.op = true ∨ l.op = .ret ∧ l.s1 = none) :
    handleRR t = { writes := [.latch .rr { l with v1 := t.slotValue l.s1, done := true }] } := by
  rcases control with branch | ⟨ret, source⟩
  · cases source : l.s1 with
    | none => simp [handleRR, here, work, build, issueOutOfOrder, branch, issueBranch, source, State.slotValue, ← v1]
    | some r =>
      simp [handleRR, here, work, build, issueOutOfOrder, branch, issueBranch, source, State.slotValue, untagged]
  · simp [handleRR, here, work, build, issueOutOfOrder, ret, isBranch, issueRet, drained, source, State.slotValue, ← v1]

/-- Every other instruction in RR when nothing is in flight: its sources captured, its destination renamed (R131, R137,
R138). -/
theorem handleRR_renamed_idle {t : State} {l : Latch} (build : t.params.variant = .outOfOrder)
    (here : t.latch .rr = some l) (work : l.done = false) (untagged : ∀ r, t.tag r = none)
    (robRoom : t.robFull = false) (rsRoom : t.rsFull = false) (v1 : l.v1 = 0) (v2 : l.v2 = 0) (v3 : l.v3 = 0)
    (notBranch : isBranch l.op = false) (notRet : l.op ≠ .ret) :
    handleRR t =
      { writes := .latch .rr
          { l with
            v1 := t.slotValue l.s1, r1 := true, t1 := none
            v2 := t.slotValue l.s2, r2 := true, t2 := none
            v3 := t.slotValue l.s3, r3 := true, t3 := none
            rob := if l.dest.isSome then some t.robTail else l.rob
            done := true } :: renameWrites t l } := by
  have capture := State.capture_of_untagged untagged
  simp [handleRR, here, work, build, issueOutOfOrder, notBranch, notRet, issueRenamed, robRoom, rsRoom, State.captured,
    capture _ v1, capture _ v2, capture _ v3]

theorem ringNext_ne {cap n : Nat} (h2 : 2 ≤ cap) (hn : n < cap) : ringNext cap n ≠ n := by
  unfold ringNext
  by_cases h : n + 1 = cap
  · rw [h, Nat.mod_self]
    omega
  · rw [Nat.mod_eq_of_lt (by omega)]
    omega

theorem ringFull_of_empty {cap head tail : Nat} (h2 : 2 ≤ cap) (ht : tail < cap) (empty : head = tail) :
    ringFull cap head tail = false := by
  have ne := ringNext_ne h2 ht
  simpa [ringFull, empty] using ne

/-! ### Branches and `ret`, in both builds -/

/-- The record with which a branch or `ret` leaves RR, alone. -/
def State.controlLatch (s : State) (i : Instr) : Latch :=
  { s.waitingLatch i with v1 := s.slotValue (slots i).s1 }

/-- A branch or `ret` writes no register, has no second source and runs in EXB (R60). -/
theorem control_slots {i : Instr} (control : isBranch i.opcode = true ∨ i.opcode = .ret) :
    (slots i).dest = none ∧ (slots i).s2 = none ∧ (slots i).s3 = none ∧ unitOf i.opcode = .exb ∧
      isRsForm i.opcode = false ∧ isMemory i.opcode = false := by
  cases i with
  | bez | bgez | blez | bgtz | bltz | ret => exact ⟨rfl, rfl, rfl, rfl, rfl, rfl⟩
  | _ => rcases control with h | h <;> cases h

theorem State.Isolated.drained {s : State} {i : Instr} (iso : s.Isolated i) (l : Latch) :
    ((s.atIssue i).setLatch .rr (some l)).drained = true := by
  have vacant := iso.atIssue_vacant
  obtain ⟨_, _, rob, rs⟩ := iso.empty
  have rob' : (s.atIssue i).robHead = (s.atIssue i).robTail := rob
  have rs' : (s.atIssue i).rsHead = (s.atIssue i).rsTail := rs
  simp [State.drained, State.unitsEmpty, State.latch_setLatch, State.latch_of_free vacant.latches, rob', rs',
    -State.setLatch_latches]

/-- Four cycles take an isolated branch or `ret` to EXB. -/
theorem State.Isolated.reaches_exb {s : State} {i : Instr} (iso : s.Isolated i)
    (wellFormed : i.wellFormed s.params.nreg = true) (control : isBranch i.opcode = true ∨ i.opcode = .ret) :
    Reaches 4 s (((s.fetched i).elapse 4 (snapshotOnly .rr s.pc.toNat) noChannels).setLatch .exb
      (some (s.controlLatch i))) := by
  obtain ⟨dest, s2, s3, unit, notRs, _⟩ := control_slots control
  have unmarked : ∀ u : State, u.markIssued i = u := by
    intro u
    simp [State.markIssued, dest]
  cases build : s.params.variant with
  | inOrder =>
    have all := iso.reaches_unit_inOrder build wellFormed
    rw [unmarked, unit, State.issuedLatch_inOrder build, s2, s3] at all
    exact all
  | outOfOrder =>
    have control' : isBranch (s.waitingLatch i).op = true ∨
        (s.waitingLatch i).op = .ret ∧ (s.waitingLatch i).s1 = none := by
      refine control.imp id fun ret => ⟨ret, ?_⟩
      rw [Instr.eq_ret ret]
      rfl
    have answer := handleRR_control_idle (t := (s.atIssue i).setLatch .rr (some (s.waitingLatch i))) build
      (State.latch_setLatch_same ..) rfl iso.untagged (iso.drained _) rfl control'
    have direct : ¬ (s.params.variant = .outOfOrder ∧ isRsForm i.opcode = true) := by simp [notRs]
    have all := iso.reaches_unit_of_answer (k := { s.controlLatch i with done := true }) wellFormed answer
      (by rw [unmarked]; exact State.setLatch_setLatch ..) rfl rfl rfl direct rfl
    rw [unmarked, unit] at all
    exact all

/-! ### Every other instruction, in both builds -/

/-- The state in which an isolated instruction stands in its unit, but for its latch: its destination marked, and the RS
slot it used free again. -/
def State.issued (s : State) (i : Instr) : State :=
  { (s.fetched i).markIssued i with
    rsHead := pointerAfter (s.usesRs i) s.params.rsCap s.rsHead
    rsTail := pointerAfter (s.usesRs i) s.params.rsCap s.rsTail }

/-- The cycles before an instruction stands in its unit: fetch, decode, analyse, issue, and the RS cycle where there
is one (R98, R151). -/
def State.issueCycles (s : State) (i : Instr) : Nat :=
  if s.usesRs i then 5 else 4

/-- What the last of them shows: the instruction in RR, or nowhere but in the RS. -/
def State.issueShows (s : State) (i : Instr) : PerStage (Option Nat) :=
  if s.usesRs i then PerStage.const none else snapshotOnly .rr s.pc.toNat

theorem State.issued_of_not_usesRs {s : State} {i : Instr} (h : s.usesRs i = false) :
    s.issued i = (s.fetched i).markIssued i := by
  obtain ⟨head, tail⟩ := (s.fetched i).markIssued_rsPointers i
  have head' : ((s.fetched i).markIssued i).rsHead = s.rsHead := head
  have tail' : ((s.fetched i).markIssued i).rsTail = s.rsTail := tail
  simp only [State.issued, h, pointerAfter, Bool.false_eq_true, if_false, ← head', ← tail']

theorem State.issuedLatch_outOfOrder {s : State} (build : s.params.variant = .outOfOrder) (i : Instr) :
    s.issuedLatch i =
      { s.waitingLatch i with
        v1 := s.slotValue (slots i).s1, r1 := true, t1 := none
        v2 := s.slotValue (slots i).s2, r2 := true, t2 := none
        v3 := s.slotValue (slots i).s3, r3 := true, t3 := none
        rob := if (slots i).dest.isSome then some s.robTail else none } := by
  simp only [State.issuedLatch_eq, State.usesRob, build]
  rfl

/-- The out-of-order issue of an isolated instruction. -/
theorem State.Isolated.handler_rr_outOfOrder {s : State} {i : Instr} (iso : s.Isolated i)
    (build : s.params.variant = .outOfOrder) (notBranch : isBranch i.opcode = false) (notRet : i.opcode ≠ .ret) :
    handler .rr ((s.atIssue i).setLatch .rr (some (s.waitingLatch i))) =
      { writes := .latch .rr { s.issuedLatch i with done := true } ::
          renameWrites (s.atIssue i) (s.waitingLatch i) } := by
  obtain ⟨_, _, rob, rs⟩ := iso.empty
  obtain ⟨⟨_, _, _, robCap, rsCap⟩, _, _, _, robTail, _, rsTail⟩ := iso.sized
  rw [State.issuedLatch_outOfOrder build]
  exact handleRR_renamed_idle (t := (s.atIssue i).setLatch .rr (some (s.waitingLatch i))) build
    (State.latch_setLatch_same ..) rfl iso.untagged (ringFull_of_empty robCap robTail rob)
    (ringFull_of_empty rsCap rsTail rs) rfl rfl rfl notBranch notRet

/-- The writes of that issue mark the destination and fill the latch. -/
theorem State.applyAll_rename {s : State} {i : Instr} (build : s.params.variant = .outOfOrder) (k : Latch) :
    ((s.atIssue i).setLatch .rr (some (s.waitingLatch i))).applyAll
        (.latch .rr k :: renameWrites (s.atIssue i) (s.waitingLatch i)) =
      ((s.atIssue i).markIssued i).setLatch .rr (some k) := by
  have dest : (s.waitingLatch i).dest = (slots i).dest := rfl
  have build' : (s.atIssue i).params.variant = .outOfOrder := build
  unfold renameWrites State.markIssued
  rw [dest, build']
  cases (slots i).dest <;> rfl

theorem channelsWritten_rename (s : State) (l k : Latch) :
    channelsWritten (.latch .rr k :: renameWrites s l) = noChannels := by
  unfold renameWrites
  cases l.dest <;> rfl

/-! ### Through the reservation station -/

/-- A lone issued RS form leaves RR for the RS (R143). -/
theorem State.advance_enqueue {u : State} (free : ∀ a, u.latch a = none) (noWait : u.rsHead = u.rsTail)
    (build : u.params.variant = .outOfOrder) {l : Latch} (form : isRsForm l.op = true) (done : l.done = true) :
    (u.setLatch .rr (some l)).advance = u.rsEnqueue l := by
  have free' : ∀ a, (u.rsEnqueue l).latch a = none := free
  have noFeeder : ∀ a ∈ wbFeeders, (u.setLatch .rr (some l)).latch a = none := by
    intro a ha
    have hne : a ≠ .rr := by
      rintro rfl
      revert ha
      decide
    rw [State.latch_setLatch_ne _ _ hne, free]
  have leaves : (u.setLatch .rr (some l)).leaveRR = u.rsEnqueue l := by
    have enqueued : ((u.setLatch .rr (some l)).rsEnqueue l).setLatch .rr none = u.rsEnqueue l :=
      (State.setLatch_setLatch (u.rsEnqueue l) .rr (some l) none).trans (State.setLatch_none (free .rr))
    simp [State.leaveRR, done, build, form, enqueued, -State.setLatch_latches]
  have still : (u.setLatch .rr (some l)).dispatchRs = u.setLatch .rr (some l) := State.dispatchRs_of_empty noWait
  simp [State.advance, State.leaveRT_of_free, State.move_of_free, State.arbitrate_of_free noFeeder, still, leaves,
    State.latch_setLatch, free, free', -State.setLatch_latches]

/-- The cycle that issues an isolated RS form: it leaves for the RS. -/
theorem cycle_enqueue {u w : State} (v : u.Vacant) {l k : Latch} {ws : List Write}
    (answer : handler .rr (u.setLatch .rr (some l)) = { writes := ws })
    (applied : (u.setLatch .rr (some l)).applyAll ws = w.setLatch .rr (some k))
    (free : w.latches = PerStage.const none) (noWait : w.rsHead = w.rsTail) (build : w.params.variant = .outOfOrder)
    (form : isRsForm k.op = true) (done : k.done = true) :
    cycle (u.setLatch .rr (some l)) = (w.elapse 1 (snapshotOnly .rr k.idx) (channelsWritten ws)).rsEnqueue k := by
  have writes : committedWrites [(Stage.rr, { writes := ws })] = ws := by
    simp [committedWrites, flushOf, HandlerOut.flush?]
  have committed : commitPhase [(Stage.rr, { writes := ws })] (u.setLatch .rr (some l)) = w.setLatch .rr (some k) := by
    rw [← applied]
    simp [commitPhase, writes, flushOf, commitOf, HandlerOut.flush?]
  have advanced := State.advance_enqueue (u := { w with snapshot := snapshotOnly .rr k.idx })
    (fun a => State.latch_of_free free a) noWait build form done
  have noAbort : abortOf [(Stage.rr, { writes := ws })] = none := rfl
  have noRet : retiresRet [(Stage.rr, { writes := ws })] = false := rfl
  rw [cycle_lone v, answer]
  simp only [cycleOn, noAbort, committed, State.takeSnapshot_lone free, advanced, State.endCycle, writes, noRet]
  rfl

/-- Emptying a slot of a list of empty slots that was filled leaves them all empty. -/
theorem set_set_none_of_empty {α : Type} {l : List (Option α)} (empty : ∀ e ∈ l, e = none) (n : Nat) (x : Option α) :
    (l.set n x).set n none = l := by
  rw [List.set_set]
  refine List.ext_getElem (by simp) fun k hk hl => ?_
  rw [List.getElem_set]
  split
  · exact (empty _ (List.getElem_mem hl)).symm
  · rfl

/-- The reservation station of the out-of-order build holds nothing. -/
structure State.RsEmpty (u : State) : Prop where
  build : u.params.variant = .outOfOrder
  noWait : u.rsHead = u.rsTail
  slots : ∀ e ∈ u.rs, e = none
  cap : 2 ≤ u.params.rsCap
  tail : u.rsTail < u.params.rsCap
  length : u.rs.length = u.params.rsCap

/-- The state after one RS slot has been taken and freed. -/
def State.rsPassed (u : State) : State :=
  { u with rsHead := ringNext u.params.rsCap u.rsHead, rsTail := ringNext u.params.rsCap u.rsTail }

theorem State.issued_of_usesRs {s : State} {i : Instr} (h : s.usesRs i = true) :
    s.issued i = ((s.fetched i).markIssued i).rsPassed := by
  unfold State.issued State.rsPassed
  rw [State.markIssued_frame]
  simp only [h, pointerAfter, if_true]
  rfl

theorem State.rsPassed_elapse (u : State) (n : Nat) (shown : PerStage (Option Nat)) (c : Channels) :
    (u.elapse n shown c).rsPassed = u.rsPassed.elapse n shown c := rfl

/-- A ready entry at the RS head leaves for its free unit (R144). -/
theorem State.dispatchRs_of_ready {s : State} {e : Latch} {x : FuncUnit} (build : s.params.variant = .outOfOrder)
    (waits : s.rsHead ≠ s.rsTail) (head : s.rs.getD s.rsHead none = some e) (unit : e.unit = some x)
    (ready : e.allReady = true) (unitFree : s.latch (unitStage x) = none) :
    s.dispatchRs = (s.setLatch (unitStage x) (some e.arrived)).rsDequeue := by
  obtain ⟨⟩ := e
  subst unit
  simp only [State.dispatchRs, build, if_neg waits, head, ready, unitFree, Option.isNone_none, Bool.and_self, if_true]
  rfl

/-- The only RS entry, its sources ready, leaves for its unit. -/
theorem State.dispatchRs_enqueue {u : State} (empty : u.RsEmpty) (free : ∀ a, u.latch a = none) {l : Latch}
    {x : FuncUnit} (unit : l.unit = some x) (ready : l.allReady = true) :
    (u.rsEnqueue l).dispatchRs = u.rsPassed.setLatch (unitStage x) (some l.arrived) := by
  obtain ⟨build, noWait, slots, cap, tail, length⟩ := empty
  have waits : u.rsHead ≠ ringNext u.params.rsCap u.rsTail := by
    rw [noWait]
    exact (ringNext_ne cap tail).symm
  have head : (u.rs.set u.rsTail (some l.arrived)).getD u.rsHead none = some l.arrived := by
    rw [noWait, List.getD_eq_getElem?_getD, List.getElem?_set_self (by omega)]
    rfl
  have freed : (u.rs.set u.rsTail (some l.arrived)).set u.rsHead none = u.rs := by
    rw [noWait]
    exact set_set_none_of_empty slots _ _
  have passed : ((u.rsEnqueue l).setLatch (unitStage x) (some l.arrived)).rsDequeue =
      { u.rsPassed.setLatch (unitStage x) (some l.arrived) with
        rs := (u.rs.set u.rsTail (some l.arrived)).set u.rsHead none } := rfl
  refine (State.dispatchRs_of_ready (s := u.rsEnqueue l) build waits head unit ready (free _)).trans ?_
  exact passed.trans (by rw [freed]; rfl)

/-- The advance pass does nothing but dispatch it. -/
theorem State.advance_dispatch {u : State} (empty : u.RsEmpty) (free : ∀ a, u.latch a = none) {l : Latch}
    {x : FuncUnit} (unit : l.unit = some x) (ready : l.allReady = true) :
    (u.rsEnqueue l).advance = u.rsPassed.setLatch (unitStage x) (some l.arrived) := by
  have free' : ∀ a, (u.rsEnqueue l).latch a = none := free
  have free'' : ∀ a, u.rsPassed.latch a = none := free
  have dispatched := State.dispatchRs_enqueue empty free unit ready
  cases x <;>
    simp [State.advance, State.leaveRT_of_free, State.move_of_free, State.arbitrate_of_free fun a _ => free' a,
      dispatched, State.leaveRR_of_free, State.latch_setLatch, free', free'', unitStage, -State.setLatch_latches]

/-- The cycle in which the only RS entry, its sources ready, leaves for its unit. -/
theorem cycle_dispatch {u : State} (v : u.Vacant) (empty : u.RsEmpty) {l : Latch} {x : FuncUnit}
    (unit : l.unit = some x) (ready : l.allReady = true) :
    cycle (u.rsEnqueue l) =
      (u.rsPassed.elapse 1 (PerStage.const none) noChannels).setLatch (unitStage x) (some l.arrived) := by
  have free : ∀ a, (u.rsEnqueue l).latch a = none := State.latch_of_free v.latches
  have silent : ∀ a, handler a (u.rsEnqueue l) = {} := by
    intro a
    by_cases hrt : a = .rt
    · subst hrt
      have noCommit : (u.rsEnqueue l).committing = none := v.noCommit
      exact (handleRT_of_noCommit noCommit).trans (retireLatch_free (free _))
    · exact handler_free (free a) (fun _ => v.noFetch) hrt
  have shown : (u.rsEnqueue l).takeSnapshot = { u with snapshot := PerStage.const none }.rsEnqueue l := by
    have none : (u.rsEnqueue l).latches.map (fun k => k.map fun k => k.idx) = PerStage.const none := by
      rw [State.rsEnqueue_latches, v.latches]
      rfl
    rw [State.takeSnapshot, none]
    rfl
  have advanced := State.advance_dispatch (u := { u with snapshot := PerStage.const none })
    ⟨empty.build, empty.noWait, empty.slots, empty.cap, empty.tail, empty.length⟩ (State.latch_of_free v.latches)
    unit ready
  have quiet : cycle (u.rsEnqueue l) = ((u.rsEnqueue l).takeSnapshot.advance).endCycle [(.f, {})] := by
    rw [cycle_of_lone .f fun a _ => silent a, silent]
    rfl
  rw [quiet, shown, advanced]
  rfl

theorem reaches_dispatch {u : State} (v : u.Vacant) (empty : u.RsEmpty) {l : Latch} {x : FuncUnit}
    (unit : l.unit = some x) (ready : l.allReady = true) :
    Reaches 1 (u.rsEnqueue l)
      ((u.rsPassed.elapse 1 (PerStage.const none) noChannels).setLatch (unitStage x) (some l.arrived)) :=
  .of_cycle v.running (cycle_dispatch v empty unit ready)

/-! ### To the unit -/

/-- Every slot of a list of empty slots reads as empty, and so does every position beyond it. -/
theorem getD_of_empty {α : Type} {l : List (Option α)} (empty : ∀ e ∈ l, e = none) (n : Nat) :
    l.getD n none = none := by
  rw [List.getD_eq_getElem?_getD]
  cases slot : l[n]? with
  | none => rfl
  | some x => exact empty x (List.mem_of_getElem? slot)

/-- No entry of the ROB has completed while an isolated instruction is on its way to its unit. -/
theorem State.Isolated.marked_not_completed {s : State} {i : Instr} (iso : s.Isolated i) {k : RobId} {e : RobEntry}
    (h : ((s.fetched i).markIssued i).robEntry k = some e) : e.completed = false := by
  have slotsFree : ∀ m, (s.fetched i).rob.getD m none = none := getD_of_empty iso.robFree
  have params : (s.fetched i).params = s.params := rfl
  unfold State.markIssued at h
  cases dest : (slots i).dest with
  | none =>
    rw [dest] at h
    exact absurd (h.symm.trans (slotsFree k)) (by simp)
  | some d =>
    rw [dest, params] at h
    cases build : s.params.variant with
    | inOrder =>
      rw [build] at h
      exact absurd (h.symm.trans (slotsFree k)) (by simp)
    | outOfOrder =>
      rw [build] at h
      have entry : ((s.fetched i).rob.set (s.fetched i).robTail
          (some ⟨(s.fetched i).robTail, d, 0, false, false⟩)).getD k none = some e := h
      rw [List.getD_eq_getElem?_getD, List.getElem?_set] at entry
      split at entry
      · split at entry
        · cases entry
          rfl
        · cases entry
      · rw [← List.getD_eq_getElem?_getD, slotsFree] at entry
        cases entry

theorem State.Isolated.marked_vacant {s : State} {i : Instr} (iso : s.Isolated i) :
    ((s.fetched i).markIssued i).Vacant := by
  obtain ⟨running, latches, noFetch, _, noWait⟩ := iso.fetched_vacant
  have noCommit : ((s.fetched i).markIssued i).committing = none := by
    cases h : ((s.fetched i).markIssued i).committing with
    | none => rfl
    | some e =>
      obtain ⟨_, _, head, completed, _⟩ := committing_some h
      rw [iso.marked_not_completed head] at completed
      cases completed
  rw [State.markIssued_frame] at noCommit ⊢
  exact ⟨running, latches, noFetch, noCommit, noWait⟩

theorem State.Isolated.marked_rsEmpty {s : State} {i : Instr} (iso : s.Isolated i)
    (build : s.params.variant = .outOfOrder) (n : Nat) (shown : PerStage (Option Nat)) (c : Channels) :
    (((s.fetched i).markIssued i).elapse n shown c).RsEmpty := by
  obtain ⟨_, _, _, rs⟩ := iso.empty
  obtain ⟨⟨_, _, _, _, cap⟩, _, length, _, _, _, tail⟩ := iso.sized
  rw [State.markIssued_frame]
  exact ⟨build, rs, iso.rsFree, cap, tail, length⟩

theorem State.Isolated.issued_vacant {s : State} {i : Instr} (iso : s.Isolated i) : (s.issued i).Vacant := by
  obtain ⟨_, _, _, rs⟩ := iso.empty
  obtain ⟨running, latches, noFetch, noCommit, _⟩ := iso.marked_vacant
  exact ⟨running, latches, noFetch, noCommit, by simp only [State.issued, rs]⟩

/-- Five cycles take an isolated RS form through the RS to its unit. -/
theorem State.Isolated.reaches_unit_rs {s : State} {i : Instr} (iso : s.Isolated i)
    (wellFormed : i.wellFormed s.params.nreg = true) (build : s.params.variant = .outOfOrder)
    (form : isRsForm i.opcode = true) :
    Reaches 5 s
      (((((s.fetched i).markIssued i).rsPassed.elapse 5 (PerStage.const none) noChannels)).setLatch
        (unitStage (unitOf i.opcode)) (some (s.issuedLatch i))) := by
  have notBranch : isBranch i.opcode = false := by
    cases branch : isBranch i.opcode with
    | false => rfl
    | true =>
      obtain ⟨_, _, _, _, notRs, _⟩ := control_slots (.inl branch)
      cases notRs.symm.trans form
  have notRet : i.opcode ≠ .ret := by
    intro ret
    rw [ret] at form
    cases form
  obtain ⟨_, _, _, rs⟩ := iso.empty
  have noWait : ((s.atIssue i).markIssued i).rsHead = ((s.atIssue i).markIssued i).rsTail := by
    rw [State.markIssued_frame]
    exact rs
  have build' : ((s.atIssue i).markIssued i).params.variant = .outOfOrder := by
    rw [State.markIssued_frame]
    exact build
  have enqueue := iso.atIssue_vacant.reaches (cycle_enqueue iso.atIssue_vacant
    (iso.handler_rr_outOfOrder build notBranch notRet) (State.applyAll_rename build _)
    ((State.markIssued_latches _ i).trans iso.atIssue_vacant.latches) noWait build' form rfl)
  rw [channelsWritten_rename, State.atIssue, State.markIssued_elapse, State.elapse_elapse] at enqueue
  have vacant := iso.marked_vacant.elapse 4 (snapshotOnly .rr s.pc.toNat) noChannels
  have ready : ({ s.issuedLatch i with done := true } : Latch).allReady = true := by
    rw [State.issuedLatch_outOfOrder build]
    rfl
  have dispatch := reaches_dispatch vacant (iso.marked_rsEmpty build _ _ _)
    (l := { s.issuedLatch i with done := true }) rfl ready
  rw [State.rsPassed_elapse, State.elapse_elapse] at dispatch
  exact ((iso.reaches_rr wellFormed).trans enqueue).trans dispatch

/-- The cycles before its unit take any other isolated instruction there. -/
theorem State.Isolated.reaches_unit {s : State} {i : Instr} (iso : s.Isolated i)
    (wellFormed : i.wellFormed s.params.nreg = true) (notBranch : isBranch i.opcode = false)
    (notRet : i.opcode ≠ .ret) :
    Reaches (s.issueCycles i) s
      (((s.issued i).elapse (s.issueCycles i) (s.issueShows i) noChannels).setLatch (unitStage (unitOf i.opcode))
        (some (s.issuedLatch i))) := by
  cases uses : s.usesRs i with
  | true =>
    obtain ⟨build, form⟩ : s.params.variant = .outOfOrder ∧ isRsForm i.opcode = true := by
      simpa [State.usesRs] using uses
    rw [State.issued_of_usesRs uses]
    simp only [State.issueCycles, State.issueShows, uses, if_true]
    exact iso.reaches_unit_rs wellFormed build form
  | false =>
    rw [State.issued_of_not_usesRs uses]
    simp only [State.issueCycles, State.issueShows, uses, Bool.false_eq_true, if_false]
    cases build : s.params.variant with
    | inOrder => exact iso.reaches_unit_inOrder build wellFormed
    | outOfOrder =>
      have direct : ¬ (s.params.variant = .outOfOrder ∧ isRsForm i.opcode = true) := by
        simpa [State.usesRs] using uses
      exact iso.reaches_unit_of_answer (k := { s.issuedLatch i with done := true }) wellFormed
        (iso.handler_rr_outOfOrder build notBranch notRet) (State.applyAll_rename build _)
        (channelsWritten_rename ..) rfl rfl direct rfl

end Sys2Proof.Machine
end

section
/-! SUPPORT. The end of a pass alone: from the unit through Writeback and Retire, or to a fatal abort; and the two
grains agree on every isolated pass (R30, R87 to R92, R140). -/

namespace Sys2Proof.Machine

/-! ## Writeback and Retire, two cycles -/

/-- An occupant of Writeback without a destination leaves the machine in two cycles, counted and nothing else. -/
theorem State.Vacant.reaches_out {u : State} (v : u.Vacant) {l : Latch} (work : l.done = false)
    (dest : l.dest = none) :
    Reaches 2 (u.setLatch .wb (some l))
      { u.countRetire.elapse 2 (snapshotOnly .rt l.idx) noChannels with
        status := if l.op = .ret then .halted else .running } := by
  have vacant := v.elapse 1 (snapshotOnly .wb l.idx) noChannels
  have noWrite : retireWrites (u.elapse 1 (snapshotOnly .wb l.idx) noChannels) l.arrived = [] := by
    rcases retireWrites_cases (u.elapse 1 (snapshotOnly .wb l.idx) noChannels) l.arrived with h | ⟨d, _, hd, _⟩
    · exact h
    · exact absurd (dest.symm.trans hd) (by simp)
  have retire := vacant.reaches (cycle_retire vacant (l := l.arrived) rfl)
  rw [noWrite] at retire
  exact (v.reaches (cycle_writeback v work)).trans retire

/-- The same when the occupant is no `ret`. -/
theorem State.Vacant.reaches_out_running {u : State} (v : u.Vacant) {l : Latch} (work : l.done = false)
    (dest : l.dest = none) (notRet : l.op ≠ .ret) :
    Reaches 2 (u.setLatch .wb (some l)) (u.countRetire.elapse 2 (snapshotOnly .rt l.idx) noChannels) := by
  have running : u.countRetire.status = .running := v.running
  have out := v.reaches_out work dest
  rw [if_neg notRet, ← running] at out
  exact out

/-- In-order build: an occupant of Writeback with a destination writes it in Retire (R88). -/
theorem State.Vacant.reaches_out_inOrder {u : State} (v : u.Vacant) (build : u.params.variant = .inOrder) {l : Latch}
    {d : Reg} (work : l.done = false) (dest : l.dest = some d) (notRet : l.op ≠ .ret) :
    Reaches 2 (u.setLatch .wb (some l))
      (((u.countRetire.setValue d l.result).setReady d true).elapse 2 (snapshotOnly .rt l.idx) noChannels) := by
  have vacant := v.elapse 1 (snapshotOnly .wb l.idx) noChannels
  have write : retireWrites (u.elapse 1 (snapshotOnly .wb l.idx) noChannels) l.arrived =
      [.regValue d l.result, .regReady d true] := by
    have build' : (u.elapse 1 (snapshotOnly .wb l.idx) noChannels).params.variant = .inOrder := build
    have dest' : l.arrived.dest = some d := dest
    simp only [retireWrites, build', dest']
    rfl
  have notRet' : l.arrived.op ≠ .ret := notRet
  have retire := vacant.reaches (cycle_retire vacant (l := l.arrived) rfl)
  rw [write, if_neg notRet'] at retire
  have running : ((u.countRetire.setValue d l.result).setReady d true).status = .running := v.running
  have all := (v.reaches (cycle_writeback v work)).trans retire
  rw [← running] at all
  exact all

/-- The state after the ROB head `e`, which its register still names, has committed (R140). -/
def State.committed (u : State) (e : RobEntry) : State :=
  (((u.setValue e.destinationRegister e.result).setTag e.destinationRegister none).setReady e.destinationRegister
    true).robFree

theorem applyAll_commitWrites_tagged {u : State} {e : RobEntry} (tagged : u.tag e.destinationRegister = some e.id) :
    u.applyAll (commitWrites u e) = u.committed e := by
  rcases commitWrites_cases u e with ⟨_, h⟩ | ⟨untagged, _⟩
  · rw [h]
    rfl
  · exact absurd tagged untagged

theorem State.setEntry_setEntry (s : State) (r : Reg) (e k : RegEntry) :
    (s.setEntry r e).setEntry r k = s.setEntry r k := by
  simp [State.setEntry]

/-- Such a commit leaves its register holding the result, ready and untagged. -/
theorem State.committed_eq (u : State) (e : RobEntry) :
    u.committed e = (u.setEntry e.destinationRegister ⟨e.result, true, none⟩).robFree := by
  simp only [State.committed, State.setReady, State.setValue, State.setTag, State.regs_setEntry_same,
    State.setEntry_setEntry]

theorem State.countRetire_elapse (u : State) (n : Nat) (shown : PerStage (Option Nat)) (c : Channels) :
    (u.elapse n shown c).countRetire = u.countRetire.elapse n shown c := rfl

theorem State.committed_elapse (u : State) (e : RobEntry) (n : Nat) (shown : PerStage (Option Nat)) (c : Channels) :
    (u.elapse n shown c).committed e = (u.committed e).elapse n shown c := by
  simp only [State.committed_eq]
  rfl

/-- Out-of-order build: the only ROB entry commits while its instruction stands in Writeback, and Retire only counts. -/
theorem reaches_out_commit {u : State} {e : RobEntry} (running : u.status = .running)
    (build : u.params.variant = .outOfOrder) (commits : u.committing = some e)
    (tagged : u.tag e.destinationRegister = some e.id) (only : ringNext u.params.robCap u.robHead = u.robTail)
    (free : u.latches = PerStage.const none) (noFetch : u.fetchRecord = none) (noWait : u.rsHead = u.rsTail)
    (rsFree : ∀ e ∈ u.rs, e = none) {l : Latch} (work : l.done = false) (notRet : l.op ≠ .ret) :
    Reaches 2 (u.setLatch .wb (some l))
      ((u.committed e).countRetire.elapse 2 (snapshotOnly .rt l.idx) noChannels) := by
  have committed : (u.committed e).Vacant := ⟨running, free, noFetch, committing_of_empty only, noWait⟩
  have vacant := committed.elapse 1 (snapshotOnly .wb l.idx) noChannels
  have noWrite : retireWrites ((u.committed e).elapse 1 (snapshotOnly .wb l.idx) noChannels) l.arrived = [] := by
    have build' : ((u.committed e).elapse 1 (snapshotOnly .wb l.idx) noChannels).params.variant = .outOfOrder := build
    simp only [retireWrites, build']
  have writeback : Reaches 1 (u.setLatch .wb (some l)) _ :=
    .of_cycle running (cycle_writeback_commit commits free noFetch noWait rsFree work)
  rw [applyAll_commitWrites_tagged tagged] at writeback
  have notRet' : l.arrived.op ≠ .ret := notRet
  have retire := vacant.reaches (cycle_retire vacant (l := l.arrived) rfl)
  rw [noWrite, if_neg notRet'] at retire
  have stillRunning : (u.committed e).countRetire.status = .running := running
  have all := writeback.trans retire
  rw [← stillRunning] at all
  exact all

/-! ## A result reaches its register -/

/-- Marked busy, written, and ready again: the register holds the value as before (R104, R88). -/
theorem State.setReady_setValue_setReady (s : State) (d : Reg) (v : Word) :
    ((s.setReady d false).setValue d v).setReady d true = s.setEntry d ⟨v, true, s.tag d⟩ := by
  simp only [State.setReady, State.setValue, State.regs_setEntry_same, State.setEntry_setEntry]
  rfl

theorem State.fetched_pc {s : State} {i : Instr} (notBranch : isBranch i.opcode = false) :
    (s.fetched i).pc = s.pc + 1 :=
  State.predictNext_of_not_branch _ _ notBranch _

theorem State.Isolated.fetched_fetchHalt {s : State} {i : Instr} (iso : s.Isolated i) (notRet : i.opcode ≠ .ret) :
    (s.fetched i).fetchHalt = s.fetchHalt := by
  obtain ⟨running, _⟩ := nextInstr_some iso.next
  rw [running]
  exact decide_eq_false notRet

/-- In-order build: an instruction whose result has been written ends where `exec` says. -/
theorem State.Isolated.passWrite_inOrder {s : State} {i : Instr} (iso : s.Isolated i)
    (build : s.params.variant = .inOrder) (notBranch : isBranch i.opcode = false) (notRet : i.opcode ≠ .ret) {d : Reg}
    (dest : (slots i).dest = some d) (v : Word) :
    (((s.issued i).countRetire.setValue d v).setReady d true).elapse (s.passCycles i) (snapshotOnly .rt s.pc.toNat)
      noChannels = s.passWrite i d v := by
  obtain ⟨_, channels, _, _⟩ := iso.empty
  have marked : (s.fetched i).markIssued i = (s.fetched i).setReady d false := by
    have build' : (s.fetched i).params.variant = .inOrder := build
    simp only [State.markIssued, dest, build']
  have noRob : s.usesRob i = false := by simp [State.usesRob, build]
  have noRs : s.usesRs i = false := by simp [State.usesRs, build]
  have written : (((s.issued i).countRetire.setValue d v).setReady d true) =
      (s.fetched i).countRetire.setEntry d ⟨v, true, none⟩ := by
    have untagged : (s.fetched i).countRetire.tag d = none := iso.untagged d
    have swapped : ((s.fetched i).setReady d false).countRetire = (s.fetched i).countRetire.setReady d false := rfl
    rw [State.issued_of_not_usesRs noRs, marked, swapped, State.setReady_setValue_setReady, untagged]
  have ended : ((s.fetched i).countRetire.setEntry d ⟨v, true, none⟩).elapse (s.passCycles i)
      (snapshotOnly .rt s.pc.toNat) noChannels =
      { s with
        fwd := noChannels
        pc := (s.fetched i).pc
        fetchSeq := s.fetchSeq + 1
        fetchHalt := (s.fetched i).fetchHalt
        cycles := s.cycles + s.passCycles i
        retired := s.retired + 1
        snapshot := snapshotOnly .rt s.pc.toNat
        regs := s.regs.set d ⟨v, true, none⟩ } := rfl
  rw [written, ended, State.fetched_pc notBranch, iso.fetched_fetchHalt notRet, ← channels]
  simp only [State.passWrite, State.pass, noRob, noRs, pointerAfter, Bool.false_eq_true, if_false]
  rfl

/-- The entry the ROB holds for an isolated instruction with destination `d`. -/
def State.ownEntry (s : State) (d : Reg) (completed : Bool) (v : Word) : RobEntry :=
  ⟨s.robTail, d, v, completed, false⟩

/-- A register renamed to the slot `t`: busy, tagged, its value kept (R138). -/
theorem State.setTag_setReady (s : State) (d : Reg) (t : Option RobId) :
    (s.setTag d t).setReady d false = s.setEntry d ⟨s.x d, false, t⟩ := by
  simp only [State.setReady, State.setTag, State.regs_setEntry_same, State.setEntry_setEntry]
  rfl

/-- Out-of-order build: a destination renamed, and its ROB entry, `completed` or not, with `v` in it. -/
def State.inRob (s : State) (i : Instr) (d : Reg) (completed : Bool) (v : Word) : State :=
  { s.fetched i with
    rsHead := pointerAfter (s.usesRs i) s.params.rsCap s.rsHead
    rsTail := pointerAfter (s.usesRs i) s.params.rsCap s.rsTail
    rob := s.rob.set s.robTail (some (s.ownEntry d completed v))
    robTail := ringNext s.params.robCap s.robTail
    regs := s.regs.set d ⟨s.x d, false, some s.robTail⟩ }

theorem State.issued_eq_inRob {s : State} {i : Instr} (build : s.params.variant = .outOfOrder) {d : Reg}
    (dest : (slots i).dest = some d) : s.issued i = s.inRob i d false 0 := by
  have marked : (s.fetched i).markIssued i =
      ((s.fetched i).robAllocate d).setEntry d ⟨s.x d, false, some s.robTail⟩ := by
    have build' : (s.fetched i).params.variant = .outOfOrder := build
    simp only [State.markIssued, dest, build', State.setTag_setReady]
    rfl
  rw [State.issued, marked]
  rfl

theorem State.Sized.robEntry_inRob {s : State} (sized : s.Sized) (i : Instr) (d : Reg) (completed : Bool) (v : Word) :
    (s.inRob i d completed v).robEntry s.robTail = some (s.ownEntry d completed v) := by
  obtain ⟨_, length, _, _, tail, _, _⟩ := sized
  simp only [State.robEntry, State.inRob]
  rw [List.getD_eq_getElem?_getD, List.getElem?_set_self (by omega)]
  rfl

theorem State.Sized.robComplete_inRob {s : State} (sized : s.Sized) (i : Instr) (d : Reg) (v : Word) :
    (s.inRob i d false 0).robComplete s.robTail v = s.inRob i d true v := by
  have rob : (s.rob.set s.robTail (some (s.ownEntry d false 0))).set s.robTail (some (s.ownEntry d true v)) =
      s.rob.set s.robTail (some (s.ownEntry d true v)) := List.set_set ..
  rw [State.robComplete, sized.robEntry_inRob]
  exact congrArg (fun slots => { s.inRob i d true v with rob := slots }) rob

/-- Out-of-order build: an instruction whose result has been committed ends where `exec` says. -/
theorem State.Isolated.passWrite_outOfOrder {s : State} {i : Instr} (iso : s.Isolated i)
    (build : s.params.variant = .outOfOrder) (notBranch : isBranch i.opcode = false) (notRet : i.opcode ≠ .ret)
    {d : Reg} (dest : (slots i).dest = some d) (v : Word) :
    ((s.inRob i d true v).committed (s.ownEntry d true v)).countRetire.elapse (s.passCycles i)
      (snapshotOnly .rt s.pc.toNat) noChannels = s.passWrite i d v := by
  obtain ⟨_, channels, empty, _⟩ := iso.empty
  have usesRob : s.usesRob i = true := by simp [State.usesRob, build, dest]
  have rob : (s.rob.set s.robTail (some (s.ownEntry d true v))).set s.robHead none = s.rob := by
    rw [empty]
    exact set_set_none_of_empty iso.robFree _ _
  have regs : (s.regs.set d ⟨s.x d, false, some s.robTail⟩).set d ⟨v, true, none⟩ = s.regs.set d ⟨v, true, none⟩ :=
    congrArg State.regs (State.setEntry_setEntry s d _ _)
  have ended : ((s.inRob i d true v).committed (s.ownEntry d true v)).countRetire.elapse (s.passCycles i)
      (snapshotOnly .rt s.pc.toNat) noChannels =
      { s with
        fwd := noChannels
        pc := (s.fetched i).pc
        fetchSeq := s.fetchSeq + 1
        fetchHalt := (s.fetched i).fetchHalt
        cycles := s.cycles + s.passCycles i
        retired := s.retired + 1
        snapshot := snapshotOnly .rt s.pc.toNat
        rob := (s.rob.set s.robTail (some (s.ownEntry d true v))).set s.robHead none
        robHead := ringNext s.params.robCap s.robHead
        robTail := ringNext s.params.robCap s.robTail
        rsHead := pointerAfter (s.usesRs i) s.params.rsCap s.rsHead
        rsTail := pointerAfter (s.usesRs i) s.params.rsCap s.rsTail
        regs := (s.regs.set d ⟨s.x d, false, some s.robTail⟩).set d ⟨v, true, none⟩ } := by
    simp only [State.committed_eq, State.elapse, State.countRetire, State.robFree, State.setEntry, State.inRob,
      State.fetched, State.ownEntry]
  rw [ended, regs, rob, State.fetched_pc notBranch, iso.fetched_fetchHalt notRet, ← channels]
  simp only [State.passWrite, State.pass, usesRob, pointerAfter, if_true]
  rfl

/-! ### From the unit's completion on -/

theorem applyAll_completion_inOrder {u : State} (build : u.params.variant = .inOrder) (l : Latch) (v : Word) :
    u.applyAll (completion u l v) = u := by
  rcases completion_cases u l v with h | ⟨c, d, h⟩ | ⟨id, h⟩
  · rw [h]
    rfl
  · rw [h]
    rfl
  · simp only [completion, build] at h
    split at h <;> cases h

theorem applyAll_completion_outOfOrder {u : State} (build : u.params.variant = .outOfOrder) {l : Latch} {id : RobId}
    (rob : l.rob = some id) (v : Word) : u.applyAll (completion u l v) = u.robComplete id v := by
  simp only [completion, build, rob]
  rfl

theorem State.issued_mem (s : State) (i : Instr) : (s.issued i).mem = s.mem := by
  unfold State.issued
  rw [State.markIssued_frame]
  rfl

theorem State.issued_params (s : State) (i : Instr) : (s.issued i).params = s.params := by
  unfold State.issued
  rw [State.markIssued_frame]
  rfl

/-- An isolated instruction whose unit has just completed with `v`, `n` cycles and one after its fetch began, needs two
cycles more to end where `exec` says. -/
theorem State.Isolated.reaches_passWrite_inOrder {s : State} {i : Instr} (iso : s.Isolated i)
    (build : s.params.variant = .inOrder) (notBranch : isBranch i.opcode = false) (notRet : i.opcode ≠ .ret)
    {d : Reg} (dest : (slots i).dest = some d) {n : Nat} (late : n + 3 = s.passCycles i) {l : Latch}
    (work : l.done = false) (op : l.op = i.opcode) (idx : l.idx = s.pc.toNat) (latchDest : l.dest = some d)
    (shown : PerStage (Option Nat)) (c : Channels) :
    Reaches 2 (((s.issued i).elapse (n + 1) shown c).setLatch .wb (some l)) (s.passWrite i d l.result) := by
  have vacant := iso.issued_vacant.elapse (n + 1) shown c
  have build' : ((s.issued i).elapse (n + 1) shown c).params.variant = .inOrder :=
    (congrArg Params.variant (s.issued_params i)).trans build
  have out := vacant.reaches_out_inOrder build' work latchDest (by rw [op]; exact notRet)
  have ended := iso.passWrite_inOrder build notBranch notRet dest l.result
  rw [← late] at ended
  rw [idx] at out
  exact ended ▸ out

theorem State.Isolated.reaches_passWrite_outOfOrder {s : State} {i : Instr} (iso : s.Isolated i)
    (build : s.params.variant = .outOfOrder) (notBranch : isBranch i.opcode = false) (notRet : i.opcode ≠ .ret)
    {d : Reg} (dest : (slots i).dest = some d) {n : Nat} (late : n + 3 = s.passCycles i) {l : Latch}
    (work : l.done = false) (op : l.op = i.opcode) (idx : l.idx = s.pc.toNat) (v : Word)
    (shown : PerStage (Option Nat)) (c : Channels) :
    Reaches 2 (((s.inRob i d true v).elapse (n + 1) shown c).setLatch .wb (some l)) (s.passWrite i d v) := by
  obtain ⟨_, _, rob, rs⟩ := iso.empty
  obtain ⟨⟨_, _, _, robCap, _⟩, _, _, _, tail, _, _⟩ := iso.sized
  obtain ⟨running, free, noFetch, _, _⟩ := iso.fetched_vacant
  have commits : ((s.inRob i d true v).elapse (n + 1) shown c).committing = some (s.ownEntry d true v) := by
    refine (committing_iff _ _).mpr ⟨build, ?_, ?_, rfl, rfl⟩
    · show s.robHead ≠ ringNext s.params.robCap s.robTail
      rw [rob]
      exact (ringNext_ne robCap tail).symm
    · show (s.inRob i d true v).robEntry s.robHead = some (s.ownEntry d true v)
      rw [rob]
      exact iso.sized.robEntry_inRob i d true v
  have tagged : ((s.inRob i d true v).elapse (n + 1) shown c).tag d = some s.robTail :=
    (s.tag_setEntry d d ⟨s.x d, false, some s.robTail⟩).trans (if_pos rfl)
  have only : ringNext s.params.robCap s.robHead = ringNext s.params.robCap s.robTail := by rw [rob]
  have noWait : pointerAfter (s.usesRs i) s.params.rsCap s.rsHead =
      pointerAfter (s.usesRs i) s.params.rsCap s.rsTail := by
    rw [rs]
  have out := reaches_out_commit (u := (s.inRob i d true v).elapse (n + 1) shown c) running build commits tagged only
    free noFetch noWait iso.rsFree work (by rw [op]; exact notRet)
  rw [State.committed_elapse, State.countRetire_elapse, State.elapse_elapse, idx] at out
  rw [← iso.passWrite_outOfOrder build notBranch notRet dest v, ← late]
  exact out

/-- An isolated instruction whose unit completes with `v` in the cycle after the `n`-th ends two cycles later where
`exec` says, in both builds. -/
theorem State.Isolated.reaches_passWrite {s : State} {i : Instr} (iso : s.Isolated i)
    (notBranch : isBranch i.opcode = false) (notRet : i.opcode ≠ .ret) {d : Reg} (dest : (slots i).dest = some d)
    {n : Nat} (late : n + 3 = s.passCycles i) {l : Latch} (op : l.op = i.opcode) (idx : l.idx = s.pc.toNat)
    (latchDest : l.dest = some d) (rob : l.rob = (s.issuedLatch i).rob) {v : Word}
    {shown shown' : PerStage (Option Nat)} {c c' : Channels}
    (completes : Reaches (n + 1) s
      (((((s.issued i).elapse n shown c).applyAll (completion ((s.issued i).elapse n shown c) l v)).elapse 1 shown'
        c').setLatch .wb (some (l.finished v)))) :
    Reaches (s.passCycles i) s (s.passWrite i d v) := by
  have late' : n + 1 + 2 = s.passCycles i := late
  rw [← late']
  refine completes.trans ?_
  cases build : s.params.variant with
  | inOrder =>
    have build' : ((s.issued i).elapse n shown c).params.variant = .inOrder :=
      (congrArg Params.variant (s.issued_params i)).trans build
    rw [applyAll_completion_inOrder build', State.elapse_elapse]
    exact iso.reaches_passWrite_inOrder build notBranch notRet dest late (l := l.finished v) rfl op idx latchDest _ _
  | outOfOrder =>
    have build' : ((s.issued i).elapse n shown c).params.variant = .outOfOrder :=
      (congrArg Params.variant (s.issued_params i)).trans build
    have rob' : l.rob = some s.robTail := by
      rw [rob, State.issuedLatch_outOfOrder build, dest]
      rfl
    have completed : ((s.issued i).elapse n shown c).robComplete s.robTail v =
        (s.inRob i d true v).elapse n shown c := by
      rw [State.issued_eq_inRob build dest, ← iso.sized.robComplete_inRob i d v]
      rfl
    rw [applyAll_completion_outOfOrder build' rob', completed, State.elapse_elapse]
    exact iso.reaches_passWrite_outOfOrder build notBranch notRet dest late (l := l.finished v) rfl op idx _ _ _

/-! ## Without a destination -/

theorem State.Vacant.storeWord {u : State} (v : u.Vacant) (a w : Word) : (u.storeWord a w).Vacant :=
  ⟨v.running, v.latches, v.noFetch, v.noCommit, v.noWait⟩

theorem State.storeWord_elapse (u : State) (a w : Word) (n : Nat) (shown : PerStage (Option Nat)) (c : Channels) :
    (u.elapse n shown c).storeWord a w = (u.storeWord a w).elapse n shown c := rfl

theorem State.countRetire_storeWord (u : State) (a w : Word) :
    (u.storeWord a w).countRetire = u.countRetire.storeWord a w := rfl

theorem State.issued_of_noDest {s : State} {i : Instr} (dest : (slots i).dest = none) :
    s.issued i =
      { s.fetched i with
        rsHead := pointerAfter (s.usesRs i) s.params.rsCap s.rsHead
        rsTail := pointerAfter (s.usesRs i) s.params.rsCap s.rsTail } := by
  have unmarked : (s.fetched i).markIssued i = s.fetched i := by
    simp [State.markIssued, dest]
  rw [State.issued, unmarked]

/-- The bookkeeping of a pass alone that writes no register. -/
theorem State.Isolated.pass_of_noDest {s : State} {i : Instr} (iso : s.Isolated i) (dest : (slots i).dest = none) :
    (s.issued i).countRetire.elapse (s.passCycles i) (snapshotOnly .rt s.pc.toNat) noChannels =
      (s.pass i (s.fetched i).pc).setFetchHalt (s.fetched i).fetchHalt := by
  obtain ⟨_, channels, _, _⟩ := iso.empty
  have noRob : s.usesRob i = false := by simp [State.usesRob, dest]
  rw [State.issued_of_noDest dest, ← channels]
  simp only [State.pass, noRob, pointerAfter, Bool.false_eq_true, if_false]
  rfl

/-! ## Fatal aborts in a unit -/

/-- An isolated instruction that aborts in stage `st` leaves the machine where `exec` says (R92). -/
theorem State.Isolated.abortIn_eq {s : State} {i : Instr} (iso : s.Isolated i) (notBranch : isBranch i.opcode = false)
    (notRet : i.opcode ≠ .ret) (st : Stage) (a : Word) (n : Nat) (shown : PerStage (Option Nat)) (r : AbortReason) :
    (((s.issued i).elapse n shown noChannels).setLatch st (some { s.issuedLatch i with addr := a })).takeAbort r =
      s.abortIn i st a n shown r := by
  obtain ⟨_, channels, _, _⟩ := iso.empty
  have marked : (s.fetched i).markIssued i =
      { s.markIssued i with pc := s.pc + 1, fetchSeq := s.fetchSeq + 1, fetchHalt := s.fetchHalt } := by
    rw [← State.fetched_pc notBranch, ← iso.fetched_fetchHalt notRet]
    have params : (s.fetched i).params = s.params := rfl
    unfold State.markIssued
    rw [params]
    cases (slots i).dest with
    | none => rfl
    | some d => cases s.params.variant <;> rfl
  have frame := s.markIssued_frame i
  generalize (s.markIssued i).regs = regs, (s.markIssued i).rob = rob, (s.markIssued i).robTail = robTail at frame
  rw [State.issued, marked, State.abortIn, frame, ← channels]
  rfl

/-! ## The arithmetic instructions -/

/-- What a unit result says of its opcode: no branch, no `ret`, no memory instruction, and one of the three arithmetic
units (R155). -/
theorem aluResult_class {op : Opcode} {a y : Word} {r : Except AbortReason Word} (h : aluResult op a y = some r) :
    isBranch op = false ∧ op ≠ .ret ∧ isMemory op = false ∧ unitStage (unitOf op) ∈ [Stage.exa, .exm, .exd] := by
  cases op with
  | ldI | ldR | stI | stR | bez | bgez | blez | bgtz | bltz | ret => cases h
  | _ => exact ⟨rfl, by decide, rfl, by decide⟩

/-- Only a divide can fail, in EXD (R192). -/
theorem aluResult_error {op : Opcode} {a y : Word} {e : AbortReason} (h : aluResult op a y = some (.error e)) :
    unitStage (unitOf op) = .exd := by
  cases op with
  | div | divl => rfl
  | _ => cases h

/-- Outside the memory instructions the second operand is the second source's value or the immediate (R155). -/
theorem State.secondOperand_issuedLatch (s : State) {i : Instr} (h : isMemory i.opcode = false) :
    (s.issuedLatch i).secondOperand = s.secondValue i := by
  cases i with
  | ldI | ldR | stI | stR => cases h
  | _ => rfl

/-- The memory instructions add the same to their base (R171). -/
theorem State.addrOffset_issuedLatch (s : State) {i : Instr} (h : isMemory i.opcode = true) :
    (s.issuedLatch i).addrOffset = s.secondValue i := by
  cases i with
  | ldI | ldR | stI | stR => rfl
  | _ => cases h

theorem State.issueCycles_add (s : State) {i : Instr} (h : isMemory i.opcode = false) :
    s.issueCycles i + 3 = s.passCycles i := by
  simp only [State.issueCycles, State.passCycles, h]
  split <;> rfl

theorem State.issueCycles_add_memory (s : State) {i : Instr} (h : isMemory i.opcode = true) :
    s.issueCycles i + 4 = s.passCycles i := by
  simp only [State.issueCycles, State.passCycles, h]
  split <;> rfl

/-- An isolated arithmetic instruction with a result ends where `exec` says. -/
theorem State.Isolated.reaches_arith {s : State} {i : Instr} (iso : s.Isolated i)
    (wellFormed : i.wellFormed s.params.nreg = true) {d : Reg} (dest : (slots i).dest = some d) {v : Word}
    (result : aluResult i.opcode (s.slotValue (slots i).s1) (s.secondValue i) = some (.ok v)) :
    Reaches (s.passCycles i) s (s.passWrite i d v) := by
  obtain ⟨notBranch, notRet, notMemory, unit⟩ := aluResult_class result
  have vacant := iso.issued_vacant.elapse (s.issueCycles i) (s.issueShows i) noChannels
  rw [← s.secondOperand_issuedLatch notMemory] at result
  have complete := vacant.reaches (cycle_alu vacant unit (l := s.issuedLatch i) rfl result)
  exact iso.reaches_passWrite notBranch notRet dest (s.issueCycles_add notMemory) rfl rfl dest rfl
    ((iso.reaches_unit wellFormed notBranch notRet).trans complete)

/-- An isolated divide by zero ends the run in EXD, where `exec` says (R192). -/
theorem State.Isolated.reaches_abortDivide {s : State} {i : Instr} (iso : s.Isolated i)
    (wellFormed : i.wellFormed s.params.nreg = true) {e : AbortReason}
    (result : aluResult i.opcode (s.slotValue (slots i).s1) (s.secondValue i) = some (.error e)) :
    Reaches (s.issueCycles i + 1) s (s.abortDivide i e) := by
  obtain ⟨notBranch, notRet, notMemory, unit⟩ := aluResult_class result
  have exd := aluResult_error result
  have vacant := iso.issued_vacant.elapse (s.issueCycles i) (s.issueShows i) noChannels
  rw [← s.secondOperand_issuedLatch notMemory] at result
  have abort := vacant.reaches (cycle_alu_aborts vacant unit (l := s.issuedLatch i) rfl result)
  have all := (iso.reaches_unit wellFormed notBranch notRet).trans abort
  have ended := iso.abortIn_eq notBranch notRet .exd 0 (s.issueCycles i) (s.issueShows i) e
  have here : s.abortDivide i e = s.abortIn i .exd 0 (s.issueCycles i) (s.issueShows i) e := by
    unfold State.abortDivide State.issueCycles State.issueShows
    split <;> rfl
  rw [exd] at all
  rw [here, ← ended]
  exact all

/-! ## The memory instructions -/

/-- The record of an isolated memory instruction in M2, its address computed. -/
def State.addressedLatch (s : State) (i : Instr) (a : Word) : Latch :=
  { s.issuedLatch i with addr := a }

/-- An isolated memory instruction in M2, one cycle after M1. -/
theorem State.Isolated.reaches_m2 {s : State} {i : Instr} (iso : s.Isolated i)
    (wellFormed : i.wellFormed s.params.nreg = true) (memory : isMemory i.opcode = true) {a : Word}
    (addr : effectiveAddr (s.slotValue (slots i).s1) (s.secondValue i) = a) :
    Reaches (s.issueCycles i + 1) s
      (((s.issued i).elapse (s.issueCycles i + 1) (snapshotOnly .m1 s.pc.toNat) noChannels).setLatch .m2
        (some (s.addressedLatch i a))) := by
  subst addr
  obtain ⟨notBranch, notRet, unit⟩ := memory_class memory
  have vacant := iso.issued_vacant.elapse (s.issueCycles i) (s.issueShows i) noChannels
  have address := vacant.reaches (cycle_address vacant (l := s.issuedLatch i) rfl memory)
  have arrive := iso.reaches_unit wellFormed notBranch notRet
  rw [unit] at arrive
  rw [s.addrOffset_issuedLatch memory, State.elapse_elapse] at address
  exact arrive.trans address

theorem State.issued_inRange (s : State) (i : Instr) (a : Word) : (s.issued i).inRange a = s.inRange a := by
  unfold State.inRange
  rw [State.issued_params]

/-- An isolated load in range ends where `exec` says. -/
theorem State.Isolated.reaches_load {s : State} {i : Instr} (iso : s.Isolated i)
    (wellFormed : i.wellFormed s.params.nreg = true) (load : isLoad i.opcode = true) {d : Reg}
    (dest : (slots i).dest = some d) {a : Word}
    (addr : effectiveAddr (s.slotValue (slots i).s1) (s.secondValue i) = a) (inside : s.inRange a = true) :
    Reaches (s.passCycles i) s (s.passWrite i d (s.mem.readWord (widx a))) := by
  have memory := isMemory_of_isLoad load
  obtain ⟨notBranch, notRet, _⟩ := memory_class memory
  have vacant := iso.issued_vacant.elapse (s.issueCycles i + 1) (snapshotOnly .m1 s.pc.toNat) noChannels
  have access := vacant.reaches (cycle_load vacant (l := s.addressedLatch i a) rfl load
    ((s.issued_inRange i a).trans inside) (congrArg (fun m => m.readWord (widx a)) (s.issued_mem i)))
  exact iso.reaches_passWrite notBranch notRet dest (s.issueCycles_add_memory memory) (l := s.addressedLatch i a)
    rfl rfl dest rfl
    ((iso.reaches_m2 wellFormed memory addr).trans access)

/-- An isolated memory instruction out of range ends the run in M2, where `exec` says (R193). -/
theorem State.Isolated.reaches_abortMemory {s : State} {i : Instr} (iso : s.Isolated i)
    (wellFormed : i.wellFormed s.params.nreg = true) (memory : isMemory i.opcode = true) {a : Word}
    (addr : effectiveAddr (s.slotValue (slots i).s1) (s.secondValue i) = a) (outside : s.inRange a = false) :
    Reaches (s.issueCycles i + 2) s (s.abortMemory i a .memoryOutOfRange) := by
  obtain ⟨notBranch, notRet, _⟩ := memory_class memory
  have vacant := iso.issued_vacant.elapse (s.issueCycles i + 1) (snapshotOnly .m1 s.pc.toNat) noChannels
  have access := vacant.reaches (cycle_access_aborts vacant (l := s.addressedLatch i a) rfl memory
    ((s.issued_inRange i a).trans outside))
  have before : (if s.usesRs i then 6 else 5) = s.issueCycles i + 1 := by
    unfold State.issueCycles
    split <;> rfl
  rw [State.abortMemory, before, ← iso.abortIn_eq notBranch notRet]
  exact (iso.reaches_m2 wellFormed memory addr).trans access

/-- An isolated store in range ends where `exec` says. -/
theorem State.Isolated.reaches_store {s : State} {i : Instr} (iso : s.Isolated i)
    (wellFormed : i.wellFormed s.params.nreg = true) (store : isStore i.opcode = true) {a : Word}
    (addr : effectiveAddr (s.slotValue (slots i).s1) (s.secondValue i) = a) (inside : s.inRange a = true) :
    Reaches (s.passCycles i) s ((s.pass i (s.pc + 1)).storeWord a (s.slotValue (slots i).s3)) := by
  have memory := isMemory_of_isStore store
  have dest : (slots i).dest = none := by
    cases i with
    | stI | stR => rfl
    | _ => cases store
  obtain ⟨notBranch, notRet, _⟩ := memory_class memory
  have vacant := iso.issued_vacant.elapse (s.issueCycles i + 1) (snapshotOnly .m1 s.pc.toNat) noChannels
  have access : Reaches 1 _ (((((s.issued i).elapse (s.issueCycles i + 1) (snapshotOnly .m1 s.pc.toNat)
      noChannels).storeWord a (s.slotValue (slots i).s3)).elapse 1 (snapshotOnly .m2 s.pc.toNat) noChannels).setLatch
        .wb (some (s.addressedLatch i a).arrived)) :=
    vacant.reaches (cycle_store vacant (l := s.addressedLatch i a) rfl store ((s.issued_inRange i a).trans inside))
  have out := ((vacant.storeWord a (s.slotValue (slots i).s3)).elapse 1 (snapshotOnly .m2 s.pc.toNat)
    noChannels).reaches_out_running (l := (s.addressedLatch i a).arrived) rfl dest notRet
  have all := ((iso.reaches_m2 wellFormed memory addr).trans access).trans out
  have late : s.issueCycles i + 1 + 1 + 2 = s.passCycles i := s.issueCycles_add_memory memory
  have ended := iso.pass_of_noDest dest
  rw [State.fetched_pc notBranch, iso.fetched_fetchHalt notRet, ← late] at ended
  rw [State.storeWord_elapse, State.elapse_elapse, State.countRetire_elapse, State.elapse_elapse,
    State.countRetire_storeWord, ← State.storeWord_elapse] at all
  rw [← late]
  exact (congrArg (fun t => Reaches _ s (t.storeWord a (s.slotValue (slots i).s3))) ended).mp all

/-! ## The branches -/

/-- When no flush is needed, the prediction was right: fetch has already gone on where the branch goes (R116, R121). -/
theorem predictsTaken_of_not_flushTest {taken : Bool} {tag : Option Word} {c : Fin 8}
    (noFlush : flushTest taken tag c = false) (sound : tag = none → c = 3) : predictsTaken c = taken := by
  cases taken with
  | true =>
    simp [flushTest] at noFlush
    simp [predictsTaken]
    omega
  | false =>
    cases tag with
    | none =>
      rw [sound rfl]
      rfl
    | some w =>
      simp [flushTest] at noFlush
      simp [predictsTaken]
      omega

/-- The state once an isolated branch has resolved: fetch goes on at `next`, the predictor updated (R120 to R124). -/
def State.resolved (s : State) (i : Instr) (r : Reg) : State :=
  { s.fetched i with
    pc := branchNext (cond i.opcode (s.x r)) s.pc (slots i).imm
    fetchHalt := s.fetchHalt }.resolve s.pc (cond i.opcode (s.x r)) (slots i).imm

theorem State.Isolated.resolved_vacant {s : State} {i : Instr} (iso : s.Isolated i) (branch : isBranch i.opcode = true)
    (r : Reg) : (s.resolved i r).Vacant := by
  obtain ⟨running, latches, _, noCommit, noWait⟩ := iso.fetched_vacant
  refine ⟨running, latches, fetchRecord_of_outside ?_, noCommit, noWait⟩
  show s.outside (branchNext (cond i.opcode (s.x r)) s.pc (slots i).imm)
  unfold branchNext
  split
  · exact iso.target branch
  · exact iso.fallThrough

/-- An isolated branch in Writeback, one cycle after it resolved, with or without a flush. -/
theorem State.Isolated.reaches_resolved {s : State} {i : Instr} (iso : s.Isolated i)
    (wellFormed : i.wellFormed s.params.nreg = true) (branch : isBranch i.opcode = true) {r : Reg}
    (source : (slots i).s1 = some r) :
    Reaches 5 s (((s.resolved i r).elapse 5 (snapshotOnly .exb s.pc.toNat) noChannels).setLatch .wb
      (some (s.controlLatch i).arrived)) := by
  obtain ⟨running, start, _⟩ := nextInstr_some iso.next
  have vacant := iso.fetched_vacant.elapse 4 (snapshotOnly .rr s.pc.toNat) noChannels
  have arrive := iso.reaches_exb wellFormed (.inl branch)
  have value : (s.controlLatch i).v1 = s.x r := by
    simp [State.controlLatch, source, State.slotValue]
  cases flush : flushTest (cond i.opcode (s.x r)) s.btb[predictorIndex s.pc].tag s.pt[predictorIndex s.pc] with
  | false =>
    have resolve := vacant.reaches (cycle_resolve vacant (l := s.controlLatch i) rfl branch
      (by rw [value]; exact flush))
    have right := predictsTaken_of_not_flushTest flush (iso.predictor (predictorIndex s.pc))
    have resolved : s.resolved i r = (s.fetched i).resolve s.pc (cond i.opcode (s.x r)) (slots i).imm := by
      have pc : branchNext (cond i.opcode (s.x r)) s.pc (slots i).imm = (s.fetched i).pc := by
        rw [← right]
        exact (s.predictNext_of_branch s.pc branch (slots i).imm).symm
      rw [State.resolved, pc, ← iso.fetched_fetchHalt (notRet_of_branch branch)]
    rw [value] at resolve
    rw [resolved]
    exact arrive.trans resolve
  | true =>
    have resolve := vacant.reaches (cycle_resolve_flush vacant (l := s.controlLatch i) rfl branch
      (by rw [value]; exact flush))
    have position : ((s.controlLatch i).idx : Int) = s.pc := Int.toNat_of_nonneg start
    rw [value, position] at resolve
    rw [State.resolved, running]
    exact arrive.trans resolve

/-- An isolated branch ends where `exec` says. -/
theorem State.Isolated.reaches_branch {s : State} {i : Instr} (iso : s.Isolated i)
    (wellFormed : i.wellFormed s.params.nreg = true) (branch : isBranch i.opcode = true) {r : Reg}
    (source : (slots i).s1 = some r) :
    Reaches (s.passCycles i) s
      ((s.pass i (branchNext (cond i.opcode (s.x r)) s.pc (slots i).imm)).resolve s.pc (cond i.opcode (s.x r))
        (slots i).imm) := by
  obtain ⟨_, channels, _, _⟩ := iso.empty
  obtain ⟨dest, _, _, _, notRs, notMemory⟩ := control_slots (.inl branch)
  have noRob : s.usesRob i = false := by simp [State.usesRob, dest]
  have noRs : s.usesRs i = false := by simp [State.usesRs, notRs]
  have seven : s.passCycles i = 7 := by simp [State.passCycles, notMemory, noRs]
  have out := ((iso.resolved_vacant branch r).elapse 5 (snapshotOnly .exb s.pc.toNat) noChannels).reaches_out_running
    (l := (s.controlLatch i).arrived) rfl dest (notRet_of_branch branch)
  have all := (iso.reaches_resolved wellFormed branch source).trans out
  rw [State.countRetire_elapse, State.elapse_elapse] at all
  have ended : (s.resolved i r).countRetire.elapse 7 (snapshotOnly .rt s.pc.toNat) noChannels =
      (s.pass i (branchNext (cond i.opcode (s.x r)) s.pc (slots i).imm)).resolve s.pc (cond i.opcode (s.x r))
        (slots i).imm := by
    simp only [State.resolved, State.pass, noRob, noRs, seven, pointerAfter, Bool.false_eq_true, if_false, ← channels]
    rfl
  rw [seven, ← ended]
  exact all

/-! ## `ret` -/

/-- An isolated `ret` ends the run where `exec` says (R90). -/
theorem State.Isolated.reaches_ret {s : State} (iso : s.Isolated .ret) :
    Reaches (s.passCycles .ret) s (((s.pass .ret (s.pc + 1)).setFetchHalt true).haltRun) := by
  obtain ⟨_, channels, _, _⟩ := iso.empty
  have noRob : s.usesRob .ret = false := by simp [State.usesRob, slots]
  have noRs : s.usesRs .ret = false := by simp [State.usesRs, Instr.opcode, isRsForm]
  have seven : s.passCycles .ret = 7 := by simp [State.passCycles, Instr.opcode, isMemory, noRs]
  have vacant := iso.fetched_vacant.elapse 4 (snapshotOnly .rr s.pc.toNat) noChannels
  have exb := vacant.reaches (cycle_exb_ret vacant (l := s.controlLatch .ret) rfl rfl)
  have out := (vacant.elapse 1 (snapshotOnly .exb s.pc.toNat) noChannels).reaches_out
    (l := (s.controlLatch .ret).arrived) rfl rfl
  have all := ((iso.reaches_exb rfl (.inr rfl)).trans exb).trans out
  have ended : { (s.fetched .ret).countRetire.elapse 7 (snapshotOnly .rt s.pc.toNat) noChannels with
      status := .halted } = ((s.pass .ret (s.pc + 1)).setFetchHalt true).haltRun := by
    simp only [State.pass, noRob, noRs, seven, pointerAfter, Bool.false_eq_true, if_false, ← channels]
    rfl
  rw [seven, ← ended]
  exact all

/-! ## The two grains agree -/

/-- A pass takes at least as many cycles as any abort on the way. -/
theorem State.issueCycles_le (s : State) (i : Instr) : s.issueCycles i + 2 ≤ s.passCycles i := by
  unfold State.issueCycles State.passCycles
  split <;> omega

theorem State.two_le_passCycles (s : State) (i : Instr) : 2 ≤ s.passCycles i := by
  unfold State.passCycles
  omega

/-- In either build, an isolated instruction run cycle by cycle ends where `exec` says: each shape of a meaning, well
formed or not, with its abort. -/
theorem cycles_eq_exec_of_isolated {s t : State} {i : Instr} (iso : s.Isolated i) (h : exec i s = .next t) :
    cycles (s.passCycles i) s = t := by
  have aborted : ∀ {n : Nat} {u : State}, Reaches n s u → u.status ≠ .running → n ≤ s.passCycles i →
      cycles (s.passCycles i) s = u := fun reaches ended hle => reaches.of_terminal ended hle
  have decode : i.wellFormed s.params.nreg = false → cycles (s.passCycles i) s = s.abortDecode i :=
    fun malformed => aborted (iso.reaches_abortDecode malformed) (by simp [State.abortDecode]) (s.two_le_passCycles i)
  have memory : i.wellFormed s.params.nreg = true → isMemory i.opcode = true →
      s.inRange (effectiveAddr (s.slotValue (slots i).s1) (s.secondValue i)) = false →
      cycles (s.passCycles i) s =
        s.abortMemory i (effectiveAddr (s.slotValue (slots i).s1) (s.secondValue i)) .memoryOutOfRange :=
    fun wellFormed isMem outside => aborted (iso.reaches_abortMemory wellFormed isMem rfl outside)
      (by simp [State.abortMemory, State.abortIn]) (s.issueCycles_le i)
  rcases exec_shape i s with
    ⟨d, result, dest, unit, arith⟩ | ⟨d, isLd, dest, load⟩ | ⟨isSt, store⟩ | ⟨r, isBr, source, branch⟩ | ⟨rfl, ret⟩
  · rcases State.arith_cases (arith ▸ h) with ⟨malformed, rfl⟩ | ⟨wellFormed, ⟨v, rfl, rfl⟩ | ⟨e, rfl, rfl⟩⟩
    · exact decode malformed
    · exact (iso.reaches_arith wellFormed dest unit).cycles_eq
    · refine aborted (iso.reaches_abortDivide wellFormed unit) ?_ (by have := s.issueCycles_le i; omega)
      unfold State.abortDivide
      split <;> simp [State.abortIn]
  · rcases State.load_cases (load ▸ h) with ⟨malformed, rfl⟩ | ⟨wellFormed, ⟨inside, rfl⟩ | ⟨outside, rfl⟩⟩
    · exact decode malformed
    · exact (iso.reaches_load wellFormed isLd dest rfl inside).cycles_eq
    · exact memory wellFormed (isMemory_of_isLoad isLd) outside
  · rcases State.store_cases (store ▸ h) with ⟨malformed, rfl⟩ | ⟨wellFormed, ⟨inside, rfl⟩ | ⟨outside, rfl⟩⟩
    · exact decode malformed
    · exact (iso.reaches_store wellFormed isSt rfl inside).cycles_eq
    · exact memory wellFormed (isMemory_of_isStore isSt) outside
  · rcases State.branch_cases (branch ▸ h) with ⟨malformed, rfl⟩ | ⟨wellFormed, rfl⟩
    · exact decode malformed
    · exact (iso.reaches_branch wellFormed isBr source).cycles_eq
  · rw [ret, State.decoded_of_wellFormed _ rfl] at h
    cases h
    exact iso.reaches_ret.cycles_eq

/-- Settles O59: the pass of an isolated instruction through the stages of the in-order build, its aborts included. -/
theorem isolatedPassMatchesExecInOrder : Obligations.IsolatedPassMatchesExecInOrder :=
  fun _ _ _ _ iso h => cycles_eq_exec_of_isolated iso h

/-- Settles O60: the same pass through renaming, reservation station, completion and commit. -/
theorem isolatedPassMatchesExecOutOfOrder : Obligations.IsolatedPassMatchesExecOutOfOrder :=
  fun _ _ _ _ iso h => cycles_eq_exec_of_isolated iso h

end Sys2Proof.Machine
end

section
/-! SUPPORT. What one cycle and one whole instruction can do to registers and rings, said once; an invariant of the
step is then a few small goals. -/

namespace Sys2Proof.Machine

/-! ## The blocks of writes a handler can answer -/

/-- The write touches neither a register nor the ROB. -/
def Write.plain : Write → Bool
  | .regValue _ _ | .regReady _ _ | .regTag _ _ | .robAllocate _ | .robComplete _ _ | .robFree => false
  | _ => true

/-- The write touches neither a register nor, but for a completion in the out-of-order build `v`, the ROB. -/
def Write.Quiet (v : Variant) (w : Write) : Prop :=
  w.plain = true ∨ (v = .outOfOrder ∧ ∃ id r, w = .robComplete id r)

/-- Every write of a list is quiet. -/
def AllQuiet (v : Variant) (ws : List Write) : Prop :=
  ∀ w ∈ ws, w.Quiet v

theorem AllQuiet.nil (v : Variant) : AllQuiet v [] := fun _ h => absurd h List.not_mem_nil

theorem AllQuiet.cons {v : Variant} {w : Write} {ws : List Write} (h : w.plain = true) (hs : AllQuiet v ws) :
    AllQuiet v (w :: ws) := by
  intro u hu
  rcases List.mem_cons.mp hu with rfl | hu
  · exact .inl h
  · exact hs u hu

/-- What a handler's writes can be, as far as registers and ROB go: nothing of either; an issue (R104, R138); a
retirement of the in-order build (R88); a commit of the ROB head (R140). -/
inductive Block (s : State) : List Write → Prop where
  | quiet {ws} (h : AllQuiet s.params.variant ws) : Block s ws
  | mark (k : Latch) (d : Reg) (build : s.params.variant = .inOrder) : Block s [.latch .rr k, .regReady d false]
  | rename (k : Latch) (d : Reg) (build : s.params.variant = .outOfOrder) :
    Block s [.latch .rr k, .robAllocate d, .regTag d (some s.robTail), .regReady d false]
  | retire (l k : Latch) (d : Reg) (build : s.params.variant = .inOrder) (works : s.WorksOn .rt l)
    (dest : l.dest = some d) : Block s [.retire, .latch .rt k, .regValue d l.result, .regReady d true]
  | commit {ws} (e : RobEntry) (h : AllQuiet s.params.variant ws) (commits : s.Commits e) :
    Block s (ws ++ commitWrites s e)

theorem Block.nil (s : State) : Block s [] :=
  .quiet (.nil _)

/-- A block of one plain write. -/
theorem Block.one (s : State) {w : Write} (h : w.plain = true) : Block s [w] :=
  .quiet (.cons h (.nil _))

theorem completion_quiet (s : State) (l : Latch) (v : Word) : AllQuiet s.params.variant (completion s l v) := by
  unfold completion
  split
  · split
    · exact .cons rfl (.nil _)
    · exact .nil _
  · rename_i build
    split
    · intro w hw
      rw [List.mem_singleton.mp hw]
      exact .inr ⟨build, _, _, rfl⟩
    · exact .nil _

theorem handleRR_block (s : State) : Block s (handleRR s).writes := by
  rcases handleRR_cases s with h | ⟨l, _, _, ⟨build, h⟩ | ⟨build, h⟩⟩ <;> rw [h]
  · exact .nil s
  · rcases issueInOrder_cases s l with h | ⟨a, b, c, _, _, _, _, h⟩ <;> rw [h]
    · exact .one s rfl
    · unfold busyMark
      cases l.dest with
      | none => exact .one s rfl
      | some d => exact .mark _ d build
  · rcases issueOutOfOrder_cases s l with h | ⟨_, v, _, _, h⟩ | ⟨_, _, h⟩ | ⟨_, _, _, _, h⟩ <;> rw [h]
    · exact .one s rfl
    · exact .one s rfl
    · exact .one s rfl
    · unfold renameWrites
      cases l.dest with
      | none => exact .one s rfl
      | some d => exact .rename _ d build

theorem retireLatch_block (s : State) :
    AllQuiet s.params.variant (retireLatch s).writes ∨
      ∃ l k d, s.params.variant = .inOrder ∧ s.WorksOn .rt l ∧ l.dest = some d ∧
        (retireLatch s).writes = [.retire, .latch .rt k, .regValue d l.result, .regReady d true] := by
  rcases retireLatch_cases s with h | ⟨l, here, work, h⟩
  · exact .inl (by rw [h]; exact .nil _)
  · rcases retireWrites_cases s l with noWrite | ⟨d, build, dest, write⟩
    · exact .inl (by rw [h, noWrite]; exact .cons rfl (.cons rfl (.nil _)))
    · exact .inr ⟨l, _, d, build, ⟨here, work⟩, dest, by rw [h, write]; rfl⟩

theorem handleRT_block (s : State) : Block s (handleRT s).writes := by
  rcases handleRT_cases s with ⟨_, h⟩ | ⟨e, commits, h⟩ <;> rw [h]
  · rcases retireLatch_block s with quiet | ⟨l, k, d, build, works, dest, write⟩
    · exact .quiet quiet
    · rw [write]
      exact .retire l k d build works dest
  · have commits' := (committing_iff s e).mp commits
    rcases retireLatch_block s with quiet | ⟨l, k, d, build, _⟩
    · exact .commit e quiet commits'
    · cases build.symm.trans commits'.build

/-- What the writes of any handler can be. -/
theorem handler_block (st : Stage) (s : State) : Block s (handler st s).writes := by
  have alu : ∀ st, Block s (handleAlu st s).writes := by
    intro st
    rcases handleAlu_cases st s with h | ⟨l, _, _, ⟨v, _, h⟩ | ⟨r, _, h⟩⟩ <;> rw [h]
    · exact .nil s
    · exact .quiet (.cons rfl (completion_quiet s _ _))
    · exact .nil s
  cases st with
  | f =>
    show Block s (handleF s).writes
    rcases handleF_cases s with h | ⟨r, _, _, h⟩ <;> rw [h]
    · exact .nil s
    · refine .quiet (.cons rfl (.cons rfl (.cons rfl ?_)))
      split
      · exact .cons rfl (.nil _)
      · exact .nil _
  | d =>
    show Block s (handleD s).writes
    rcases handleD_cases s with h | ⟨l, _, _, ⟨i, _, h⟩ | ⟨e, _, h⟩⟩ <;> rw [h]
    · exact .nil s
    · exact .one s rfl
    · exact .nil s
  | oa =>
    show Block s (handleOA s).writes
    rcases handleOA_cases s with h | ⟨l, _, _, h⟩ <;> rw [h]
    · exact .nil s
    · exact .one s rfl
  | rr => exact handleRR_block s
  | exa => exact alu .exa
  | exm => exact alu .exm
  | exd => exact alu .exd
  | exb =>
    show Block s (handleEXB s).writes
    rcases handleEXB_cases s with h | ⟨l, _, _, ⟨_, h⟩ | ⟨_, h⟩⟩ <;> rw [h]
    · exact .nil s
    · exact .quiet (.cons rfl (.cons rfl (.cons rfl (.nil _))))
    · exact .one s rfl
  | m1 =>
    show Block s (handleM1 s).writes
    rcases handleM1_cases s with h | ⟨l, _, _, _, h⟩ <;> rw [h]
    · exact .nil s
    · exact .one s rfl
  | m2 =>
    show Block s (handleM2 s).writes
    rcases handleM2_cases s with h | ⟨l, _, _, ⟨_, _, h⟩ | ⟨_, _, _, h⟩ | ⟨_, _, h⟩⟩ <;> rw [h]
    · exact .nil s
    · exact .quiet (.cons rfl (completion_quiet s _ _))
    · exact .quiet (.cons rfl (.cons rfl (.nil _)))
    · exact .nil s
  | wb =>
    show Block s (handleWB s).writes
    rcases handleWB_cases s with h | ⟨l, _, _, h⟩ <;> rw [h]
    · exact .nil s
    · exact .one s rfl
  | rt => exact handleRT_block s

/-- Only Retire makes a broadcast (R140). -/
theorem commit_of_ne_rt {st : Stage} (hrt : st ≠ .rt) (s : State) : (handler st s).commit = none := by
  have alu : ∀ st, (handleAlu st s).commit = none := by
    intro st
    rcases handleAlu_cases st s with e | ⟨_, _, _, ⟨_, _, e⟩ | ⟨_, _, e⟩⟩ <;> exact congrArg HandlerOut.commit e
  cases st with
  | f => rcases handleF_cases s with e | ⟨_, _, _, e⟩ <;> exact congrArg HandlerOut.commit e
  | d =>
    rcases handleD_cases s with e | ⟨_, _, _, ⟨_, _, e⟩ | ⟨_, _, e⟩⟩ <;> exact congrArg HandlerOut.commit e
  | oa => rcases handleOA_cases s with e | ⟨_, _, _, e⟩ <;> exact congrArg HandlerOut.commit e
  | rr =>
    rcases handleRR_cases s with e | ⟨l, _, _, ⟨_, issue⟩ | ⟨_, issue⟩⟩
    · exact congrArg HandlerOut.commit e
    · rcases issueInOrder_cases s l with e | ⟨_, _, _, _, _, _, _, e⟩ <;>
        exact congrArg HandlerOut.commit (issue.trans e)
    · rcases issueOutOfOrder_cases s l with e | ⟨_, _, _, _, e⟩ | ⟨_, _, e⟩ | ⟨_, _, _, _, e⟩ <;>
        exact congrArg HandlerOut.commit (issue.trans e)
  | exa => exact alu .exa
  | exm => exact alu .exm
  | exd => exact alu .exd
  | exb => rcases handleEXB_cases s with e | ⟨_, _, _, ⟨_, e⟩ | ⟨_, e⟩⟩ <;> exact congrArg HandlerOut.commit e
  | m1 => rcases handleM1_cases s with e | ⟨_, _, _, _, e⟩ <;> exact congrArg HandlerOut.commit e
  | m2 =>
    rcases handleM2_cases s with e | ⟨_, _, _, ⟨_, _, e⟩ | ⟨_, _, _, e⟩ | ⟨_, _, e⟩⟩ <;>
      exact congrArg HandlerOut.commit e
  | wb => rcases handleWB_cases s with e | ⟨_, _, _, e⟩ <;> exact congrArg HandlerOut.commit e
  | rt => exact absurd rfl hrt

/-- A broadcast means that an entry commits, so the build is the out-of-order one. -/
theorem build_of_commitOf {s : State} {c : RobId × Word} (h : commitOf (evaluate s) = some c) :
    s.params.variant = .outOfOrder := by
  obtain ⟨o, ho, hc⟩ := List.exists_of_findSome?_eq_some h
  obtain ⟨st, _, rfl⟩ := List.mem_map.mp ho
  have own : (handler st s).commit = some c := hc
  by_cases hrt : st = .rt
  · subst hrt
    rcases handleRT_cases s with ⟨_, e⟩ | ⟨e, commits, _⟩
    · rcases retireLatch_cases s with silent | ⟨_, _, _, retires⟩
      · cases (congrArg HandlerOut.commit (e.trans silent)).symm.trans own
      · cases (congrArg HandlerOut.commit (e.trans retires)).symm.trans own
    · exact ((committing_iff s e).mp commits).build
  · cases (commit_of_ne_rt hrt s).symm.trans own

/-! ## What every part of a cycle keeps, the cycle keeps -/

/-- Every part of the cycle from `s` keeps `P`. The parts that only the out-of-order build has are asked about only
there. -/
structure CycleKeeps (s : State) (P : State → Prop) : Prop where
  block : ∀ ws, Block s ws → ∀ t, P t → P (t.applyAll ws)
  flush : ∀ t p, P t → P (t.flush p)
  latch : ∀ t st l, P t → P (t.setLatch st l)
  wakeUp : s.params.variant = .outOfOrder → ∀ t id v, P t → P (t.wakeUp id v)
  rsDequeue : ∀ t : State, t.params.variant = .outOfOrder → P t → P t.rsDequeue
  rsEnqueue : ∀ (t : State) l, t.params.variant = .outOfOrder → P t → P (t.rsEnqueue l)
  rest : ∀ (t : State) fwd cycles status snapshot, P t →
    P { t with fwd := fwd, cycles := cycles, status := status, snapshot := snapshot }

section
variable {s : State} {P : State → Prop}

theorem CycleKeeps.outs (k : CycleKeeps s P) {outs : List (Stage × HandlerOut)} (sub : ∀ o ∈ outs, o ∈ evaluate s)
    {t : State} (h : P t) : P (t.applyAll (outs.flatMap fun o => o.2.writes)) := by
  induction outs generalizing t with
  | nil => exact h
  | cons o rest ih =>
    obtain ⟨st, _, rfl⟩ := List.mem_map.mp (sub o (by simp))
    rw [List.flatMap_cons, State.applyAll_append]
    exact ih (fun o ho => sub o (by simp [ho])) (k.block _ (handler_block st s) t h)

theorem CycleKeeps.move (k : CycleKeeps s P) {t : State} (h : P t) (src dst : Stage) : P (t.move src dst) := by
  rcases t.move_cases src dst with e | ⟨l, _, _, _, e⟩ <;> rw [e]
  · exact h
  · exact k.latch _ _ _ (k.latch _ _ _ h)

theorem CycleKeeps.dispatchRs (k : CycleKeeps s P) {t : State} (h : P t) : P t.dispatchRs := by
  rcases t.dispatchRs_cases with e | ⟨_, _, build, _, _, _, _, _, e⟩ <;> rw [e]
  · exact h
  · exact k.rsDequeue _ build (k.latch _ _ _ h)

theorem CycleKeeps.leaveRR (k : CycleKeeps s P) {t : State} (h : P t) : P t.leaveRR := by
  rcases t.leaveRR_cases with e | ⟨_, _, _, ⟨build, _, e⟩ | ⟨_, _, _, e⟩⟩ <;> rw [e]
  · exact h
  · exact k.latch _ _ _ (k.rsEnqueue _ _ build h)
  · exact k.move h _ _

theorem CycleKeeps.advance (k : CycleKeeps s P) {t : State} (h : P t) : P t.advance := by
  have left : P t.leaveRT := by
    rcases t.leaveRT_cases with e | e <;> rw [e]
    · exact h
    · exact k.latch _ _ _ h
  have arbitrated : P ((t.leaveRT.move .wb .rt).arbitrate) := by
    rcases (t.leaveRT.move .wb .rt).arbitrate_cases with e | ⟨st, e⟩ <;> rw [e]
    · exact k.move left _ _
    · exact k.move (k.move left _ _) _ _
  exact k.move (k.move (k.move (k.leaveRR (k.dispatchRs (k.move arbitrated _ _))) _ _) _ _) _ _

theorem CycleKeeps.commitPhase (k : CycleKeeps s P) (h : P s) : P (commitPhase (evaluate s) s) := by
  have written : P (s.applyAll (committedWrites (evaluate s))) := by
    unfold committedWrites
    split
    · exact k.outs (fun o ho => List.mem_of_mem_filter ho) h
    · exact k.outs (fun o ho => ho) h
  have woken : ∀ t, P t → P (match commitOf (evaluate s) with
      | some (id, v) => t.wakeUp id v
      | none => t) := by
    intro t ht
    split
    · rename_i commits
      exact k.wakeUp (build_of_commitOf commits) _ _ _ ht
    · exact ht
  unfold Machine.commitPhase
  cases flushOf (evaluate s) with
  | none => exact woken _ written
  | some p => exact woken _ (k.flush _ _ written)

/-- What every part of a cycle keeps, the cycle keeps. -/
theorem CycleKeeps.cycle (k : CycleKeeps s P) (h : P s) : P (cycle s) := by
  rcases cycle_cases s with ⟨r, _, e⟩ | ⟨_, e⟩ <;> rw [e]
  · have before : ∀ o ∈ (evaluate s).takeWhile (fun o => o.2.abort?.isNone), o ∈ evaluate s :=
      fun o ho => (List.takeWhile_subset _) ho
    exact k.rest _ _ _ _ _ (k.outs before h)
  · exact k.rest _ _ _ _ _ (k.advance (k.rest _ _ _ _ _ (k.commitPhase h)))

end

end Sys2Proof.Machine
end

section
/-! SUPPORT. Invariants of the step: ready and untagged registers, ring sizes, the in-order build's ROB and RS, and
where a register value can come from. -/

namespace Sys2Proof.Machine

/-! ## Where a meaning can end -/

/-- Everything a meaning can answer: an abort in Decode or in a unit, or a pass that writes a register, memory, the
predictor, or, `ret`, the status. -/
inductive Ends (s : State) (i : Instr) : State → Prop where
  | decode : Ends s i (s.abortDecode i)
  | abort (st : Stage) (a : Word) (n : Nat) (shown : PerStage (Option Nat)) (r : AbortReason) :
    Ends s i (s.abortIn i st a n shown r)
  | write (d : Reg) (v : Word) : Ends s i (s.passWrite i d v)
  | store (next : Int) (a v : Word) : Ends s i ((s.pass i next).storeWord a v)
  | branch (next p : Int) (taken : Bool) (imm : Word) : Ends s i ((s.pass i next).resolve p taken imm)
  | ret (next : Int) : Ends s i (((s.pass i next).setFetchHalt true).haltRun)

theorem Ends.abortDivide (s : State) (i : Instr) (r : AbortReason) : Ends s i (s.abortDivide i r) := by
  unfold State.abortDivide
  split
  · exact .abort ..
  · exact .abort ..

theorem ends_of_exec {s t : State} {i : Instr} (h : exec i s = .next t) : Ends s i t := by
  rcases exec_shape i s with
    ⟨d, result, _, _, arith⟩ | ⟨d, _, _, load⟩ | ⟨_, store⟩ | ⟨r, _, _, branch⟩ | ⟨_, ret⟩
  · rcases State.arith_cases (arith ▸ h) with ⟨_, rfl⟩ | ⟨_, ⟨v, _, rfl⟩ | ⟨e, _, rfl⟩⟩
    · exact .decode
    · exact .write ..
    · exact .abortDivide ..
  · rcases State.load_cases (load ▸ h) with ⟨_, rfl⟩ | ⟨_, ⟨_, rfl⟩ | ⟨_, rfl⟩⟩
    · exact .decode
    · exact .write ..
    · exact .abort ..
  · rcases State.store_cases (store ▸ h) with ⟨_, rfl⟩ | ⟨_, ⟨_, rfl⟩ | ⟨_, rfl⟩⟩
    · exact .decode
    · exact .store ..
    · exact .abort ..
  · rcases State.branch_cases (branch ▸ h) with ⟨_, rfl⟩ | ⟨_, rfl⟩
    · exact .decode
    · exact .branch ..
  · rw [ret, State.decoded_eq] at h
    split at h <;> cases h
    · exact .ret _
    · exact .decode

/-- What a cycle and every end of a meaning keep, a step keeps. -/
theorem step_keeps {s t : State} {P : State → Prop} (cycle : P (cycle s)) (ends : ∀ i u, Ends s i u → P u)
    (h : step s = .next t) : P t := by
  obtain ⟨_, ⟨_, rfl⟩ | ⟨i, _, _, ran⟩⟩ := step_cases h
  · exact cycle
  · exact ends i t (ends_of_exec ran)

/-! ## A register is ready exactly when it has no producer tag -/

theorem apply_plain_regs {w : Write} (h : w.plain = true) (t : State) : (t.apply w).regs = t.regs := by
  cases w with
  | regValue | regReady | regTag | robAllocate | robComplete | robFree => cases h
  | _ => rfl

theorem apply_quiet_regs {v : Variant} {w : Write} (h : w.Quiet v) (t : State) : (t.apply w).regs = t.regs := by
  rcases h with plain | ⟨_, id, r, rfl⟩
  · exact apply_plain_regs plain t
  · rfl

theorem applyAll_quiet_regs {v : Variant} {ws : List Write} (h : AllQuiet v ws) (t : State) :
    (t.applyAll ws).regs = t.regs :=
  State.applyAll_induct (P := fun u => u.regs = t.regs) rfl fun w hw u hu => (apply_quiet_regs (h w hw) u).trans hu

/-- The invariant is about the register file alone. -/
theorem State.ReadyUntagged.of_regs {s t : State} (h : s.ReadyUntagged) (regs : t.regs = s.regs) : t.ReadyUntagged := by
  unfold State.ReadyUntagged State.ready State.tag at *
  rw [regs]
  exact h

/-- An entry that is ready exactly when untagged keeps the invariant. -/
theorem State.ReadyUntagged.setEntry {s : State} (h : s.ReadyUntagged) (d : Reg) {e : RegEntry}
    (he : e.readyFlag = true ↔ e.producerTag = none) : (s.setEntry d e).ReadyUntagged := by
  intro r
  rw [State.ready_setEntry, State.tag_setEntry]
  split
  · exact he
  · exact h r

theorem State.ReadyUntagged.rename {s : State} (h : s.ReadyUntagged) (d : Reg) (id : RobId) :
    ((s.setTag d (some id)).setReady d false).ReadyUntagged := by
  rw [State.setTag_setReady]
  exact h.setEntry d (by simp)

theorem State.ReadyUntagged.setValue {s : State} (h : s.ReadyUntagged) (d : Reg) (v : Word) :
    (s.setValue d v).ReadyUntagged :=
  h.setEntry d (h d)

/-- A commit keeps the invariant, whether or not the register still names the committing slot. -/
theorem State.ReadyUntagged.commit {s t : State} (h : t.ReadyUntagged) (e : RobEntry) :
    (t.applyAll (commitWrites s e)).ReadyUntagged := by
  rcases commitWrites_cases s e with ⟨_, writes⟩ | ⟨_, writes⟩ <;> rw [writes]
  · show (t.committed e).ReadyUntagged
    rw [State.committed_eq]
    exact (h.setEntry e.destinationRegister (by simp)).of_regs rfl
  · exact (h.setValue e.destinationRegister e.result).of_regs rfl

theorem cycleKeeps_readyUntagged {s : State} (build : s.params.variant = .outOfOrder) :
    CycleKeeps s State.ReadyUntagged where
  block ws hws t h := by
    cases hws with
    | quiet quiet => exact h.of_regs (applyAll_quiet_regs quiet t)
    | mark k d inOrder => cases inOrder.symm.trans build
    | rename k d _ =>
      have allocated : ((t.setLatch .rr (some k)).robAllocate d).ReadyUntagged := h.of_regs rfl
      exact allocated.rename d s.robTail
    | retire l k d inOrder => cases inOrder.symm.trans build
    | commit e quiet _ =>
      rw [State.applyAll_append]
      exact (h.of_regs (applyAll_quiet_regs quiet t)).commit e
  flush _ _ h := h
  latch _ _ _ h := h
  wakeUp _ _ _ _ h := h
  rsDequeue _ _ h := h
  rsEnqueue _ _ _ h := h
  rest _ _ _ _ _ h := h

/-- Marking the destination of an instruction run alone keeps the invariant in the out-of-order build. -/
theorem State.ReadyUntagged.markIssued {s : State} (h : s.ReadyUntagged) (build : s.params.variant = .outOfOrder)
    (i : Instr) : (s.markIssued i).ReadyUntagged := by
  unfold State.markIssued
  rw [build]
  cases (slots i).dest with
  | none => exact h
  | some d =>
    have allocated : (s.robAllocate d).ReadyUntagged := h
    exact allocated.rename d s.robTail

theorem State.ReadyUntagged.ends {s t : State} {i : Instr} (h : s.ReadyUntagged)
    (build : s.params.variant = .outOfOrder) (ends : Ends s i t) : t.ReadyUntagged := by
  cases ends with
  | abort => exact (h.markIssued build i).of_regs rfl
  | write d v => exact State.ReadyUntagged.setEntry (s := s.pass i (s.pc + 1)) h d (by simp)
  | _ => exact h

/-- Settles O55: in the out-of-order build only issue and commit touch ready flags and tags, and each sets both. -/
theorem stepKeepsReadyUntagged : Obligations.StepKeepsReadyUntagged :=
  fun _ _ build h next =>
    step_keeps ((cycleKeeps_readyUntagged build).cycle h) (fun _ _ ends => h.ends build ends) next

/-! ## Ring sizes -/

theorem ringNext_lt {cap : Nat} (h : 2 ≤ cap) (n : Nat) : ringNext cap n < cap :=
  Nat.mod_lt _ (by omega)

theorem pointerAfter_lt {cap n : Nat} (h : 2 ≤ cap) (hn : n < cap) (used : Bool) : pointerAfter used cap n < cap := by
  unfold pointerAfter
  split
  · exact ringNext_lt h n
  · exact hn

theorem State.Sized.robCap_ge {s : State} (z : s.Sized) : 2 ≤ s.params.robCap := by
  obtain ⟨_, _, _, robCap, _⟩ := z.legal
  exact robCap

theorem State.Sized.rsCap_ge {s : State} (z : s.Sized) : 2 ≤ s.params.rsCap := by
  obtain ⟨_, _, _, _, rsCap⟩ := z.legal
  exact rsCap

/-- Filling or emptying slots keeps the sizes. -/
theorem State.Sized.apply {s : State} (z : s.Sized) (w : Write) : (s.apply w).Sized := by
  have z' := z
  obtain ⟨legal, rob, rs, robHead, robTail, rsHead, rsTail⟩ := z'
  cases w with
  | robAllocate d =>
    exact ⟨legal, List.length_set.trans rob, rs, robHead, ringNext_lt z.robCap_ge _, rsHead, rsTail⟩
  | robComplete id v => exact ⟨legal, List.length_set.trans rob, rs, robHead, robTail, rsHead, rsTail⟩
  | robFree => exact ⟨legal, List.length_set.trans rob, rs, ringNext_lt z.robCap_ge _, robTail, rsHead, rsTail⟩
  | _ => exact ⟨legal, rob, rs, robHead, robTail, rsHead, rsTail⟩

theorem cycleKeeps_sized (s : State) : CycleKeeps s State.Sized where
  block _ _ _ h := State.applyAll_induct h fun w _ _ z => z.apply w
  flush _ _ z := ⟨z.legal, z.rob, z.rs, z.robHead, z.robTail, z.rsHead, z.rsTail⟩
  latch _ _ _ z := ⟨z.legal, z.rob, z.rs, z.robHead, z.robTail, z.rsHead, z.rsTail⟩
  wakeUp _ _ _ _ z := ⟨z.legal, z.rob, (List.length_map ..).trans z.rs, z.robHead, z.robTail, z.rsHead, z.rsTail⟩
  rsDequeue _ _ z :=
    ⟨z.legal, z.rob, List.length_set.trans z.rs, z.robHead, z.robTail, ringNext_lt z.rsCap_ge _, z.rsTail⟩
  rsEnqueue _ _ _ z :=
    ⟨z.legal, z.rob, List.length_set.trans z.rs, z.robHead, z.robTail, z.rsHead, ringNext_lt z.rsCap_ge _⟩
  rest _ _ _ _ _ z := ⟨z.legal, z.rob, z.rs, z.robHead, z.robTail, z.rsHead, z.rsTail⟩

theorem State.Sized.markIssued {s : State} (z : s.Sized) (i : Instr) : (s.markIssued i).Sized := by
  unfold State.markIssued
  cases (slots i).dest with
  | none => exact z
  | some d =>
    cases s.params.variant with
    | inOrder => exact z.apply (.regReady d false)
    | outOfOrder => exact ((z.apply (.robAllocate d)).apply (.regTag d _)).apply (.regReady d false)

theorem State.Sized.pass {s : State} (z : s.Sized) (i : Instr) (next : Int) : (s.pass i next).Sized :=
  ⟨z.legal, z.rob, z.rs, pointerAfter_lt z.robCap_ge z.robHead _, pointerAfter_lt z.robCap_ge z.robTail _,
    pointerAfter_lt z.rsCap_ge z.rsHead _, pointerAfter_lt z.rsCap_ge z.rsTail _⟩

theorem State.Sized.abortIn {s : State} (z : s.Sized) (i : Instr) (st : Stage) (a : Word) (n : Nat)
    (shown : PerStage (Option Nat)) (r : AbortReason) : (s.abortIn i st a n shown r).Sized := by
  have marked := z.markIssued i
  have params : (s.markIssued i).params = s.params := by rw [State.markIssued_frame]
  refine ⟨marked.legal, marked.rob, marked.rs, marked.robHead, marked.robTail, ?_, ?_⟩
  · show pointerAfter (s.usesRs i) s.params.rsCap s.rsHead < (s.markIssued i).params.rsCap
    rw [params]
    exact pointerAfter_lt z.rsCap_ge z.rsHead _
  · show pointerAfter (s.usesRs i) s.params.rsCap s.rsTail < (s.markIssued i).params.rsCap
    rw [params]
    exact pointerAfter_lt z.rsCap_ge z.rsTail _

theorem State.Sized.ends {s t : State} {i : Instr} (z : s.Sized) (ends : Ends s i t) : t.Sized := by
  cases ends with
  | decode => exact ⟨z.legal, z.rob, z.rs, z.robHead, z.robTail, z.rsHead, z.rsTail⟩
  | abort => exact z.abortIn ..
  | write d v =>
    obtain ⟨legal, rob, rs, robHead, robTail, rsHead, rsTail⟩ := z.pass i (s.pc + 1)
    exact ⟨legal, rob, rs, robHead, robTail, rsHead, rsTail⟩
  | store next a v => exact (z.pass i next).apply (.store a v)
  | branch next p taken imm => exact ((z.pass i next).apply (.btb _ _)).apply (.pt _ _)
  | ret next =>
    obtain ⟨legal, rob, rs, robHead, robTail, rsHead, rsTail⟩ := z.pass i next
    exact ⟨legal, rob, rs, robHead, robTail, rsHead, rsTail⟩

/-- Settles O51: a ring pointer moves only to the slot after it, and a slot is only overwritten. -/
theorem stepKeepsRingSizes : Obligations.StepKeepsRingSizes :=
  fun s _ z next => step_keeps ((cycleKeeps_sized s).cycle z) (fun _ _ ends => z.ends ends) next

/-! ## The in-order build never renames -/

/-- `t` has no producer tag, and its parameters, ROB and RS are those of `s`. -/
structure RenamesNothing (s t : State) : Prop where
  params : t.params = s.params
  untagged : t.Untagged
  rob : t.rob = s.rob
  robHead : t.robHead = s.robHead
  robTail : t.robTail = s.robTail
  rs : t.rs = s.rs
  rsHead : t.rsHead = s.rsHead
  rsTail : t.rsTail = s.rsTail

section
variable {s t : State}

theorem RenamesNothing.setEntry (h : RenamesNothing s t) (d : Reg) {e : RegEntry} (he : e.producerTag = none) :
    RenamesNothing s (t.setEntry d e) := by
  refine ⟨h.params, fun r => ?_, h.rob, h.robHead, h.robTail, h.rs, h.rsHead, h.rsTail⟩
  rw [State.tag_setEntry]
  split
  · exact he
  · exact h.untagged r

theorem RenamesNothing.setValue (h : RenamesNothing s t) (d : Reg) (v : Word) : RenamesNothing s (t.setValue d v) :=
  h.setEntry d (h.untagged d)

theorem RenamesNothing.setReady (h : RenamesNothing s t) (d : Reg) (b : Bool) : RenamesNothing s (t.setReady d b) :=
  h.setEntry d (h.untagged d)

/-- A step that leaves registers, ROB, RS and parameters alone. -/
theorem RenamesNothing.frame (h : RenamesNothing s t) {u : State} (params : u.params = t.params)
    (regs : u.regs = t.regs)
    (rob : u.rob = t.rob ∧ u.robHead = t.robHead ∧ u.robTail = t.robTail)
    (rs : u.rs = t.rs ∧ u.rsHead = t.rsHead ∧ u.rsTail = t.rsTail) : RenamesNothing s u := by
  obtain ⟨slots, head, tail⟩ := rob
  obtain ⟨slots', head', tail'⟩ := rs
  refine ⟨params.trans h.params, ?_, slots.trans h.rob, head.trans h.robHead, tail.trans h.robTail,
    slots'.trans h.rs, head'.trans h.rsHead, tail'.trans h.rsTail⟩
  unfold State.Untagged State.tag
  rw [regs]
  exact h.untagged

theorem RenamesNothing.apply_plain (h : RenamesNothing s t) {w : Write} (plain : w.plain = true) :
    RenamesNothing s (t.apply w) := by
  have rob : (t.apply w).rob = t.rob ∧ (t.apply w).robHead = t.robHead ∧ (t.apply w).robTail = t.robTail := by
    cases w with
    | regValue | regReady | regTag | robAllocate | robComplete | robFree => cases plain
    | _ => exact ⟨rfl, rfl, rfl⟩
  exact h.frame (t.apply_params w) (apply_plain_regs plain t) rob ⟨t.apply_rs w, t.apply_rsHead w, t.apply_rsTail w⟩

end

theorem cycleKeeps_renamesNothing {s : State} (build : s.params.variant = .inOrder) :
    CycleKeeps s (RenamesNothing s) where
  block ws hws t h := by
    cases hws with
    | quiet quiet =>
      refine State.applyAll_induct h fun w hw u hu => ?_
      rcases quiet w hw with plain | ⟨outOfOrder, _⟩
      · exact hu.apply_plain plain
      · cases build.symm.trans outOfOrder
    | mark k d _ => exact (h.apply_plain (w := .latch .rr k) rfl).setReady d false
    | rename k d outOfOrder => cases build.symm.trans outOfOrder
    | retire l k d _ _ _ =>
      have counted := (h.apply_plain (w := .retire) rfl).apply_plain (w := .latch .rt k) rfl
      exact (counted.setValue d l.result).setReady d true
    | commit e _ commits => cases build.symm.trans commits.build
  flush _ _ h := h.frame rfl rfl ⟨rfl, rfl, rfl⟩ ⟨rfl, rfl, rfl⟩
  latch _ _ _ h := h.frame rfl rfl ⟨rfl, rfl, rfl⟩ ⟨rfl, rfl, rfl⟩
  wakeUp outOfOrder := by cases build.symm.trans outOfOrder
  rsDequeue t outOfOrder h := by
    rw [h.params] at outOfOrder
    cases build.symm.trans outOfOrder
  rsEnqueue t l outOfOrder h := by
    rw [h.params] at outOfOrder
    cases build.symm.trans outOfOrder
  rest _ _ _ _ _ h := h.frame rfl rfl ⟨rfl, rfl, rfl⟩ ⟨rfl, rfl, rfl⟩

theorem usesNothing_inOrder {s : State} (build : s.params.variant = .inOrder) (i : Instr) :
    s.usesRob i = false ∧ s.usesRs i = false := by
  simp [State.usesRob, State.usesRs, build]

theorem pass_renamesNothing {s : State} (build : s.params.variant = .inOrder) (untagged : s.Untagged) (i : Instr)
    (next : Int) : RenamesNothing s (s.pass i next) := by
  obtain ⟨noRob, noRs⟩ := usesNothing_inOrder build i
  refine ⟨rfl, untagged, rfl, ?_, ?_, rfl, ?_, ?_⟩ <;> simp [noRob, noRs, pointerAfter]

theorem ends_renamesNothing {s t : State} {i : Instr} (build : s.params.variant = .inOrder) (untagged : s.Untagged)
    (ends : Ends s i t) : RenamesNothing s t := by
  have start : RenamesNothing s s := ⟨rfl, untagged, rfl, rfl, rfl, rfl, rfl, rfl⟩
  have pass := pass_renamesNothing build untagged i
  cases ends with
  | decode => exact start.frame rfl rfl ⟨rfl, rfl, rfl⟩ ⟨rfl, rfl, rfl⟩
  | abort st a n shown r =>
    obtain ⟨_, noRs⟩ := usesNothing_inOrder build i
    have marked : RenamesNothing s (s.markIssued i) := by
      unfold State.markIssued
      rw [build]
      cases (slots i).dest with
      | none => exact start
      | some d => exact start.setReady d false
    refine ⟨marked.params, marked.untagged, marked.rob, marked.robHead, marked.robTail, marked.rs, ?_, ?_⟩
    · show pointerAfter (s.usesRs i) s.params.rsCap s.rsHead = s.rsHead
      rw [noRs]
      rfl
    · show pointerAfter (s.usesRs i) s.params.rsCap s.rsTail = s.rsTail
      rw [noRs]
      rfl
  | write d v => exact (pass (s.pc + 1)).setEntry d rfl
  | store next => exact (pass next).frame rfl rfl ⟨rfl, rfl, rfl⟩ ⟨rfl, rfl, rfl⟩
  | branch next => exact (pass next).frame rfl rfl ⟨rfl, rfl, rfl⟩ ⟨rfl, rfl, rfl⟩
  | ret next => exact (pass next).frame rfl rfl ⟨rfl, rfl, rfl⟩ ⟨rfl, rfl, rfl⟩

/-- Settles O56: what issue and retirement write in the in-order build is values and ready flags. -/
theorem inOrderBuildNeverRenames : Obligations.InOrderBuildNeverRenames := by
  intro s t build untagged next
  have start : RenamesNothing s s := ⟨rfl, untagged, rfl, rfl, rfl, rfl, rfl, rfl⟩
  obtain ⟨_, tags, rob, robHead, robTail, rs, rsHead, rsTail⟩ := step_keeps (P := RenamesNothing s)
    ((cycleKeeps_renamesNothing build).cycle start) (fun _ _ ends => ends_renamesNothing build untagged ends) next
  exact ⟨tags, rob, robHead, robTail, rs, rsHead, rsTail⟩

/-! ## Where a register value comes from -/

/-- The value `v` of register `r` comes from the latch that retires in this cycle, or from the ROB head that commits
in it (R88, R140). -/
def State.Writes (s : State) (r : Reg) (v : Word) : Prop :=
  (∃ l, s.params.variant = .inOrder ∧ s.WorksOn .rt l ∧ l.dest = some r ∧ v = l.result) ∨
    ∃ e, s.Commits e ∧ e.destinationRegister = r ∧ v = e.result

/-- The value of `r` in `t` is that of `s`, or one that the cycle from `s` writes. -/
def State.Sourced (s : State) (r : Reg) (t : State) : Prop :=
  t.x r = s.x r ∨ s.Writes r (t.x r)

section
variable {s t u : State} {r : Reg}

theorem State.Sourced.of_x (h : s.Sourced r t) (x : u.x r = t.x r) : s.Sourced r u := by
  unfold State.Sourced
  rw [x]
  exact h

theorem State.Sourced.of_regs (h : s.Sourced r t) (regs : u.regs = t.regs) : s.Sourced r u := by
  refine h.of_x ?_
  unfold State.x
  rw [regs]

theorem State.Sourced.setValue (h : s.Sourced r t) {d : Reg} {v : Word} (source : d = r → s.Writes r v) :
    s.Sourced r (t.setValue d v) := by
  unfold State.Sourced
  rw [State.x_setValue]
  split
  · rename_i hd
    exact .inr (source hd.symm)
  · exact h

end

theorem cycleKeeps_sourced (s : State) (r : Reg) : CycleKeeps s (s.Sourced r) where
  block ws hws t h := by
    cases hws with
    | quiet quiet => exact h.of_regs (applyAll_quiet_regs quiet t)
    | mark k d _ => exact h.of_x (State.x_setReady (t.setLatch .rr (some k)) d r false)
    | rename k d _ => exact h.of_x ((State.x_setReady _ d r false).trans (State.x_setTag _ d r (some s.robTail)))
    | retire l k d build works dest =>
      have counted : s.Sourced r (t.countRetire.setLatch .rt (some k)) := h.of_regs rfl
      have written := counted.setValue (d := d) (v := l.result) fun hd =>
        .inl ⟨l, build, works, dest.trans (congrArg some hd), rfl⟩
      exact written.of_x (State.x_setReady _ d r true)
    | commit e quiet commits =>
      rw [State.applyAll_append]
      have written := (h.of_regs (applyAll_quiet_regs quiet t)).setValue (d := e.destinationRegister) (v := e.result)
        fun hd => .inr ⟨e, commits, hd, rfl⟩
      rcases commitWrites_cases s e with ⟨_, writes⟩ | ⟨_, writes⟩ <;> rw [writes]
      · exact written.of_x ((State.x_setReady _ _ r true).trans (State.x_setTag _ _ r none))
      · exact written.of_regs rfl
  flush _ _ h := h
  latch _ _ _ h := h
  wakeUp _ _ _ _ h := h
  rsDequeue _ _ h := h
  rsEnqueue _ _ _ h := h
  rest _ _ _ _ _ h := h

/-- Settles O34: every handler's writes but those of a retirement and of a commit leave every register value alone. -/
theorem registersWrittenOnlyByRetire : Obligations.RegistersWrittenOnlyByRetire := by
  intro s r changed
  have sourced : s.Sourced r (cycle s) := (cycleKeeps_sourced s r).cycle (.inl rfl)
  rcases sourced with same | ⟨l, build, works, dest, value⟩ | ⟨e, commits, dest, value⟩
  · exact absurd same changed
  · exact ⟨fun _ => ⟨l, works, dest, value⟩, fun outOfOrder => by cases build.symm.trans outOfOrder⟩
  · refine ⟨fun inOrder => ?_, fun _ => ?_⟩
    · cases inOrder.symm.trans commits.build
    · exact ⟨e, commits.occupied, commits.head, commits.completed, commits.clean, dest, value⟩

end Sys2Proof.Machine
end

section
/-! SUPPORT. What a step is, and the state after reset. -/

namespace Sys2Proof.Machine

/-! ## What a step is -/

theorem step_clock {s : State} (running : s.status = .running) (grain : s.grain = .clock) :
    step s = .next (cycle s) := by
  simp only [step, running, grain]

theorem step_of_no_wholeInstr {s : State} (running : s.status = .running) (h : s.wholeInstr = none) :
    step s = .next (cycle s) := by
  cases grain : s.grain with
  | clock => exact step_clock running grain
  | instruction => simp only [step, running, grain, h]

theorem step_of_wholeInstr {s : State} {i : Instr} (running : s.status = .running) (grain : s.grain = .instruction)
    (h : s.wholeInstr = some i) : step s = exec i s := by
  simp only [step, running, grain, h]

theorem wholeInstr_of_decode {s : State} {w : Packed} {i : Instr} (idle : s.idle = true) (fetches : s.fetchHalt = false)
    (start : 0 ≤ s.pc) (hw : s.it[s.pc.toNat]? = some w) (h : decode w = .ok i) : s.wholeInstr = some i := by
  simp [State.wholeInstr, State.nextInstr, State.instrAt, idle, fetches, start, hw, h]

/-- Each of the four reasons for which there is no whole instruction to run contradicts what running one needs. -/
theorem wholeInstr_none {s : State}
    (h : s.idle = false ∨ s.fetchHalt = true ∨ s.outside s.pc ∨
      ∃ w e, s.it[s.pc.toNat]? = some w ∧ decode w = .error e) : s.wholeInstr = none := by
  cases whole : s.wholeInstr with
  | none => rfl
  | some i =>
    obtain ⟨idle, fetches, start, w, hw, decodes⟩ := wholeInstr_some whole
    rcases h with busy | halted | outside | ⟨u, e, hu, refused⟩
    · cases idle.symm.trans busy
    · cases fetches.symm.trans halted
    · obtain ⟨inside, _⟩ := List.getElem?_eq_some_iff.mp hw
      rcases outside with below | beyond <;> omega
    · cases Option.some.inj (hw.symm.trans hu)
      cases decodes.symm.trans refused

/-- Settles O5: the branches of `step` and of `wholeInstr`. -/
theorem stepRunsDecodedInstruction : Obligations.StepRunsDecodedInstruction :=
  ⟨fun _ _ _ running grain idle fetches start hw h =>
      step_of_wholeInstr running grain (wholeInstr_of_decode idle fetches start hw h),
    fun _ => step_clock, fun _ => step_of_no_wholeInstr, fun _ => wholeInstr_none⟩

/-- Settles O6: neither `cycles` nor `step` runs a cycle from a terminal status. -/
theorem terminalStatusStepsNoMore : Obligations.TerminalStatusStepsNoMore :=
  ⟨fun _ n ended => cycles_of_terminal ended n, fun _ halted => by simp only [step, halted],
    fun _ _ aborted => by simp only [step, aborted]⟩

/-! ## Reset -/

theorem resetWith_regs (p : Params) (r : Reg) : (State.resetWith p).regs[r] = ⟨0, true, none⟩ := by
  simp [State.resetWith]

theorem resetWith_predictor (p : Params) (i : Fin 16) :
    (State.resetWith p).btb[i] = ⟨none, 0⟩ ∧ (State.resetWith p).pt[i] = 3 := by
  simp [State.resetWith]

theorem resetWith_latch (p : Params) (st : Stage) : (State.resetWith p).latch st = none :=
  PerStage.get_const none st

theorem resetWith_slots (p : Params) (k : Nat) :
    (State.resetWith p).robEntry k = none ∧ (State.resetWith p).rs.getD k none = none :=
  ⟨getD_of_empty (fun _ he => List.eq_of_mem_replicate he) k, getD_of_empty (fun _ he => List.eq_of_mem_replicate he) k⟩

/-- Every word of the empty memory is 0. -/
theorem Memory.readWord_nil (w : Nat) : Memory.readWord [] w = 0 := by
  show (0 : Byte) ++ (0 : Byte) ++ (0 : Byte) ++ (0 : Byte) = (0 : Word)
  decide

/-- Settles O47: each value as `State.resetWith` sets it. -/
theorem resetValues : Obligations.ResetValues :=
  fun p => ⟨resetWith_regs p, rfl, rfl, rfl, resetWith_latch p, rfl, resetWith_predictor p, resetWith_slots p, rfl, rfl,
    rfl, rfl, rfl, rfl, rfl, rfl, Memory.readWord_nil⟩

/-- A ring whose pointers are equal has no slot between them. -/
theorem not_inRing_of_empty (cap head k : Nat) : ¬ inRing cap head head k := by
  have count : ringCount cap head head = 0 := by
    rw [ringCount, Nat.add_sub_cancel_left, Nat.mod_self]
  unfold inRing
  omega

theorem resetWith_sized {p : Params} (legal : p.Legal) : (State.resetWith p).Sized := by
  have legal' := legal
  obtain ⟨_, _, _, robCap, rsCap⟩ := legal'
  have rob : 0 < p.robCap := by omega
  have rs : 0 < p.rsCap := by omega
  exact ⟨legal, List.length_replicate, List.length_replicate, rob, rob, rs, rs⟩

theorem resetWith_robRing (p : Params) : (State.resetWith p).RobRing := by
  intro k _
  obtain ⟨free, _⟩ := resetWith_slots p k
  rw [free]
  exact ⟨iff_of_false (by simp) (not_inRing_of_empty _ 0 k), fun e he => by cases he⟩

theorem resetWith_rsRing (p : Params) : (State.resetWith p).RsRing := by
  refine ⟨fun k _ => ?_, fun _ _ l hl => ?_⟩
  · obtain ⟨_, free⟩ := resetWith_slots p k
    rw [free]
    exact iff_of_false (by simp) (not_inRing_of_empty _ 0 k)
  · cases (resetWith_latch p .rr).symm.trans hl

theorem resetWith_unitClasses (p : Params) : (State.resetWith p).UnitClasses where
  oa l hl := by cases (resetWith_latch p .oa).symm.trans hl
  rr l hl := by cases (resetWith_latch p .rr).symm.trans hl
  rs l hl := by cases List.eq_of_mem_replicate hl
  units u l hl := by cases (resetWith_latch p (unitStage u)).symm.trans hl
  m2 l hl := by cases (resetWith_latch p .m2).symm.trans hl

/-- Settles O48: reset has nothing in flight, and the counters and flags every invariant asks for. -/
theorem resetMeetsTheInvariants : Obligations.ResetMeetsTheInvariants := by
  intro p legal
  have entry := resetWith_regs p
  have untagged : (State.resetWith p).Untagged := fun r => congrArg RegEntry.producerTag (entry r)
  have ready : ∀ r, (State.resetWith p).ready r = true := fun r => congrArg RegEntry.readyFlag (entry r)
  exact ⟨resetWith_sized legal, resetWith_robRing p, resetWith_rsRing p, fun i _ => (resetWith_predictor p i).2,
    fun r => iff_of_true (ready r) (untagged r), untagged, rfl, resetWith_unitClasses p, rfl⟩

end Sys2Proof.Machine
end

section
/-! SUPPORT. The data memory: how a word reads after a word's write, what the loader leaves, how an address selects its
word, and where a memory byte can change in a cycle. -/

namespace Sys2Proof.Machine

/-! ## Bytes and words -/

/-- A byte after a word's write: one of the word's four bytes, or as before (log entry 3). -/
theorem Memory.readByte_writeWord {m : Memory} (w c : Nat) (v : Word) (hm : m.wf = true) :
    (m.writeWord w v).readByte c =
      if c = 4 * w + 3 then v.extractLsb' 24 8
      else if c = 4 * w + 2 then v.extractLsb' 16 8
      else if c = 4 * w + 1 then v.extractLsb' 8 8
      else if c = 4 * w then v.extractLsb' 0 8
      else m.readByte c := by
  have h1 := Memory.wf_writeByte (4 * w) (v.extractLsb' 0 8) hm
  have h2 := Memory.wf_writeByte (4 * w + 1) (v.extractLsb' 8 8) h1
  have h3 := Memory.wf_writeByte (4 * w + 2) (v.extractLsb' 16 8) h2
  rw [Memory.writeWord, Memory.readByte_writeByte _ _ _ h3, Memory.readByte_writeByte _ _ _ h2,
    Memory.readByte_writeByte _ _ _ h1, Memory.readByte_writeByte _ _ _ hm]

/-- A word's write leaves every byte outside that word alone. -/
theorem Memory.readByte_writeWord_outside {m : Memory} {w c : Nat} (v : Word) (hm : m.wf = true)
    (outside : c < 4 * w ∨ 4 * w + 4 ≤ c) : (m.writeWord w v).readByte c = m.readByte c := by
  rw [Memory.readByte_writeWord w c v hm, if_neg (by omega), if_neg (by omega), if_neg (by omega), if_neg (by omega)]

/-- A word is its four bytes put together. -/
theorem bytes_append (v : Word) :
    v.extractLsb' 24 8 ++ v.extractLsb' 16 8 ++ v.extractLsb' 8 8 ++ v.extractLsb' 0 8 = v := by
  rw [BitVec.extractLsb'_append_extractLsb'_eq_extractLsb' (by omega),
    BitVec.extractLsb'_append_extractLsb'_eq_extractLsb' (by omega),
    BitVec.extractLsb'_append_extractLsb'_eq_extractLsb' (by omega)]
  exact BitVec.extractLsb'_eq_self

theorem Memory.readWord_writeWord {m : Memory} (w u : Nat) (v : Word) (hm : m.wf = true) :
    (m.writeWord w v).readWord u = if u = w then v else m.readWord u := by
  split
  · rename_i same
    subst same
    simp only [Memory.readWord, Memory.readByte_writeWord _ _ _ hm]
    simpa using bytes_append v
  · rename_i other
    have outside : ∀ k < 4, (m.writeWord w v).readByte (4 * u + k) = m.readByte (4 * u + k) :=
      fun k hk => Memory.readByte_writeWord_outside v hm (by omega)
    rw [Memory.readWord, outside 3 (by omega), outside 2 (by omega), outside 1 (by omega),
      show (m.writeWord w v).readByte (4 * u) = m.readByte (4 * u) from outside 0 (by omega)]
    rfl

/-- Settles O21: a word's write replaces its own four bytes. -/
theorem wordReadsAsLastWritten : Obligations.WordReadsAsLastWritten :=
  fun _ w u v hm => Memory.readWord_writeWord w u v hm

/-! ## Loading the image (R44) -/

theorem wf_storeImage (w : Nat) (image : List Word) {m : Memory} (hm : m.wf = true) :
    (storeImage w image m).wf = true := by
  induction image generalizing w m with
  | nil => exact hm
  | cons v rest ih => exact ih (w + 1) (Memory.wf_writeWord w v hm)

/-- A word after loading an image from word `w` on: the image's, or as before where the image does not reach. -/
theorem readWord_storeImage (w : Nat) (image : List Word) {m : Memory} (hm : m.wf = true) (u : Nat) :
    (storeImage w image m).readWord u = if u < w then m.readWord u else image.getD (u - w) (m.readWord u) := by
  induction image generalizing w m with
  | nil => simp [storeImage]
  | cons v rest ih =>
    rw [storeImage, ih (w + 1) (Memory.wf_writeWord w v hm), Memory.readWord_writeWord w u v hm]
    rcases Nat.lt_trichotomy u w with below | rfl | above
    · rw [if_pos (by omega), if_neg (by omega), if_pos below]
    · simp
    · obtain ⟨k, rfl⟩ : ∃ k, u = w + 1 + k := ⟨u - (w + 1), by omega⟩
      have index : w + 1 + k - w = k + 1 := by omega
      rw [if_neg (by omega), if_neg (by omega), if_neg (by omega), index, Nat.add_sub_cancel_left, List.getD_cons_succ]

/-- Settles O22: the image is loaded from word 0 on into an empty memory. -/
theorem runStartsWithItsImage : Obligations.RunStartsWithItsImage := by
  intro p it image w
  refine ⟨?_, wf_storeImage 0 image Memory.wf_nil, rfl⟩
  calc (storeImage 0 image []).readWord w
      = image.getD w (Memory.readWord [] w) := readWord_storeImage 0 image Memory.wf_nil w
    _ = image.getD w 0 := by rw [Memory.readWord_nil]

/-! ## Addresses (R41, R42, R171) -/

/-- An address that is not negative selects the floor of its quotient by 4. -/
theorem widx_of_nonneg {a : Word} (h : 0 ≤ a.toInt) : (widx a : Int) = a.toInt / 4 := by
  rw [widx, Int.tdiv_eq_ediv_of_nonneg h, Int.toNat_of_nonneg (by omega)]

theorem inRange_iff (s : State) (a : Word) :
    s.inRange a = true ↔ 0 ≤ a.toInt ∧ a.toInt / 4 < s.params.memWords := by
  rw [State.inRange, Bool.and_eq_true, decide_eq_true_eq, decide_eq_true_eq]
  refine and_congr_right fun h => ?_
  rw [← widx_of_nonneg h, Int.ofNat_lt]

/-- Settles O20: on addresses that are not negative, rounding toward zero is rounding down. -/
theorem addressSelectsItsWord : Obligations.AddressSelectsItsWord := by
  refine ⟨fun b o => BitVec.toInt_ofInt (b.toInt + o.toInt), inRange_iff, fun s a inside => ?_⟩
  obtain ⟨nonneg, _⟩ := (inRange_iff s a).mp inside
  exact widx_of_nonneg nonneg

/-! ## What a cycle writes to memory -/

/-- Memory after one pending write: only a store changes it. -/
theorem apply_mem (t : State) (w : Write) :
    (t.apply w).mem = t.mem ∨ ∃ a v, w = .store a v ∧ (t.apply w).mem = t.mem.writeWord (widx a) v := by
  cases w with
  | store a v => exact .inr ⟨a, v, rfl, rfl⟩
  | _ => exact .inl rfl

theorem wf_apply {t : State} (w : Write) (hm : t.mem.wf = true) : (t.apply w).mem.wf = true := by
  rcases apply_mem t w with same | ⟨a, v, _, written⟩
  · rw [same]
    exact hm
  · rw [written]
    exact Memory.wf_writeWord _ v hm

/-- A committed write is one of a handler's answer (R78, R79). -/
theorem mem_committedWrites {outs : List (Stage × HandlerOut)} {w : Write} (hw : w ∈ committedWrites outs) :
    ∃ o ∈ outs, w ∈ o.2.writes := by
  unfold committedWrites at hw
  split at hw
  · obtain ⟨o, ho, hw⟩ := List.mem_flatMap.mp hw
    exact ⟨o, List.mem_of_mem_filter ho, hw⟩
  · exact List.mem_flatMap.mp hw

/-- What every write of a handler keeps of the memory, the cycle keeps of it. -/
theorem cycle_mem_induct {s : State} {P : Memory → Prop} (start : P s.mem)
    (writes : ∀ st, ∀ w ∈ (handler st s).writes, ∀ t : State, P t.mem → P (t.apply w).mem) : P (cycle s).mem := by
  have answered : ∀ o ∈ evaluate s, ∀ w ∈ o.2.writes, ∀ t : State, P t.mem → P (t.apply w).mem := by
    intro o ho
    obtain ⟨st, _, rfl⟩ := List.mem_map.mp ho
    exact writes st
  rcases cycle_cases s with ⟨r, _, aborted⟩ | ⟨_, completed⟩
  · rw [aborted]
    refine State.applyAll_induct (P := fun t => P t.mem) start fun w hw => ?_
    obtain ⟨o, ho, hw⟩ := List.mem_flatMap.mp hw
    exact answered o (List.takeWhile_subset _ ho) w hw
  · rw [completed]
    have committed : P (commitPhase (evaluate s) s).mem := by
      refine commitPhase_induct (P := fun t => P t.mem) start (fun w hw => ?_) (fun _ _ h => h) (fun _ _ _ h => h)
      obtain ⟨o, ho, hw⟩ := mem_committedWrites hw
      exact answered o ho w hw
    exact State.advance_induct (P := fun t => P t.mem) (fun _ _ _ h => h) (fun _ h => h) (fun _ _ h => h)
      (s := (commitPhase (evaluate s) s).takeSnapshot) committed

/-! ## The canonical form -/

theorem markIssued_mem (s : State) (i : Instr) : (s.markIssued i).mem = s.mem := by
  rw [State.markIssued_frame]

/-- Where a meaning ends, memory is as before or has one word written. -/
theorem ends_mem {s t : State} {i : Instr} (ends : Ends s i t) :
    t.mem = s.mem ∨ ∃ w v, t.mem = s.mem.writeWord w v := by
  cases ends with
  | abort => exact .inl (markIssued_mem s i)
  | store next a v => exact .inr ⟨widx a, v, rfl⟩
  | decode | write | branch | ret => exact .inl rfl

/-- Settles O49: the only change of memory, in a cycle or at the end of a meaning, is a word's write. -/
theorem stepKeepsMemoryCanonical : Obligations.StepKeepsMemoryCanonical := by
  intro s t hm next
  refine step_keeps (P := fun t => t.mem.wf = true) (cycle_mem_induct (P := fun m => m.wf = true) hm ?_) ?_ next
  · exact fun _ w _ _ h => wf_apply w h
  · intro i u ends
    rcases ends_mem ends with same | ⟨w, v, written⟩
    · rw [same]
      exact hm
    · rw [written]
      exact Memory.wf_writeWord w v hm

/-! ## Where a store comes from -/

theorem store_notMem_completion (s : State) (l : Latch) (r a v : Word) : Write.store a v ∉ completion s l r := by
  rcases completion_cases s l r with h | ⟨_, _, h⟩ | ⟨_, h⟩ <;> simp [h]

theorem store_notMem_handleRR (s : State) (a v : Word) : Write.store a v ∉ (handleRR s).writes := by
  rcases handleRR_cases s with h | ⟨l, _, _, ⟨_, h⟩ | ⟨_, h⟩⟩ <;> rw [h]
  · simp
  · rcases issueInOrder_cases s l with h | ⟨_, _, _, _, _, _, _, h⟩ <;> rw [h]
    · simp [stalled]
    · cases dest : l.dest <;> simp [busyMark, dest]
  · rcases issueOutOfOrder_cases s l with h | ⟨_, _, _, _, h⟩ | ⟨_, _, h⟩ | ⟨_, _, _, _, h⟩ <;> rw [h]
    · simp [stalled]
    · simp
    · simp
    · cases dest : l.dest <;> simp [renameWrites, dest]

theorem store_notMem_retireLatch (s : State) (a v : Word) : Write.store a v ∉ (retireLatch s).writes := by
  rcases retireLatch_cases s with h | ⟨l, _, _, h⟩ <;> rw [h]
  · simp
  · rcases retireWrites_cases s l with noWrite | ⟨d, _, _, write⟩
    · simp [noWrite]
    · simp [write]

theorem store_notMem_handleRT (s : State) (a v : Word) : Write.store a v ∉ (handleRT s).writes := by
  have retires := store_notMem_retireLatch s a v
  rcases handleRT_cases s with ⟨_, h⟩ | ⟨e, _, h⟩ <;> rw [h]
  · exact retires
  · rcases commitWrites_cases s e with ⟨_, writes⟩ | ⟨_, writes⟩
    · simp [writes, retires]
    · simp [writes, retires]

/-- Only M2 stores (R174). -/
theorem store_notMem_of_ne_m2 {st : Stage} (other : st ≠ .m2) (s : State) (a v : Word) :
    Write.store a v ∉ (handler st s).writes := by
  have alu : ∀ st, Write.store a v ∉ (handleAlu st s).writes := by
    intro st
    rcases handleAlu_cases st s with h | ⟨l, _, _, ⟨r, _, h⟩ | ⟨_, _, h⟩⟩
    · simp [h]
    · simp [h, store_notMem_completion]
    · simp [h]
  cases st with
  | f =>
    rcases handleF_cases s with h | ⟨r, _, _, h⟩
    · simp [handler, h]
    · simp only [handler, h]
      split <;> simp
  | d => rcases handleD_cases s with h | ⟨_, _, _, ⟨_, _, h⟩ | ⟨_, _, h⟩⟩ <;> simp [handler, h]
  | oa => rcases handleOA_cases s with h | ⟨_, _, _, h⟩ <;> simp [handler, h]
  | rr => exact store_notMem_handleRR s a v
  | exa => exact alu .exa
  | exm => exact alu .exm
  | exd => exact alu .exd
  | exb => rcases handleEXB_cases s with h | ⟨_, _, _, ⟨_, h⟩ | ⟨_, h⟩⟩ <;> simp [handler, h, resolveBranch]
  | m1 => rcases handleM1_cases s with h | ⟨_, _, _, _, h⟩ <;> simp [handler, h]
  | m2 => exact absurd rfl other
  | wb => rcases handleWB_cases s with h | ⟨_, _, _, h⟩ <;> simp [handler, h]
  | rt => exact store_notMem_handleRT s a v

/-- A handler's store is that of a store instruction working in M2, to its own address, in range (R172, R174). -/
theorem store_mem_handler {s : State} {st : Stage} {a v : Word} (stores : .store a v ∈ (handler st s).writes) :
    ∃ l, s.WorksOn .m2 l ∧ isStore l.op = true ∧ s.inRange l.addr = true ∧ a = l.addr ∧ v = l.v3 := by
  by_cases hst : st = .m2
  · subst hst
    rcases handleM2_cases s with h | ⟨l, here, work, ⟨_, _, h⟩ | ⟨_, store, inside, h⟩ | ⟨_, _, h⟩⟩ <;>
      simp only [handler, h] at stores
    · simp at stores
    · simp [store_notMem_completion] at stores
    · obtain ⟨rfl, rfl⟩ : a = l.addr ∧ v = l.v3 := by simpa using stores
      exact ⟨l, ⟨here, work⟩, store, inside, rfl, rfl⟩
    · simp at stores
  · exact absurd stores (store_notMem_of_ne_m2 hst s a v)

/-- Settles O35: were there no such store, every write of the cycle would leave the byte as it was. -/
theorem memoryWrittenOnlyByStoreInM2 : Obligations.MemoryWrittenOnlyByStoreInM2 := by
  intro s c hm changed
  by_contra noStore
  obtain ⟨_, kept⟩ : (cycle s).mem.wf = true ∧ (cycle s).mem.readByte c = s.mem.readByte c := by
    refine cycle_mem_induct (P := fun m => m.wf = true ∧ m.readByte c = s.mem.readByte c) ⟨hm, rfl⟩ ?_
    rintro st w hw t ⟨canonical, same⟩
    refine ⟨wf_apply w canonical, ?_⟩
    rcases apply_mem t w with untouched | ⟨a, v, rfl, written⟩
    · rw [untouched, same]
    · obtain ⟨l, works, store, inside, rfl, _⟩ := store_mem_handler hw
      have outside : c < 4 * widx l.addr ∨ 4 * widx l.addr + 4 ≤ c := by
        by_contra within
        exact noStore ⟨l, works, store, inside, by omega, by omega⟩
      rw [written, Memory.readByte_writeWord_outside v canonical outside, same]
  exact changed kept

end Sys2Proof.Machine
end

section
/-! SUPPORT. The packing of records (R59), the decoder and the encoder (R57, R58, R62, R63): what each does, said once,
and that the two invert each other. -/

namespace Sys2Proof

/-! ## The packed word holds one record exactly (R59) -/

/-- Each of six fields put together in the order of the packing stands at its own bits. -/
theorem extractLsb'_fields (op a b c : BitVec 5) (z : BitVec 12) (imm : Word) :
    (op ++ a ++ b ++ c ++ z ++ imm).extractLsb' 59 5 = op ∧ (op ++ a ++ b ++ c ++ z ++ imm).extractLsb' 54 5 = a ∧
      (op ++ a ++ b ++ c ++ z ++ imm).extractLsb' 49 5 = b ∧ (op ++ a ++ b ++ c ++ z ++ imm).extractLsb' 44 5 = c ∧
      (op ++ a ++ b ++ c ++ z ++ imm).extractLsb' 32 12 = z ∧
      (op ++ a ++ b ++ c ++ z ++ imm).extractLsb' 0 32 = imm := by
  simp [BitVec.extractLsb'_append_eq_of_le (w := 32), BitVec.extractLsb'_append_eq_of_le (w := 12),
    BitVec.extractLsb'_append_eq_of_le (w := 5), BitVec.extractLsb'_append_eq_right (w' := 32),
    BitVec.extractLsb'_append_eq_right (w' := 12), BitVec.extractLsb'_append_eq_right (w' := 5),
    BitVec.extractLsb'_eq_self]

theorem Record.ofWord_toWord (r : Record) : Record.ofWord r.toWord = r := by
  obtain ⟨op, a, b, c, z, imm⟩ :=
    extractLsb'_fields r.opcode (regBits r.a) (regBits r.b) (regBits r.c) r.reserved r.imm
  rw [Record.ofWord, Record.toWord, op, a, b, c, z, imm]
  rfl

/-- The six fields of a word are adjacent and cover it, so no bit is lost. -/
theorem Record.toWord_ofWord (w : Packed) : (Record.ofWord w).toWord = w := by
  simp only [Record.toWord, Record.ofWord, regBits, BitVec.ofFin_toFin]
  rw [BitVec.extractLsb'_append_extractLsb'_eq_extractLsb' (by omega),
    BitVec.extractLsb'_append_extractLsb'_eq_extractLsb' (by omega),
    BitVec.extractLsb'_append_extractLsb'_eq_extractLsb' (by omega),
    BitVec.extractLsb'_append_extractLsb'_eq_extractLsb' (by omega),
    BitVec.extractLsb'_append_extractLsb'_eq_extractLsb' (by omega)]
  exact BitVec.extractLsb'_eq_self

/-! ## Opcodes and their codes (R55, R62) -/

theorem Opcode.code_of_ofCode? : ∀ c : BitVec 5, ∀ op ∈ Opcode.ofCode? c, c = op.code := by decide

theorem Opcode.ofCode?_isSome : ∀ c : BitVec 5, c.toNat ≤ 18 → (Opcode.ofCode? c).isSome := by decide

theorem Opcode.code_le (op : Opcode) : op.code.toNat ≤ 18 := by
  cases op <;> decide

/-! ## The decoder (R57, R58, R63) -/

/-- `r` is a record of variant `op`: its opcode field selects `op`, and the reserved bits and every field that the
format of `op` does not use are 0. -/
structure Record.Holds (r : Record) (op : Opcode) : Prop where
  code : Opcode.ofCode? r.opcode = some op
  reserved : r.reserved = 0
  unused : r.unusedZero op.format = true

/-- The instruction of variant `op` with the record's fields. -/
def Record.instr (r : Record) (op : Opcode) : Instr :=
  Instr.ofFields op r.a r.b r.c r.imm

theorem Record.decode_eq_ok_iff (r : Record) (i : Instr) :
    r.decode = .ok i ↔ ∃ op, r.Holds op ∧ r.instr op = i := by
  constructor
  · intro decodes
    unfold Record.decode at decodes
    split at decodes
    · cases decodes
    · rename_i op code
      split at decodes
      · cases decodes
      · rename_i reserved
        split at decodes
        · rename_i unused
          cases decodes
          exact ⟨op, ⟨code, not_not.mp reserved, unused⟩, rfl⟩
        · cases decodes
  · rintro ⟨op, ⟨code, reserved, unused⟩, rfl⟩
    simp [Record.decode, Record.instr, code, reserved, unused]

theorem decodeFor_eq_ok_iff (nreg : Nat) (w : Packed) (i : Instr) :
    decodeFor nreg w = .ok i ↔ decode w = .ok i ∧ i.wellFormed nreg = true := by
  unfold decodeFor
  cases decode w with
  | error e => simp
  | ok j =>
    constructor
    · intro accepted
      dsimp only at accepted
      split at accepted
      · rename_i wellFormed
        cases accepted
        exact ⟨rfl, wellFormed⟩
      · cases accepted
    · rintro ⟨⟨⟩, wellFormed⟩
      exact if_pos wellFormed

/-! ## The encoder and the decoder invert each other -/

/-- The record shapes of Laws/PerInstr.lean, for all instructions at once. -/
theorem recordShape (i : Instr) : Laws.RecordShape.Statement i :=
  match i with
  | .mul a b imm => Laws.RecordShape.mul a b imm
  | .add a b imm => Laws.RecordShape.add a b imm
  | .sub a b imm => Laws.RecordShape.sub a b imm
  | .div a b imm => Laws.RecordShape.div a b imm
  | .mull a b c => Laws.RecordShape.mull a b c
  | .addl a b c => Laws.RecordShape.addl a b c
  | .subl a b c => Laws.RecordShape.subl a b c
  | .divl a b c => Laws.RecordShape.divl a b c
  | .ldI a b imm => Laws.RecordShape.ldI a b imm
  | .stI a b imm => Laws.RecordShape.stI a b imm
  | .ldR a b c => Laws.RecordShape.ldR a b c
  | .stR a b c => Laws.RecordShape.stR a b c
  | .set a imm => Laws.RecordShape.set a imm
  | .bez a imm => Laws.RecordShape.bez a imm
  | .bgez a imm => Laws.RecordShape.bgez a imm
  | .blez a imm => Laws.RecordShape.blez a imm
  | .bgtz a imm => Laws.RecordShape.bgtz a imm
  | .bltz a imm => Laws.RecordShape.bltz a imm
  | .ret => Laws.RecordShape.ret

theorem Instr.toRecord_holds (i : Instr) : i.toRecord.Holds i.opcode :=
  have ⟨unused, reserved, code⟩ := recordShape i
  ⟨code, reserved, unused⟩

theorem Instr.instr_toRecord (i : Instr) : i.toRecord.instr i.opcode = i := by
  cases i <;> rfl

theorem decode_encode (i : Instr) : decode (encode i) = .ok i := by
  rw [decode, encode, Record.ofWord_toWord, Record.decode_eq_ok_iff]
  exact ⟨i.opcode, i.toRecord_holds, i.instr_toRecord⟩

/-- Settles O2: the word holds the instruction's record, which the decoder reads back field by field. -/
theorem decodeInvertsEncode : Obligations.DecodeInvertsEncode :=
  fun nreg i wellFormed => (decodeFor_eq_ok_iff nreg (encode i) i).mpr ⟨decode_encode i, wellFormed⟩

/-- A record of a variant has nothing besides what its instruction says. -/
theorem Record.toRecord_instr {r : Record} {op : Opcode} (holds : r.Holds op) : (r.instr op).toRecord = r := by
  obtain ⟨code, reserved, unused⟩ := holds
  obtain ⟨opcode, a, b, c, z, imm⟩ := r
  obtain rfl := Opcode.code_of_ofCode? _ _ code
  obtain rfl : z = 0 := reserved
  cases op with
  | mul | add | sub | div | ldI | stI =>
    obtain rfl : c = 0 := by simpa [Record.unusedZero, Opcode.format] using unused
    rfl
  | mull | addl | subl | divl | ldR | stR =>
    obtain rfl : imm = 0 := by simpa [Record.unusedZero, Opcode.format] using unused
    rfl
  | set | bez | bgez | blez | bgtz | bltz =>
    obtain ⟨rfl, rfl⟩ : b = 0 ∧ c = 0 := by simpa [Record.unusedZero, Opcode.format] using unused
    rfl
  | ret =>
    obtain ⟨⟨⟨rfl, rfl⟩, rfl⟩, rfl⟩ : ((a = 0 ∧ b = 0) ∧ c = 0) ∧ imm = 0 := by
      simpa [Record.unusedZero, Opcode.format] using unused
    rfl

/-- Settles O3: a word that decodes holds a record of its variant, and that record is the one the encoder makes. -/
theorem encodeInvertsDecode : Obligations.EncodeInvertsDecode := by
  intro w i decodes
  obtain ⟨op, holds, rfl⟩ := (Record.decode_eq_ok_iff _ i).mp decodes
  rw [encode, Record.toRecord_instr holds, Record.toWord_ofWord]

/-! ## What the decoder accepts -/

/-- The clauses of R57 on the operand fields of a record, by the number in its opcode field. -/
def Record.OperandsLegal (nreg : Nat) (r : Record) : Prop :=
  (r.opcode.toNat ≤ 17 → r.a.val < nreg) ∧
    (r.opcode.toNat = 18 → r.a = 0 ∧ r.imm = 0) ∧
    (r.opcode.toNat ≤ 11 → r.b.val < nreg) ∧
    (12 ≤ r.opcode.toNat → r.b = 0 ∧ r.c = 0) ∧
    (r.opcode.toNat ∈ [4, 5, 6, 7, 10, 11] → r.c.val < nreg ∧ r.imm = 0) ∧
    (r.opcode.toNat ∈ [0, 1, 2, 3, 8, 9] → r.c = 0)

/-- Of each variant, those clauses are the decoder's test of the unused fields and the register check. -/
theorem Record.operandsLegal_iff (nreg : Nat) {r : Record} {op : Opcode} (code : r.opcode = op.code) :
    r.OperandsLegal nreg ↔ r.unusedZero op.format = true ∧ (r.instr op).wellFormed nreg = true := by
  unfold Record.OperandsLegal
  rw [code]
  cases op <;>
    simp [Opcode.code, Opcode.format, Record.unusedZero, Record.instr, Instr.ofFields, Instr.wellFormed, Instr.regs,
      and_assoc, and_comm]

theorem Record.accepted_iff (nreg : Nat) (r : Record) :
    (∃ i, r.decode = .ok i ∧ i.wellFormed nreg = true) ↔
      r.opcode.toNat ≤ 18 ∧ r.reserved = 0 ∧ r.OperandsLegal nreg := by
  constructor
  · rintro ⟨i, decodes, wellFormed⟩
    obtain ⟨op, ⟨selects, reserved, unused⟩, rfl⟩ := (r.decode_eq_ok_iff i).mp decodes
    have code := Opcode.code_of_ofCode? _ _ selects
    exact ⟨code ▸ op.code_le, reserved, (r.operandsLegal_iff nreg code).mpr ⟨unused, wellFormed⟩⟩
  · rintro ⟨listed, reserved, legal⟩
    obtain ⟨op, selects⟩ := Option.isSome_iff_exists.mp (Opcode.ofCode?_isSome _ listed)
    obtain ⟨unused, wellFormed⟩ := (r.operandsLegal_iff nreg (Opcode.code_of_ofCode? _ _ selects)).mp legal
    exact ⟨r.instr op, (r.decode_eq_ok_iff _).mpr ⟨op, ⟨selects, reserved, unused⟩, rfl⟩, wellFormed⟩

/-- Settles O4: the statement's clauses on the bits of the word are those on the fields of its record. -/
theorem decoderAcceptsExactlyTheWellFormed : Obligations.DecoderAcceptsExactlyTheWellFormed := by
  intro nreg w
  have zero (x : BitVec 5) : x = 0 ↔ x.toFin = 0 := BitVec.toFin_inj.symm
  simp only [decodeFor_eq_ok_iff, zero]
  exact (Record.ofWord w).accepted_iff nreg

/-- Settles O1: ten closed words, each decoded by evaluation. -/
theorem specWordsDecode : Obligations.SpecWordsDecode := by
  unfold Obligations.SpecWordsDecode
  decide

end Sys2Proof

namespace Sys2Proof.Machine

/-! ## A register that the machine does not have (R63, R84, R194) -/

/-- Every meaning begins with Decode's check, which `ret`, naming no register, always passes. -/
theorem exec_of_malformed {s : State} {i : Instr} (malformed : i.wellFormed s.params.nreg = false) :
    exec i s = .next (s.abortDecode i) := by
  cases i with
  | ret => cases malformed
  | _ => exact State.decoded_of_malformed _ malformed

theorem State.latch_abortDecode (s : State) (i : Instr) (st : Stage) :
    (s.abortDecode i).latch st = if st = .d then some { s.fetchedLatch with done := false } else s.latch st :=
  PerStage.get_set s.latches .d st _

/-- The abort in Decode leaves the fetched record there and touches no register, byte, predictor entry, channel or
ring. -/
theorem abortDecode_abortsRun {s : State} {i : Instr} (runs : exec i s = .next (s.abortDecode i)) :
    AbortsRun i s .malformedInstruction .d 1 (s.predictNext s.pc (some i.opcode) (slots i).imm) :=
  ⟨_, runs, rfl, rfl, rfl, rfl, rfl, rfl, rfl, rfl, fun _ => rfl, fun _ _ => rfl, fun _ => rfl, ⟨rfl, rfl⟩,
    abortDecode_keepsArguments s i,
    ⟨_, (s.latch_abortDecode i .d).trans (if_pos rfl), rfl, rfl⟩,
    fun st other => (s.latch_abortDecode i st).trans (if_neg other),
    fun _ => ⟨rfl, rfl, rfl, rfl, rfl, rfl⟩⟩

/-- Settles O19: the meaning is the abort in Decode. -/
theorem illFormedInstructionAbortsInDecode : Obligations.IllFormedInstructionAbortsInDecode := by
  intro s i malformed
  have runs := exec_of_malformed malformed
  refine ⟨_, abortDecode_abortsRun runs, fun t ends => ?_⟩
  cases runs.symm.trans ends
  exact fun _ => rfl

end Sys2Proof.Machine
end

section
/-! SUPPORT. The inversion of a stage handler's answer, write by write and signal by signal: who writes what in a cycle,
and which occupant a signal comes from (R72 to R90). A field that one stage alone writes then has one value after the
commit phase, whatever the other stages do. -/

namespace Sys2Proof.Machine

/-! ## Who writes what -/

/-- The stages whose handlers complete a result (R156, R173). -/
def completers : List Stage :=
  [.exa, .exm, .exd, .m2]

/-- `w` is a write that the handler of a stage can answer in the cycle from `s`. -/
inductive Answers (s : State) : Stage → Write → Prop where
  | latch (st : Stage) (k : Latch) : Answers s st (.latch st k)
  | fetchSeqNext : Answers s .f .fetchSeqNext
  | pc (p : Int) : Answers s .f (.pc p)
  | fetchHalt (b : Bool) : Answers s .f (.fetchHalt b)
  | stall : Answers s .rr .stall
  | busy (d : Reg) (free : s.params.variant = .inOrder → s.ready d = true) : Answers s .rr (.regReady d false)
  | robAllocate (d : Reg) : Answers s .rr (.robAllocate d)
  | rename (d : Reg) (id : RobId) : Answers s .rr (.regTag d (some id))
  | forwardResult (st : Stage) (l : Latch) (c : Channel) (d : Reg) (v : Word) (unit : st ∈ [Stage.exa, .exm, .exd])
    (works : s.WorksOn st l) (result : aluResult l.op l.v1 l.secondOperand = some (.ok v))
    (feeds : channelOf l.op = some c) (dest : l.dest = some d) : Answers s st (.channel c d v)
  | forwardLoad (l : Latch) (d : Reg) (works : s.WorksOn .m2 l) (load : isLoad l.op = true) (dest : l.dest = some d) :
    Answers s .m2 (.channel .mem d (s.mem.readWord (widx l.addr)))
  | complete (st : Stage) (id : RobId) (v : Word) (unit : st ∈ completers) : Answers s st (.robComplete id v)
  | store (a v : Word) : Answers s .m2 (.store a v)
  | btb (i : Fin 16) (e : BtbEntry) : Answers s .exb (.btb i e)
  | pt (i : Fin 16) (c : Fin 8) : Answers s .exb (.pt i c)
  | retire (l : Latch) (works : s.WorksOn .rt l) : Answers s .rt .retire
  | value (d : Reg) (v : Word) (source : s.Writes d v) : Answers s .rt (.regValue d v)
  | release (d : Reg) : Answers s .rt (.regReady d true)
  | untag (d : Reg) : Answers s .rt (.regTag d none)
  | robFree : Answers s .rt .robFree

/-- Every write of a list is one that the stage can answer. -/
def AllAnswers (s : State) (st : Stage) (ws : List Write) : Prop :=
  ∀ w ∈ ws, Answers s st w

section
variable {s : State} {st : Stage}

theorem AllAnswers.nil : AllAnswers s st [] :=
  List.forall_mem_nil _

theorem AllAnswers.cons {w : Write} {ws : List Write} (h : Answers s st w) (hs : AllAnswers s st ws) :
    AllAnswers s st (w :: ws) :=
  List.forall_mem_cons.mpr ⟨h, hs⟩

theorem AllAnswers.append {ws us : List Write} (h : AllAnswers s st ws) (k : AllAnswers s st us) :
    AllAnswers s st (ws ++ us) :=
  List.forall_mem_append.mpr ⟨h, k⟩

/-- A handler that only rewrites its own latch. -/
theorem AllAnswers.own (k : Latch) : AllAnswers s st [.latch st k] :=
  .cons (.latch st k) .nil

end

theorem channelOf_of_isLoad {op : Opcode} (h : isLoad op = true) : channelOf op = some .mem := by
  cases op with
  | ldI | ldR => rfl
  | _ => cases h

/-- The completion signal of a unit: a forwarding pair in the in-order build, a ROB completion in the other (R107,
R145). -/
theorem completion_answers {s : State} {st : Stage} {l : Latch} {v : Word} (unit : st ∈ completers)
    (forwards : ∀ c d, channelOf l.op = some c → l.dest = some d → Answers s st (.channel c d v)) :
    AllAnswers s st (completion s l v) := by
  unfold completion
  split
  · split
    · rename_i c d feeds dest
      exact .cons (forwards c d feeds dest) .nil
    · exact .nil
  · split
    · exact .cons (.complete st _ v unit) .nil
    · exact .nil

theorem handleF_answers (s : State) : AllAnswers s .f (handleF s).writes := by
  rcases handleF_cases s with h | ⟨r, _, _, h⟩ <;> rw [h]
  · exact .nil
  · refine .cons (.latch ..) (.cons .fetchSeqNext (.cons (.pc _) ?_))
    split
    · exact .cons (.fetchHalt _) .nil
    · exact .nil

/-- An in-order destination that is marked busy was ready: a busy one holds the instruction back (R104). -/
theorem busyMark_answers {s : State} {l : Latch} (free : s.destBusy l = false) : AllAnswers s .rr (busyMark l) := by
  unfold busyMark
  unfold State.destBusy at free
  cases dest : l.dest with
  | none => exact .nil
  | some d => exact .cons (.busy d fun _ => by simpa [dest] using free) .nil

theorem renameWrites_answers {s : State} (build : s.params.variant = .outOfOrder) (l : Latch) :
    AllAnswers s .rr (renameWrites s l) := by
  unfold renameWrites
  cases l.dest with
  | none => exact .nil
  | some d =>
    have free : s.params.variant = .inOrder → s.ready d = true := fun inOrder => by cases inOrder.symm.trans build
    exact .cons (.robAllocate d) (.cons (.rename d _) (.cons (.busy d free) .nil))

theorem handleRR_answers (s : State) : AllAnswers s .rr (handleRR s).writes := by
  rcases handleRR_cases s with h | ⟨l, _, _, ⟨_, h⟩ | ⟨build, h⟩⟩ <;> rw [h]
  · exact .nil
  · rcases issueInOrder_cases s l with h | ⟨_, _, _, _, _, _, free, h⟩ <;> rw [h]
    · exact .cons .stall .nil
    · exact .cons (.latch ..) (busyMark_answers free)
  · rcases issueOutOfOrder_cases s l with h | ⟨_, _, _, _, h⟩ | ⟨_, _, h⟩ | ⟨_, _, _, _, h⟩ <;> rw [h]
    · exact .cons .stall .nil
    · exact .own _
    · exact .own _
    · exact .cons (.latch ..) (renameWrites_answers build l)

theorem mem_completers_of_alu {st : Stage} (unit : st ∈ [Stage.exa, .exm, .exd]) : st ∈ completers := by
  simp only [completers, List.mem_cons, List.not_mem_nil, or_false] at unit ⊢
  tauto

theorem handleAlu_answers {st : Stage} (unit : st ∈ [Stage.exa, .exm, .exd]) (s : State) :
    AllAnswers s st (handleAlu st s).writes := by
  rcases handleAlu_cases st s with h | ⟨l, here, work, ⟨v, result, h⟩ | ⟨_, _, h⟩⟩ <;> rw [h]
  · exact .nil
  · exact .cons (.latch ..) (completion_answers (mem_completers_of_alu unit) fun c d =>
      .forwardResult st l c d v unit ⟨here, work⟩ result)
  · exact .nil

theorem handleM2_answers (s : State) : AllAnswers s .m2 (handleM2 s).writes := by
  rcases handleM2_cases s with h | ⟨l, here, work, ⟨load, _, h⟩ | ⟨_, _, _, h⟩ | ⟨_, _, h⟩⟩ <;> rw [h]
  · exact .nil
  · refine .cons (.latch ..) (completion_answers (by decide) fun c d feeds dest => ?_)
    cases (channelOf_of_isLoad load).symm.trans feeds
    exact .forwardLoad l d ⟨here, work⟩ load dest
  · exact .cons (.store ..) (.own _)
  · exact .nil

theorem retireLatch_answers (s : State) : AllAnswers s .rt (retireLatch s).writes := by
  rcases retireLatch_cases s with h | ⟨l, here, work, h⟩ <;> rw [h]
  · exact .nil
  · refine .cons (.retire l ⟨here, work⟩) (.cons (.latch ..) ?_)
    rcases retireWrites_cases s l with h | ⟨d, build, dest, h⟩ <;> rw [h]
    · exact .nil
    · exact .cons (.value d l.result (.inl ⟨l, build, ⟨here, work⟩, dest, rfl⟩)) (.cons (.release d) .nil)

theorem handleRT_answers (s : State) : AllAnswers s .rt (handleRT s).writes := by
  rcases handleRT_cases s with ⟨_, h⟩ | ⟨e, commits, h⟩ <;> rw [h]
  · exact retireLatch_answers s
  · have written : Answers s .rt (.regValue e.destinationRegister e.result) :=
      .value _ _ (.inr ⟨e, (committing_iff s e).mp commits, rfl, rfl⟩)
    refine (retireLatch_answers s).append ?_
    rcases commitWrites_cases s e with ⟨_, h⟩ | ⟨_, h⟩ <;> rw [h]
    · exact .cons written (.cons (.untag _) (.cons (.release _) (.cons .robFree .nil)))
    · exact .cons written (.cons .robFree .nil)

/-- What any handler can write. -/
theorem handler_answers (st : Stage) (s : State) : AllAnswers s st (handler st s).writes := by
  cases st with
  | f => exact handleF_answers s
  | d =>
    show AllAnswers s .d (handleD s).writes
    rcases handleD_cases s with h | ⟨_, _, _, ⟨_, _, h⟩ | ⟨_, _, h⟩⟩ <;> rw [h]
    · exact .nil
    · exact .own _
    · exact .nil
  | oa =>
    show AllAnswers s .oa (handleOA s).writes
    rcases handleOA_cases s with h | ⟨_, _, _, h⟩ <;> rw [h]
    · exact .nil
    · exact .own _
  | rr => exact handleRR_answers s
  | exa => exact handleAlu_answers (by decide) s
  | exm => exact handleAlu_answers (by decide) s
  | exd => exact handleAlu_answers (by decide) s
  | exb =>
    show AllAnswers s .exb (handleEXB s).writes
    rcases handleEXB_cases s with h | ⟨_, _, _, ⟨_, h⟩ | ⟨_, h⟩⟩ <;> rw [h]
    · exact .nil
    · exact .cons (.btb ..) (.cons (.pt ..) (.own _))
    · exact .own _
  | m1 =>
    show AllAnswers s .m1 (handleM1 s).writes
    rcases handleM1_cases s with h | ⟨_, _, _, _, h⟩ <;> rw [h]
    · exact .nil
    · exact .own _
  | m2 => exact handleM2_answers s
  | wb =>
    show AllAnswers s .wb (handleWB s).writes
    rcases handleWB_cases s with h | ⟨_, _, _, h⟩ <;> rw [h]
    · exact .nil
    · exact .own _
  | rt => exact handleRT_answers s

/-! ## Who signals what -/

/-- `g` is a signal of a stage's handler in the cycle from `s`, with the occupant it comes from (R84, R90, R121, R192,
R193). -/
inductive Signals (s : State) : Stage → Signal → Prop where
  | retireRet (l : Latch) (works : s.WorksOn .rt l) (ret : l.op = .ret) : Signals s .rt .retireRet
  | divide (st : Stage) (l : Latch) (unit : st ∈ [Stage.exa, .exm, .exd]) (works : s.WorksOn st l)
    (divides : unitOf l.op = .exd) (zero : l.secondOperand = 0) : Signals s st (.abort .divideByZero)
  | range (l : Latch) (works : s.WorksOn .m2 l) (memory : isMemory l.op = true) (outside : s.inRange l.addr = false) :
    Signals s .m2 (.abort .memoryOutOfRange)
  | malformed (l : Latch) (e : DecodeError) (works : s.WorksOn .d l) (refused : s.decodeAt l.idx = .error e) :
    Signals s .d (.abort .malformedInstruction)
  | flush (l : Latch) (works : s.WorksOn .exb l) (branch : isBranch l.op = true)
    (test : flushTest (cond l.op l.v1) s.btb[predictorIndex l.pc].tag s.pt[predictorIndex l.pc] = true) :
    Signals s .exb (.flush (branchNext (cond l.op l.v1) l.idx l.imm))

theorem quotWord_error {a b : Word} {r : AbortReason} (h : quotWord a b = .error r) : b = 0 ∧ r = .divideByZero := by
  unfold quotWord at h
  split at h
  · rename_i zero
    cases h
    exact ⟨BitVec.toInt_inj.mp zero, rfl⟩
  · cases h

theorem aluResult_error_cause {op : Opcode} {a y : Word} {r : AbortReason} (h : aluResult op a y = some (.error r)) :
    unitOf op = .exd ∧ y = 0 ∧ r = .divideByZero := by
  cases op with
  | div | divl => exact ⟨rfl, quotWord_error (Option.some.inj h)⟩
  | _ => cases h

theorem aluResult_of_zero {op : Opcode} (divides : unitOf op = .exd) (a : Word) :
    aluResult op a 0 = some (.error .divideByZero) := by
  cases op with
  | div | divl => rfl
  | _ => cases divides

theorem handleAlu_signals {s : State} {st : Stage} (unit : st ∈ [Stage.exa, .exm, .exd]) {g : Signal}
    (h : (handleAlu st s).signal = some g) : Signals s st g := by
  rcases handleAlu_cases st s with e | ⟨l, here, work, ⟨_, _, e⟩ | ⟨r, failed, e⟩⟩ <;> rw [e] at h
  · cases h
  · cases h
  · obtain ⟨divides, zero, rfl⟩ := aluResult_error_cause failed
    cases h
    exact .divide st l unit ⟨here, work⟩ divides zero

theorem handleM2_signals {s : State} {g : Signal} (h : (handleM2 s).signal = some g) : Signals s .m2 g := by
  rcases handleM2_cases s with e | ⟨l, here, work, ⟨_, _, e⟩ | ⟨_, _, _, e⟩ | ⟨access, outside, e⟩⟩ <;> rw [e] at h
  · cases h
  · cases h
  · cases h
  · cases h
    exact .range l ⟨here, work⟩ (access.elim isMemory_of_isLoad isMemory_of_isStore) outside

theorem handleEXB_signals {s : State} {g : Signal} (h : (handleEXB s).signal = some g) : Signals s .exb g := by
  rcases handleEXB_cases s with e | ⟨l, here, work, ⟨branch, e⟩ | ⟨_, e⟩⟩ <;> rw [e] at h
  · cases h
  · simp only [resolveBranch] at h
    split at h
    · rename_i test
      cases h
      exact .flush l ⟨here, work⟩ branch test
    · cases h
  · cases h

theorem handleRT_signals {s : State} {g : Signal} (h : (handleRT s).signal = some g) : Signals s .rt g := by
  have own : (handleRT s).signal = (retireLatch s).signal := by
    rcases handleRT_cases s with ⟨_, e⟩ | ⟨_, _, e⟩ <;> rw [e]
  rw [own] at h
  rcases retireLatch_cases s with e | ⟨l, here, work, e⟩ <;> rw [e] at h
  · cases h
  · simp only at h
    split at h
    · rename_i ret
      cases h
      exact .retireRet l ⟨here, work⟩ ret
    · cases h

theorem handleRR_signal (s : State) : (handleRR s).signal = none := by
  rcases handleRR_cases s with e | ⟨l, _, _, ⟨_, issue⟩ | ⟨_, issue⟩⟩
  · exact congrArg HandlerOut.signal e
  · rcases issueInOrder_cases s l with e | ⟨_, _, _, _, _, _, _, e⟩ <;>
      exact congrArg HandlerOut.signal (issue.trans e)
  · rcases issueOutOfOrder_cases s l with e | ⟨_, _, _, _, e⟩ | ⟨_, _, e⟩ | ⟨_, _, _, _, e⟩ <;>
      exact congrArg HandlerOut.signal (issue.trans e)

/-- What any handler can signal. -/
theorem handler_signals {s : State} {st : Stage} {g : Signal} (h : (handler st s).signal = some g) :
    Signals s st g := by
  cases st with
  | f =>
    rcases handleF_cases s with e | ⟨_, _, _, e⟩ <;> cases (congrArg HandlerOut.signal e).symm.trans h
  | d =>
    rcases handleD_cases s with e | ⟨l, here, work, ⟨_, _, e⟩ | ⟨r, refused, e⟩⟩
    all_goals cases (congrArg HandlerOut.signal e).symm.trans h
    exact .malformed l r ⟨here, work⟩ refused
  | oa =>
    rcases handleOA_cases s with e | ⟨_, _, _, e⟩ <;> cases (congrArg HandlerOut.signal e).symm.trans h
  | rr => cases (handleRR_signal s).symm.trans h
  | exa => exact handleAlu_signals (by decide) h
  | exm => exact handleAlu_signals (by decide) h
  | exd => exact handleAlu_signals (by decide) h
  | exb => exact handleEXB_signals h
  | m1 =>
    rcases handleM1_cases s with e | ⟨_, _, _, _, e⟩ <;> cases (congrArg HandlerOut.signal e).symm.trans h
  | m2 => exact handleM2_signals h
  | wb =>
    rcases handleWB_cases s with e | ⟨_, _, _, e⟩ <;> cases (congrArg HandlerOut.signal e).symm.trans h
  | rt => exact handleRT_signals h

end Sys2Proof.Machine
end

section
/-! SUPPORT. The writes of a cycle that take effect (R78, R79, R92), and what a cycle is in terms of them: a field reads
as the one stage that owns it wrote it, and the rest of the cycle moves latches and counts. -/

namespace Sys2Proof.Machine

/-! ## The stages whose writes take effect -/

/-- The writes of some stages' handlers, in order. -/
def State.writesOf (s : State) (stages : List Stage) : List Write :=
  stages.flatMap fun st => (handler st s).writes

/-- The stages whose writes the cycle applies: those before the first abort (R92), else all but the front ones that a
flush discards (R79). -/
def State.effective (s : State) : List Stage :=
  match abortOf (evaluate s), flushOf (evaluate s) with
  | some _, _ => evalOrder.takeWhile fun st => (handler st s).abort?.isNone
  | none, some _ => evalOrder.filter fun st => !isFront st
  | none, none => evalOrder

/-- The state with the writes that take effect, before flush, wake-up and advance. -/
def State.written (s : State) : State :=
  s.applyAll (s.writesOf s.effective)

theorem writesBeforeAbort_evaluate (s : State) :
    writesBeforeAbort (evaluate s) = s.writesOf (evalOrder.takeWhile fun st => (handler st s).abort?.isNone) := by
  rw [writesBeforeAbort, evaluate, List.takeWhile_map, List.flatMap_map]
  rfl

theorem written_of_abort {s : State} {r : AbortReason} (h : abortOf (evaluate s) = some r) :
    s.applyAll (writesBeforeAbort (evaluate s)) = s.written := by
  simp only [State.written, State.effective, h, writesBeforeAbort_evaluate]

theorem committedWrites_evaluate {s : State} (h : abortOf (evaluate s) = none) :
    committedWrites (evaluate s) = s.writesOf s.effective := by
  unfold committedWrites State.effective State.writesOf
  rw [h]
  cases flushOf (evaluate s) with
  | none => exact List.flatMap_map ..
  | some p =>
    simp only [evaluate, List.filter_map, List.flatMap_map]
    rfl

theorem effective_sublist (s : State) : s.effective.Sublist evalOrder := by
  unfold State.effective
  split
  · exact List.takeWhile_sublist _
  · exact List.filter_sublist
  · exact List.Sublist.refl _

theorem effective_nodup (s : State) : s.effective.Nodup :=
  (effective_sublist s).nodup (by decide)

theorem mem_evalOrder (st : Stage) : st ∈ evalOrder := by
  cases st <;> decide

/-! ## Aborts and flushes of a cycle -/

theorem HandlerOut.abort?_some {o : HandlerOut} {r : AbortReason} (h : o.abort? = some r) :
    o.signal = some (.abort r) := by
  unfold HandlerOut.abort? at h
  split at h
  · rename_i signal
    cases h
    exact signal
  · cases h

theorem HandlerOut.flush?_some {o : HandlerOut} {p : Int} (h : o.flush? = some p) : o.signal = some (.flush p) := by
  unfold HandlerOut.flush? at h
  split at h
  · rename_i signal
    cases h
    exact signal
  · cases h

/-- No stage aborts when the cycle's evaluation has no abort. -/
theorem no_abort {s : State} (h : abortOf (evaluate s) = none) (st : Stage) (r : AbortReason) :
    (handler st s).signal ≠ some (.abort r) := by
  intro signal
  have silent := List.findSome?_eq_none_iff.mp h (st, handler st s) (List.mem_map_of_mem (mem_evalOrder st))
  simp [HandlerOut.abort?, signal] at silent

/-- A stage that no abort can come from is silent of it (R84, R192, R193). -/
theorem abort?_isNone {s : State} {st : Stage} (h : ∀ r, ¬ Signals s st (.abort r)) :
    (handler st s).abort?.isNone = true := by
  cases aborts : (handler st s).abort? with
  | none => rfl
  | some r => exact absurd (handler_signals (HandlerOut.abort?_some aborts)) (h r)

theorem flushOf_some {s : State} {p : Int} (h : flushOf (evaluate s) = some p) :
    ∃ st, (handler st s).signal = some (.flush p) := by
  obtain ⟨o, ho, hp⟩ := List.exists_of_findSome?_eq_some h
  obtain ⟨st, _, rfl⟩ := List.mem_map.mp ho
  exact ⟨st, HandlerOut.flush?_some hp⟩

theorem State.WorksOn.unique {s : State} {st : Stage} {l k : Latch} (h : s.WorksOn st l) (g : s.WorksOn st k) :
    l = k :=
  Option.some.inj (h.1.symm.trans g.1)

theorem handler_exb_of_branch {s : State} {l : Latch} (works : s.WorksOn .exb l) (branch : isBranch l.op = true) :
    handler .exb s = resolveBranch s l := by
  obtain ⟨here, work⟩ := works
  simp only [handler, handleEXB, here, work, branch, Bool.false_eq_true, if_false, if_true]

/-- A flush goes where the branch in EXB that causes it goes on (R121). -/
theorem flushOf_of_flushes {s : State} {l : Latch} (works : s.WorksOn .exb l) (flushes : s.Flushes) :
    flushOf (evaluate s) = some (branchNext (cond l.op l.v1) l.idx l.imm) := by
  obtain ⟨k, here, work, branch, test⟩ := flushes
  obtain rfl := works.unique ⟨here, work⟩
  cases found : flushOf (evaluate s) with
  | none =>
    have signal : (handler .exb s).signal = some (.flush (branchNext (cond l.op l.v1) l.idx l.imm)) :=
      (congrArg HandlerOut.signal (handler_exb_of_branch works branch)).trans (if_pos test)
    have silent := List.findSome?_eq_none_iff.mp found (.exb, handler .exb s)
      (List.mem_map_of_mem (mem_evalOrder .exb))
    simp [HandlerOut.flush?, signal] at silent
  | some p =>
    obtain ⟨st, signal⟩ := flushOf_some found
    cases handler_signals signal with
    | flush m works' =>
      obtain rfl := works.unique works'
      rfl

theorem flushOf_of_not_flushes {s : State} (h : ¬ s.Flushes) : flushOf (evaluate s) = none := by
  cases found : flushOf (evaluate s) with
  | none => rfl
  | some p =>
    obtain ⟨st, signal⟩ := flushOf_some found
    cases handler_signals signal with
    | flush l works branch test =>
      obtain ⟨here, work⟩ := works
      exact absurd ⟨l, here, work, branch, test⟩ h

/-- A cycle that completes meets no abort (R92). -/
theorem abortOf_of_completes {s : State} (completes : s.CycleCompletes) : abortOf (evaluate s) = none := by
  rcases cycle_cases s with ⟨r, _, aborted⟩ | ⟨none, _⟩
  · exact absurd (congrArg State.status aborted) (completes r)
  · exact none

theorem abort?_rt (s : State) : (handler .rt s).abort?.isNone = true := by
  refine abort?_isNone fun r signals => ?_
  cases signals
  contradiction

theorem abort?_wb (s : State) : (handler .wb s).abort?.isNone = true := by
  refine abort?_isNone fun r signals => ?_
  cases signals
  contradiction

/-- Retire's writes always take effect: nothing is evaluated before it, and it never aborts (R76). -/
theorem rt_mem_effective (s : State) : .rt ∈ s.effective := by
  unfold State.effective
  split
  · simp [evalOrder, abort?_rt]
  · decide
  · decide

/-- The writes of the stages behind issue take effect in every cycle without abort. -/
theorem back_mem_effective {s : State} (completes : s.CycleCompletes) {st : Stage} (back : isFront st = false) :
    st ∈ s.effective := by
  unfold State.effective
  rw [abortOf_of_completes completes]
  cases flushOf (evaluate s) with
  | none => exact mem_evalOrder st
  | some p => exact List.mem_filter.mpr ⟨mem_evalOrder st, by simp [back]⟩

theorem mem_effective_of_not_flushes {s : State} (completes : s.CycleCompletes) (noFlush : ¬ s.Flushes) (st : Stage) :
    st ∈ s.effective := by
  unfold State.effective
  rw [abortOf_of_completes completes, flushOf_of_not_flushes noFlush]
  exact mem_evalOrder st

/-- A flush discards the front stages' writes (R79). -/
theorem not_front_of_flushes {s : State} (completes : s.CycleCompletes) (flushes : s.Flushes) {st : Stage}
    (h : st ∈ s.effective) : isFront st = false := by
  obtain ⟨l, here, work, _⟩ := id flushes
  unfold State.effective at h
  rw [abortOf_of_completes completes, flushOf_of_flushes ⟨here, work⟩ flushes] at h
  simpa using (List.mem_filter.mp h).2

/-! ## What the writes leave -/

theorem applyAll_writesOf_induct {s : State} {P : State → Prop} {stages : List Stage}
    (step : ∀ st ∈ stages, ∀ w, Answers s st w → ∀ t, P t → P (t.apply w)) {t : State} (start : P t) :
    P (t.applyAll (s.writesOf stages)) := by
  refine State.applyAll_induct start fun w hw => ?_
  obtain ⟨st, hst, hw⟩ := List.mem_flatMap.mp hw
  exact step st hst w (handler_answers st s w hw)

/-- What every answered write keeps holds once the writes are applied. -/
theorem written_induct {s : State} {P : State → Prop} (start : P s)
    (step : ∀ st ∈ s.effective, ∀ w, Answers s st w → ∀ t, P t → P (t.apply w)) : P s.written :=
  applyAll_writesOf_induct step start

/-- What one stage's writes establish and no other stage's writes disturb holds once the writes are applied. -/
theorem written_of_owner {s : State} {P Q : State → Prop} {st : Stage} (takesEffect : st ∈ s.effective) (start : P s)
    (before : ∀ a, a ≠ st → ∀ w, Answers s a w → ∀ t, P t → P (t.apply w))
    (own : ∀ t, P t → Q (t.applyAll (handler st s).writes))
    (after : ∀ a, a ≠ st → ∀ w, Answers s a w → ∀ t, Q t → Q (t.apply w)) : Q s.written := by
  obtain ⟨earlier, later, split⟩ := List.append_of_mem takesEffect
  have once := effective_nodup s
  rw [split, List.nodup_append] at once
  obtain ⟨_, laterOnce, apart⟩ := once
  have earlierOther : ∀ a ∈ earlier, a ≠ st := fun a ha => apart a ha st List.mem_cons_self
  have laterOther : ∀ a ∈ later, a ≠ st := fun a ha e => (List.nodup_cons.mp laterOnce).1 (e ▸ ha)
  have applied : s.written =
      ((s.applyAll (s.writesOf earlier)).applyAll (handler st s).writes).applyAll (s.writesOf later) := by
    simp only [State.written, split, State.writesOf, List.flatMap_append, List.flatMap_cons, State.applyAll_append]
  rw [applied]
  refine applyAll_writesOf_induct (fun a ha => after a (laterOther a ha)) (own _ ?_)
  exact applyAll_writesOf_induct (fun a ha => before a (earlierOther a ha)) start

/-- A write to another stage's latch leaves a latch alone. -/
theorem latch_apply_of_ne {s : State} {a st : Stage} (other : a ≠ st) {w : Write} (h : Answers s a w) (t : State) :
    (t.apply w).latch st = t.latch st := by
  cases h with
  | latch _ k => exact State.latch_setLatch_ne t (some k) other.symm
  | _ => rfl

theorem latch_applyAll_of_notMem {ws : List Write} {st : Stage} (h : ∀ k, .latch st k ∉ ws) (t : State) :
    (t.applyAll ws).latch st = t.latch st := by
  refine State.applyAll_induct (P := fun u => u.latch st = t.latch st) rfl fun w hw u hu => ?_
  cases w with
  | latch a k =>
    have other : st ≠ a := fun e => h k (e ▸ hw)
    exact (State.latch_setLatch_ne u (some k) other).trans hu
  | _ => exact hu

/-- The latch a handler leaves: the one record it writes there. -/
theorem latch_applyAll_cons {ws : List Write} {st : Stage} {k : Latch} (only : ∀ j, .latch st j ∉ ws) (t : State) :
    (t.applyAll (.latch st k :: ws)).latch st = some k :=
  (latch_applyAll_of_notMem only _).trans (State.latch_setLatch_same t st (some k))

/-- A latch after the writes: what its own handler leaves there. -/
theorem latch_written {s : State} {st : Stage} (takesEffect : st ∈ s.effective) {x : Option Latch}
    (own : ∀ t : State, t.latch st = s.latch st → (t.applyAll (handler st s).writes).latch st = x) :
    s.written.latch st = x :=
  written_of_owner (P := fun t => t.latch st = s.latch st) (Q := fun t => t.latch st = x) takesEffect rfl
    (fun _ other _ h t ht => (latch_apply_of_ne other h t).trans ht) own
    (fun _ other _ h t ht => (latch_apply_of_ne other h t).trans ht)

/-- A latch whose handler takes no effect, or writes nothing, is as before. -/
theorem latch_written_of_not_effective {s : State} {st : Stage} (noEffect : st ∉ s.effective) :
    s.written.latch st = s.latch st :=
  written_induct (P := fun t => t.latch st = s.latch st) rfl fun _ ha _ h t ht =>
    (latch_apply_of_ne (ne_of_mem_of_not_mem ha noEffect) h t).trans ht

theorem latch_written_of_silent {s : State} {st : Stage} (silent : handler st s = {}) :
    s.written.latch st = s.latch st := by
  by_cases takesEffect : st ∈ s.effective
  · exact latch_written takesEffect fun t ht => by rw [silent]; exact ht
  · exact latch_written_of_not_effective takesEffect

/-! ## The cycle -/

theorem cycle_of_abort {s : State} {r : AbortReason} (h : abortOf (evaluate s) = some r) :
    cycle s = s.written.takeAbort r := by
  rw [← written_of_abort h]
  simp only [cycle, h]

theorem cycle_of_no_abort {s : State} (h : abortOf (evaluate s) = none) :
    cycle s = ((commitPhase (evaluate s) s).takeSnapshot.advance).endCycle (evaluate s) := by
  simp only [cycle, h]

theorem cycle_of_completes {s : State} (completes : s.CycleCompletes) :
    cycle s = ((commitPhase (evaluate s) s).takeSnapshot.advance).endCycle (evaluate s) :=
  cycle_of_no_abort (abortOf_of_completes completes)

/-- The state after the writes and the flush of a cycle without abort, before its wake-up. -/
def State.settled (s : State) : State :=
  match flushOf (evaluate s) with
  | some p => s.written.flush p
  | none => s.written

theorem settled_of_not_flushes {s : State} (noFlush : ¬ s.Flushes) : s.settled = s.written := by
  simp only [State.settled, flushOf_of_not_flushes noFlush]

theorem settled_of_flushes {s : State} {l : Latch} (works : s.WorksOn .exb l) (flushes : s.Flushes) :
    s.settled = s.written.flush (branchNext (cond l.op l.v1) l.idx l.imm) := by
  simp only [State.settled, flushOf_of_flushes works flushes]

/-- What the settled state has and a wake-up keeps, the commit phase of a cycle without abort ends with. -/
theorem commitPhase_of_settled {s : State} (h : abortOf (evaluate s) = none) {P : State → Prop} (settled : P s.settled)
    (wakeUp : ∀ t id v, P t → P (t.wakeUp id v)) : P (commitPhase (evaluate s) s) := by
  unfold commitPhase
  rw [committedWrites_evaluate h]
  cases commitOf (evaluate s) with
  | none => exact settled
  | some c => exact wakeUp _ _ _ settled

/-- The wake-up reaches no latch but RR (R142). -/
theorem latch_wakeUp (s : State) (id : RobId) (v : Word) {st : Stage} (h : st ≠ .rr) :
    (s.wakeUp id v).latch st = s.latch st :=
  (PerStage.get_set s.latches .rr st _).trans (if_neg h)

theorem latch_flush (s : State) (p : Int) {st : Stage} (back : isFront st = false) :
    (s.flush p).latch st = s.latch st := by
  cases st with
  | f | d | oa | rr => cases back
  | _ => rfl

/-- Flush and wake-up leave the latches behind issue as their handlers do. -/
theorem latch_commitPhase {s : State} (completes : s.CycleCompletes) {st : Stage} (back : isFront st = false) :
    (commitPhase (evaluate s) s).latch st = s.written.latch st := by
  have notRR : st ≠ .rr := by
    rintro rfl
    cases back
  refine commitPhase_of_settled (P := fun t => t.latch st = s.written.latch st) (abortOf_of_completes completes) ?_
    fun t id v ht => (latch_wakeUp t id v notRR).trans ht
  unfold State.settled
  split
  · exact latch_flush _ _ back
  · rfl

/-- The advance pass changes only latches and the RS. -/
theorem advance_frame (s : State) :
    ∃ latches rs rsHead rsTail,
      s.advance = { s with latches := latches, rs := rs, rsHead := rsHead, rsTail := rsTail } := by
  refine State.advance_induct (P := fun t => ∃ latches rs rsHead rsTail,
    t = { s with latches := latches, rs := rs, rsHead := rsHead, rsTail := rsTail }) ?_ ?_ ?_ ⟨_, _, _, _, rfl⟩
  · rintro t st l ⟨_, _, _, _, rfl⟩
    exact ⟨_, _, _, _, rfl⟩
  · rintro t ⟨_, _, _, _, rfl⟩
    exact ⟨_, _, _, _, rfl⟩
  · rintro t l ⟨_, _, _, _, rfl⟩
    exact ⟨_, _, _, _, rfl⟩

/-- A completed cycle after its commit phase: latches and the RS advance, and the cycle is counted. -/
theorem cycle_frame_of_completes {s : State} (completes : s.CycleCompletes) :
    ∃ latches rs rsHead rsTail fwd status snapshot,
      cycle s =
        { commitPhase (evaluate s) s with
          latches := latches, rs := rs, rsHead := rsHead, rsTail := rsTail, fwd := fwd, status := status
          cycles := (commitPhase (evaluate s) s).cycles + 1, snapshot := snapshot } := by
  obtain ⟨_, _, _, _, advanced⟩ := advance_frame (commitPhase (evaluate s) s).takeSnapshot
  rw [cycle_of_completes completes, advanced]
  exact ⟨_, _, _, _, _, _, _, rfl⟩

theorem commitPhase_frame {s : State} (h : abortOf (evaluate s) = none) :
    ∃ latches pc fetchHalt rs,
      commitPhase (evaluate s) s =
        { s.written with latches := latches, pc := pc, fetchHalt := fetchHalt, rs := rs } := by
  refine commitPhase_of_settled (P := fun t => ∃ latches pc fetchHalt rs,
    t = { s.written with latches := latches, pc := pc, fetchHalt := fetchHalt, rs := rs }) h ?_ ?_
  · unfold State.settled
    split <;> exact ⟨_, _, _, _, rfl⟩
  · rintro t id v ⟨_, _, _, _, rfl⟩
    exact ⟨_, _, _, _, rfl⟩

/-- Every cycle, cut short or not, has the registers, memory, predictor, ROB and counters that the effective writes
leave. -/
theorem cycle_frame (s : State) :
    ∃ latches pc fetchHalt rs rsHead rsTail fwd cycles status snapshot,
      cycle s =
        { s.written with
          latches := latches, pc := pc, fetchHalt := fetchHalt, rs := rs, rsHead := rsHead, rsTail := rsTail
          fwd := fwd, cycles := cycles, status := status, snapshot := snapshot } := by
  cases h : abortOf (evaluate s) with
  | some r => exact ⟨_, _, _, _, _, _, _, _, _, _, cycle_of_abort h⟩
  | none =>
    obtain ⟨_, _, _, _, committed⟩ := commitPhase_frame h
    obtain ⟨_, _, _, _, advanced⟩ := advance_frame (commitPhase (evaluate s) s).takeSnapshot
    rw [cycle_of_no_abort h, advanced, committed]
    exact ⟨_, _, _, _, _, _, _, _, _, _, rfl⟩

end Sys2Proof.Machine
end

section
/-! SUPPORT. The step that runs a placed word, the run that hangs (R95), the end of a cycle (R90 to R92), and what
Retire writes (R88). -/

namespace Sys2Proof.Machine

/-! ## The placed word (log entry 4) -/

theorem placeWord_getElem? (it : List Packed) (p : Nat) (w : Packed) : (placeWord it p w)[p]? = some w := by
  unfold placeWord
  split
  · rename_i inside
    rw [List.getElem?_set_self inside]
  · rename_i outside
    have filled : (it ++ List.replicate (p - it.length) (0 : Packed)).length = p := by
      rw [List.length_append, List.length_replicate]
      omega
    rw [List.getElem?_append_right (by rw [filled]), filled, Nat.sub_self]
    rfl

theorem idle_emptied (s : State) : s.emptied.idle = true := by
  unfold State.emptied
  split
  · assumption
  · simp [State.idle, State.latchesFree, State.channelsFree, State.registersFree]

/-- Settles O7: placing empties the pipeline and puts the word where Fetch reads. -/
theorem placedWordRunsNext : Obligations.PlacedWordRunsNext := by
  intro s w i decodes
  have word : BitVec.ofNat 64 (w.toNat % 2 ^ 64) = w := by
    rw [Nat.mod_eq_of_lt w.isLt, BitVec.ofNat_toNat, BitVec.setWidth_eq]
  have placed : s.withFetchWord 64 w.toNat = s.withWord w := congrArg s.withWord word
  rw [placed]
  refine step_of_wholeInstr rfl rfl (wholeInstr_of_decode (w := w) (idle_emptied s) rfl ?_ ?_ decodes)
  · exact Int.natCast_nonneg _
  · exact placeWord_getElem? s.it s.pc.toNat w

/-! ## A run that hangs (R95) -/

theorem State.Hung.vacant {s : State} (h : s.Hung) : s.Vacant where
  running := h.running
  latches := h.latches
  noFetch := by
    rcases h.fetch with halted | outside
    · simp [State.fetchRecord, halted]
    · exact fetchRecord_of_outside outside
  noCommit := committing_of_empty h.rob
  noWait := h.rs

/-- With nothing occupied and nothing to fetch, no handler answers anything. -/
theorem State.Vacant.silent {u : State} (v : u.Vacant) (st : Stage) : handler st u = {} := by
  have free := State.latch_of_free v.latches st
  by_cases retire : st = .rt
  · subst retire
    exact (handleRT_of_noCommit v.noCommit).trans (retireLatch_free free)
  · exact handler_free free (fun _ => v.noFetch) retire

theorem State.Vacant.advance_eq {u : State} (v : u.Vacant) : u.advance = u := by
  have free := State.latch_of_free v.latches
  simp [State.advance, State.leaveRT_of_free, State.move_of_free, State.arbitrate_of_free,
    State.dispatchRs_of_empty v.noWait, State.leaveRR_of_free, free]

/-- A cycle of a vacant machine only passes the time. -/
theorem State.Vacant.cycle_eq {u : State} (v : u.Vacant) : cycle u = u.elapse 1 (PerStage.const none) noChannels := by
  have shown : u.takeSnapshot = { u with snapshot := PerStage.const none } := by
    simp only [State.takeSnapshot, v.latches]
    rfl
  have still : u.takeSnapshot.advance = u.takeSnapshot := by
    rw [shown]
    exact State.Vacant.advance_eq ⟨v.running, v.latches, v.noFetch, v.noCommit, v.noWait⟩
  have quiet : cycle u = u.takeSnapshot.advance.endCycle [(.f, {})] := by
    rw [cycle_of_lone .f fun other _ => v.silent other, v.silent .f]
    rfl
  rw [quiet, still, shown]
  rfl

theorem State.Hung.elapse {s : State} (h : s.Hung) (n : Nat) (shown : PerStage (Option Nat)) (c : Channels) :
    (s.elapse n shown c).Hung :=
  ⟨h.running, h.latches, h.rob, h.rs, h.fetch⟩

/-- Settles O46: every cycle of a hung machine passes the time and leaves it hung. -/
theorem hungRunNeverEnds : Obligations.HungRunNeverEnds := by
  intro s n hung
  induction n generalizing s with
  | zero => exact ⟨hung.running, rfl, rfl, rfl, rfl, rfl⟩
  | succ n ih =>
    obtain ⟨running, counted, regs, mem, pc, retired⟩ := ih _ (hung.elapse 1 (PerStage.const none) noChannels)
    have one : cycles (n + 1) s = cycles n (s.elapse 1 (PerStage.const none) noChannels) := by
      rw [cycles, if_pos hung.running, hung.vacant.cycle_eq]
    rw [one]
    refine ⟨running, counted.trans ?_, regs, mem, pc, retired⟩
    show s.cycles + 1 + n = s.cycles + (n + 1)
    omega

/-! ## Status, cycles, channels and snapshot (R91, R92) -/

/-- No pending write is one to the status, the cycle count, the channels or the snapshot. -/
theorem written_clock (s : State) :
    s.written.status = s.status ∧ s.written.cycles = s.cycles ∧ s.written.fwd = s.fwd ∧
      s.written.snapshot = s.snapshot := by
  refine State.applyAll_induct (P := fun t => t.status = s.status ∧ t.cycles = s.cycles ∧ t.fwd = s.fwd ∧
    t.snapshot = s.snapshot) ⟨rfl, rfl, rfl, rfl⟩ ?_
  rintro w _ t ⟨status, cycles, fwd, snapshot⟩
  exact ⟨(t.apply_status w).trans status, (t.apply_cycles w).trans cycles, (t.apply_fwd w).trans fwd,
    (t.apply_snapshot w).trans snapshot⟩

/-- A cycle without abort counts itself, and halts exactly when a `ret` retires (R90, R91). -/
theorem cycle_end {s : State} (h : abortOf (evaluate s) = none) :
    (cycle s).cycles = s.cycles + 1 ∧
      (cycle s).status = if retiresRet (evaluate s) then .halted else s.status := by
  obtain ⟨status, cycles, _⟩ := written_clock s
  obtain ⟨_, _, _, _, committed⟩ := commitPhase_frame h
  obtain ⟨_, _, _, _, advanced⟩ := advance_frame (commitPhase (evaluate s) s).takeSnapshot
  rw [cycle_of_no_abort h, advanced, committed, ← cycles, ← status]
  exact ⟨rfl, rfl⟩

/-- A running machine's cycle that does not complete meets an abort. -/
theorem abortOf_of_not_completes {s : State} (running : s.status = .running) (cut : ¬ s.CycleCompletes) :
    ∃ r, abortOf (evaluate s) = some r := by
  cases h : abortOf (evaluate s) with
  | some r => exact ⟨r, rfl⟩
  | none =>
    refine absurd (fun r aborted => ?_) cut
    obtain ⟨_, status⟩ := cycle_end h
    rw [status, running] at aborted
    split at aborted <;> cases aborted

theorem retiresRet_some {s : State} (h : retiresRet (evaluate s) = true) : ∃ l, s.WorksOn .rt l ∧ l.op = .ret := by
  obtain ⟨o, ho, signal⟩ := List.any_eq_true.mp h
  obtain ⟨st, _, rfl⟩ := List.mem_map.mp ho
  cases handler_signals (of_decide_eq_true signal) with
  | retireRet l works ret => exact ⟨l, works, ret⟩

/-- Of all meanings only that of `ret` halts (R90, R188). -/
theorem ret_of_exec_halts {s t : State} {i : Instr} (running : s.status = .running) (runs : exec i s = .next t)
    (halted : t.status = .halted) : i = .ret := by
  have kept : s.status ≠ .halted := by
    rw [running]
    decide
  rcases exec_shape i s with
    ⟨d, result, _, _, arith⟩ | ⟨d, _, _, load⟩ | ⟨_, store⟩ | ⟨r, _, _, branch⟩ | ⟨ret, _⟩
  · rcases State.arith_cases (arith ▸ runs) with ⟨_, rfl⟩ | ⟨_, ⟨v, _, rfl⟩ | ⟨e, _, rfl⟩⟩
    · cases halted
    · exact absurd halted kept
    · unfold State.abortDivide at halted
      split at halted <;> cases halted
  · rcases State.load_cases (load ▸ runs) with ⟨_, rfl⟩ | ⟨_, ⟨_, rfl⟩ | ⟨_, rfl⟩⟩
    · cases halted
    · exact absurd halted kept
    · cases halted
  · rcases State.store_cases (store ▸ runs) with ⟨_, rfl⟩ | ⟨_, ⟨_, rfl⟩ | ⟨_, rfl⟩⟩
    · cases halted
    · exact absurd halted kept
    · cases halted
  · rcases State.branch_cases (branch ▸ runs) with ⟨_, rfl⟩ | ⟨_, rfl⟩
    · cases halted
    · exact absurd halted kept
  · exact ret

/-- Settles O44: a cycle halts by the signal of a `ret` in RT, a whole instruction by being `ret`. -/
theorem onlyRetHalts : Obligations.OnlyRetHalts := by
  intro s t next halted
  obtain ⟨running, ⟨_, rfl⟩ | ⟨i, grain, whole, runs⟩⟩ := step_cases next
  · cases h : abortOf (evaluate s) with
    | some r =>
      rw [cycle_of_abort h] at halted
      cases halted
    | none =>
      obtain ⟨_, status⟩ := cycle_end h
      rw [status, running] at halted
      split at halted
      · rename_i retires
        exact .inl (retiresRet_some retires)
      · cases halted
  · exact .inr ⟨grain, ret_of_exec_halts running runs halted ▸ whole⟩

/-! ## Retire (R88) -/

/-- What Retire writes for an occupant: the count, its own latch, and then neither again. -/
theorem handler_rt_of_works {s : State} {l : Latch} (works : s.WorksOn .rt l) :
    ∃ ws, (handler .rt s).writes = .retire :: .latch .rt { l with done := true } :: ws ∧ .retire ∉ ws ∧
      ∀ k, .latch .rt k ∉ ws := by
  obtain ⟨here, work⟩ := works
  have own : (retireLatch s).writes = .retire :: .latch .rt { l with done := true } :: retireWrites s l := by
    simp [retireLatch, here, work]
  have value : .retire ∉ retireWrites s l ∧ ∀ k, .latch .rt k ∉ retireWrites s l := by
    rcases retireWrites_cases s l with h | ⟨d, _, _, h⟩ <;> simp [h]
  obtain ⟨noCount, noLatch⟩ := value
  rcases handleRT_cases s with ⟨_, h⟩ | ⟨e, _, h⟩
  · exact ⟨retireWrites s l, by rw [handler, h, own], noCount, noLatch⟩
  · refine ⟨retireWrites s l ++ commitWrites s e, by rw [handler, h, own]; rfl, ?_⟩
    rcases commitWrites_cases s e with ⟨_, h⟩ | ⟨_, h⟩ <;> simp [h, noCount, noLatch]

theorem apply_retired {t : State} {w : Write} (h : w ≠ .retire) : (t.apply w).retired = t.retired := by
  cases w with
  | retire => exact absurd rfl h
  | _ => rfl

theorem retired_of_works {s : State} {l : Latch} (works : s.WorksOn .rt l) :
    s.written.retired = s.retired + 1 := by
  obtain ⟨ws, writes, once, _⟩ := handler_rt_of_works works
  have others : ∀ n a, a ≠ Stage.rt → ∀ w, Answers s a w → ∀ t : State, t.retired = n → (t.apply w).retired = n := by
    intro n a other w h t ht
    refine (apply_retired ?_).trans ht
    rintro rfl
    cases h
    exact other rfl
  refine written_of_owner (P := fun t => t.retired = s.retired) (Q := fun t => t.retired = s.retired + 1)
    (rt_mem_effective s) rfl (others _) (fun t ht => ?_) (others _)
  rw [writes, ← ht, State.applyAll_cons, State.applyAll_cons]
  exact State.applyAll_induct (P := fun u => u.retired = t.retired + 1) rfl fun w hw u hu =>
    (apply_retired (ne_of_mem_of_not_mem hw once)).trans hu

theorem retired_of_free {s : State} (free : ¬ ∃ l, s.WorksOn .rt l) : s.written.retired = s.retired := by
  refine written_induct (P := fun t => t.retired = s.retired) rfl fun st _ w h t ht => (apply_retired ?_).trans ht
  rintro rfl
  cases h with
  | retire l works => exact free ⟨l, works⟩

/-- Settles O42: `retired` moves by Retire's own write, the others by the end of the cycle. -/
theorem cycleMovesItsCounters : Obligations.CycleMovesItsCounters := by
  intro s running
  obtain ⟨_, _, _, _, _, _, _, _, _, _, frame⟩ := cycle_frame s
  have retired : (cycle s).retired = s.written.retired := by rw [frame]
  refine ⟨fun ⟨l, works⟩ => ?_, fun free => ?_, fun completes => ?_, fun cut => ?_⟩
  · rw [retired, retired_of_works works]
  · rw [retired, retired_of_free free]
  · obtain ⟨counted, _⟩ := cycle_end (abortOf_of_completes completes)
    exact counted
  · obtain ⟨r, aborts⟩ := abortOf_of_not_completes running cut
    obtain ⟨_, cycles, fwd, snapshot⟩ := written_clock s
    rw [cycle_of_abort aborts]
    exact ⟨cycles, fwd, snapshot⟩

/-- Settles O37: Retire writes value and ready flag, no other stage of the in-order build writes a value, and issue
marks only ready registers busy. -/
theorem inOrderRetireWritesBack : Obligations.InOrderRetireWritesBack := by
  intro s l d build works dest
  obtain ⟨_, _, _, _, _, _, _, _, _, _, frame⟩ := cycle_frame s
  have noCommit : s.committing = none := by simp [State.committing, build]
  have writes : (handler .rt s).writes =
      [.retire, .latch .rt { l with done := true }, .regValue d l.result, .regReady d true] := by
    obtain ⟨here, work⟩ := works
    simp [handler, handleRT, noCommit, retireLatch, here, work, retireWrites, build, dest]
  have back : s.written.x d = l.result ∧ (s.ready d = false → s.written.ready d = true) := by
    refine written_of_owner (P := fun _ => True)
      (Q := fun t => t.x d = l.result ∧ (s.ready d = false → t.ready d = true)) (rt_mem_effective s) trivial
      (fun _ _ _ _ _ _ => trivial) (fun t _ => ?_) ?_
    · rw [writes]
      simp [State.apply, State.x_setValue, State.ready_setReady]
    · rintro a other w h t ⟨value, ready⟩
      cases h with
      | busy q free =>
        refine ⟨(State.x_setReady t q d false).trans value, fun busy => ?_⟩
        have apart : d ≠ q := by
          rintro rfl
          cases busy.symm.trans (free build)
        rw [State.apply, State.ready_setReady, if_neg apart]
        exact ready busy
      | rename q id =>
        exact ⟨(State.x_setTag t q d _).trans value, fun busy => (State.ready_setTag t q d _).trans (ready busy)⟩
      | value | release | untag => exact absurd rfl other
      | _ => exact ⟨value, ready⟩
  rw [frame]
  exact back

end Sys2Proof.Machine
end

section
/-! SUPPORT. What the advance pass does to one latch (R80 to R83), and Writeback arbitration (R81). -/

namespace Sys2Proof.Machine

/-! ## A latch through the steps of the advance pass -/

/-- A move leaves every other latch alone, and an occupied one also at its destination. -/
theorem State.latch_move_kept {s : State} {src dst a : Stage} (leaves : a ≠ src) (enters : a = dst → s.latch a ≠ none) :
    (s.move src dst).latch a = s.latch a := by
  rcases s.move_cases src dst with e | ⟨l, _, free, _, e⟩ <;> rw [e]
  have other : a ≠ dst := fun h => enters h (h ▸ free)
  rw [State.latch_setLatch_ne _ _ leaves, State.latch_setLatch_ne _ _ other]

/-- A done occupant, or none, leaves its stage free when the next one is. -/
theorem State.latch_move_vacates {s : State} {src dst : Stage} (free : s.latch dst = none)
    (done : ∀ l, s.latch src = some l → l.done = true) : (s.move src dst).latch src = none := by
  cases here : s.latch src with
  | none => rw [State.move_of_free here, here]
  | some l => simp [State.move, here, free, done l here]

theorem State.latch_leaveRT_of_ne {s : State} {a : Stage} (h : a ≠ .rt) : s.leaveRT.latch a = s.latch a := by
  rcases s.leaveRT_cases with e | e <;> rw [e]
  exact State.latch_setLatch_ne _ _ h

theorem State.latch_leaveRT_rt {s : State} (done : ∀ l, s.latch .rt = some l → l.done = true) :
    s.leaveRT.latch .rt = none := by
  unfold State.leaveRT
  cases here : s.latch .rt with
  | none => exact here
  | some l => simp [done l here]

theorem State.latch_dispatchRs_kept {s : State} {a : Stage} (enters : ∀ u, a = unitStage u → s.latch a ≠ none) :
    s.dispatchRs.latch a = s.latch a := by
  rcases s.dispatchRs_cases with e | ⟨k, u, _, _, _, _, _, free, e⟩ <;> rw [e]
  have other : a ≠ unitStage u := fun h => enters u h (h ▸ free)
  exact State.latch_setLatch_ne _ _ other

theorem State.latch_leaveRR_kept {s : State} {a : Stage} (leaves : a ≠ .rr)
    (enters : ∀ u, a = unitStage u → s.latch a ≠ none) : s.leaveRR.latch a = s.latch a := by
  rcases s.leaveRR_cases with e | ⟨l, _, _, ⟨_, _, e⟩ | ⟨_, u, _, e⟩⟩ <;> rw [e]
  · exact State.latch_setLatch_ne _ _ leaves
  · exact State.latch_move_kept leaves (enters u)

/-! ## Writeback arbitration (R81) -/

/-- `found` is the oldest candidate among the stages `seen`, or none when none of them is a candidate. -/
def State.OldestOf (s : State) (seen : List Stage) : Option (Stage × Nat) → Prop
  | none => ∀ st ∈ seen, s.candidateSeq st = none
  | some (st, n) => st ∈ seen ∧ s.candidateSeq st = some n ∧ ∀ a ∈ seen, ∀ m, s.candidateSeq a = some m → n ≤ m

/-- One more stage keeps the candidate found so far the oldest. -/
theorem State.OldestOf.next {s : State} {seen : List Stage} {found : Option (Stage × Nat)} (h : s.OldestOf seen found)
    (st : Stage) : s.OldestOf (seen ++ [st]) (olderCandidate s found st) := by
  unfold olderCandidate
  cases seq : s.candidateSeq st with
  | none =>
    cases found with
    | none => exact List.forall_mem_append.mpr ⟨h, List.forall_mem_singleton.mpr seq⟩
    | some f =>
      obtain ⟨mem, own, older⟩ := h
      refine ⟨List.mem_append_left _ mem, own, List.forall_mem_append.mpr ⟨older, ?_⟩⟩
      exact List.forall_mem_singleton.mpr fun m hm => by cases seq.symm.trans hm
  | some n =>
    have last : ∀ k, k ≤ n → ∀ a ∈ [st], ∀ m, s.candidateSeq a = some m → k ≤ m := fun k hk =>
      List.forall_mem_singleton.mpr fun m hm => Option.some.inj (seq.symm.trans hm) ▸ hk
    cases found with
    | none =>
      refine ⟨by simp, seq, List.forall_mem_append.mpr ⟨fun a ha m hm => ?_, last n le_rfl⟩⟩
      cases (h a ha).symm.trans hm
    | some f =>
      obtain ⟨b, m⟩ := f
      obtain ⟨mem, own, older⟩ := h
      dsimp only
      split
      · rename_i younger
        have oldest : ∀ a ∈ seen, ∀ k, s.candidateSeq a = some k → n ≤ k := fun a ha k hk =>
          (Nat.le_of_lt younger).trans (older a ha k hk)
        exact ⟨by simp, seq, List.forall_mem_append.mpr ⟨oldest, last n le_rfl⟩⟩
      · rename_i noYounger
        exact ⟨List.mem_append_left _ mem, own,
          List.forall_mem_append.mpr ⟨older, last m (Nat.le_of_not_lt noYounger)⟩⟩

theorem State.oldestOf_foldl (s : State) (rest seen : List Stage) (found : Option (Stage × Nat))
    (h : s.OldestOf seen found) : s.OldestOf (seen ++ rest) (rest.foldl (olderCandidate s) found) := by
  induction rest generalizing seen found with
  | nil => simpa using h
  | cons st rest ih => simpa using ih (seen ++ [st]) _ (h.next st)

theorem State.oldestOf_feeders (s : State) : s.OldestOf wbFeeders (wbFeeders.foldl (olderCandidate s) none) :=
  s.oldestOf_foldl wbFeeders [] none (fun _ h => absurd h List.not_mem_nil)

/-- The chosen feeder is a candidate and no candidate is older. -/
theorem State.oldestFeeder_some {s : State} {st : Stage} (h : s.oldestFeeder = some st) :
    st ∈ wbFeeders ∧ ∃ n, s.candidateSeq st = some n ∧
      ∀ other ∈ wbFeeders, ∀ m, s.candidateSeq other = some m → n ≤ m := by
  obtain ⟨⟨a, n⟩, found, rfl⟩ := Option.map_eq_some_iff.mp h
  have oldest := s.oldestOf_feeders
  rw [found] at oldest
  obtain ⟨mem, own, older⟩ := oldest
  exact ⟨mem, n, own, older⟩

theorem State.oldestFeeder_none {s : State} (h : s.oldestFeeder = none) :
    ∀ st ∈ wbFeeders, s.candidateSeq st = none := by
  have oldest := s.oldestOf_feeders
  rw [Option.map_eq_none_iff.mp h] at oldest
  exact oldest

theorem State.candidateSeq_some {s : State} {st : Stage} {n : Nat} (h : s.candidateSeq st = some n) :
    ∃ l, s.latch st = some l ∧ l.done = true ∧ l.seq = n := by
  unfold State.candidateSeq at h
  split at h
  · rename_i l here
    split at h
    · rename_i done
      exact ⟨l, here, done, Option.some.inj h⟩
    · cases h
  · cases h

theorem State.candidateSeq_of_done {s : State} {st : Stage} {l : Latch} (here : s.latch st = some l)
    (done : l.done = true) : s.candidateSeq st = some l.seq := by
  simp [State.candidateSeq, here, done]

theorem ne_wb_of_feeder {st : Stage} (feeder : st ∈ wbFeeders) : st ≠ .wb := by
  rintro rfl
  simp [wbFeeders] at feeder

theorem back_of_feeder {st : Stage} (feeder : st ∈ wbFeeders) : isFront st = false := by
  cases st with
  | f | d | oa | rr => exact absurd feeder (by decide)
  | _ => rfl

theorem State.arbitrate_of_some {s : State} {st : Stage} (h : s.oldestFeeder = some st) :
    s.arbitrate = s.move st .wb := by
  simp only [State.arbitrate, h]

/-- The chosen occupant enters a free Writeback, and nothing else moves. -/
theorem State.arbitrate_moves {s : State} {st : Stage} {l : Latch} (free : s.latch .wb = none)
    (chosen : s.oldestFeeder = some st) (here : s.latch st = some l) :
    s.arbitrate = (s.setLatch .wb (some { l with done := false })).setLatch st none := by
  obtain ⟨_, n, candidate, _⟩ := State.oldestFeeder_some chosen
  obtain ⟨k, here', done, _⟩ := State.candidateSeq_some candidate
  obtain rfl : l = k := Option.some.inj (here.symm.trans here')
  simp [State.arbitrate_of_some chosen, State.move, here, free, done]

section
variable {s : State} {st : Stage} {l : Latch}

theorem State.latch_arbitrate_wb (free : s.latch .wb = none) (chosen : s.oldestFeeder = some st)
    (here : s.latch st = some l) : s.arbitrate.latch .wb = some { l with done := false } := by
  obtain ⟨feeder, _⟩ := State.oldestFeeder_some chosen
  rw [State.arbitrate_moves free chosen here, State.latch_setLatch_ne _ _ (ne_wb_of_feeder feeder).symm,
    State.latch_setLatch_same]

theorem State.latch_arbitrate_chosen (free : s.latch .wb = none) (chosen : s.oldestFeeder = some st)
    (here : s.latch st = some l) : s.arbitrate.latch st = none := by
  rw [State.arbitrate_moves free chosen here, State.latch_setLatch_same]

theorem State.latch_arbitrate_other (chosen : s.oldestFeeder = some st) {a : Stage} (notWb : a ≠ .wb)
    (notChosen : a ≠ st) : s.arbitrate.latch a = s.latch a := by
  rw [State.arbitrate_of_some chosen]
  exact State.latch_move_kept notChosen fun h => absurd h notWb

end

theorem State.arbitrate_of_occupied {s : State} (occupied : s.latch .wb ≠ none) : s.arbitrate = s := by
  rcases s.arbitrate_cases with e | ⟨st, e⟩ <;> rw [e]
  rcases s.move_cases st .wb with e | ⟨_, _, free, _, _⟩
  · exact e
  · exact absurd free occupied

/-- Arbitration leaves alone a latch that is no feeder and not Writeback. -/
theorem State.latch_arbitrate_of_ne {s : State} {a : Stage} (notFeeder : a ∉ wbFeeders) (notWb : a ≠ .wb) :
    s.arbitrate.latch a = s.latch a := by
  cases chosen : s.oldestFeeder with
  | none => simp only [State.arbitrate, chosen]
  | some st =>
    obtain ⟨feeder, _⟩ := State.oldestFeeder_some chosen
    exact State.latch_arbitrate_other chosen notWb fun h => notFeeder (h ▸ feeder)

/-! ## The advance pass in parts -/

/-- Steps 1 and 2 of the advance pass: Retire and Writeback make room. -/
def State.makeRoom (s : State) : State :=
  s.leaveRT.move .wb .rt

/-- Steps 1 to 5 of the advance pass: everything behind issue. -/
def State.advanceBack (s : State) : State :=
  (s.makeRoom.arbitrate.move .m1 .m2).dispatchRs

theorem State.advance_eq_front (s : State) :
    s.advance = ((s.advanceBack.leaveRR.move .oa .rr).move .d .oa).move .f .d := rfl

theorem State.latch_makeRoom_of_ne {s : State} {a : Stage} (notRt : a ≠ .rt) (notWb : a ≠ .wb) :
    s.makeRoom.latch a = s.latch a :=
  (State.latch_move_kept notWb fun h => absurd h notRt).trans (State.latch_leaveRT_of_ne notRt)

/-- Once both have finished, Writeback is free for the arbitration. -/
theorem State.latch_makeRoom_wb {s : State} (wb : ∀ l, s.latch .wb = some l → l.done = true)
    (rt : ∀ l, s.latch .rt = some l → l.done = true) : s.makeRoom.latch .wb = none := by
  refine State.latch_move_vacates (State.latch_leaveRT_rt rt) fun l here => wb l ?_
  rwa [State.latch_leaveRT_of_ne (by decide)] at here

/-- Behind issue the advance pass touches no front latch. -/
theorem State.latch_advanceBack_front {s : State} {a : Stage} (front : isFront a = true) :
    s.advanceBack.latch a = s.latch a := by
  have apart : ∀ b, isFront b = false → a ≠ b := by
    rintro b back rfl
    cases front.symm.trans back
  have notFeeder : a ∉ wbFeeders := by
    cases a with
    | f | d | oa | rr => decide
    | _ => cases front
  have notUnit : ∀ u, a = unitStage u → (s.makeRoom.arbitrate.move .m1 .m2).latch a ≠ none := by
    intro u h
    cases u <;> exact absurd h (apart _ rfl)
  rw [State.advanceBack, State.latch_dispatchRs_kept notUnit,
    State.latch_move_kept (apart .m1 rfl) fun h => absurd h (apart .m2 rfl),
    State.latch_arbitrate_of_ne notFeeder (apart .wb rfl), State.latch_makeRoom_of_ne (apart .rt rfl) (apart .wb rfl)]

/-- With the front latches free, the advance pass ends behind issue. -/
theorem State.advance_of_front_free {s : State} (free : ∀ a, isFront a = true → s.latch a = none) :
    s.advance = s.advanceBack := by
  have still : ∀ a, isFront a = true → s.advanceBack.latch a = none := fun a front =>
    (State.latch_advanceBack_front front).trans (free a front)
  rw [State.advance_eq_front, State.leaveRR_of_free (still .rr rfl), State.move_of_free (still .oa rfl),
    State.move_of_free (still .d rfl), State.move_of_free (still .f rfl)]

/-- What latch placement and RS dequeue keep, the advance pass behind issue keeps. -/
theorem State.advanceBack_induct {P : State → Prop} (latch : ∀ t st l, P t → P (t.setLatch st l))
    (dequeue : ∀ t, P t → P t.rsDequeue) {s : State} (h : P s) : P s.advanceBack := by
  have move : ∀ (t : State) (a b : Stage), P t → P (t.move a b) := by
    intro t a b ht
    rcases t.move_cases a b with e | ⟨_, _, _, _, e⟩ <;> rw [e]
    · exact ht
    · exact latch _ _ _ (latch _ _ _ ht)
  have left : P s.leaveRT := by
    rcases s.leaveRT_cases with e | e <;> rw [e]
    · exact h
    · exact latch _ _ _ h
  have arbitrated : P s.makeRoom.arbitrate := by
    rcases s.makeRoom.arbitrate_cases with e | ⟨st, e⟩ <;> rw [e]
    · exact move _ _ _ left
    · exact move _ _ _ (move _ _ _ left)
  unfold State.advanceBack
  rcases (s.makeRoom.arbitrate.move .m1 .m2).dispatchRs_cases with e | ⟨_, _, _, _, _, _, _, _, e⟩ <;> rw [e]
  · exact move _ _ _ arbitrated
  · exact dequeue _ (latch _ _ _ (move _ _ _ arbitrated))

/-- After arbitration nothing leaves a feeder or Writeback, and nothing enters Writeback or an occupied feeder. -/
theorem State.latch_advance_feeder {s : State} {a : Stage} (place : a ∈ wbFeeders ∨ a = .wb)
    (occupied : a ≠ .wb → s.makeRoom.arbitrate.latch a ≠ none) :
    s.advance.latch a = s.makeRoom.arbitrate.latch a := by
  have back : isFront a = false := place.elim back_of_feeder fun h => h ▸ rfl
  have apart : ∀ b, isFront b = true → a ≠ b := by
    rintro b front rfl
    cases back.symm.trans front
  have notM1 : a ≠ .m1 := by
    rintro rfl
    exact absurd place (by decide)
  have notWb : ∀ u, a = unitStage u → a ≠ .wb := by
    rintro u rfl
    cases u <;> decide
  have moved : (s.makeRoom.arbitrate.move .m1 .m2).latch a = s.makeRoom.arbitrate.latch a :=
    State.latch_move_kept notM1 fun h => occupied (by rw [h]; decide)
  have dispatched : s.advanceBack.latch a = s.makeRoom.arbitrate.latch a :=
    (State.latch_dispatchRs_kept fun u h => moved ▸ occupied (notWb u h)).trans moved
  have issued : s.advanceBack.leaveRR.latch a = s.makeRoom.arbitrate.latch a :=
    (State.latch_leaveRR_kept (apart .rr rfl) fun u h => dispatched ▸ occupied (notWb u h)).trans dispatched
  rw [State.advance_eq_front, State.latch_move_kept (apart .f rfl) fun h => absurd h (apart .d rfl),
    State.latch_move_kept (apart .d rfl) fun h => absurd h (apart .oa rfl),
    State.latch_move_kept (apart .oa rfl) fun h => absurd h (apart .rr rfl), issued]

end Sys2Proof.Machine
end

section
/-! SUPPORT. What a cycle without abort finishes and forwards: the occupants of the units, Writeback and Retire (R77,
R82), the oldest candidate's move into Writeback (R81), the forwarding channels (R107, R108); and the abort of a zero
divisor before everything behind it (R92, R195). -/

namespace Sys2Proof.Machine

/-! ## Occupants that are finished -/

/-- `k` is the record of the instruction of `l`, with which its stage has finished. -/
structure Latch.FinishedAs (l k : Latch) : Prop where
  idx : k.idx = l.idx
  seq : k.seq = l.seq
  op : k.op = l.op
  dest : k.dest = l.dest
  done : k.done = true

theorem latch_notMem_completion (s : State) (l : Latch) (v : Word) (st : Stage) (k : Latch) :
    .latch st k ∉ completion s l v := by
  rcases completion_cases s l v with h | ⟨_, _, h⟩ | ⟨_, h⟩ <;> simp [h]

theorem aluResult_isSome {op : Opcode} (unit : unitStage (unitOf op) ∈ [Stage.exa, .exm, .exd]) (a y : Word) :
    ∃ e, aluResult op a y = some e := by
  cases op with
  | ldI | ldR | stI | stR | bez | bgez | blez | bgtz | bltz | ret => exact absurd unit (by decide)
  | _ => exact ⟨_, rfl⟩

/-- Without an abort an arithmetic unit completes a result of its occupant (R155). -/
theorem handler_alu_of_works {s : State} (noAbort : abortOf (evaluate s) = none) {u : FuncUnit}
    (unit : unitStage u ∈ [Stage.exa, .exm, .exd]) {l : Latch} (works : s.WorksOn (unitStage u) l)
    (class_ : unitOf l.op = u) :
    ∃ v, aluResult l.op l.v1 l.secondOperand = some (.ok v) ∧
      handler (unitStage u) s =
        { writes := .latch (unitStage u) { l with result := v, done := true } :: completion s l v } := by
  obtain ⟨here, work⟩ := works
  obtain ⟨answer, _⟩ := handler_alu unit s
  obtain ⟨e, computed⟩ := aluResult_isSome (class_ ▸ unit) l.v1 l.secondOperand
  cases e with
  | ok v => exact ⟨v, computed, by simp [answer, handleAlu, here, work, computed]⟩
  | error r =>
    refine absurd ?_ (no_abort noAbort (unitStage u) r)
    simp [answer, handleAlu, here, work, computed]

/-- Without an abort M2 completes the word of a load's address (R173). -/
theorem handler_m2_of_load {s : State} (noAbort : abortOf (evaluate s) = none) {l : Latch} (works : s.WorksOn .m2 l)
    (load : isLoad l.op = true) :
    handler .m2 s =
      { writes := .latch .m2 { l with result := s.mem.readWord (widx l.addr), done := true } ::
          completion s l (s.mem.readWord (widx l.addr)) } := by
  obtain ⟨here, work⟩ := works
  cases inside : s.inRange l.addr with
  | true => simp [handler, handleM2, here, work, load, State.memRead, inside]
  | false =>
    refine absurd ?_ (no_abort noAbort .m2 .memoryOutOfRange)
    simp [handler, handleM2, here, work, load, State.memRead, inside]

theorem handler_m2_of_store {s : State} (noAbort : abortOf (evaluate s) = none) {l : Latch} (works : s.WorksOn .m2 l)
    (store : isStore l.op = true) :
    handler .m2 s = { writes := [.store l.addr l.v3, .latch .m2 { l with done := true }] } := by
  obtain ⟨here, work⟩ := works
  have notLoad := not_isLoad_of_isStore store
  cases inside : s.inRange l.addr with
  | true => simp [handler, handleM2, here, work, notLoad, store, inside]
  | false =>
    refine absurd ?_ (no_abort noAbort .m2 .memoryOutOfRange)
    simp [handler, handleM2, here, work, notLoad, store, inside]

theorem load_or_store {op : Opcode} (h : unitOf op = .m1) : isLoad op = true ∨ isStore op = true := by
  cases op with
  | ldI | ldR => exact .inl rfl
  | stI | stR => exact .inr rfl
  | _ => cases h

theorem branch_or_ret {op : Opcode} (h : unitOf op = .exb) : isBranch op = true ∨ op = .ret := by
  cases op with
  | bez | bgez | blez | bgtz | bltz => exact .inl rfl
  | ret => exact .inr rfl
  | _ => cases h

/-- Without an abort every feeder of Writeback finishes with an occupant of its class. -/
theorem handler_finishes {s : State} (noAbort : abortOf (evaluate s) = none) (classes : s.UnitClasses) {st : Stage}
    (feeder : st ∈ wbFeeders) {l : Latch} (works : s.WorksOn st l) :
    ∃ k, l.FinishedAs k ∧ ∀ t : State, (t.applyAll (handler st s).writes).latch st = some k := by
  obtain ⟨here, work⟩ := id works
  have alu : ∀ u, unitStage u ∈ [Stage.exa, .exm, .exd] → s.WorksOn (unitStage u) l → ∃ k, l.FinishedAs k ∧
      ∀ t : State, (t.applyAll (handler (unitStage u) s).writes).latch (unitStage u) = some k := by
    rintro u unit ⟨here, work⟩
    obtain ⟨v, _, answer⟩ := handler_alu_of_works noAbort unit ⟨here, work⟩ (classes.units u l here)
    rw [answer]
    exact ⟨{ l with result := v, done := true }, ⟨rfl, rfl, rfl, rfl, rfl⟩,
      latch_applyAll_cons (latch_notMem_completion s l v _)⟩
  simp only [wbFeeders, List.mem_cons, List.not_mem_nil, or_false] at feeder
  rcases feeder with rfl | rfl | rfl | rfl | rfl
  · exact alu .exa (by decide) works
  · exact alu .exm (by decide) works
  · exact alu .exd (by decide) works
  · rcases branch_or_ret (classes.units .exb l here) with branch | ret
    · rw [handler_exb_of_branch works branch]
      exact ⟨{ l with done := true }, ⟨rfl, rfl, rfl, rfl, rfl⟩, fun t => State.latch_setLatch_same _ .exb _⟩
    · have answer : handler .exb s = { writes := [.latch .exb { l with done := true }] } := by
        simp [handler, handleEXB, here, work, ret, isBranch]
      rw [answer]
      exact ⟨{ l with done := true }, ⟨rfl, rfl, rfl, rfl, rfl⟩, fun t => State.latch_setLatch_same t .exb _⟩
  · rcases load_or_store (classes.m2 l here) with load | store
    · rw [handler_m2_of_load noAbort works load]
      exact ⟨{ l with result := s.mem.readWord (widx l.addr), done := true }, ⟨rfl, rfl, rfl, rfl, rfl⟩,
        latch_applyAll_cons (latch_notMem_completion s l _ _)⟩
    · rw [handler_m2_of_store noAbort works store]
      exact ⟨{ l with done := true }, ⟨rfl, rfl, rfl, rfl, rfl⟩, fun t => State.latch_setLatch_same _ .m2 _⟩

theorem handler_feeder_done {s : State} {st : Stage} (feeder : st ∈ wbFeeders) {l : Latch} (here : s.latch st = some l)
    (done : l.done = true) : handler st s = {} := by
  simp only [wbFeeders, List.mem_cons, List.not_mem_nil, or_false] at feeder
  rcases feeder with rfl | rfl | rfl | rfl | rfl
  · exact handleAlu_done here done
  · exact handleAlu_done here done
  · exact handleAlu_done here done
  · exact handleEXB_done here done
  · exact handleM2_done here done

/-- After the writes of a cycle without abort every feeder has finished with its occupant. -/
theorem latch_written_feeder {s : State} (completes : s.CycleCompletes) (classes : s.UnitClasses) {st : Stage}
    (feeder : st ∈ wbFeeders) {l : Latch} (here : s.latch st = some l) :
    ∃ k, s.written.latch st = some k ∧ l.FinishedAs k := by
  cases done : l.done with
  | true =>
    refine ⟨l, ?_, rfl, rfl, rfl, rfl, done⟩
    rw [latch_written_of_silent (handler_feeder_done feeder here done), here]
  | false =>
    obtain ⟨k, finished, leaves⟩ :=
      handler_finishes (abortOf_of_completes completes) classes feeder ⟨here, done⟩
    exact ⟨k, latch_written (back_mem_effective completes (back_of_feeder feeder)) fun t _ => leaves t, finished⟩

theorem latch_written_feeder_free {s : State} {st : Stage} (feeder : st ∈ wbFeeders) (free : s.latch st = none) :
    s.written.latch st = none := by
  have silent : handler st s = {} := by
    refine handler_free free (fun h => ?_) fun h => ?_
    · exact absurd (h ▸ feeder) (by decide)
    · exact absurd (h ▸ feeder) (by decide)
  rw [latch_written_of_silent silent, free]

/-- Writeback finishes with its occupant in one cycle (R87). -/
theorem latch_written_wb {s : State} (completes : s.CycleCompletes) (k : Latch) (h : s.written.latch .wb = some k) :
    k.done = true := by
  cases here : s.latch .wb with
  | none =>
    rw [latch_written_of_silent (st := .wb) (handleWB_free here), here] at h
    cases h
  | some l =>
    cases done : l.done with
    | true =>
      rw [latch_written_of_silent (st := .wb) (handleWB_done here done), here] at h
      cases h
      exact done
    | false =>
      have answer : handler .wb s = { writes := [.latch .wb { l with done := true }] } := by
        simp [handler, handleWB, here, done]
      have leaves : s.written.latch .wb = some { l with done := true } :=
        latch_written (back_mem_effective completes rfl) fun t _ => by
          rw [answer]
          exact State.latch_setLatch_same t .wb _
      cases leaves.symm.trans h
      rfl

/-- Without an occupant to retire, Retire writes no latch. -/
theorem latch_notMem_handler_rt {s : State} (idle : retireLatch s = {}) (k : Latch) :
    .latch .rt k ∉ (handler .rt s).writes := by
  rcases handleRT_cases s with ⟨_, h⟩ | ⟨e, _, h⟩ <;> rw [handler, h, idle]
  · simp
  · rcases commitWrites_cases s e with ⟨_, h⟩ | ⟨_, h⟩ <;> simp [h]

/-- Retire finishes with its occupant in one cycle (R88). -/
theorem latch_written_rt {s : State} (k : Latch) (h : s.written.latch .rt = some k) : k.done = true := by
  have kept : retireLatch s = {} → s.latch .rt = some k := fun idle => by
    rw [← h]
    exact (latch_written (rt_mem_effective s) fun t ht =>
      (latch_applyAll_of_notMem (latch_notMem_handler_rt idle) t).trans ht).symm
  cases here : s.latch .rt with
  | none => cases here.symm.trans (kept (retireLatch_free here))
  | some l =>
    cases done : l.done with
    | true =>
      cases here.symm.trans (kept (retireLatch_done here done))
      exact done
    | false =>
      obtain ⟨ws, writes, _, only⟩ := handler_rt_of_works ⟨here, done⟩
      have leaves : s.written.latch .rt = some { l with done := true } :=
        latch_written (rt_mem_effective s) fun t _ => by
          rw [writes]
          exact latch_applyAll_cons only t.countRetire
      cases leaves.symm.trans h
      rfl

/-! ## The cycle's arbitration (R81) -/

/-- The state in which Writeback arbitration takes place in a cycle without abort. -/
def State.atArbitration (s : State) : State :=
  (commitPhase (evaluate s) s).takeSnapshot.makeRoom

theorem latch_atArbitration_feeder {s : State} (completes : s.CycleCompletes) {st : Stage} (feeder : st ∈ wbFeeders) :
    s.atArbitration.latch st = s.written.latch st := by
  have notRt : st ≠ .rt := fun h => absurd (h ▸ feeder) (by decide)
  exact (State.latch_makeRoom_of_ne notRt (ne_wb_of_feeder feeder)).trans
    (latch_commitPhase completes (back_of_feeder feeder))

/-- Writeback and Retire hold nothing up, so Writeback is free by then (R80). -/
theorem latch_atArbitration_wb {s : State} (completes : s.CycleCompletes) : s.atArbitration.latch .wb = none := by
  refine State.latch_makeRoom_wb (fun l here => ?_) fun l here => ?_
  · exact latch_written_wb completes l ((latch_commitPhase completes rfl).symm.trans here)
  · exact latch_written_rt l ((latch_commitPhase completes rfl).symm.trans here)

theorem latch_cycle_of_arbitration {s : State} (completes : s.CycleCompletes) {a : Stage}
    (place : a ∈ wbFeeders ∨ a = .wb) (occupied : a ≠ .wb → s.atArbitration.arbitrate.latch a ≠ none) :
    (cycle s).latch a = s.atArbitration.arbitrate.latch a := by
  rw [cycle_of_completes completes]
  exact State.latch_advance_feeder (s := (commitPhase (evaluate s) s).takeSnapshot) place occupied

/-- The cycle's arbitration chooses the oldest occupant of the feeders. -/
theorem oldestFeeder_atArbitration {s : State} (completes : s.CycleCompletes) (classes : s.UnitClasses) {st : Stage}
    {l : Latch} (oldest : s.OldestInFeeders st l) : s.atArbitration.oldestFeeder = some st := by
  obtain ⟨feeder, here, older⟩ := oldest
  obtain ⟨k, written, finished⟩ := latch_written_feeder completes classes feeder here
  have candidate : s.atArbitration.candidateSeq st = some l.seq := by
    rw [← finished.seq]
    exact State.candidateSeq_of_done ((latch_atArbitration_feeder completes feeder).trans written) finished.done
  cases chosen : s.atArbitration.oldestFeeder with
  | none => cases (State.oldestFeeder_none chosen st feeder).symm.trans candidate
  | some a =>
    obtain ⟨feeds, n, own, least⟩ := State.oldestFeeder_some chosen
    by_contra differs
    have other : a ≠ st := fun h => differs (congrArg some h)
    obtain ⟨j, place, _, seq⟩ := State.candidateSeq_some own
    rw [latch_atArbitration_feeder completes feeds] at place
    cases stands : s.latch a with
    | none => cases (latch_written_feeder_free feeds stands).symm.trans place
    | some m =>
      obtain ⟨i, written', finished'⟩ := latch_written_feeder completes classes feeds stands
      obtain rfl := Option.some.inj (written'.symm.trans place)
      have younger := older a feeds other m stands
      have notLater := least st feeder _ candidate
      rw [← finished'.seq, seq] at younger
      omega

/-- The oldest occupant of the feeders stands in Writeback after the cycle. -/
theorem latch_cycle_wb_of_oldest {s : State} (completes : s.CycleCompletes) (classes : s.UnitClasses) {st : Stage}
    {l : Latch} (oldest : s.OldestInFeeders st l) :
    ∃ k, l.FinishedAs k ∧ (cycle s).latch .wb = some { k with done := false } := by
  obtain ⟨feeder, here, _⟩ := id oldest
  obtain ⟨k, written, finished⟩ := latch_written_feeder completes classes feeder here
  have stands := (latch_atArbitration_feeder completes feeder).trans written
  refine ⟨k, finished, (latch_cycle_of_arbitration completes (.inr rfl) fun h => absurd rfl h).trans ?_⟩
  exact State.latch_arbitrate_wb (latch_atArbitration_wb completes)
    (oldestFeeder_atArbitration completes classes oldest) stands

/-- Every other occupant of the feeders waits in its place. -/
theorem latch_cycle_of_younger {s : State} (completes : s.CycleCompletes) (classes : s.UnitClasses) {st : Stage}
    {l : Latch} (oldest : s.OldestInFeeders st l) {other : Stage} (feeds : other ∈ wbFeeders) (younger : other ≠ st)
    {m : Latch} (here : s.latch other = some m) : ∃ k, m.FinishedAs k ∧ (cycle s).latch other = some k := by
  obtain ⟨k, written, finished⟩ := latch_written_feeder completes classes feeds here
  have stays : s.atArbitration.arbitrate.latch other = some k :=
    (State.latch_arbitrate_other (oldestFeeder_atArbitration completes classes oldest) (ne_wb_of_feeder feeds)
      younger).trans ((latch_atArbitration_feeder completes feeds).trans written)
  exact ⟨k, finished, (latch_cycle_of_arbitration completes (.inl feeds) fun _ => by simp [stays]).trans stays⟩

/-- With no feeder occupied, Writeback is free after the cycle. -/
theorem latch_cycle_wb_of_free {s : State} (completes : s.CycleCompletes)
    (free : ∀ st ∈ wbFeeders, s.latch st = none) : (cycle s).latch .wb = none := by
  have noFeeder : ∀ a ∈ wbFeeders, s.atArbitration.latch a = none := fun a feeds =>
    (latch_atArbitration_feeder completes feeds).trans (latch_written_feeder_free feeds (free a feeds))
  rw [latch_cycle_of_arbitration completes (.inr rfl) fun h => absurd rfl h, State.arbitrate_of_free noFeeder,
    latch_atArbitration_wb completes]

/-- Settles O41: Writeback is free when the cycle arbitrates, the chosen feeder is the oldest, and the steps behind
arbitration leave the feeders and Writeback alone. -/
theorem oldestCandidateEntersWriteback : Obligations.OldestCandidateEntersWriteback := by
  refine ⟨fun s => ⟨fun st => State.oldestFeeder_some, State.oldestFeeder_none⟩, fun s st l free chosen here => ?_,
    fun s => State.arbitrate_of_occupied, fun s st l completes classes oldest => ⟨?_, ?_⟩,
    fun s => latch_cycle_wb_of_free⟩
  · exact ⟨State.latch_arbitrate_wb free chosen here, State.latch_arbitrate_chosen free chosen here,
      fun _ => State.latch_arbitrate_other chosen⟩
  · obtain ⟨k, finished, entered⟩ := latch_cycle_wb_of_oldest completes classes oldest
    exact ⟨_, entered, finished.idx, finished.seq, finished.op, finished.dest, rfl⟩
  · intro other feeds younger m here
    obtain ⟨k, finished, waits⟩ := latch_cycle_of_younger completes classes oldest feeds younger here
    exact ⟨k, waits, finished.idx, finished.seq, finished.op, finished.dest, finished.done⟩

/-! ## The forwarding channels (R107, R108) -/

theorem channelWritten_append (c : Channel) (ws us : List Write) :
    channelWritten c (ws ++ us) = (channelWritten c us).or (channelWritten c ws) := by
  induction us using List.reverseRecOn with
  | nil => simp [channelWritten]
  | append_singleton us w ih =>
    rw [← List.append_assoc]
    unfold channelWritten at ih ⊢
    rw [List.foldl_append, List.foldl_append (l := us), ih]
    cases w with
    | channel d r v => by_cases h : d = c <;> simp [h]
    | _ => rfl

/-- A channel that no pair is written to is none in the next cycle. -/
theorem channelWritten_none {c : Channel} {ws : List Write} (h : ∀ r v, .channel c r v ∉ ws) :
    channelWritten c ws = none := by
  induction ws using List.reverseRecOn with
  | nil => rfl
  | append_singleton ws w ih =>
    rw [channelWritten_append, ih fun r v hw => h r v (List.mem_append_left _ hw)]
    cases w with
    | channel d r v =>
      have other : d ≠ c := fun e => h r v (by simp [e])
      simp [channelWritten, other]
    | _ => rfl

/-- A channel that only one pair is written to holds it in the next cycle. -/
theorem channelWritten_some {c : Channel} {ws : List Write} {d : Reg} {v : Word} (written : .channel c d v ∈ ws)
    (only : ∀ r u, .channel c r u ∈ ws → r = d ∧ u = v) : channelWritten c ws = some (d, v) := by
  induction ws using List.reverseRecOn with
  | nil => cases written
  | append_singleton ws w ih =>
    rw [channelWritten_append]
    by_cases last : ∃ r u, w = .channel c r u
    · obtain ⟨r, u, rfl⟩ := last
      obtain ⟨rfl, rfl⟩ := only r u (by simp)
      simp [channelWritten]
    · have earlier : .channel c d v ∈ ws := by
        rcases List.mem_append.mp written with h | h
        · exact h
        · exact absurd ⟨d, v, (List.mem_singleton.mp h).symm⟩ last
      have silent : channelWritten c [w] = none := channelWritten_none fun r u h =>
        last ⟨r, u, (List.mem_singleton.mp h).symm⟩
      rw [silent, ih earlier fun r u h => only r u (List.mem_append_left _ h)]
      rfl

/-- What a channel holds after a cycle without abort: what the cycle's handlers wrote to it, of whatever stage. -/
theorem fwd_cycle {s : State} (completes : s.CycleCompletes) :
    (cycle s).fwd = channelsWritten (s.writesOf s.effective) := by
  rw [cycle_of_completes completes, ← committedWrites_evaluate (abortOf_of_completes completes)]
  rfl

theorem answers_of_mem_writesOf {s : State} {stages : List Stage} {w : Write} (h : w ∈ s.writesOf stages) :
    ∃ st, Answers s st w := by
  obtain ⟨st, _, hw⟩ := List.mem_flatMap.mp h
  exact ⟨st, handler_answers st s w hw⟩

theorem channelOf_class {op : Opcode} :
    (channelOf op = some .add ↔ unitOf op = .exa) ∧ (channelOf op = some .mul ↔ unitOf op = .exm) ∧
      (channelOf op = some .div ↔ unitOf op = .exd) ∧ (channelOf op = some .mem ↔ isLoad op = true) := by
  cases op <;> decide

/-- The stage that writes a channel (R108). -/
def channelStage : Channel → Stage
  | .add => .exa
  | .mul => .exm
  | .div => .exd
  | .mem => .m2

/-- A pair comes from the channel's own stage, from an occupant with its destination, and holds its result. -/
structure ForwardedBy (s : State) (c : Channel) (d : Reg) (v : Word) (l : Latch) : Prop where
  works : s.WorksOn (channelStage c) l
  dest : l.dest = some d
  result : c ≠ .mem → aluResult l.op l.v1 l.secondOperand = some (.ok v)
  load : c = .mem → isLoad l.op = true ∧ v = s.mem.readWord (widx l.addr)

/-- With every unit holding its own class, each channel is written by its own unit alone. -/
theorem channel_source {s : State} (classes : s.UnitClasses) {st : Stage} {c : Channel} {d : Reg} {v : Word}
    (h : Answers s st (.channel c d v)) : ∃ l, ForwardedBy s c d v l := by
  cases h with
  | forwardLoad l _ works load dest => exact ⟨l, works, dest, fun h => absurd rfl h, fun _ => ⟨load, rfl⟩⟩
  | forwardResult _ l _ _ _ unit works result feeds dest =>
    obtain ⟨here, work⟩ := works
    have own : unitStage (unitOf l.op) = st := by
      simp only [List.mem_cons, List.not_mem_nil, or_false] at unit
      rcases unit with rfl | rfl | rfl
      · rw [classes.units .exa l here]; rfl
      · rw [classes.units .exm l here]; rfl
      · rw [classes.units .exd l here]; rfl
    obtain ⟨_, _, notMemory, _⟩ := aluResult_class result
    obtain ⟨add, mul, div, mem⟩ := channelOf_class (op := l.op)
    cases c with
    | add => exact ⟨l, ⟨by rw [← here, ← own, add.mp feeds]; rfl, work⟩, dest, fun _ => result, by simp⟩
    | mul => exact ⟨l, ⟨by rw [← here, ← own, mul.mp feeds]; rfl, work⟩, dest, fun _ => result, by simp⟩
    | div => exact ⟨l, ⟨by rw [← here, ← own, div.mp feeds]; rfl, work⟩, dest, fun _ => result, by simp⟩
    | mem => cases (isMemory_of_isLoad (mem.mp feeds)).symm.trans notMemory

/-- The channel of a unit that works on nothing is none (the memory channel also behind a store). -/
theorem channel_none_of_noSource {s : State} (classes : s.UnitClasses) {c : Channel}
    (h : ∀ d v l, ¬ ForwardedBy s c d v l) : channelWritten c (s.writesOf s.effective) = none := by
  refine channelWritten_none fun d v hw => ?_
  obtain ⟨st, answers⟩ := answers_of_mem_writesOf hw
  obtain ⟨l, source⟩ := channel_source classes answers
  exact h d v l source

/-- The channel of a unit that completes a result holds it. -/
theorem channel_some_of_completion {s : State} (completes : s.CycleCompletes) (classes : s.UnitClasses)
    (build : s.params.variant = .inOrder) {c : Channel} {l k : Latch} {d : Reg} {v : Word}
    (works : s.WorksOn (channelStage c) l)
    (answer : handler (channelStage c) s = { writes := .latch (channelStage c) k :: completion s l v })
    (feeds : channelOf l.op = some c) (dest : l.dest = some d)
    (value : ∀ u, ForwardedBy s c d u l → u = v) : channelWritten c (s.writesOf s.effective) = some (d, v) := by
  have written : .channel c d v ∈ s.writesOf s.effective := by
    refine List.mem_flatMap.mpr ⟨channelStage c, back_mem_effective completes (by cases c <;> rfl), ?_⟩
    simp [answer, completion, build, feeds, dest]
  refine channelWritten_some written fun r u hw => ?_
  obtain ⟨st, answers⟩ := answers_of_mem_writesOf hw
  obtain ⟨m, source⟩ := channel_source classes answers
  obtain rfl := works.unique source.works
  obtain rfl := Option.some.inj (dest.symm.trans source.dest)
  exact ⟨rfl, value u source⟩

/-- The result of an arithmetic unit's occupant in its channel. -/
theorem channel_of_alu {s : State} (completes : s.CycleCompletes) (classes : s.UnitClasses)
    (build : s.params.variant = .inOrder) {c : Channel} {u : FuncUnit} (stage : channelStage c = unitStage u)
    (unit : unitStage u ∈ [Stage.exa, .exm, .exd]) {l : Latch}
    (feeds : unitOf l.op = u → channelOf l.op = some c) {d : Reg} (dest : l.dest = some d)
    (works : s.WorksOn (unitStage u) l) :
    ∃ v, channelWritten c (s.writesOf s.effective) = some (d, v) ∧
      aluResult l.op l.v1 l.secondOperand = some (.ok v) := by
  have class_ : unitOf l.op = u := classes.units u l works.1
  obtain ⟨v, result, answer⟩ := handler_alu_of_works (abortOf_of_completes completes) unit works class_
  rw [← stage] at works answer
  have notMem : c ≠ .mem := by
    rintro rfl
    rw [← stage] at unit
    exact absurd unit (by decide)
  refine ⟨v, channel_some_of_completion completes classes build works answer (feeds class_) dest ?_, result⟩
  intro w source
  cases result.symm.trans (source.result notMem)
  rfl

/-- Settles O40: a channel after the cycle is what its own unit wrote in it. -/
theorem channelsLiveOneCycle : Obligations.ChannelsLiveOneCycle := by
  refine ⟨fun s completes idle => ?_, fun s completes classes => ?_, fun s l d build completes classes dest => ?_⟩
  · have silent : ∀ c, channelWritten c (s.writesOf s.effective) = none := by
      refine fun c => channelWritten_none fun d v hw => ?_
      obtain ⟨st, answers⟩ := answers_of_mem_writesOf hw
      cases answers with
      | forwardLoad l _ works => exact idle .m2 (by decide) l works
      | forwardResult _ l _ _ _ unit works => exact idle st (mem_completers_of_alu unit) l works
    rw [fwd_cycle completes, channelsWritten, silent, silent, silent, silent]
  · rw [fwd_cycle completes]
    refine ⟨fun idle => ?_, fun idle => ?_, fun idle => ?_, fun noLoad => ?_⟩
    · exact channel_none_of_noSource classes fun _ _ l source => idle l source.works
    · exact channel_none_of_noSource classes fun _ _ l source => idle l source.works
    · exact channel_none_of_noSource classes fun _ _ l source => idle l source.works
    · refine channel_none_of_noSource classes fun _ _ l source => ?_
      obtain ⟨load, _⟩ := source.load rfl
      cases load.symm.trans (noLoad l source.works)
  · rw [fwd_cycle completes]
    obtain ⟨add, mul, div, _⟩ := channelOf_class (op := l.op)
    refine ⟨fun works => ?_, fun works => ?_, fun works => ?_, fun works load => ?_⟩
    · exact channel_of_alu (u := .exa) completes classes build rfl (by decide) add.mpr dest works
    · exact channel_of_alu (u := .exm) completes classes build rfl (by decide) mul.mpr dest works
    · exact channel_of_alu (u := .exd) completes classes build rfl (by decide) div.mpr dest works
    · refine channel_some_of_completion completes classes build works
        (handler_m2_of_load (abortOf_of_completes completes) works load) (channelOf_of_isLoad load) dest ?_
      intro v source
      obtain ⟨_, value⟩ := source.load rfl
      exact value

/-! ## A zero divisor ends the cycle first (R92, R195) -/

/-- `t` is `s` but for Retire, Writeback and results: no store, no fetch, no stall, no resolution, no advance. -/
structure OnlyResults (s t : State) : Prop where
  mem : t.mem = s.mem
  pc : t.pc = s.pc
  fetchSeq : t.fetchSeq = s.fetchSeq
  stalls : t.stalls = s.stalls
  predictor : KeepsPredictor s t
  latches : ∀ st, st ∉ [Stage.rt, .wb, .exa, .exm] → t.latch st = s.latch st

theorem OnlyResults.apply {s t : State} (h : OnlyResults s t) {st : Stage} {w : Write} (answers : Answers s st w)
    (early : st ∈ [Stage.rt, .wb, .exa, .exm]) : OnlyResults s (t.apply w) := by
  obtain ⟨mem, pc, fetchSeq, stalls, predictor, latches⟩ := h
  cases answers with
  | latch _ k =>
    refine ⟨mem, pc, fetchSeq, stalls, predictor, fun a late => ?_⟩
    exact (State.latch_setLatch_ne t _ (ne_of_mem_of_not_mem early late).symm).trans (latches a late)
  | fetchSeqNext | pc | fetchHalt | stall | store | btb | pt => exact absurd early (by decide)
  | _ => exact ⟨mem, pc, fetchSeq, stalls, predictor, latches⟩

theorem noAbort_of_class {s : State} (classes : s.UnitClasses) {u : FuncUnit} (other : u ≠ .exd)
    (unit : unitStage u ∈ [Stage.exa, .exm, .exd]) (r : AbortReason) : ¬ Signals s (unitStage u) (.abort r) := by
  intro signals
  generalize stage : unitStage u = st at signals unit
  cases signals with
  | divide _ l _ works divides =>
    subst stage
    exact other ((classes.units u l works.1).symm.trans divides)
  | range | malformed => exact absurd unit (by decide)

/-- The zero divisor in EXD is the first abort of the cycle, and only the stages before EXD take effect. -/
theorem abort_of_zero_divisor {s : State} {l : Latch} (classes : s.UnitClasses) (works : s.WorksOn .exd l)
    (zero : l.secondOperand = 0) :
    abortOf (evaluate s) = some .divideByZero ∧ s.effective = [.rt, .wb, .exa, .exm] := by
  have rt := abort?_rt s
  have wb := abort?_wb s
  have exa : (handler .exa s).abort?.isNone = true :=
    abort?_isNone (noAbort_of_class (u := .exa) classes (by decide) (by decide))
  have exm : (handler .exm s).abort?.isNone = true :=
    abort?_isNone (noAbort_of_class (u := .exm) classes (by decide) (by decide))
  have exd : (handler .exd s).abort? = some .divideByZero := by
    obtain ⟨here, work⟩ := works
    have failed : aluResult l.op l.v1 l.secondOperand = some (.error .divideByZero) := by
      rw [zero]
      exact aluResult_of_zero (classes.units .exd l here) l.v1
    simp [handler, handleAlu, here, work, failed, HandlerOut.abort?]
  have first : abortOf (evaluate s) = some .divideByZero := by
    simp_all [abortOf, evaluate, evalOrder]
  refine ⟨first, ?_⟩
  simp [State.effective, first, evalOrder, rt, wb, exa, exm, exd]

/-- Settles O43: the writes that take effect are those of RT, WB, EXA and EXM, and no advance follows them. -/
theorem divideAbortComesFirst : Obligations.DivideAbortComesFirst := by
  intro s l classes works zero
  obtain ⟨aborts, effective⟩ := abort_of_zero_divisor classes works zero
  have kept : OnlyResults s s.written := by
    refine written_induct ⟨rfl, rfl, rfl, rfl, ⟨rfl, rfl⟩, fun _ _ => rfl⟩ fun st hst w answers t h => ?_
    exact h.apply answers (effective ▸ hst)
  have rs : s.written.rs = s.rs := State.applyAll_induct (P := fun t => t.rs = s.rs) rfl fun w _ t ht =>
    (t.apply_rs w).trans ht
  obtain ⟨_, cycles, _⟩ := written_clock s
  rw [cycle_of_abort aborts]
  exact ⟨rfl, kept.mem, kept.pc, kept.fetchSeq, kept.stalls, cycles, kept.predictor, rs, kept.latches⟩

end Sys2Proof.Machine
end

section
/-! SUPPORT. The front of a cycle without abort: what a fetch leaves (R74, R118), and what a flush discards and
redirects (R79, R122 to R124). -/

namespace Sys2Proof.Machine

/-! ## A fetch (R74, R118) -/

theorem ofCode?_isBranch : ∀ c : BitVec 5,
    (Opcode.ofCode? c).any isBranch = decide (13 ≤ c.toNat ∧ c.toNat ≤ 17) := by decide

theorem ofCode?_eq_ret : ∀ c : BitVec 5, Opcode.ofCode? c = some .ret ↔ c.toNat = 18 := by decide

/-- The position behind a fetch, read off the record's bits (R118). -/
theorem nextPc_eq (s : State) (r : Record) :
    s.nextPc r =
      if 13 ≤ r.opcode.toNat ∧ r.opcode.toNat ≤ 17 ∧ 4 ≤ (s.pt[predictorIndex s.pc]).val then r.imm.toInt.tdiv 4
      else s.pc + 1 := by
  have branch := ofCode?_isBranch r.opcode
  unfold State.nextPc State.predictNext
  cases selected : Opcode.ofCode? r.opcode with
  | none =>
    rw [selected, Option.any_none] at branch
    have other : ¬ (13 ≤ r.opcode.toNat ∧ r.opcode.toNat ≤ 17) := of_decide_eq_false branch.symm
    exact (if_neg fun h => other ⟨h.1, h.2.1⟩).symm
  | some op =>
    rw [selected, Option.any_some] at branch
    simp only [branch, branchNext, predictsTaken, trunc4, Bool.and_eq_true, decide_eq_true_eq, and_assoc]

/-- `t` has fetched the record `r` at `pc` of `s`. -/
structure HasFetched (s : State) (r : Record) (t : State) : Prop where
  pc : t.pc = s.nextPc r
  fetchSeq : t.fetchSeq = s.fetchSeq + 1
  fetchHalt : t.fetchHalt = decide (r.opcode.toNat = 18)
  latch : t.latch .f = some s.fetchedLatch

theorem handler_f_of_record {s : State} {r : Record} (free : s.latch .f = none) (found : s.fetchRecord = some r) :
    (handler .f s).writes = [.latch .f s.fetchedLatch, .fetchSeqNext, .pc (s.nextPc r)] ++
      if Opcode.ofCode? r.opcode = some .ret then [.fetchHalt true] else [] := by
  simp [handler, handleF, free, found]

/-- Fetch alone moves `pc`, the fetch count and `fetch_halt`. -/
theorem written_hasFetched {s : State} {r : Record} (takesEffect : .f ∈ s.effective) (free : s.latch .f = none)
    (runs : s.fetchHalt = false) (found : s.fetchRecord = some r) : HasFetched s r s.written := by
  refine written_of_owner (P := fun t => t.fetchSeq = s.fetchSeq ∧ t.fetchHalt = false) takesEffect ⟨rfl, runs⟩
    ?_ ?_ ?_
  · rintro a other w answers t ⟨seq, runs⟩
    cases answers with
    | fetchSeqNext | fetchHalt => exact absurd rfl other
    | _ => exact ⟨seq, runs⟩
  · rintro t ⟨seq, runs⟩
    rw [handler_f_of_record free found]
    by_cases ret : r.opcode.toNat = 18
    · rw [if_pos ((ofCode?_eq_ret _).mpr ret)]
      exact ⟨rfl, congrArg (· + 1) seq, (decide_eq_true ret).symm, State.latch_setLatch_same t .f _⟩
    · rw [if_neg fun h => ret ((ofCode?_eq_ret _).mp h)]
      exact ⟨rfl, congrArg (· + 1) seq, runs.trans (decide_eq_false ret).symm, State.latch_setLatch_same t .f _⟩
  · rintro a other w answers t ⟨pc, seq, halt, latch⟩
    have place := (latch_apply_of_ne other answers t).trans latch
    cases answers with
    | fetchSeqNext | pc | fetchHalt => exact absurd rfl other
    | _ => exact ⟨pc, seq, halt, place⟩

/-- A done occupant of Fetch stays there or moves into Decode. -/
theorem State.latch_advance_f {s : State} {l : Latch} (here : s.latch .f = some l) :
    s.advance.latch .f = some l ∨ s.advance.latch .d = some { l with done := false } := by
  have backs : s.advanceBack.leaveRR.latch .f = s.latch .f := by
    rw [State.latch_leaveRR_kept (by decide) fun u h => by cases u <;> cases h]
    exact State.latch_advanceBack_front rfl
  have waits : ((s.advanceBack.leaveRR.move .oa .rr).move .d .oa).latch .f = some l := by
    rw [State.latch_move_kept (src := .d) (dst := .oa) (by decide) fun h => absurd h (by decide),
      State.latch_move_kept (src := .oa) (dst := .rr) (by decide) fun h => absurd h (by decide), backs, here]
  rw [State.advance_eq_front]
  rcases ((s.advanceBack.leaveRR.move .oa .rr).move .d .oa).move_cases .f .d with e | ⟨k, place, _, _, e⟩ <;> rw [e]
  · exact .inl waits
  · obtain rfl := Option.some.inj (waits.symm.trans place)
    exact .inr ((State.latch_setLatch_ne _ _ (by decide)).trans (State.latch_setLatch_same ..))

/-- Settles O26: Fetch's writes take effect, no other stage touches what they set, and only the last step of the advance
pass can move the record. -/
theorem fetchFollowsThePrediction : Obligations.FetchFollowsThePrediction := by
  intro s r completes noFlush free runs start record
  have found : s.fetchRecord = some r := (if_pos ⟨runs, start⟩).trans record
  have fetched := written_hasFetched (mem_effective_of_not_flushes completes noFlush .f) free runs found
  have committed : HasFetched s r (commitPhase (evaluate s) s) :=
    commitPhase_of_settled (abortOf_of_completes completes) (settled_of_not_flushes noFlush ▸ fetched)
      fun _ _ _ h => ⟨h.pc, h.fetchSeq, h.fetchHalt, h.latch⟩
  obtain ⟨pc, seq, halt, latch⟩ := committed
  have place : (cycle s).latch .f = some s.fetchedLatch ∨
      (cycle s).latch .d = some { s.fetchedLatch with done := false } := by
    rw [cycle_of_completes completes]
    exact State.latch_advance_f (s := (commitPhase (evaluate s) s).takeSnapshot) latch
  obtain ⟨_, _, _, _, _, _, _, frame⟩ := cycle_frame_of_completes completes
  have pc' : (cycle s).pc = s.nextPc r := by rw [frame]; exact pc
  refine ⟨pc'.trans (nextPc_eq s r), by rw [frame]; exact seq, by rw [frame]; exact halt, ?_⟩
  rcases place with inF | inD
  · exact ⟨_, .inl inF, rfl, rfl, rfl⟩
  · exact ⟨_, .inr inD, rfl, rfl, rfl⟩

/-! ## A flush (R79) -/

/-- `t` has nothing of an issue or a stall: no more counted, allocated, marked busy or renamed than in `s`. -/
structure IssuesNothing (s t : State) : Prop where
  fetchSeq : t.fetchSeq = s.fetchSeq
  stalls : t.stalls = s.stalls
  robTail : t.robTail = s.robTail
  rob : ∀ k, s.robEntry k = none → t.robEntry k = none
  rsTail : t.rsTail = s.rsTail
  rs : ∀ k, s.rs.getD k none = none → t.rs.getD k none = none
  ready : ∀ d, s.ready d = true → t.ready d = true
  tag : ∀ d id, t.tag d = some id → s.tag d = some id

theorem getD_set_none {α : Type} {l : List (Option α)} {k : Nat} (free : l.getD k none = none) (n : Nat) :
    (l.set n none).getD k none = none := by
  simp only [List.getD_eq_getElem?_getD, List.getElem?_set] at free ⊢
  split
  · split <;> rfl
  · exact free

section
variable {s t : State}

theorem IssuesNothing.of_entries (h : IssuesNothing s t) {u : State}
    (counters : u.fetchSeq = t.fetchSeq ∧ u.stalls = t.stalls) (robTail : u.robTail = t.robTail)
    (rob : ∀ k, t.robEntry k = none → u.robEntry k = none) (rsTail : u.rsTail = t.rsTail)
    (rs : ∀ k, t.rs.getD k none = none → u.rs.getD k none = none)
    (ready : ∀ d, t.ready d = true → u.ready d = true) (tag : ∀ d id, u.tag d = some id → t.tag d = some id) :
    IssuesNothing s u := by
  obtain ⟨seq, stalls⟩ := counters
  exact ⟨seq.trans h.fetchSeq, stalls.trans h.stalls, robTail.trans h.robTail, fun k free => rob k (h.rob k free),
    rsTail.trans h.rsTail, fun k free => rs k (h.rs k free), fun d was => ready d (h.ready d was),
    fun d id is => h.tag d id (tag d id is)⟩

/-- Completing a result fills no free ROB slot. -/
theorem robEntry_robComplete_none {k : RobId} (free : t.robEntry k = none) (id : RobId) (v : Word) :
    (t.robComplete id v).robEntry k = none := by
  by_cases h : id = k
  · subst h
    have emptied : (t.robComplete id v).rob = t.rob.set id none := by simp [State.robComplete, free]
    unfold State.robEntry
    rw [emptied]
    exact getD_set_none free id
  · simpa [State.robEntry, State.robComplete, List.getElem?_set_ne h] using free

/-- What the statement does not speak of may change. -/
theorem IssuesNothing.rest (h : IssuesNothing s t) (latches : PerStage (Option Latch)) (pc : Int) (fetchHalt : Bool)
    (fwd : Channels) (cycles : Nat) (status : Status) (snapshot : PerStage (Option Nat)) :
    IssuesNothing s
      { t with
        latches := latches, pc := pc, fetchHalt := fetchHalt, fwd := fwd, cycles := cycles, status := status
        snapshot := snapshot } :=
  ⟨h.fetchSeq, h.stalls, h.robTail, h.rob, h.rsTail, h.rs, h.ready, h.tag⟩

theorem IssuesNothing.apply (h : IssuesNothing s t) {st : Stage} {w : Write} (answers : Answers s st w)
    (back : isFront st = false) : IssuesNothing s (t.apply w) := by
  have same : ∀ d, t.ready d = true → t.ready d = true := fun _ h => h
  cases answers with
  | fetchSeqNext | pc | fetchHalt | stall | busy | robAllocate | rename => cases back
  | complete _ id v =>
    exact h.of_entries ⟨rfl, rfl⟩ rfl (fun k free => robEntry_robComplete_none free id v) rfl (fun _ h => h) same
      fun _ _ h => h
  | robFree =>
    exact h.of_entries ⟨rfl, rfl⟩ rfl (fun k free => getD_set_none free _) rfl (fun _ h => h) same fun _ _ h => h
  | value d v =>
    exact h.of_entries ⟨rfl, rfl⟩ rfl (fun _ h => h) rfl (fun _ h => h)
      (fun q was => (State.ready_setValue t d q v).trans was)
      fun q id is => (State.tag_setValue t d q v).symm.trans is
  | release d =>
    refine h.of_entries ⟨rfl, rfl⟩ rfl (fun _ h => h) rfl (fun _ h => h) (fun q was => ?_)
      fun q id is => (State.tag_setReady t d q true).symm.trans is
    rw [State.apply, State.ready_setReady]
    split
    · rfl
    · exact was
  | untag d =>
    refine h.of_entries ⟨rfl, rfl⟩ rfl (fun _ h => h) rfl (fun _ h => h)
      (fun q was => (State.ready_setTag t d q none).trans was) fun q id is => ?_
    rw [State.apply, State.tag_setTag] at is
    split at is
    · cases is
    · exact is
  | _ => exact ⟨h.fetchSeq, h.stalls, h.robTail, h.rob, h.rsTail, h.rs, h.ready, h.tag⟩

theorem IssuesNothing.wakeUp (h : IssuesNothing s t) (id : RobId) (v : Word) : IssuesNothing s (t.wakeUp id v) := by
  refine h.of_entries ⟨rfl, rfl⟩ rfl (fun _ h => h) rfl (fun k free => ?_) (fun _ h => h) fun _ _ h => h
  simp only [State.wakeUp, List.getD_eq_getElem?_getD, List.getElem?_map] at free ⊢
  cases slot : t.rs[k]? with
  | none => rfl
  | some e =>
    rw [slot] at free
    obtain rfl : e = none := free
    rfl

theorem IssuesNothing.advanceBack (h : IssuesNothing s t) : IssuesNothing s t.advanceBack := by
  refine State.advanceBack_induct (P := IssuesNothing s) (fun u _ _ k => ?_) (fun u k => ?_) h
  · exact k.rest _ _ _ _ _ _ _
  · exact k.of_entries ⟨rfl, rfl⟩ rfl (fun _ h => h) rfl (fun _ free => getD_set_none free _) (fun _ h => h)
      fun _ _ h => h

end

/-- What a flush leaves of the front: free latches, `pc` redirected, Fetch running, and nothing issued. -/
structure Flushed (s : State) (p : Int) (t : State) : Prop where
  free : ∀ a, isFront a = true → t.latch a = none
  pc : t.pc = p
  fetchHalt : t.fetchHalt = false
  issued : IssuesNothing s t

theorem flushed_of_flush {s t : State} (h : IssuesNothing s t) (p : Int) : Flushed s p (t.flush p) where
  free a front := by
    cases a with
    | f | d | oa | rr => rfl
    | _ => cases front
  pc := rfl
  fetchHalt := rfl
  issued := h.rest _ _ _ _ _ _ _

theorem Flushed.rest {s t : State} {p : Int} (h : Flushed s p t) (fwd : Channels) (cycles : Nat) (status : Status)
    (snapshot : PerStage (Option Nat)) :
    Flushed s p { t with fwd := fwd, cycles := cycles, status := status, snapshot := snapshot } :=
  ⟨h.free, h.pc, h.fetchHalt, h.issued.rest _ _ _ _ _ _ _⟩

theorem Flushed.wakeUp {s t : State} {p : Int} (h : Flushed s p t) (id : RobId) (v : Word) :
    Flushed s p (t.wakeUp id v) where
  free a front := by
    by_cases issue : a = .rr
    · subst issue
      have rr : t.latches.rr = none := h.free .rr rfl
      show wakeIssued t.latches.rr id v = none
      rw [rr]
      rfl
    · exact (latch_wakeUp t id v issue).trans (h.free a front)
  pc := h.pc
  fetchHalt := h.fetchHalt
  issued := h.issued.wakeUp id v

theorem Flushed.advance {s t : State} {p : Int} (h : Flushed s p t) : Flushed s p t.advance := by
  have frame : t.advanceBack.pc = p ∧ t.advanceBack.fetchHalt = false :=
    State.advanceBack_induct (P := fun u => u.pc = p ∧ u.fetchHalt = false) (fun _ _ _ k => k) (fun _ k => k)
      ⟨h.pc, h.fetchHalt⟩
  obtain ⟨pc, runs⟩ := frame
  rw [State.advance_of_front_free h.free]
  exact ⟨fun a front => (State.latch_advanceBack_front front).trans (h.free a front), pc, runs, h.issued.advanceBack⟩

/-- A flush cycle discards the front stages' writes and redirects fetch. -/
theorem cycle_flushed {s : State} {l : Latch} (completes : s.CycleCompletes) (works : s.WorksOn .exb l)
    (flushes : s.Flushes) : Flushed s (branchNext (cond l.op l.v1) l.idx l.imm) (cycle s) := by
  have start : IssuesNothing s s := ⟨rfl, rfl, rfl, fun _ h => h, rfl, fun _ h => h, fun _ h => h, fun _ _ h => h⟩
  have written : IssuesNothing s s.written := written_induct start fun st hst w answers t h =>
    h.apply answers (not_front_of_flushes completes flushes hst)
  have settled : Flushed s (branchNext (cond l.op l.v1) l.idx l.imm) s.settled := by
    rw [settled_of_flushes works flushes]
    exact flushed_of_flush written _
  have committed := commitPhase_of_settled (abortOf_of_completes completes) settled fun _ id v h => h.wakeUp id v
  have advanced := Flushed.advance (t := (commitPhase (evaluate s) s).takeSnapshot) (committed.rest _ _ _ _)
  rw [cycle_of_completes completes]
  exact advanced.rest _ _ _ _

/-! ## The predictor (R123, R124) -/

/-- The predictor tables of `t` are those of `s` after the branch of `l` has resolved. -/
structure ResolvedBy (s : State) (l : Latch) (t : State) : Prop where
  entry : t.btb[predictorIndex l.pc] = resolvedEntry l.pc l.imm
  counter : t.pt[predictorIndex l.pc] = bump (cond l.op l.v1) s.pt[predictorIndex l.pc]
  others : KeepsPredictorBut s t (predictorIndex l.pc)

theorem resolvedBy_resolveBranch {s t : State} (l : Latch) (same : KeepsPredictor s t) :
    ResolvedBy s l (t.applyAll (resolveBranch s l).writes) := by
  obtain ⟨btb, pt⟩ := same
  let i := predictorIndex l.pc
  refine ⟨(State.btb_setBtb t i i _).trans (if_pos rfl), ?_, fun j other => ⟨?_, ?_⟩⟩
  · exact (State.pt_setPt (t.setBtb i _) i i _).trans (if_pos rfl)
  · exact ((State.btb_setBtb t i j _).trans (if_neg other)).trans (by rw [btb])
  · exact ((State.pt_setPt (t.setBtb i _) i j _).trans (if_neg other)).trans (by simp [pt])

/-- EXB alone writes the predictor. -/
theorem written_resolvedBy {s : State} {l : Latch} (takesEffect : .exb ∈ s.effective) (works : s.WorksOn .exb l)
    (branch : isBranch l.op = true) : ResolvedBy s l s.written := by
  refine written_of_owner (P := KeepsPredictor s) takesEffect ⟨rfl, rfl⟩ ?_ (fun t same => ?_) ?_
  · rintro a other w answers t ⟨btb, pt⟩
    cases answers with
    | btb | pt => exact absurd rfl other
    | _ => exact ⟨btb, pt⟩
  · rw [handler_exb_of_branch works branch]
    exact resolvedBy_resolveBranch l same
  · rintro a other w answers t ⟨entry, counter, others⟩
    cases answers with
    | btb | pt => exact absurd rfl other
    | _ => exact ⟨entry, counter, others⟩

/-- Settles O32: the flush discards what the front stages wrote, and the branch's own writes stand. -/
theorem flushSquashesTheFrontAndRedirects : Obligations.FlushSquashesTheFrontAndRedirects := by
  intro s l completes works branch flushes
  obtain ⟨free, pc, runs, issued⟩ := cycle_flushed completes works flushes
  obtain ⟨entry, counter, others⟩ := written_resolvedBy (back_mem_effective completes rfl) works branch
  obtain ⟨_, _, _, _, _, _, _, _, _, _, frame⟩ := cycle_frame s
  have predictor : (cycle s).btb = s.written.btb ∧ (cycle s).pt = s.written.pt := by
    rw [frame]
    exact ⟨rfl, rfl⟩
  obtain ⟨btb, pt⟩ := predictor
  refine ⟨free .f rfl, free .d rfl, free .oa rfl, free .rr rfl, pc, runs, issued.fetchSeq, issued.stalls,
    issued.robTail, issued.rob, issued.rsTail, issued.rs, issued.ready, issued.tag, ?_⟩
  unfold KeepsPredictorBut
  rw [btb, pt]
  exact ⟨entry, counter, others⟩

end Sys2Proof.Machine
end

section
/-! SUPPORT. Hazards and forwarding in the in-order build: the precedence of a lookup (R102), and what an instruction in
RR does in a cycle without abort or flush (R101, R104, R105): it stalls on a hazard, else it issues. -/

namespace Sys2Proof.Machine

/-! ## The lookup (R102) -/

theorem channelHit_eq_none {c : Option (Reg × Word)} {r : Reg} : channelHit c r = none ↔ ∀ u, c ≠ some (r, u) := by
  cases c with
  | none => simp [channelHit]
  | some pair =>
    obtain ⟨q, v⟩ := pair
    simp [channelHit]

theorem channelHit_same (r : Reg) (v : Word) : channelHit (some (r, v)) r = some v :=
  if_pos rfl

/-- Settles O25: each channel is asked only when those before it hold nothing for the register. -/
theorem lookupFollowsItsPrecedence : Obligations.LookupFollowsItsPrecedence := by
  intro s r v
  unfold State.lookup
  simp only [← channelHit_eq_none]
  refine ⟨fun add => ?_, fun noAdd mul => ?_, fun noAdd noMul div => ?_, fun noAdd noMul noDiv mem => ?_,
    fun noAdd noMul noDiv noMem => ?_⟩
  · simp only [add, channelHit_same]
  · simp only [noAdd, mul, channelHit_same]
  · simp only [noAdd, noMul, div, channelHit_same]
  · simp only [noAdd, noMul, noDiv, mem, channelHit_same]
  · simp only [noAdd, noMul, noDiv, noMem]

theorem State.lookSlot_eq_none {s : State} {slot : Option Reg} {old : Word} :
    s.lookSlot slot old = none ↔ ∃ r, slot = some r ∧ s.lookup r = .busy := by
  cases slot with
  | none => simp [State.lookSlot]
  | some r => cases found : s.lookup r <;> simp [State.lookSlot, found]

/-- The value a source captures is the one its lookup found. -/
theorem State.lookup_of_lookSlot {s : State} {slot : Option Reg} {old v : Word} (h : s.lookSlot slot old = some v)
    (r : Reg) (source : slot = some r) : s.lookup r = .forwarded v ∨ s.lookup r = .regfile v := by
  subst source
  cases found : s.lookup r <;> simp_all [State.lookSlot]

/-! ## Stalling or issuing (R101, R104, R105) -/

theorem State.destBusy_eq_true {s : State} {l : Latch} :
    s.destBusy l = true ↔ ∃ d, l.dest = some d ∧ s.ready d = false := by
  unfold State.destBusy
  cases l.dest <;> simp

/-- The hazards are what the issue handler tests: a source without a value, or a busy destination. -/
theorem State.hazard_iff {s : State} {l : Latch} :
    s.Hazard l ↔ s.lookSlot l.s1 l.v1 = none ∨ s.lookSlot l.s2 l.v2 = none ∨ s.lookSlot l.s3 l.v3 = none ∨
      s.destBusy l = true := by
  simp only [State.Hazard, State.lookSlot_eq_none, State.destBusy_eq_true, or_and_right, exists_or, or_assoc]

theorem issueInOrder_of_hazard {s : State} {l : Latch} (hazard : s.Hazard l) : issueInOrder s l = stalled := by
  rcases issueInOrder_cases s l with e | ⟨a, b, c, found1, found2, found3, free, _⟩
  · exact e
  · simp [State.hazard_iff, found1, found2, found3, free] at hazard

/-- `k` is the record of `l` with its present sources captured, issued in the state `s` (R101). -/
structure State.CapturedAs (s : State) (l k : Latch) : Prop where
  idx : k.idx = l.idx
  seq : k.seq = l.seq
  op : k.op = l.op
  dest : k.dest = l.dest
  unit : k.unit = l.unit
  done : k.done = true
  source1 : ∀ r, l.s1 = some r → s.lookup r = .forwarded k.v1 ∨ s.lookup r = .regfile k.v1
  source2 : ∀ r, l.s2 = some r → s.lookup r = .forwarded k.v2 ∨ s.lookup r = .regfile k.v2
  source3 : ∀ r, l.s3 = some r → s.lookup r = .forwarded k.v3 ∨ s.lookup r = .regfile k.v3

theorem issueInOrder_of_no_hazard {s : State} {l : Latch} (free : ¬ s.Hazard l) :
    ∃ k, s.CapturedAs l k ∧ issueInOrder s l = { writes := .latch .rr k :: busyMark l } := by
  simp only [State.hazard_iff, not_or] at free
  obtain ⟨found1, found2, found3, ready⟩ := free
  obtain ⟨a, value1⟩ := Option.ne_none_iff_exists'.mp found1
  obtain ⟨b, value2⟩ := Option.ne_none_iff_exists'.mp found2
  obtain ⟨c, value3⟩ := Option.ne_none_iff_exists'.mp found3
  refine ⟨{ l with v1 := a, v2 := b, v3 := c, done := true }, ?_, ?_⟩
  · exact ⟨rfl, rfl, rfl, rfl, rfl, rfl, State.lookup_of_lookSlot value1, State.lookup_of_lookSlot value2,
      State.lookup_of_lookSlot value3⟩
  · simp only [issueInOrder, value1, value2, value3, if_neg ready]

theorem handler_rr_inOrder {s : State} {l : Latch} (build : s.params.variant = .inOrder) (works : s.WorksOn .rr l) :
    handler .rr s = issueInOrder s l := by
  obtain ⟨here, work⟩ := works
  simp [handler, handleRR, here, work, build]

/-! ## What RR's writes leave -/

/-- RR alone counts a stall, so the count is as its handler leaves it. -/
theorem stalls_written {s : State} {n : Nat} (takesEffect : .rr ∈ s.effective)
    (own : ∀ t : State, t.stalls = s.stalls → (t.applyAll (handler .rr s).writes).stalls = n) :
    s.written.stalls = n := by
  have others : ∀ m a, a ≠ .rr → ∀ w, Answers s a w → ∀ t : State, t.stalls = m → (t.apply w).stalls = m := by
    intro m a other w answers t same
    cases answers with
    | stall => exact absurd rfl other
    | _ => exact same
  exact written_of_owner (P := fun t => t.stalls = s.stalls) (Q := fun t => t.stalls = n) takesEffect rfl
    (others _) own (others _)

/-- What RR's writes establish and the stages evaluated after it keep holds once the writes are applied, whatever the
stages before it wrote (R76). -/
theorem written_of_rr {s : State} (completes : s.CycleCompletes) (noFlush : ¬ s.Flushes) {Q : State → Prop}
    (own : ∀ t : State, Q (t.applyAll (handler .rr s).writes))
    (after : ∀ a ∈ [Stage.oa, .d, .f], ∀ w, Answers s a w → ∀ t, Q t → Q (t.apply w)) : Q s.written := by
  have all : s.effective = [.rt, .wb, .exa, .exm, .exd, .exb, .m2, .m1] ++ .rr :: [.oa, .d, .f] := by
    simp only [State.effective, abortOf_of_completes completes, flushOf_of_not_flushes noFlush]
    rfl
  have applied : s.written = ((s.applyAll (s.writesOf [.rt, .wb, .exa, .exm, .exd, .exb, .m2, .m1])).applyAll
      (handler .rr s).writes).applyAll (s.writesOf [.oa, .d, .f]) := by
    simp only [State.written, all, State.writesOf, List.flatMap_append, List.flatMap_cons, State.applyAll_append]
  rw [applied]
  exact applyAll_writesOf_induct after (own _)

/-- The mark is applied after a release by Retire in the same cycle, so it stands (R78, R104). -/
theorem ready_written_of_busyMark {s : State} (completes : s.CycleCompletes) (noFlush : ¬ s.Flushes) {l k : Latch}
    (issues : (handler .rr s).writes = .latch .rr k :: busyMark l) {d : Reg} (dest : l.dest = some d) :
    s.written.ready d = false := by
  refine written_of_rr (Q := fun t => t.ready d = false) completes noFlush (fun t => ?_) ?_
  · rw [issues]
    simp [busyMark, dest, State.apply, State.ready_setReady]
  · rintro a late w answers t busy
    cases answers with
    | busy | rename | value | release | untag => exact absurd late (by decide)
    | _ => exact busy

theorem latch_notMem_busyMark (l : Latch) (st : Stage) (k : Latch) : .latch st k ∉ busyMark l := by
  unfold busyMark
  cases l.dest <;> simp

theorem stalls_applyAll_busyMark (t : State) (l : Latch) : (t.applyAll (busyMark l)).stalls = t.stalls := by
  unfold busyMark
  cases l.dest <;> rfl

/-- A stall counts, and the occupant stays as it is (R106). -/
theorem written_of_stalled {s : State} {l : Latch} (takesEffect : .rr ∈ s.effective) (here : s.latch .rr = some l)
    (stalls : handler .rr s = stalled) :
    s.written.stalls = s.stalls + 1 ∧ s.written.latch .rr = some l := by
  refine ⟨stalls_written takesEffect fun t same => ?_, latch_written takesEffect fun t same => ?_⟩ <;> rw [stalls]
  · exact congrArg (· + 1) same
  · exact same.trans here

/-- An issue counts no stall and leaves the captured record. -/
theorem written_of_issue {s : State} {l k : Latch} (takesEffect : .rr ∈ s.effective)
    (issues : (handler .rr s).writes = .latch .rr k :: busyMark l) :
    s.written.stalls = s.stalls ∧ s.written.latch .rr = some k := by
  refine ⟨stalls_written takesEffect fun t same => ?_, latch_written takesEffect fun t _ => ?_⟩ <;> rw [issues]
  · exact (stalls_applyAll_busyMark _ l).trans same
  · exact latch_applyAll_cons (latch_notMem_busyMark l .rr) t

/-! ## The occupant of RR in the advance pass -/

/-- After the departure from RR the pass only fills an empty RR and the stages before it. -/
theorem State.latch_advance_of_leaveRR {s : State} {a : Stage} (place : a ∉ [Stage.f, .d, .oa])
    (occupied : a = .rr → s.advanceBack.leaveRR.latch a ≠ none) :
    s.advance.latch a = s.advanceBack.leaveRR.latch a := by
  simp only [List.mem_cons, List.not_mem_nil, or_false, not_or] at place
  obtain ⟨notF, notD, notOa⟩ := place
  rw [State.advance_eq_front, State.latch_move_kept notF fun h => absurd h notD,
    State.latch_move_kept notD fun h => absurd h notOa, State.latch_move_kept notOa occupied]

theorem State.latch_advance_rr_waits {s : State} {l : Latch} (here : s.latch .rr = some l) (work : l.done = false) :
    s.advance.latch .rr = some l := by
  have reached : s.advanceBack.latch .rr = some l := (State.latch_advanceBack_front rfl).trans here
  have stays : s.advanceBack.leaveRR.latch .rr = some l := by
    simp [State.leaveRR, reached, work]
  rw [State.latch_advance_of_leaveRR (by decide) fun _ => by simp [stays], stays]

/-- In the in-order build a done occupant of RR waits there or moves to its unit (R80). -/
theorem State.latch_advance_rr_done {s : State} {l : Latch} (build : s.params.variant = .inOrder)
    (here : s.latch .rr = some l) :
    s.advance.latch .rr = some l ∨
      ∃ u, l.unit = some u ∧ s.advance.latch (unitStage u) = some { l with done := false } := by
  have reached : s.advanceBack.latch .rr = some l := (State.latch_advanceBack_front rfl).trans here
  have sameBuild : s.advanceBack.params.variant = .inOrder :=
    State.advanceBack_induct (P := fun t => t.params.variant = .inOrder) (fun _ _ _ h => h) (fun _ h => h) build
  have waits : s.advanceBack.leaveRR = s.advanceBack → s.advance.latch .rr = some l := by
    intro e
    rw [State.latch_advance_of_leaveRR (by decide) fun _ => by simp [e, reached], e, reached]
  rcases s.advanceBack.leaveRR_cases with e | ⟨k, place, _, ⟨other, _, _⟩ | ⟨_, u, unit, e⟩⟩
  · exact .inl (waits e)
  · cases sameBuild.symm.trans other
  · obtain rfl := Option.some.inj (reached.symm.trans place)
    rcases s.advanceBack.move_cases .rr (unitStage u) with stays | ⟨k, place', _, _, moves⟩
    · exact .inl (waits (e.trans stays))
    · obtain rfl := Option.some.inj (reached.symm.trans place')
      have apart : unitStage u ≠ .rr := by cases u <;> decide
      have behind : unitStage u ∉ [Stage.f, .d, .oa] := by cases u <;> decide
      refine .inr ⟨u, unit, ?_⟩
      rw [State.latch_advance_of_leaveRR behind fun h => absurd h apart, e, moves, State.latch_setLatch_ne _ _ apart,
        State.latch_setLatch_same]

/-! ## The cycle -/

/-- The in-order build makes no wake-up broadcast. -/
theorem commitPhase_inOrder {s : State} (build : s.params.variant = .inOrder) (completes : s.CycleCompletes)
    (noFlush : ¬ s.Flushes) : commitPhase (evaluate s) s = s.written := by
  have silent : commitOf (evaluate s) = none := by
    cases found : commitOf (evaluate s) with
    | none => rfl
    | some c => cases build.symm.trans (build_of_commitOf found)
  simp only [commitPhase, silent, flushOf_of_not_flushes noFlush,
    committedWrites_evaluate (abortOf_of_completes completes), State.written]

theorem cycle_inOrder {s : State} (build : s.params.variant = .inOrder) (completes : s.CycleCompletes)
    (noFlush : ¬ s.Flushes) : cycle s = (s.written.takeSnapshot.advance).endCycle (evaluate s) := by
  rw [cycle_of_completes completes, commitPhase_inOrder build completes noFlush]

theorem cycle_stalls_ready (s : State) :
    (cycle s).stalls = s.written.stalls ∧ ∀ d, (cycle s).ready d = s.written.ready d := by
  obtain ⟨_, _, _, _, _, _, _, _, _, _, frame⟩ := cycle_frame s
  rw [frame]
  exact ⟨rfl, fun _ => rfl⟩

/-- Settles O27: the handler answers a stall, and a record that is not done stays in RR. -/
theorem inOrderHazardStalls : Obligations.InOrderHazardStalls := by
  intro s l build works completes noFlush hazard
  have stalls : handler .rr s = stalled := (handler_rr_inOrder build works).trans (issueInOrder_of_hazard hazard)
  obtain ⟨here, work⟩ := works
  obtain ⟨counted, place⟩ :=
    written_of_stalled (mem_effective_of_not_flushes completes noFlush .rr) here stalls
  obtain ⟨stallsKept, _⟩ := cycle_stalls_ready s
  refine ⟨stallsKept.trans counted, ?_⟩
  rw [cycle_inOrder build completes noFlush]
  exact State.latch_advance_rr_waits (s := s.written.takeSnapshot) place work

/-- Settles O28: the handler leaves the captured record done and marks the destination after any release, and the
advance pass moves that record to its unit or leaves it waiting. -/
theorem inOrderIssueCapturesAndMarksBusy : Obligations.InOrderIssueCapturesAndMarksBusy := by
  intro s l build works completes noFlush free
  obtain ⟨k, captured, issue⟩ := issueInOrder_of_no_hazard free
  have issues : (handler .rr s).writes = .latch .rr k :: busyMark l :=
    congrArg HandlerOut.writes ((handler_rr_inOrder build works).trans issue)
  obtain ⟨counted, place⟩ := written_of_issue (mem_effective_of_not_flushes completes noFlush .rr) issues
  obtain ⟨stallsKept, readyKept⟩ := cycle_stalls_ready s
  have sameBuild : s.written.params.variant = .inOrder := by
    obtain ⟨params, _⟩ := applyAll_keepsArguments s (s.writesOf s.effective)
    exact (congrArg Params.variant params).trans build
  obtain ⟨idx, seq, op, dest, unit, done, source1, source2, source3⟩ := captured
  have stays : k = { k with done := true } := by rw [← done]
  refine ⟨stallsKept.trans counted,
    fun d target => (readyKept d).trans (ready_written_of_busyMark completes noFlush issues target),
    k, ?_, idx, seq, op, dest, source1, source2, source3⟩
  rw [cycle_inOrder build completes noFlush, ← unit, ← stays]
  exact State.latch_advance_rr_done (s := s.written.takeSnapshot) sameBuild place

end Sys2Proof.Machine
end

section
/-! SUPPORT. The branch predictor: the pattern counter (R116, R124), the flush test as a test for misprediction (R121,
R125), and what a cycle, a meaning and a step can do to the two tables (R117, R120, R123, R124). -/

namespace Sys2Proof.Machine

/-! ## The pattern counter (R116, R124) -/

theorem predictsTaken_iff (c : Fin 8) : predictsTaken c = true ↔ 4 ≤ c.val :=
  decide_eq_true_iff

theorem val_bump_true (c : Fin 8) : (bump true c).val = min 7 (c.val + 1) := by
  simp only [bump, if_true]
  split
  · show c.val + 1 = _
    omega
  · show 7 = _
    omega

theorem val_bump_false (c : Fin 8) : (bump false c).val = c.val - 1 :=
  rfl

theorem val_iterate_bump_true (n : Nat) (c : Fin 8) : ((bump true)^[n] c).val = min 7 (c.val + n) := by
  induction n with
  | zero =>
    show c.val = min 7 c.val
    omega
  | succ n ih =>
    rw [Function.iterate_succ_apply', val_bump_true, ih]
    omega

theorem val_iterate_bump_false (n : Nat) (c : Fin 8) : ((bump false)^[n] c).val = c.val - n := by
  induction n with
  | zero => rfl
  | succ n ih =>
    rw [Function.iterate_succ_apply', val_bump_false, ih]
    omega

/-- Settles O23: one outcome moves the counter as R116 says, and so many outcomes by induction on their number. -/
theorem patternCounterPredictsAndSaturates : Obligations.PatternCounterPredictsAndSaturates := by
  refine ⟨predictsTaken_iff, fun p i => ?_, fun c => ⟨val_bump_true c, val_bump_false c⟩,
    fun n c => ⟨val_iterate_bump_true n c, val_iterate_bump_false n c⟩⟩
  obtain ⟨_, counter⟩ := resetWith_predictor p i
  exact counter

/-! ## The flush test (R121, R125) -/

/-- A set tag leaves the decision to the counter; an unset one stands beside a counter that predicts not taken. -/
theorem flushTest_iff_mispredicts {tag : Option Word} {c : Fin 8} (sound : tag = none → c = 3) (taken : Bool) :
    flushTest taken tag c = true ↔ taken ≠ predictsTaken c := by
  cases tag with
  | none =>
    obtain rfl := sound rfl
    cases taken <;> decide
  | some word => cases taken <;> simp [flushTest, predictsTaken]

/-- Settles O24: the invariant is what the flush test needs of the entry. -/
theorem flushExactlyOnMisprediction : Obligations.FlushExactlyOnMisprediction :=
  fun _ i taken sound => flushTest_iff_mispredicts (sound i) taken

/-! ## What a cycle does to the tables -/

/-- The stages that are evaluated no later than EXB (R76). -/
def upToExb : List Stage :=
  [.rt, .wb, .exa, .exm, .exd, .exb]

theorem evalOrder_eq_upToExb_append : evalOrder = upToExb ++ [.m2, .m1, .rr, .oa, .d, .f] :=
  rfl

/-- Up to EXB only a zero divisor aborts (R192 to R194). -/
theorem divideByZero_of_abort_upToExb {s : State} {st : Stage} (early : st ∈ upToExb) {r : AbortReason}
    (aborts : (handler st s).abort? = some r) : r = .divideByZero := by
  cases handler_signals (HandlerOut.abort?_some aborts) with
  | divide => rfl
  | range | malformed => exact absurd early (by decide)

theorem no_abort_upToExb {s : State} (noDivide : abortOf (evaluate s) ≠ some .divideByZero) :
    ∀ st ∈ upToExb, (handler st s).abort? = none := by
  cases found : upToExb.findSome? fun st => (handler st s).abort? with
  | none => exact List.findSome?_eq_none_iff.mp found
  | some r =>
    obtain ⟨st, early, aborts⟩ := List.exists_of_findSome?_eq_some found
    obtain rfl := divideByZero_of_abort_upToExb early aborts
    refine absurd ?_ noDivide
    rw [abortOf, evaluate, List.findSome?_map, evalOrder_eq_upToExb_append, List.findSome?_append]
    exact congrArg (Option.or · _) found

/-- EXB's writes take effect unless a zero divisor ends the cycle before it (R92). -/
theorem exb_mem_effective {s : State} (noDivide : abortOf (evaluate s) ≠ some .divideByZero) : .exb ∈ s.effective := by
  have silent := no_abort_upToExb noDivide
  unfold State.effective
  split
  · rw [evalOrder_eq_upToExb_append, List.takeWhile_append_of_pos fun st early => by rw [silent st early]; rfl]
    exact List.mem_append_left _ (by decide)
  · decide
  · decide

/-- The tables after a cycle, cut short or not, are as the effective writes leave them. -/
theorem cycle_keepsPredictor_written (s : State) : KeepsPredictor s.written (cycle s) := by
  obtain ⟨_, _, _, _, _, _, _, _, _, _, frame⟩ := cycle_frame s
  rw [frame]
  exact ⟨rfl, rfl⟩

theorem KeepsPredictor.trans {s t u : State} (h : KeepsPredictor s t) (k : KeepsPredictor t u) : KeepsPredictor s u := by
  obtain ⟨btb, pt⟩ := h
  obtain ⟨btb', pt'⟩ := k
  exact ⟨btb'.trans btb, pt'.trans pt⟩

/-- No stage but EXB writes the tables. -/
theorem KeepsPredictor.apply {s t : State} (h : KeepsPredictor s t) {a : Stage} (other : a ≠ .exb) {w : Write}
    (answers : Answers s a w) : KeepsPredictor s (t.apply w) := by
  cases answers with
  | btb | pt => exact absurd rfl other
  | _ => exact h

theorem ResolvedBy.of_kept {s t u : State} {l : Latch} (h : ResolvedBy s l t) (kept : KeepsPredictor t u) :
    ResolvedBy s l u := by
  obtain ⟨entry, counter, others⟩ := h
  obtain ⟨btb, pt⟩ := kept
  refine ⟨by rw [btb]; exact entry, by rw [pt]; exact counter, ?_⟩
  unfold KeepsPredictorBut
  rw [btb, pt]
  exact others

/-- A branch that works in EXB resolves in the cycle when EXB's writes take effect (R120). -/
theorem cycle_resolvedBy {s : State} {l : Latch} (takesEffect : .exb ∈ s.effective) (works : s.WorksOn .exb l)
    (branch : isBranch l.op = true) : ResolvedBy s l (cycle s) :=
  (written_resolvedBy takesEffect works branch).of_kept (cycle_keepsPredictor_written s)

/-- Without a branch to resolve EXB leaves the tables alone too. -/
theorem handler_exb_keepsPredictor {s t : State} (noBranch : ∀ l, s.WorksOn .exb l → isBranch l.op ≠ true)
    (h : KeepsPredictor s t) : KeepsPredictor s (t.applyAll (handler .exb s).writes) := by
  show KeepsPredictor s (t.applyAll (handleEXB s).writes)
  rcases handleEXB_cases s with e | ⟨l, here, work, ⟨branch, _⟩ | ⟨_, e⟩⟩
  · rw [e]
    exact h
  · exact absurd branch (noBranch l ⟨here, work⟩)
  · rw [e]
    exact h

/-- A cycle keeps both tables, or resolves the branch in EXB (R120). -/
theorem cycle_predictor_cases (s : State) :
    KeepsPredictor s (cycle s) ∨ ∃ l, s.WorksOn .exb l ∧ isBranch l.op = true ∧ ResolvedBy s l (cycle s) := by
  have kept : KeepsPredictor s s.written → KeepsPredictor s (cycle s) := fun h =>
    h.trans (cycle_keepsPredictor_written s)
  by_cases takesEffect : .exb ∈ s.effective
  · by_cases resolves : ∃ l, s.WorksOn .exb l ∧ isBranch l.op = true
    · obtain ⟨l, works, branch⟩ := resolves
      exact .inr ⟨l, works, branch, cycle_resolvedBy takesEffect works branch⟩
    · have noBranch : ∀ l, s.WorksOn .exb l → isBranch l.op ≠ true :=
        fun l works branch => resolves ⟨l, works, branch⟩
      exact .inl (kept (written_of_owner takesEffect ⟨rfl, rfl⟩ (fun _ other _ answers _ h => h.apply other answers)
        (fun _ => handler_exb_keepsPredictor noBranch) fun _ other _ answers _ h => h.apply other answers))
  · exact .inl (kept (written_induct ⟨rfl, rfl⟩ fun _ ha _ answers _ h =>
      h.apply (ne_of_mem_of_not_mem ha takesEffect) answers))

/-! ## What a step does to the tables -/

/-- Each predictor entry of `t` is that of `s`, or has its tag set. -/
def KeepsOrTags (s t : State) : Prop :=
  ∀ i : Fin 16, (t.btb[i] = s.btb[i] ∧ t.pt[i] = s.pt[i]) ∨ t.btb[i].tag ≠ none

theorem KeepsPredictor.keepsOrTags {s t : State} (h : KeepsPredictor s t) : KeepsOrTags s t := by
  obtain ⟨btb, pt⟩ := h
  exact fun i => .inl ⟨by rw [btb], by rw [pt]⟩

/-- The entry of a resolved branch has its tag set (R123), and every other one is as before. -/
theorem keepsOrTags_of_resolvedEntry {s t : State} {i : Fin 16} {p : Int} {imm : Word}
    (entry : t.btb[i] = resolvedEntry p imm) (others : KeepsPredictorBut s t i) : KeepsOrTags s t := by
  intro j
  by_cases same : j = i
  · subst same
    rw [entry]
    exact .inr (Option.some_ne_none _)
  · exact .inl (others j same)

theorem cycle_keepsOrTags (s : State) : KeepsOrTags s (cycle s) := by
  rcases cycle_predictor_cases s with kept | ⟨l, _, _, resolved⟩
  · exact kept.keepsOrTags
  · exact keepsOrTags_of_resolvedEntry resolved.entry resolved.others

/-- The resolution of R120 on the tables. -/
theorem resolve_keepsOrTags (s : State) (p : Int) (taken : Bool) (imm : Word) :
    KeepsOrTags s (s.resolve p taken imm) := by
  refine keepsOrTags_of_resolvedEntry (i := predictorIndex p) (p := p) (imm := imm) ?_ fun j other => ⟨?_, ?_⟩
  · exact (State.btb_setBtb s _ _ _).trans (if_pos rfl)
  · exact (State.btb_setBtb s _ j _).trans (if_neg other)
  · exact (State.pt_setPt (s.setBtb _ _) _ j _).trans (if_neg other)

theorem markIssued_keepsPredictor (s : State) (i : Instr) : KeepsPredictor s (s.markIssued i) := by
  rw [State.markIssued_frame]
  exact ⟨rfl, rfl⟩

/-- Of all meanings only that of a branch writes the tables. -/
theorem ends_keepsOrTags {s t : State} {i : Instr} (ends : Ends s i t) : KeepsOrTags s t := by
  cases ends with
  | branch next p taken imm => exact resolve_keepsOrTags (s.pass i next) p taken imm
  | abort => exact (markIssued_keepsPredictor s i).keepsOrTags
  | decode | write | store | ret => exact KeepsPredictor.keepsOrTags ⟨rfl, rfl⟩

theorem step_keepsOrTags {s t : State} (next : step s = .next t) : KeepsOrTags s t :=
  step_keeps (cycle_keepsOrTags s) (fun _ _ => ends_keepsOrTags) next

/-- Settles O54: an entry whose tag is unset after the step was not written by it. -/
theorem stepKeepsPredictorSound : Obligations.StepKeepsPredictorSound := by
  intro s t sound next i unset
  rcases step_keepsOrTags next i with ⟨entry, counter⟩ | tagged
  · exact counter.trans (sound i (entry ▸ unset))
  · exact absurd unset tagged

/-- Settles O33: EXB's writes take effect, no other stage writes the tables, and every resolution sets a tag. -/
theorem branchResolveWritesThePredictor : Obligations.BranchResolveWritesThePredictor := by
  refine ⟨fun s l works branch noDivide => ?_, fun s i changed => ?_, fun s t i next set => ?_⟩
  · have takesEffect : .exb ∈ s.effective := exb_mem_effective fun aborts =>
      noDivide (congrArg State.status (cycle_of_abort aborts))
    obtain ⟨entry, counter, _⟩ := cycle_resolvedBy takesEffect works branch
    exact ⟨entry, counter⟩
  · rcases cycle_predictor_cases s with ⟨btb, pt⟩ | ⟨l, works, branch, resolved⟩
    · rw [btb, pt] at changed
      exact absurd changed (by simp)
    · refine ⟨l, works, branch, ?_⟩
      by_contra other
      obtain ⟨entry, counter⟩ := resolved.others i (Ne.symm other)
      exact changed.elim (· entry) (· counter)
  · rcases step_keepsOrTags next i with ⟨entry, _⟩ | tagged
    · rw [entry]
      exact set
    · exact tagged

end Sys2Proof.Machine
end

section
/-! SUPPORT. Rings of slots between a head and a tail (R22, R23, R149): what taking the slot at the tail and freeing the
one at the head do to which slots are occupied. -/

namespace Sys2Proof.Machine

/-! ## Distances in a ring (R149) -/

theorem ringNext_eq {cap n : Nat} (hn : n < cap) : ringNext cap n = if n + 1 = cap then 0 else n + 1 := by
  unfold ringNext
  split
  · rename_i last
    rw [last, Nat.mod_self]
  · exact Nat.mod_eq_of_lt (by omega)

theorem ringCount_eq {cap head tail : Nat} (hh : head < cap) (ht : tail < cap) :
    ringCount cap head tail = if head ≤ tail then tail - head else tail + cap - head := by
  unfold ringCount
  split
  · rename_i below
    rw [Nat.sub_add_comm below, Nat.add_mod_right, Nat.mod_eq_of_lt (by omega)]
  · exact Nat.mod_eq_of_lt (by omega)

/-- A slot lies in the ring when it is nearer to the head than the tail is. -/
theorem inRing_iff {cap head tail k : Nat} (hh : head < cap) (ht : tail < cap) (hk : k < cap) :
    inRing cap head tail k ↔
      (if head ≤ k then k - head else k + cap - head) < if head ≤ tail then tail - head else tail + cap - head := by
  rw [← ringCount_eq hh hk, ← ringCount_eq hh ht]
  rfl

theorem ringNext_injective {cap m n : Nat} (hm : m < cap) (hn : n < cap) (h : ringNext cap m = ringNext cap n) :
    m = n := by
  rw [ringNext_eq hm, ringNext_eq hn] at h
  split at h <;> split at h <;> omega

/-- Taking the tail of a ring with room adds just that slot. -/
theorem inRing_take {cap head tail k : Nat} (hh : head < cap) (ht : tail < cap) (hk : k < cap)
    (room : ringFull cap head tail = false) :
    inRing cap head (ringNext cap tail) k ↔ k = tail ∨ inRing cap head tail k := by
  have next : ringNext cap tail < cap := Nat.mod_lt _ (by omega)
  have apart : ringNext cap tail ≠ head := by simpa [ringFull] using room
  rw [inRing_iff hh next hk, inRing_iff hh ht hk]
  rw [ringNext_eq ht] at apart ⊢
  split_ifs at apart ⊢ <;> omega

/-- Freeing the head of a ring that is not empty removes just that slot. -/
theorem inRing_free {cap head tail k : Nat} (hh : head < cap) (ht : tail < cap) (hk : k < cap) (taken : head ≠ tail) :
    inRing cap (ringNext cap head) tail k ↔ k ≠ head ∧ inRing cap head tail k := by
  have next : ringNext cap head < cap := Nat.mod_lt _ (by omega)
  rw [inRing_iff next ht hk, inRing_iff hh ht hk, ringNext_eq hh]
  split_ifs <;> omega

/-- Freeing the head leaves room. -/
theorem ringFull_free {cap head tail : Nat} (hh : head < cap) (ht : tail < cap) (taken : head ≠ tail) :
    ringFull cap (ringNext cap head) tail = false := by
  have apart : ringNext cap tail ≠ ringNext cap head := fun h => taken (ringNext_injective ht hh h).symm
  simpa [ringFull] using apart

/-! ## Slots -/

theorem getD_set {α : Type} (slots : List (Option α)) (n k : Nat) (x : Option α) (inside : n < slots.length) :
    (slots.set n x).getD k none = if k = n then x else slots.getD k none := by
  simp only [List.getD_eq_getElem?_getD, List.getElem?_set]
  split
  · rename_i same
    subst same
    simp
  · rename_i other
    rw [if_neg (Ne.symm other)]

theorem getD_map_map {α β : Type} (slots : List (Option α)) (k : Nat) (g : α → β) :
    (slots.map fun e => e.map g).getD k none = (slots.getD k none).map g := by
  simp only [List.getD_eq_getElem?_getD, List.getElem?_map]
  cases slots[k]? <;> rfl

/-- The occupied slots of a ring of capacity `cap` are exactly those between head and tail (R149). -/
def OccupiedBetween {α : Type} (cap head tail : Nat) (slots : List (Option α)) : Prop :=
  ∀ k, k < cap → ((slots.getD k none).isSome = true ↔ inRing cap head tail k)

section
variable {α : Type} {cap head tail : Nat} {slots : List (Option α)}

theorem OccupiedBetween.take (h : OccupiedBetween cap head tail slots) (size : slots.length = cap) (hh : head < cap)
    (ht : tail < cap) (room : ringFull cap head tail = false) (x : α) :
    OccupiedBetween cap head (ringNext cap tail) (slots.set tail (some x)) := by
  intro k hk
  rw [inRing_take hh ht hk room, getD_set _ _ _ _ (size ▸ ht), ← h k hk]
  split <;> simp_all

theorem OccupiedBetween.free (h : OccupiedBetween cap head tail slots) (size : slots.length = cap) (hh : head < cap)
    (ht : tail < cap) (taken : head ≠ tail) :
    OccupiedBetween cap (ringNext cap head) tail (slots.set head none) := by
  intro k hk
  rw [inRing_free hh ht hk taken, getD_set _ _ _ _ (size ▸ hh), ← h k hk]
  split <;> simp_all

/-- What is in the slots does not matter, only which are occupied. -/
theorem OccupiedBetween.map (h : OccupiedBetween cap head tail slots) (g : α → α) :
    OccupiedBetween cap head tail (slots.map fun e => e.map g) := by
  intro k hk
  rw [getD_map_map, Option.isSome_map]
  exact h k hk

/-- An empty ring is empty wherever its pointers meet. -/
theorem OccupiedBetween.of_empty (h : OccupiedBetween cap head head slots) (n : Nat) :
    OccupiedBetween cap n n slots := fun k hk =>
  (h k hk).trans (iff_of_false (not_inRing_of_empty cap head k) (not_inRing_of_empty cap n k))

end

end Sys2Proof.Machine
end

section
/-! SUPPORT. The writes of a cycle in the order in which they take effect (R76, R78): Retire's, then the units', then
issue's, then the front stages'. What each of these does to the ROB and to a register's tag. -/

namespace Sys2Proof.Machine

/-! ## The order of the writes (R76) -/

/-- The stages whose writes take effect between Retire's and issue's. -/
def unitPhase : List Stage :=
  [.wb, .exa, .exm, .exd, .exb, .m2, .m1]

/-- The stages whose writes take effect behind issue's. -/
def frontPhase : List Stage :=
  [.oa, .d, .f]

/-- The writes of issue that take effect: none when an abort or a flush discards them. -/
def State.issueWrites (s : State) : List Write :=
  if .rr ∈ s.effective then (handler .rr s).writes else []

theorem issueWrites_of_completes {s : State} (completes : s.CycleCompletes) (noFlush : ¬ s.Flushes) :
    s.issueWrites = (handler .rr s).writes :=
  if_pos (mem_effective_of_not_flushes completes noFlush .rr)

theorem effective_eq (s : State) :
    ∃ units issue front, s.effective = .rt :: (units ++ issue ++ front) ∧ units.Sublist unitPhase ∧
      issue.Sublist [.rr] ∧ front.Sublist frontPhase := by
  have order : evalOrder = [.rt] ++ unitPhase ++ [.rr] ++ frontPhase := rfl
  obtain ⟨early, front, split, early', front'⟩ := List.sublist_append_iff.mp (order ▸ effective_sublist s)
  obtain ⟨back, issue, rfl, back', issue'⟩ := List.sublist_append_iff.mp early'
  obtain ⟨retire, units, rfl, retire', units'⟩ := List.sublist_append_iff.mp back'
  have retires : .rt ∈ retire := by
    have mem := rt_mem_effective s
    rw [split] at mem
    simp only [List.mem_append] at mem
    rcases mem with ((h | h) | h) | h
    · exact h
    · exact absurd (units'.subset h) (by decide)
    · exact absurd (issue'.subset h) (by decide)
    · exact absurd (front'.subset h) (by decide)
  rcases List.sublist_singleton.mp retire' with rfl | rfl
  · cases retires
  · exact ⟨units, issue, front, by simpa using split, units', issue', front'⟩

/-- What Retire's writes establish, the units' keep, issue's turn into `Q` and the front stages' keep, holds once the
writes of the cycle are applied, whether or not issue's take effect. -/
theorem written_by_phases {s : State} {P Q : State → Prop} (retire : P (s.applyAll (handler .rt s).writes))
    (units : ∀ a ∈ unitPhase, ∀ w, Answers s a w → ∀ t, P t → P (t.apply w))
    (issue : ∀ t, P t → Q (t.applyAll s.issueWrites))
    (front : ∀ a ∈ frontPhase, ∀ w, Answers s a w → ∀ t, Q t → Q (t.apply w)) : Q s.written := by
  obtain ⟨before, issues, after, split, before', issues', after'⟩ := effective_eq s
  have own : s.writesOf issues = s.issueWrites := by
    have mem : .rr ∈ s.effective ↔ .rr ∈ issues := by
      have notBefore : .rr ∉ before := fun h => absurd (before'.subset h) (by decide)
      have notAfter : .rr ∉ after := fun h => absurd (after'.subset h) (by decide)
      simp [split, notBefore, notAfter]
    rcases List.sublist_singleton.mp issues' with rfl | rfl <;> simp [State.issueWrites, mem, State.writesOf]
  have applied : s.written = (((s.applyAll (handler .rt s).writes).applyAll (s.writesOf before)).applyAll
      s.issueWrites).applyAll (s.writesOf after) := by
    rw [← own]
    simp only [State.written, split, State.writesOf, List.flatMap_append, List.flatMap_cons, State.applyAll_append]
  rw [applied]
  refine applyAll_writesOf_induct (fun a ha => front a (after'.subset ha)) (issue _ ?_)
  exact applyAll_writesOf_induct (fun a ha => units a (before'.subset ha)) retire

/-- Registers, ROB and counters after a cycle, cut short or not, are as the writes leave them. -/
theorem cycle_of_written {s : State} {P : State → Prop} (written : P s.written)
    (rest : ∀ (t : State) latches pc fetchHalt rs rsHead rsTail fwd cycles status snapshot, P t →
      P { t with
          latches := latches, pc := pc, fetchHalt := fetchHalt, rs := rs, rsHead := rsHead, rsTail := rsTail
          fwd := fwd, cycles := cycles, status := status, snapshot := snapshot }) : P (cycle s) := by
  obtain ⟨_, _, _, _, _, _, _, _, _, _, frame⟩ := cycle_frame s
  rw [frame]
  exact rest _ _ _ _ _ _ _ _ _ _ _ written

/-! ## Issue (R131 to R138) -/

theorem not_control_of_isRsForm {op : Opcode} (h : isRsForm op = true) : isBranch op = false ∧ op ≠ .ret := by
  cases op with
  | bez | bgez | blez | bgtz | bltz | ret => cases h
  | _ => exact ⟨rfl, by decide⟩

theorem handler_rr_outOfOrder {s : State} {l : Latch} (build : s.params.variant = .outOfOrder)
    (works : s.WorksOn .rr l) : handler .rr s = issueOutOfOrder s l := by
  obtain ⟨here, work⟩ := works
  simp [handler, handleRR, here, work, build]

/-- Each of the four reasons to stall stalls (R131, R132, R135, R139). -/
theorem issueOutOfOrder_of_heldBack {s : State} {l : Latch} (held : s.HeldBack l) : issueOutOfOrder s l = stalled := by
  rcases held with ⟨branch, r, source, tagged⟩ | ⟨ret, busy⟩ | ⟨notBranch, notRet, dest, full⟩ | ⟨form, full⟩
  · have waits : (s.tag r).isSome = true := Option.isSome_iff_ne_none.mpr tagged
    simp [issueOutOfOrder, branch, issueBranch, source, waits]
  · simp [issueOutOfOrder, ret, isBranch, issueRet, busy]
  · have needs : l.dest.isSome = true := Option.isSome_iff_ne_none.mpr dest
    simp [issueOutOfOrder, notBranch, notRet, issueRenamed, needs, full]
  · obtain ⟨notBranch, notRet⟩ := not_control_of_isRsForm form
    simp [issueOutOfOrder, notBranch, notRet, issueRenamed, form, full]

/-- Without a reason to stall, what is neither a branch nor `ret` captures its sources and renames its destination. -/
theorem issueOutOfOrder_of_free {s : State} {l : Latch} (free : ¬ s.HeldBack l) (notBranch : isBranch l.op = false)
    (notRet : l.op ≠ .ret) :
    issueOutOfOrder s l = { writes := .latch .rr (s.captured l) :: renameWrites s l } := by
  have room : ((l.dest.isSome && s.robFull) || (isRsForm l.op && s.rsFull)) = false := by
    by_contra full
    simp only [Bool.not_eq_false, Bool.or_eq_true, Bool.and_eq_true, Option.isSome_iff_ne_none] at full
    rcases full with ⟨dest, full⟩ | full
    · exact free (.inr (.inr (.inl ⟨notBranch, notRet, dest, full⟩)))
    · exact free (.inr (.inr (.inr full)))
  simp [issueOutOfOrder, notBranch, notRet, issueRenamed, room]

/-- The writes of an issue that captures the record `k` and renames `d` to the ROB slot `id` (R131, R138). -/
def renamingIssue (k : Latch) (d : Reg) (id : RobId) : List Write :=
  [.latch .rr k, .robAllocate d, .regTag d (some id), .regReady d false]

theorem renamingIssue_of_dest {s : State} {l : Latch} {d : Reg} (dest : l.dest = some d) (k : Latch) :
    .latch .rr k :: renameWrites s l = renamingIssue k d s.robTail := by
  simp only [renameWrites, dest, renamingIssue]

/-- Such an issue tags the register it renames, marks it busy, and leaves every value alone. -/
theorem reads_renamingIssue (t : State) (k : Latch) (d q : Reg) (id : RobId) :
    (t.applyAll (renamingIssue k d id)).x q = t.x q ∧
      (t.applyAll (renamingIssue k d id)).tag q = (if q = d then some id else t.tag q) ∧
      (t.applyAll (renamingIssue k d id)).ready q = if q = d then false else t.ready q := by
  let allocated := (t.setLatch .rr (some k)).robAllocate d
  refine ⟨?_, ?_, ?_⟩
  · exact (State.x_setReady _ d q false).trans (State.x_setTag allocated d q _)
  · exact (State.tag_setReady _ d q false).trans (State.tag_setTag allocated d q _)
  · have marked := State.ready_setReady (allocated.setTag d (some id)) d q false
    rwa [State.ready_setTag] at marked

/-- What issue can write: only latches and counters; in-order, a busy mark too; out-of-order, a rename of the occupant's
destination to the ROB slot at the tail, for which there is room (R104, R131, R138). -/
inductive IssueBlock (s : State) : List Write → Prop where
  | plain {ws} (h : ∀ w ∈ ws, w.plain = true) : IssueBlock s ws
  | mark (k : Latch) (d : Reg) (build : s.params.variant = .inOrder) : IssueBlock s [.latch .rr k, .regReady d false]
  | rename (l k : Latch) (d : Reg) (works : s.WorksOn .rr l) (dest : l.dest = some d) (room : s.robFull = false) :
    IssueBlock s (renamingIssue k d s.robTail)

theorem IssueBlock.one (s : State) {w : Write} (h : w.plain = true) : IssueBlock s [w] :=
  .plain (List.forall_mem_singleton.mpr h)

theorem handler_rr_issueBlock (s : State) : IssueBlock s (handler .rr s).writes := by
  show IssueBlock s (handleRR s).writes
  rcases handleRR_cases s with h | ⟨l, here, work, ⟨build, h⟩ | ⟨_, h⟩⟩ <;> rw [h]
  · exact .plain (List.forall_mem_nil _)
  · rcases issueInOrder_cases s l with h | ⟨_, _, _, _, _, _, _, h⟩ <;> rw [h]
    · exact .one s rfl
    · unfold busyMark
      cases l.dest with
      | none => exact .one s rfl
      | some d => exact .mark _ d build
  · rcases issueOutOfOrder_cases s l with h | ⟨_, _, _, _, h⟩ | ⟨_, _, h⟩ | ⟨_, _, room, _, h⟩ <;> rw [h]
    · exact .one s rfl
    · exact .one s rfl
    · exact .one s rfl
    · cases dest : l.dest with
      | none =>
        simp only [renameWrites, dest]
        exact .one s rfl
      | some d =>
        simp only [renamingIssue_of_dest dest]
        exact .rename l _ d ⟨here, work⟩ dest (room (by rw [dest]; rfl))

theorem issueWrites_issueBlock (s : State) : IssueBlock s s.issueWrites := by
  unfold State.issueWrites
  split
  · exact handler_rr_issueBlock s
  · exact .plain (List.forall_mem_nil _)

/-! ## Retire (R88, R140) -/

/-- The writes of Retire when the ROB head commits: of the latch nothing but the count, then the commit. -/
theorem handler_rt_of_commits {s : State} {e : RobEntry} (commits : s.Commits e) :
    ∃ ws, (∀ w ∈ ws, w.plain = true) ∧ (handler .rt s).writes = ws ++ commitWrites s e ∧
      (handler .rt s).commit = some (e.id, e.result) := by
  have own : handler .rt s =
      { writes := (retireLatch s).writes ++ commitWrites s e
        signal := (retireLatch s).signal
        commit := some (e.id, e.result) } := by
    simp only [handler, handleRT, (committing_iff s e).mpr commits]
  refine ⟨(retireLatch s).writes, ?_, by rw [own], by rw [own]⟩
  rcases retireLatch_cases s with h | ⟨l, _, _, h⟩ <;> rw [h]
  · exact List.forall_mem_nil _
  · rcases retireWrites_cases s l with silent | ⟨_, inOrder, _, _⟩
    · rw [silent, List.append_nil]
      exact List.forall_mem_cons.mpr ⟨rfl, List.forall_mem_singleton.mpr rfl⟩
    · cases inOrder.symm.trans commits.build

/-! ## The ROB in a cycle -/

/-- `t` has the ROB of `s`. -/
structure KeepsRob (s t : State) : Prop where
  params : t.params = s.params
  rob : t.rob = s.rob
  head : t.robHead = s.robHead
  tail : t.robTail = s.robTail

theorem KeepsRob.refl (s : State) : KeepsRob s s :=
  ⟨rfl, rfl, rfl, rfl⟩

theorem KeepsRob.trans {s t u : State} (h : KeepsRob s t) (k : KeepsRob t u) : KeepsRob s u :=
  ⟨k.params.trans h.params, k.rob.trans h.rob, k.head.trans h.head, k.tail.trans h.tail⟩

/-- The write is to the ROB. -/
def Write.toRob : Write → Bool
  | .robAllocate _ | .robComplete _ _ | .robFree => true
  | _ => false

theorem Write.toRob_of_plain {w : Write} (h : w.plain = true) : w.toRob = false := by
  cases w with
  | robAllocate | robComplete | robFree => cases h
  | _ => rfl

theorem KeepsRob.apply {w : Write} (h : w.toRob = false) (t : State) : KeepsRob t (t.apply w) := by
  cases w with
  | robAllocate | robComplete | robFree => cases h
  | _ => exact ⟨rfl, rfl, rfl, rfl⟩

theorem KeepsRob.applyAll {ws : List Write} (h : ∀ w ∈ ws, w.toRob = false) (t : State) :
    KeepsRob t (t.applyAll ws) :=
  State.applyAll_induct (.refl t) fun w hw _ k => k.trans (.apply (h w hw) _)

/-- A commit does to the ROB what freeing its head does. -/
theorem keepsRob_commitWrites (s t : State) (e : RobEntry) : KeepsRob t.robFree (t.applyAll (commitWrites s e)) := by
  rcases commitWrites_cases s e with ⟨_, h⟩ | ⟨_, h⟩ <;> rw [h] <;> exact ⟨rfl, rfl, rfl, rfl⟩

/-- Retire keeps the ROB, or frees its head, which it finds occupied (R140). -/
theorem retire_rob_cases (s : State) :
    KeepsRob s (s.applyAll (handler .rt s).writes) ∨
      s.robHead ≠ s.robTail ∧ KeepsRob s.robFree (s.applyAll (handler .rt s).writes) := by
  cases committing : s.committing with
  | some e =>
    have commits := (committing_iff s e).mp committing
    obtain ⟨ws, plain, writes, _⟩ := handler_rt_of_commits commits
    obtain ⟨params, rob, head, tail⟩ := KeepsRob.applyAll (fun w hw => Write.toRob_of_plain (plain w hw)) s
    rw [writes, State.applyAll_append]
    have freed : KeepsRob s.robFree (s.applyAll ws).robFree := by
      refine ⟨params, ?_, ?_, tail⟩
      · simp only [State.robFree, rob, head]
      · simp only [State.robFree, params, head]
    exact .inr ⟨commits.occupied, freed.trans (keepsRob_commitWrites s _ e)⟩
  | none =>
    have writes : (handler .rt s).writes = (retireLatch s).writes := by
      simp only [handler, handleRT, committing]
    rw [writes]
    refine .inl (KeepsRob.applyAll ?_ s)
    rcases retireLatch_cases s with h | ⟨l, _, _, h⟩ <;> rw [h]
    · exact List.forall_mem_nil _
    · rcases retireWrites_cases s l with h | ⟨_, _, _, h⟩ <;> rw [h] <;> simp [Write.toRob]

/-- A unit keeps the ROB, or completes an entry of it (R145). -/
theorem unit_rob_cases {s : State} {a : Stage} (unit : a ∈ unitPhase) {w : Write} (answers : Answers s a w) :
    w.toRob = false ∨ ∃ id v, w = .robComplete id v := by
  cases answers with
  | robAllocate | robFree => exact absurd unit (by decide)
  | complete _ id v => exact .inr ⟨id, v, rfl⟩
  | _ => exact .inl rfl

theorem front_toRob {s : State} {a : Stage} (front : a ∈ frontPhase) {w : Write} (answers : Answers s a w) :
    w.toRob = false := by
  cases answers with
  | robAllocate | robFree => exact absurd front (by decide)
  | complete _ id v unit =>
    simp only [frontPhase, completers, List.mem_cons, List.not_mem_nil, or_false] at front unit
    rcases front with rfl | rfl | rfl <;> simp at unit
  | _ => rfl

/-- Completing a result rewrites one entry, if there is one (R145). -/
theorem robEntry_robComplete (t : State) (id k : RobId) (v : Word) :
    (t.robComplete id v).robEntry k =
      if k = id then (t.robEntry id).map fun e => { e with completed := true, result := v } else t.robEntry k := by
  unfold State.robEntry
  by_cases inside : id < t.rob.length
  · exact getD_set _ _ _ _ inside
  · have free : t.rob.getD id none = none := List.getD_eq_default _ _ (Nat.not_lt.mp inside)
    show (t.rob.set id _).getD k none = _
    rw [List.set_eq_of_length_le (Nat.not_lt.mp inside), free]
    split
    · rename_i same
      rw [same, free]
      rfl
    · rfl

/-! ## Every step keeps the ROB a ring (R149) -/

theorem State.robRing_iff {s : State} :
    s.RobRing ↔ OccupiedBetween s.params.robCap s.robHead s.robTail s.rob ∧
      ∀ k < s.params.robCap, ∀ e, s.robEntry k = some e → e.id = k :=
  forall₂_and

theorem State.RobRing.of_kept {s t : State} (h : s.RobRing) (kept : KeepsRob s t) : t.RobRing := by
  obtain ⟨params, rob, head, tail⟩ := kept
  unfold State.RobRing State.robEntry at *
  rw [params, rob, head, tail]
  exact h

theorem State.RobRing.robFree {s : State} (h : s.RobRing) (z : s.Sized) (taken : s.robHead ≠ s.robTail) :
    s.robFree.RobRing := by
  obtain ⟨slots, ids⟩ := State.robRing_iff.mp h
  refine State.robRing_iff.mpr ⟨slots.free z.rob z.robHead z.robTail taken, fun k hk e he => ids k hk e ?_⟩
  have entry : s.robFree.robEntry k = if k = s.robHead then none else s.robEntry k :=
    getD_set _ _ _ _ (z.rob ▸ z.robHead)
  rw [entry] at he
  split at he
  · cases he
  · exact he

theorem State.RobRing.robComplete {s : State} (h : s.RobRing) (id : RobId) (v : Word) :
    (s.robComplete id v).RobRing := by
  intro k hk
  obtain ⟨occupied, ids⟩ := h k hk
  rw [robEntry_robComplete]
  split
  · rename_i same
    subst same
    refine ⟨(by rw [Option.isSome_map]; exact occupied), fun e he => ?_⟩
    obtain ⟨j, was, rfl⟩ := Option.map_eq_some_iff.mp he
    exact ids j was
  · exact ⟨occupied, ids⟩

theorem robEntry_robAllocate {s : State} (inside : s.robTail < s.rob.length) (d : Reg) (k : RobId) :
    (s.robAllocate d).robEntry k = if k = s.robTail then some ⟨s.robTail, d, 0, false, false⟩ else s.robEntry k :=
  getD_set _ _ _ _ inside

theorem State.RobRing.robAllocate {s : State} (h : s.RobRing) (z : s.Sized) (room : s.robFull = false) (d : Reg) :
    (s.robAllocate d).RobRing := by
  obtain ⟨slots, ids⟩ := State.robRing_iff.mp h
  refine State.robRing_iff.mpr ⟨slots.take z.rob z.robHead z.robTail room _, fun k hk e he => ?_⟩
  rw [robEntry_robAllocate (z.rob ▸ z.robTail)] at he
  split at he
  · rename_i same
    cases he
    exact same.symm
  · exact ids k hk e he

/-- The ROB of `t` is a ring of its sizes, with room in it if `s` had room. -/
structure RobReady (s t : State) : Prop where
  sized : t.Sized
  ring : t.RobRing
  room : s.robFull = false → t.robFull = false

theorem RobReady.of_kept {s t u : State} (h : RobReady s t) (sized : u.Sized) (kept : KeepsRob t u) :
    RobReady s u := by
  refine ⟨sized, h.ring.of_kept kept, fun room => ?_⟩
  obtain ⟨params, _, head, tail⟩ := kept
  unfold State.robFull at *
  rw [params, head, tail]
  exact h.room room

/-- Retire leaves the ROB a ring with no less room. -/
theorem robReady_retire {s : State} (z : s.Sized) (ring : s.RobRing) :
    RobReady s (s.applyAll (handler .rt s).writes) := by
  have sized : (s.applyAll (handler .rt s).writes).Sized := State.applyAll_induct z fun w _ _ k => k.apply w
  rcases retire_rob_cases s with kept | ⟨taken, freed⟩
  · exact RobReady.of_kept ⟨z, ring, id⟩ sized kept
  · exact RobReady.of_kept ⟨z.apply .robFree, ring.robFree z taken, fun _ => ringFull_free z.robHead z.robTail taken⟩
      sized freed

/-- Issue takes a slot only when there is room (R131). -/
theorem RobReady.issue {s t : State} (ready : RobReady s t) {ws : List Write} (block : IssueBlock s ws) :
    (t.applyAll ws).RobRing := by
  cases block with
  | plain h => exact ready.ring.of_kept (.applyAll (fun w hw => Write.toRob_of_plain (h w hw)) t)
  | mark k d => exact ready.ring.of_kept ⟨rfl, rfl, rfl, rfl⟩
  | rename l k d _ _ room =>
    exact (ready.ring.robAllocate ready.sized (ready.room room) d).of_kept ⟨rfl, rfl, rfl, rfl⟩

theorem written_robRing {s : State} (z : s.Sized) (ring : s.RobRing) : s.written.RobRing := by
  refine written_by_phases (P := RobReady s) (robReady_retire z ring) ?_
    (fun t ready => ready.issue (issueWrites_issueBlock s)) ?_
  · rintro a unit w answers t ready
    rcases unit_rob_cases unit answers with other | ⟨id, v, rfl⟩
    · exact ready.of_kept (ready.sized.apply w) (.apply other t)
    · exact ⟨ready.sized.apply _, ready.ring.robComplete id v, ready.room⟩
  · rintro a front w answers t ring
    exact ring.of_kept (.apply (front_toRob front answers) t)

theorem cycle_robRing {s : State} (z : s.Sized) (ring : s.RobRing) : (cycle s).RobRing :=
  cycle_of_written (written_robRing z ring) fun _ _ _ _ _ _ _ _ _ _ _ h => h.of_kept ⟨rfl, rfl, rfl, rfl⟩

/-- The rings of an idle machine are empty. -/
theorem pointers_of_idle {s : State} (idle : s.idle = true) :
    s.latches = PerStage.const none ∧ s.robHead = s.robTail ∧ s.rsHead = s.rsTail := by
  simp only [State.idle, State.latchesFree, Bool.and_eq_true, decide_eq_true_eq, beq_iff_eq] at idle
  obtain ⟨⟨⟨⟨latches, _⟩, _⟩, rob⟩, rs⟩ := idle
  exact ⟨latches, rob, rs⟩

/-- A whole pass moves both ROB pointers of an idle machine alike. -/
theorem State.RobRing.pass {s : State} (ring : s.RobRing) (empty : s.robHead = s.robTail) (i : Instr) (next : Int) :
    (s.pass i next).RobRing := by
  obtain ⟨slots, ids⟩ := State.robRing_iff.mp ring
  rw [empty] at slots
  refine State.robRing_iff.mpr ⟨?_, ids⟩
  rw [State.pass_robHead, State.pass_robTail, empty]
  exact slots.of_empty _

theorem State.RobRing.markIssued {s : State} (ring : s.RobRing) (z : s.Sized) (empty : s.robHead = s.robTail)
    (i : Instr) : (s.markIssued i).RobRing := by
  unfold State.markIssued
  cases (slots i).dest with
  | none => exact ring
  | some d =>
    cases s.params.variant with
    | inOrder => exact ring.of_kept ⟨rfl, rfl, rfl, rfl⟩
    | outOfOrder =>
      have room : s.robFull = false := ringFull_of_empty z.robCap_ge z.robTail empty
      exact (ring.robAllocate z room d).of_kept ⟨rfl, rfl, rfl, rfl⟩

theorem ends_robRing {s t : State} {i : Instr} (ring : s.RobRing) (z : s.Sized) (empty : s.robHead = s.robTail)
    (ends : Ends s i t) : t.RobRing := by
  cases ends with
  | decode => exact ring.of_kept ⟨rfl, rfl, rfl, rfl⟩
  | abort => exact (ring.markIssued z empty i).of_kept ⟨rfl, rfl, rfl, rfl⟩
  | write => exact (ring.pass empty i (s.pc + 1)).of_kept ⟨rfl, rfl, rfl, rfl⟩
  | store next => exact (ring.pass empty i next).of_kept ⟨rfl, rfl, rfl, rfl⟩
  | branch next => exact (ring.pass empty i next).of_kept ⟨rfl, rfl, rfl, rfl⟩
  | ret next => exact (ring.pass empty i next).of_kept ⟨rfl, rfl, rfl, rfl⟩

/-- What a cycle and, of an idle machine, every end of a meaning keep, a step of a running machine keeps. -/
theorem step_keeps_of_idle {s t : State} {P : State → Prop} (cycle : s.status = .running → P (cycle s))
    (ends : s.status = .running → s.idle = true → ∀ i u, Ends s i u → P u) (h : step s = .next t) : P t := by
  obtain ⟨running, ⟨_, rfl⟩ | ⟨i, _, whole, ran⟩⟩ := step_cases h
  · exact cycle running
  · obtain ⟨idle, _⟩ := wholeInstr_some whole
    exact ends running idle i t (ends_of_exec ran)

/-- Settles O52: the head is freed only when it is occupied, the tail taken only when there is room, and a unit's
completion leaves occupation and ids alone. -/
theorem stepKeepsRobRing : Obligations.StepKeepsRobRing := by
  intro s t z ring next
  refine step_keeps_of_idle (fun _ => cycle_robRing z ring) (fun _ idle i u ends => ?_) next
  obtain ⟨_, empty, _⟩ := pointers_of_idle idle
  exact ends_robRing ring z empty ends

end Sys2Proof.Machine
end

section
/-! SUPPORT. What a commit of the ROB head (R140) and an out-of-order issue (R130, R131, R138) leave in registers and
ROB at the end of a cycle; and the out-of-order build's forwarding channels (R148). -/

namespace Sys2Proof.Machine

/-! ## A commit of the ROB head (R140, R141) -/

@[simp] theorem State.x_robFree (s : State) (r : Reg) : s.robFree.x r = s.x r := rfl
@[simp] theorem State.ready_robFree (s : State) (r : Reg) : s.robFree.ready r = s.ready r := rfl
@[simp] theorem State.tag_robFree (s : State) (r : Reg) : s.robFree.tag r = s.tag r := rfl

theorem reads_of_regs {s t : State} (regs : t.regs = s.regs) (r : Reg) :
    t.x r = s.x r ∧ t.ready r = s.ready r ∧ t.tag r = s.tag r := by
  unfold State.x State.ready State.tag
  rw [regs]
  exact ⟨rfl, rfl, rfl⟩

theorem robEntry_robFree_head (s : State) : s.robFree.robEntry s.robHead = none := by
  simp only [State.robEntry, State.robFree, List.getD_eq_getElem?_getD, List.getElem?_set]
  split
  · split <;> rfl
  · contradiction

/-- Taking the slot at the tail leaves every other slot alone. -/
theorem robEntry_robAllocate_ne {t : State} {k : RobId} (other : k ≠ t.robTail) (d : Reg) :
    (t.robAllocate d).robEntry k = t.robEntry k := by
  simp only [State.robEntry, State.robAllocate, List.getD_eq_getElem?_getD, List.getElem?_set_ne other.symm]

/-- `t` stands behind the commit of `e` in the cycle from `s`: the value is written, the slot free, and the tag cleared
if it named the slot, unless the occupant of RR may rename the register again. -/
structure HeadCommitted (s : State) (e : RobEntry) (t : State) : Prop where
  value : t.x e.destinationRegister = e.result
  slot : t.robEntry s.robHead = none
  head : t.robHead = ringNext s.params.robCap s.robHead
  tag : (∀ l, s.latch .rr = some l → l.dest ≠ some e.destinationRegister) →
    (s.tag e.destinationRegister = some e.id →
      t.tag e.destinationRegister = none ∧ t.ready e.destinationRegister = true) ∧
    (s.tag e.destinationRegister ≠ some e.id → t.tag e.destinationRegister = s.tag e.destinationRegister)

section
variable {s t u : State} {e : RobEntry}

theorem HeadCommitted.of_regs (h : HeadCommitted s e t) (regs : u.regs = t.regs)
    (slot : u.robEntry s.robHead = none) (head : u.robHead = t.robHead) : HeadCommitted s e u := by
  obtain ⟨sameValue, sameReady, sameTag⟩ := reads_of_regs regs e.destinationRegister
  refine ⟨sameValue.trans h.value, slot, head.trans h.head, ?_⟩
  rw [sameReady, sameTag]
  exact h.tag

/-- A unit's write keeps the commit: a completion fills no free slot. -/
theorem HeadCommitted.unit (h : HeadCommitted s e t) {a : Stage} (behind : a ∈ unitPhase) {w : Write}
    (answers : Answers s a w) : HeadCommitted s e (t.apply w) := by
  cases answers with
  | stall | busy | robAllocate | rename | retire | value | release | untag | robFree => exact absurd behind (by decide)
  | complete _ id v => exact h.of_regs rfl (robEntry_robComplete_none h.slot id v) rfl
  | _ => exact h.of_regs rfl h.slot rfl

theorem HeadCommitted.front (h : HeadCommitted s e t) {a : Stage} (front : a ∈ frontPhase) {w : Write}
    (answers : Answers s a w) : HeadCommitted s e (t.apply w) := by
  have robKept := front_toRob front answers
  cases answers with
  | stall | busy | robAllocate | rename | retire | value | release | untag | robFree => exact absurd front (by decide)
  | complete => cases robKept
  | _ => exact h.of_regs rfl h.slot rfl

/-- Issue renames only the destination of its occupant, to a slot that is not the one just freed. -/
theorem HeadCommitted.issue (h : HeadCommitted s e t) (build : s.params.variant = .outOfOrder)
    (tail : s.robHead ≠ t.robTail) {ws : List Write} (block : IssueBlock s ws) : HeadCommitted s e (t.applyAll ws) := by
  cases block with
  | plain plain =>
    obtain ⟨_, rob, head, _⟩ := KeepsRob.applyAll (fun w hw => Write.toRob_of_plain (plain w hw)) t
    refine h.of_regs (applyAll_quiet_regs (v := .outOfOrder) (fun w hw => .inl (plain w hw)) t) ?_ head
    simp only [State.robEntry, rob]
    exact h.slot
  | mark k d inOrder => cases inOrder.symm.trans build
  | rename l k d works dest _ =>
    obtain ⟨value, slot, head, tag⟩ := h
    obtain ⟨here, _⟩ := works
    obtain ⟨valueKept, tagged, busy⟩ := reads_renamingIssue t k d e.destinationRegister s.robTail
    refine ⟨valueKept.trans value, (robEntry_robAllocate_ne (t := t.setLatch .rr (some k)) tail d).trans slot, head,
      fun free => ?_⟩
    have other : e.destinationRegister ≠ d := fun same => free l here (same ▸ dest)
    rw [tagged, busy, if_neg other, if_neg other]
    exact tag free

/-- What Retire's writes do when the ROB head commits. -/
theorem headCommitted_retire (commits : s.Commits e) :
    HeadCommitted s e (s.applyAll (handler .rt s).writes) ∧
      (s.applyAll (handler .rt s).writes).robTail = s.robTail := by
  obtain ⟨ws, plain, writes, _⟩ := handler_rt_of_commits commits
  obtain ⟨params, rob, head, tail⟩ := KeepsRob.applyAll (fun w hw => Write.toRob_of_plain (plain w hw)) s
  obtain ⟨_, _, sameTag⟩ := reads_of_regs (applyAll_quiet_regs (v := .outOfOrder) (fun w hw => .inl (plain w hw)) s)
    e.destinationRegister
  have slot : (s.applyAll ws).robFree.robEntry s.robHead = none := head ▸ robEntry_robFree_head (s.applyAll ws)
  have next : (s.applyAll ws).robFree.robHead = ringNext s.params.robCap s.robHead := by
    rw [State.robFree_robHead, params, head]
  obtain ⟨_, rob', head', tail'⟩ := keepsRob_commitWrites s (s.applyAll ws) e
  rw [writes, State.applyAll_append]
  refine ⟨⟨?_, by rw [State.robEntry, rob']; exact slot, head'.trans next, fun _ => ?_⟩, tail'.trans tail⟩
  · rcases commitWrites_cases s e with ⟨_, h⟩ | ⟨_, h⟩ <;> rw [h] <;> simp [State.apply, State.x_setValue]
  · rcases commitWrites_cases s e with ⟨tagged, h⟩ | ⟨untagged, h⟩ <;> rw [h]
    · exact ⟨fun _ => by simp [State.apply, State.tag_setTag, State.ready_setReady], fun other => absurd tagged other⟩
    · refine ⟨fun same => absurd same untagged, fun _ => ?_⟩
      exact (State.tag_setValue (s.applyAll ws) _ _ e.result).trans sameTag

end

theorem robTail_of_unit {s : State} {a : Stage} (behind : a ∈ unitPhase) {w : Write} (answers : Answers s a w)
    (t : State) : (t.apply w).robTail = t.robTail := by
  rcases unit_rob_cases behind answers with other | ⟨_, _, rfl⟩
  · exact (KeepsRob.apply other t).tail
  · rfl

theorem written_headCommitted {s : State} {e : RobEntry} (commits : s.Commits e) : HeadCommitted s e s.written := by
  refine written_by_phases (P := fun t => HeadCommitted s e t ∧ t.robTail = s.robTail) (headCommitted_retire commits)
    ?_ ?_ fun a front w answers t h => h.front front answers
  · rintro a behind w answers t ⟨h, tail⟩
    exact ⟨h.unit behind answers, (robTail_of_unit behind answers t).trans tail⟩
  · rintro t ⟨h, tail⟩
    exact h.issue commits.build (tail ▸ commits.occupied) (issueWrites_issueBlock s)

/-- Settles O38: Retire's writes do it, and of the stages behind it only a rename of RR's occupant writes a tag. -/
theorem robHeadCommitsInOrder : Obligations.RobHeadCommitsInOrder := by
  intro s e build occupied head completed clean
  have committed : HeadCommitted s e (cycle s) :=
    cycle_of_written (written_headCommitted ⟨build, occupied, head, completed, clean⟩)
      fun _ _ _ _ _ _ _ _ _ _ _ h => h.of_regs rfl h.slot rfl
  exact ⟨committed.value, committed.slot, committed.head, committed.tag⟩

/-! ## An out-of-order issue (R130, R131, R138) -/

/-- `t` has the ROB's tail and size, and the stall count, of `s`. -/
structure BeforeIssue (s t : State) : Prop where
  params : t.params = s.params
  tail : t.robTail = s.robTail
  size : t.rob.length = s.rob.length
  stalls : t.stalls = s.stalls

/-- No stage but issue allocates or stalls. -/
theorem BeforeIssue.apply {s t : State} (h : BeforeIssue s t) {a : Stage} (other : a ≠ .rr) {w : Write}
    (answers : Answers s a w) : BeforeIssue s (t.apply w) := by
  obtain ⟨params, tail, size, stalls⟩ := h
  cases answers with
  | stall | robAllocate => exact absurd rfl other
  | complete | robFree => exact ⟨params, tail, List.length_set.trans size, stalls⟩
  | _ => exact ⟨params, tail, size, stalls⟩

theorem BeforeIssue.retire (s : State) : BeforeIssue s (s.applyAll (handler .rt s).writes) :=
  State.applyAll_induct ⟨rfl, rfl, rfl, rfl⟩ fun w hw _ h => h.apply (by decide) (handler_answers .rt s w hw)

/-- `t` stands behind the rename of `d` to the ROB slot at the tail of `s`. -/
structure RenamedTo (s : State) (d : Reg) (t : State) : Prop where
  tag : t.tag d = some s.robTail
  ready : t.ready d = false
  stalls : t.stalls = s.stalls
  tail : t.robTail = ringNext s.params.robCap s.robTail
  slot : t.robEntry s.robTail = some ⟨s.robTail, d, 0, false, false⟩

theorem BeforeIssue.rename {s t : State} (h : BeforeIssue s t) (inside : s.robTail < s.rob.length) (k : Latch)
    (d : Reg) : RenamedTo s d (t.applyAll (renamingIssue k d s.robTail)) := by
  obtain ⟨params, tail, size, stalls⟩ := h
  obtain ⟨_, tagged, busy⟩ := reads_renamingIssue t k d d s.robTail
  refine ⟨tagged.trans (if_pos rfl), busy.trans (if_pos rfl), stalls, ?_, ?_⟩
  · show ringNext t.params.robCap t.robTail = _
    rw [params, tail]
  · have room : t.robTail < t.rob.length := by rwa [tail, size]
    rw [← tail]
    exact (robEntry_robAllocate (s := t.setLatch .rr (some k)) room d t.robTail).trans (if_pos rfl)

theorem RenamedTo.front {s t : State} {d : Reg} (h : RenamedTo s d t) {a : Stage} (front : a ∈ frontPhase) {w : Write}
    (answers : Answers s a w) : RenamedTo s d (t.apply w) := by
  have robKept := front_toRob front answers
  obtain ⟨tag, ready, stalls, tail, slot⟩ := h
  cases answers with
  | stall | busy | robAllocate | rename | retire | value | release | untag | robFree => exact absurd front (by decide)
  | complete => cases robKept
  | _ => exact ⟨tag, ready, stalls, tail, slot⟩

/-- The rename is applied after any commit in the same cycle, so it stands (R78, R141). -/
theorem written_renamedTo {s : State} {k : Latch} {d : Reg} (inside : s.robTail < s.rob.length)
    (issues : s.issueWrites = renamingIssue k d s.robTail) : RenamedTo s d s.written := by
  refine written_by_phases (P := BeforeIssue s) (.retire s) (fun a behind w answers t h => h.apply ?_ answers) ?_
    fun a front w answers t h => h.front front answers
  · rintro rfl
    exact absurd behind (by decide)
  · intro t h
    rw [issues]
    exact h.rename inside k d

/-- Settles O30: issue's writes come after Retire's, and no stage behind issue touches registers or ROB. -/
theorem outOfOrderIssueRenames : Obligations.OutOfOrderIssueRenames := by
  intro s l d build works completes noFlush free notBranch notRet dest inside
  have issues : s.issueWrites = renamingIssue (s.captured l) d s.robTail := by
    rw [issueWrites_of_completes completes noFlush, handler_rr_outOfOrder build works,
      issueOutOfOrder_of_free free notBranch notRet, ← renamingIssue_of_dest dest]
  have renamed : RenamedTo s d (cycle s) := cycle_of_written (written_renamedTo inside issues)
    fun _ _ _ _ _ _ _ _ _ _ _ h => ⟨h.tag, h.ready, h.stalls, h.tail, h.slot⟩
  exact ⟨renamed.tag, renamed.ready, renamed.stalls, renamed.tail, renamed.slot⟩

/-! ## The forwarding channels (R148) -/

theorem channel_notMem_completion {s : State} (build : s.params.variant = .outOfOrder) (l : Latch) (v : Word)
    (c : Channel) (d : Reg) (u : Word) : .channel c d u ∉ completion s l v := by
  unfold completion
  rw [build]
  cases l.rob <;> simp

/-- A unit of the out-of-order build completes in the ROB and forwards nothing. -/
theorem channel_notMem_handler {s : State} (build : s.params.variant = .outOfOrder) (st : Stage) (c : Channel)
    (d : Reg) (v : Word) : .channel c d v ∉ (handler st s).writes := by
  have silent := fun l v => channel_notMem_completion build l v c d
  intro written
  cases handler_answers st s _ written with
  | forwardResult _ _ _ _ _ unit =>
    obtain ⟨own, _⟩ := handler_alu unit s
    rw [own] at written
    rcases handleAlu_cases st s with h | ⟨l, _, _, ⟨r, _, h⟩ | ⟨r, _, h⟩⟩ <;> rw [h] at written
    · cases written
    · simp [silent] at written
    · cases written
  | forwardLoad =>
    change _ ∈ (handleM2 s).writes at written
    rcases handleM2_cases s with h | ⟨l, _, _, ⟨_, _, h⟩ | ⟨_, _, _, h⟩ | ⟨_, _, h⟩⟩ <;> rw [h] at written
    · cases written
    · simp [silent] at written
    · simp at written
    · cases written

theorem cycle_channelsEmpty {s : State} (build : s.params.variant = .outOfOrder) (empty : s.ChannelsEmpty) :
    (cycle s).ChannelsEmpty := by
  cases h : abortOf (evaluate s) with
  | some r =>
    rw [cycle_of_abort h]
    obtain ⟨_, _, fwd, _⟩ := written_clock s
    exact fwd.trans empty
  | none =>
    have none : ∀ c, channelWritten c (s.writesOf s.effective) = none := fun c =>
      channelWritten_none fun d v hw => by
        obtain ⟨st, _, written⟩ := List.mem_flatMap.mp hw
        exact channel_notMem_handler build st c d v written
    rw [cycle_of_no_abort h]
    show channelsWritten (committedWrites (evaluate s)) = _
    rw [committedWrites_evaluate h, channelsWritten, none, none, none, none]

theorem ends_channelsEmpty {s t : State} {i : Instr} (empty : s.ChannelsEmpty) (ends : Ends s i t) :
    t.ChannelsEmpty := by
  cases ends with
  | abort =>
    show (s.markIssued i).fwd = _
    rw [State.markIssued_frame]
    exact empty
  | _ => exact empty

/-- Settles O57: no unit writes a channel in a cycle, and a whole pass leaves the channels alone. -/
theorem outOfOrderBuildNeverForwards : Obligations.OutOfOrderBuildNeverForwards :=
  fun _ _ build empty next =>
    step_keeps (cycle_channelsEmpty build empty) (fun _ _ ends => ends_channelsEmpty empty ends) next

end Sys2Proof.Machine
end

section
/-! SUPPORT. The RS in a cycle: what the advance pass does to its slots (R143, R144), the wake-up broadcast (R142), and
the invariant that its occupied slots are a ring (R149). -/

namespace Sys2Proof.Machine

/-! ## The RS in the advance pass (R143, R144) -/

/-- `t` differs from `s` in its latches only. -/
def OnlyLatches (s t : State) : Prop :=
  ∃ latches, t = { s with latches := latches }

section
variable {s t : State}

theorem OnlyLatches.refl (s : State) : OnlyLatches s s :=
  ⟨s.latches, rfl⟩

theorem OnlyLatches.setLatch (h : OnlyLatches s t) (st : Stage) (l : Option Latch) :
    OnlyLatches s (t.setLatch st l) := by
  obtain ⟨_, rfl⟩ := h
  exact ⟨_, rfl⟩

theorem OnlyLatches.move (h : OnlyLatches s t) (src dst : Stage) : OnlyLatches s (t.move src dst) := by
  rcases t.move_cases src dst with e | ⟨_, _, _, _, e⟩ <;> rw [e]
  · exact h
  · exact (h.setLatch _ _).setLatch _ _

end

/-- Up to dispatch the advance pass moves latches only. -/
theorem onlyLatches_beforeDispatch (s : State) : OnlyLatches s (s.makeRoom.arbitrate.move .m1 .m2) := by
  have room : OnlyLatches s s.makeRoom := by
    unfold State.makeRoom
    rcases s.leaveRT_cases with e | e <;> rw [e]
    · exact (OnlyLatches.refl s).move _ _
    · exact ((OnlyLatches.refl s).setLatch _ _).move _ _
  rcases s.makeRoom.arbitrate_cases with e | ⟨st, e⟩ <;> rw [e]
  · exact room.move _ _
  · exact (room.move _ _).move _ _

/-- Behind issue the advance pass leaves the RS alone, or dispatches its head to a unit (R144). -/
theorem State.advanceBack_cases (s : State) :
    OnlyLatches s s.advanceBack ∨
      ∃ t e u, OnlyLatches s t ∧ s.params.variant = .outOfOrder ∧ s.rsHead ≠ s.rsTail ∧
        s.rs.getD s.rsHead none = some e ∧ e.unit = some u ∧
        s.advanceBack = (t.setLatch (unitStage u) (some { e with done := false })).rsDequeue := by
  obtain ⟨latches, before⟩ := onlyLatches_beforeDispatch s
  unfold State.advanceBack
  rw [before]
  rcases State.dispatchRs_cases { s with latches := latches } with h | ⟨e, u, build, taken, head, unit, _, _, h⟩
  · exact .inl ⟨latches, h⟩
  · exact .inr ⟨_, e, u, ⟨latches, rfl⟩, build, taken, head, unit, h⟩

theorem State.advanceBack_frame (s : State) :
    s.advanceBack.params = s.params ∧ s.advanceBack.rsTail = s.rsTail ∧ s.advanceBack.rs.length = s.rs.length :=
  State.advanceBack_induct (P := fun t => t.params = s.params ∧ t.rsTail = s.rsTail ∧ t.rs.length = s.rs.length)
    (fun _ _ _ h => h) (fun _ ⟨params, tail, size⟩ => ⟨params, tail, List.length_set.trans size⟩) ⟨rfl, rfl, rfl⟩

/-- Behind the departure from RR the advance pass moves latches only. -/
theorem onlyLatches_advance (s : State) : OnlyLatches s.advanceBack.leaveRR s.advance := by
  rw [State.advance_eq_front]
  exact (((OnlyLatches.refl _).move _ _).move _ _).move _ _

/-- Behind the departure from RR the pass reaches no unit. -/
theorem State.latch_advance_unit (s : State) (u : FuncUnit) :
    s.advance.latch (unitStage u) = s.advanceBack.leaveRR.latch (unitStage u) := by
  have apart : unitStage u ≠ .rr := by cases u <;> decide
  exact State.latch_advance_of_leaveRR (by cases u <;> decide) fun h => absurd h apart

theorem OnlyLatches.rsFields {s t : State} (h : OnlyLatches s t) :
    t.rs = s.rs ∧ t.rsHead = s.rsHead ∧ t.rsTail = s.rsTail := by
  obtain ⟨_, rfl⟩ := h
  exact ⟨rfl, rfl, rfl⟩

theorem State.rs_leaveRR_cases (s : State) :
    OnlyLatches s s.leaveRR ∨
      ∃ l, s.params.variant = .outOfOrder ∧ s.latch .rr = some l ∧ l.done = true ∧ isRsForm l.op = true ∧
        s.leaveRR = (s.rsEnqueue l).setLatch .rr none := by
  rcases s.leaveRR_cases with e | ⟨l, here, done, ⟨build, form, e⟩ | ⟨_, u, _, e⟩⟩
  · exact .inl (e.symm ▸ .refl s)
  · exact .inr ⟨l, build, here, done, form, e⟩
  · exact .inl (e ▸ (OnlyLatches.refl s).move _ _)

theorem State.leaveRR_of_form {s : State} {l : Latch} (build : s.params.variant = .outOfOrder)
    (here : s.latch .rr = some l) (done : l.done = true) (form : isRsForm l.op = true) :
    s.leaveRR = (s.rsEnqueue l).setLatch .rr none := by
  simp [State.leaveRR, here, done, build, form]

theorem State.leaveRR_of_work {s : State} {l : Latch} (here : s.latch .rr = some l) (work : l.done = false) :
    s.leaveRR = s := by
  simp [State.leaveRR, here, work]

/-- An instruction that waits in RR takes no RS slot. -/
theorem State.advance_rsTail_of_work {s : State} {l : Latch} (here : s.latch .rr = some l) (work : l.done = false) :
    s.advance.rsTail = s.rsTail := by
  have reached : s.advanceBack.latch .rr = some l := (State.latch_advanceBack_front rfl).trans here
  obtain ⟨_, _, tail⟩ := (onlyLatches_advance s).rsFields
  obtain ⟨_, tail', _⟩ := s.advanceBack_frame
  rw [tail, State.leaveRR_of_work reached work, tail']

/-- An issued RS form in RR is at the RS tail after the advance pass (R143). -/
theorem State.advance_enqueues {s : State} {l : Latch} (build : s.params.variant = .outOfOrder)
    (here : s.latch .rr = some l) (done : l.done = true) (form : isRsForm l.op = true)
    (inside : s.rsTail < s.rs.length) : s.advance.rs.getD s.rsTail none = some { l with done := false } := by
  have reached : s.advanceBack.latch .rr = some l := (State.latch_advanceBack_front rfl).trans here
  obtain ⟨slots, _, _⟩ := (onlyLatches_advance s).rsFields
  obtain ⟨params, tail, size⟩ := s.advanceBack_frame
  rw [slots, State.leaveRR_of_form (by rw [params]; exact build) reached done form]
  show (s.advanceBack.rs.set s.advanceBack.rsTail (some { l with done := false })).getD s.rsTail none = _
  rw [tail, getD_set _ _ _ _ (size ▸ inside), if_pos rfl]

/-- Any other issued instruction in RR waits there or moves to its unit (R80). -/
theorem State.advance_rr_moves {s : State} {l : Latch}
    (direct : ¬ (s.params.variant = .outOfOrder ∧ isRsForm l.op = true)) (here : s.latch .rr = some l) :
    s.advance.latch .rr = some l ∨
      ∃ u, l.unit = some u ∧ s.advance.latch (unitStage u) = some { l with done := false } := by
  have reached : s.advanceBack.latch .rr = some l := (State.latch_advanceBack_front rfl).trans here
  have waits : s.advanceBack.leaveRR = s.advanceBack → s.advance.latch .rr = some l := by
    intro e
    rw [State.latch_advance_of_leaveRR (by decide) fun _ => by simp [e, reached], e, reached]
  obtain ⟨params, _, _⟩ := s.advanceBack_frame
  rcases s.advanceBack.leaveRR_cases with e | ⟨k, place, _, ⟨build, form, _⟩ | ⟨_, u, unit, e⟩⟩
  · exact .inl (waits e)
  · obtain rfl := Option.some.inj (reached.symm.trans place)
    exact absurd ⟨params ▸ build, form⟩ direct
  · obtain rfl := Option.some.inj (reached.symm.trans place)
    rcases s.advanceBack.move_cases .rr (unitStage u) with stays | ⟨k, place', _, _, moves⟩
    · exact .inl (waits (e.trans stays))
    · obtain rfl := Option.some.inj (reached.symm.trans place')
      have apart : unitStage u ≠ .rr := by cases u <;> decide
      refine .inr ⟨u, unit, ?_⟩
      rw [State.latch_advance_unit, e, moves, State.latch_setLatch_ne _ _ apart, State.latch_setLatch_same]

/-- An RS entry off the tail keeps its slot in the advance pass, or, at the head, goes to its unit (R144). -/
theorem State.advance_rs_slot {s : State} {k : Nat} {l : Latch} (slot : s.rs.getD k none = some l)
    (notTail : k ≠ s.rsTail) :
    s.advance.rs.getD k none = some l ∨
      k = s.rsHead ∧ ∃ u, l.unit = some u ∧ s.advance.latch (unitStage u) = some { l with done := false } := by
  have notEnqueued : s.advance.rs.getD k none = s.advanceBack.rs.getD k none := by
    obtain ⟨slots, _, _⟩ := (onlyLatches_advance s).rsFields
    obtain ⟨_, tail, _⟩ := s.advanceBack_frame
    rw [slots]
    rcases s.advanceBack.rs_leaveRR_cases with only | ⟨j, _, _, _, _, e⟩
    · obtain ⟨same, _, _⟩ := only.rsFields
      rw [same]
    · rw [e]
      show (s.advanceBack.rs.set s.advanceBack.rsTail _).getD k none = _
      simp only [tail, List.getD_eq_getElem?_getD, List.getElem?_set_ne notTail.symm]
  rw [notEnqueued]
  rcases s.advanceBack_cases with only | ⟨t, e, u, only, _, _, head, unit, dispatches⟩
  · obtain ⟨same, _, _⟩ := only.rsFields
    exact .inl (same ▸ slot)
  · obtain ⟨slots, head', _⟩ := only.rsFields
    by_cases atHead : k = s.rsHead
    · subst atHead
      obtain rfl := Option.some.inj (slot.symm.trans head)
      have arrived : s.advanceBack.latch (unitStage u) = some { l with done := false } := by
        rw [dispatches]
        exact State.latch_setLatch_same t (unitStage u) _
      have apart : unitStage u ≠ .rr := by cases u <;> decide
      have occupied : s.advanceBack.latch (unitStage u) ≠ none := by simp [arrived]
      refine .inr ⟨rfl, u, unit, ?_⟩
      rw [State.latch_advance_unit, State.latch_leaveRR_kept apart fun _ _ => occupied, arrived]
    · refine .inl ?_
      rw [dispatches]
      show (t.rs.set t.rsHead none).getD k none = some l
      rw [slots, head']
      simpa only [List.getD_eq_getElem?_getD, List.getElem?_set_ne (Ne.symm atHead)] using slot

/-! ## The commit phase and the RS (R142) -/

theorem commitPhase_rsPointers (outs : List (Stage × HandlerOut)) (s : State) :
    (commitPhase outs s).params = s.params ∧ (commitPhase outs s).rsHead = s.rsHead ∧
      (commitPhase outs s).rsTail = s.rsTail :=
  commitPhase_induct (P := fun t => t.params = s.params ∧ t.rsHead = s.rsHead ∧ t.rsTail = s.rsTail) ⟨rfl, rfl, rfl⟩
    (fun w _ t ⟨params, head, tail⟩ =>
      ⟨(t.apply_params w).trans params, (t.apply_rsHead w).trans head, (t.apply_rsTail w).trans tail⟩)
    (fun _ _ h => h) fun _ _ _ h => h

/-- With a commit the commit phase ends with its broadcast. -/
theorem commitPhase_of_commits {s : State} {e : RobEntry} (completes : s.CycleCompletes) (commits : s.Commits e) :
    commitPhase (evaluate s) s = s.settled.wakeUp e.id e.result := by
  obtain ⟨_, _, _, broadcast⟩ := handler_rt_of_commits commits
  have signal : commitOf (evaluate s) = some (e.id, e.result) := by
    simp [commitOf, evaluate, evalOrder, broadcast]
  have written := committedWrites_evaluate (abortOf_of_completes completes)
  cases flush : flushOf (evaluate s) with
  | none => simp only [commitPhase, signal, written, State.settled, State.written, flush]
  | some p => simp only [commitPhase, signal, written, State.settled, State.written, flush]

theorem rs_settled (s : State) : s.settled.rs = s.rs := by
  have written : s.written.rs = s.rs :=
    State.applyAll_induct (P := fun t => t.rs = s.rs) rfl fun w _ t h => (t.apply_rs w).trans h
  unfold State.settled
  split <;> exact written

theorem latch_wakeUp_rr (s : State) (id : RobId) (v : Word) :
    (s.wakeUp id v).latch .rr = wakeIssued (s.latch .rr) id v := rfl

/-- The `done` bit is no part of a source slot. -/
theorem Latch.Woken.setDone {l m : Latch} {id : RobId} {v : Word} (h : l.Woken m id v) (b : Bool) :
    l.Woken { m with done := b } id v :=
  ⟨h.slot1, h.slot2, h.slot3, h.rest⟩

/-- A wake-up leaves alone an instruction in RR that has not issued. -/
theorem latch_commitPhase_rr_of_work {s : State} {l : Latch} (completes : s.CycleCompletes)
    (here : s.settled.latch .rr = some l) (work : l.done = false) :
    (commitPhase (evaluate s) s).latch .rr = some l := by
  refine commitPhase_of_settled (P := fun t => t.latch .rr = some l) (abortOf_of_completes completes) here
    fun t id v here => ?_
  rw [latch_wakeUp_rr, here]
  simp [wakeIssued, work]

theorem latch_commitPhase_rr_of_done {s : State} {e : RobEntry} {l : Latch} (completes : s.CycleCompletes)
    (commits : s.Commits e) (here : s.settled.latch .rr = some l) (done : l.done = true) :
    (commitPhase (evaluate s) s).latch .rr = some (l.wake e.id e.result) := by
  rw [commitPhase_of_commits completes commits, latch_wakeUp_rr, here]
  simp [wakeIssued, done]

/-- What stands in RR after the commit phase stood there after the writes, with the same opcode and as far done. -/
theorem latch_commitPhase_rr_some {s : State} (h : abortOf (evaluate s) = none) {k : Latch}
    (here : (commitPhase (evaluate s) s).latch .rr = some k) :
    ∃ j, s.written.latch .rr = some j ∧ k.op = j.op ∧ k.done = j.done := by
  refine commitPhase_of_settled (P := fun t => ∀ k, t.latch .rr = some k →
    ∃ j, s.written.latch .rr = some j ∧ k.op = j.op ∧ k.done = j.done) h (fun k here => ?_) (fun t id v ih k here => ?_)
    k here
  · unfold State.settled at here
    split at here
    · cases here
    · exact ⟨k, here, rfl, rfl⟩
  · rw [latch_wakeUp_rr] at here
    cases place : t.latch .rr with
    | none =>
      rw [place] at here
      cases here
    | some i =>
      obtain ⟨j, was, op, done⟩ := ih i place
      rw [place, wakeIssued] at here
      split at here <;> cases here <;> exact ⟨j, was, op, done⟩

/-! ## Every step keeps the RS a ring (R149) -/

/-- The occupied RS slots are those from head to tail - 1. -/
def State.RsSlots (s : State) : Prop :=
  OccupiedBetween s.params.rsCap s.rsHead s.rsTail s.rs

theorem State.RsSlots.of_same {s t : State} (h : s.RsSlots) (params : t.params = s.params) (rs : t.rs = s.rs)
    (head : t.rsHead = s.rsHead) (tail : t.rsTail = s.rsTail) : t.RsSlots := by
  unfold State.RsSlots
  rw [params, rs, head, tail]
  exact h

theorem State.RsSlots.apply {s : State} (h : s.RsSlots) (w : Write) : (s.apply w).RsSlots :=
  h.of_same (s.apply_params w) (s.apply_rs w) (s.apply_rsHead w) (s.apply_rsTail w)

theorem commitPhase_rsSlots {s : State} (h : s.RsSlots) : (commitPhase (evaluate s) s).RsSlots :=
  commitPhase_induct h (fun w _ _ k => k.apply w) (fun _ _ k => k) fun _ id v k =>
    OccupiedBetween.map k fun l => l.wake id v

/-- The RS of `t` is a ring of its sizes, with room in it if `s` had room. -/
structure RsReady (s t : State) : Prop where
  sized : t.Sized
  slots : t.RsSlots
  room : s.rsFull = false → t.rsFull = false

/-- Dispatch frees only an occupied head. -/
theorem rsReady_advanceBack {s : State} (z : s.Sized) (slots : s.RsSlots) : RsReady s s.advanceBack := by
  rcases s.advanceBack_cases with ⟨_, only⟩ | ⟨t, e, u, only, build, taken, _, _, dispatches⟩
  · rw [only]
    exact ⟨⟨z.legal, z.rob, z.rs, z.robHead, z.robTail, z.rsHead, z.rsTail⟩, slots, id⟩
  · obtain ⟨latches, rfl⟩ := only
    rw [dispatches]
    refine ⟨(cycleKeeps_sized s).rsDequeue _ build ⟨z.legal, z.rob, z.rs, z.robHead, z.robTail, z.rsHead, z.rsTail⟩, ?_,
      fun _ => ringFull_free z.rsHead z.rsTail taken⟩
    exact OccupiedBetween.free slots z.rs z.rsHead z.rsTail taken

/-- The advance pass keeps the RS a ring if an issued RS form waits in RR only when there is room for it. -/
theorem advance_rsSlots {s : State} (z : s.Sized) (slots : s.RsSlots)
    (room : s.params.variant = .outOfOrder → ∀ l, s.latch .rr = some l → l.done = true → isRsForm l.op = true →
      s.rsFull = false) : s.advance.RsSlots := by
  obtain ⟨z', slots', room'⟩ := rsReady_advanceBack z slots
  have left : s.advanceBack.leaveRR.RsSlots := by
    rcases s.advanceBack.rs_leaveRR_cases with ⟨_, only⟩ | ⟨l, build, here, done, form, enqueues⟩
    · rw [only]
      exact slots'
    · have place : s.latch .rr = some l := (State.latch_advanceBack_front rfl).symm.trans here
      obtain ⟨params, _, _⟩ := s.advanceBack_frame
      rw [enqueues]
      exact OccupiedBetween.take slots' z'.rs z'.rsHead z'.rsTail
        (room' (room (params ▸ build) l place done form)) { l with done := false }
  obtain ⟨_, only⟩ := onlyLatches_advance s
  rw [only]
  exact left

/-- The departure from RR leaves its latch alone or free. -/
theorem State.latch_leaveRR_rr (s : State) : s.leaveRR.latch .rr = s.latch .rr ∨ s.leaveRR.latch .rr = none := by
  rcases s.leaveRR_cases with e | ⟨_, _, _, ⟨_, _, e⟩ | ⟨_, u, _, e⟩⟩ <;> rw [e]
  · exact .inl rfl
  · exact .inr (State.latch_setLatch_same _ _ _)
  · rcases s.move_cases .rr (unitStage u) with same | ⟨_, _, _, _, moves⟩
    · exact .inl (by rw [same])
    · exact .inr (by rw [moves, State.latch_setLatch_same])

theorem State.latch_leaveRR_form {s : State} {k : Latch} (build : s.params.variant = .outOfOrder)
    (here : s.leaveRR.latch .rr = some k) (form : isRsForm k.op = true) : k.done = false := by
  rcases s.latch_leaveRR_rr with same | free
  · cases done : k.done with
    | false => rfl
    | true =>
      rw [State.leaveRR_of_form build (same.symm.trans here) done form, State.latch_setLatch_same] at here
      cases here
  · cases free.symm.trans here

/-- In the out-of-order build no issued RS form is in RR after the advance pass: it has gone to the RS (R143). -/
theorem State.latch_advance_rr_form {s : State} {k : Latch} (build : s.params.variant = .outOfOrder)
    (here : s.advance.latch .rr = some k) (form : isRsForm k.op = true) : k.done = false := by
  have filled : s.advance.latch .rr = (s.advanceBack.leaveRR.move .oa .rr).latch .rr := by
    rw [State.advance_eq_front, State.latch_move_kept (by decide) fun h => absurd h (by decide),
      State.latch_move_kept (by decide) fun h => absurd h (by decide)]
  rw [filled] at here
  rcases s.advanceBack.leaveRR.move_cases .oa .rr with same | ⟨l, _, _, _, moves⟩
  · obtain ⟨params, _, _⟩ := s.advanceBack_frame
    rw [same] at here
    exact State.latch_leaveRR_form (params ▸ build) here form
  · rw [moves, State.latch_setLatch_ne _ _ (by decide), State.latch_setLatch_same] at here
    cases here
    rfl

theorem latch_notMem_renameWrites (s : State) (l k : Latch) (st : Stage) : .latch st k ∉ renameWrites s l := by
  unfold renameWrites
  cases l.dest <;> simp

/-- After the writes RR is as before, or its occupant has issued, an RS form only with room in the RS (R131). -/
theorem latch_written_rr_cases {s : State} (build : s.params.variant = .outOfOrder) :
    s.written.latch .rr = s.latch .rr ∨
      ∃ l k : Latch, s.written.latch .rr = some k ∧ k.op = l.op ∧ (isRsForm l.op = true → s.rsFull = false) := by
  by_cases takesEffect : .rr ∈ s.effective
  · rcases handleRR_cases s with silent | ⟨l, here, _, ⟨inOrder, _⟩ | ⟨_, issue⟩⟩
    · exact .inl (latch_written_of_silent (st := .rr) silent)
    · cases inOrder.symm.trans build
    · have leaves : ∀ {k ws}, issueOutOfOrder s l = { writes := .latch .rr k :: ws } → (∀ j, .latch .rr j ∉ ws) →
          s.written.latch .rr = some k := fun e only => latch_written takesEffect fun t _ => by
        rw [handler, issue, e]
        exact latch_applyAll_cons only t
      have control : isBranch l.op = true ∨ l.op = .ret → isRsForm l.op = true → s.rsFull = false := by
        intro control form
        obtain ⟨notBranch, notRet⟩ := not_control_of_isRsForm form
        exact control.elim (fun branch => by cases notBranch.symm.trans branch) fun ret => absurd ret notRet
      rcases issueOutOfOrder_cases s l with e | ⟨branch, v, _, _, e⟩ | ⟨ret, _, e⟩ | ⟨_, _, _, room, e⟩
      · obtain ⟨_, stays⟩ := written_of_stalled takesEffect here (issue.trans e)
        exact .inl (stays.trans here.symm)
      · exact .inr ⟨l, _, leaves e fun _ => List.not_mem_nil, rfl, control (.inl branch)⟩
      · exact .inr ⟨l, _, leaves e fun _ => List.not_mem_nil, rfl, control (.inr ret)⟩
      · exact .inr ⟨l, _, leaves e fun j => latch_notMem_renameWrites s l j .rr, rfl, room⟩
  · exact .inl (latch_written_of_not_effective takesEffect)

/-- While no issued RS form waits in RR, one that is there after the writes has issued in this cycle, so the RS had
room. -/
theorem rsFull_of_issued {s : State} (build : s.params.variant = .outOfOrder)
    (waits : ∀ l, s.latch .rr = some l → isRsForm l.op = true → l.done = false) {k : Latch}
    (here : s.written.latch .rr = some k) (done : k.done = true) (form : isRsForm k.op = true) : s.rsFull = false := by
  rcases latch_written_rr_cases build with same | ⟨l, j, issued, op, room⟩
  · cases done.symm.trans (waits k (same.symm.trans here) form)
  · obtain rfl := Option.some.inj (here.symm.trans issued)
    exact room (op ▸ form)

theorem cycle_rsRing {s : State} (z : s.Sized) (ring : s.RsRing) (running : s.status = .running) :
    (cycle s).RsRing := by
  obtain ⟨slots, waits⟩ := ring
  cases h : abortOf (evaluate s) with
  | some r =>
    rw [cycle_of_abort h]
    have written : s.written.RsSlots := State.applyAll_induct slots fun w _ _ k => k.apply w
    exact ⟨written, fun _ runs => by cases runs⟩
  | none =>
    obtain ⟨params, head, tail⟩ := commitPhase_rsPointers (evaluate s) s
    have sized : (commitPhase (evaluate s) s).Sized := (cycleKeeps_sized s).commitPhase z
    have room : s.params.variant = .outOfOrder → ∀ l, (commitPhase (evaluate s) s).latch .rr = some l →
        l.done = true → isRsForm l.op = true → (commitPhase (evaluate s) s).rsFull = false := by
      intro build l here done form
      obtain ⟨j, was, op, done'⟩ := latch_commitPhase_rr_some h here
      have free := rsFull_of_issued build (waits build running) was (done' ▸ done) (op ▸ form)
      unfold State.rsFull at *
      rw [params, head, tail]
      exact free
    rw [cycle_of_no_abort h]
    refine ⟨advance_rsSlots (s := (commitPhase (evaluate s) s).takeSnapshot)
      ((cycleKeeps_sized s).rest _ _ _ _ _ sized) (commitPhase_rsSlots slots) fun build => room (params ▸ build), ?_⟩
    intro build _ l here form
    obtain ⟨kept, _⟩ := advance_keepsArguments (commitPhase (evaluate s) s).takeSnapshot
    exact State.latch_advance_rr_form (kept ▸ build) here form

theorem State.RsSlots.pass {s : State} (slots : s.RsSlots) (empty : s.rsHead = s.rsTail) (i : Instr) (next : Int) :
    (s.pass i next).RsSlots := by
  unfold State.RsSlots at *
  rw [empty] at slots
  rw [State.pass_rsHead, State.pass_rsTail, empty]
  exact slots.of_empty _

/-- Every end of a meaning moves both pointers of an empty RS alike. -/
theorem ends_rsSlots {s t : State} {i : Instr} (slots : s.RsSlots) (empty : s.rsHead = s.rsTail) (ends : Ends s i t) :
    t.RsSlots := by
  cases ends with
  | decode => exact slots
  | abort =>
    obtain ⟨params, _⟩ := markIssued_keepsArguments s i
    have rs : (s.markIssued i).rs = s.rs := by rw [State.markIssued_frame]
    exact (slots.pass empty i s.pc).of_same params rs rfl rfl
  | write => exact slots.pass empty i (s.pc + 1)
  | store next => exact slots.pass empty i next
  | branch next => exact slots.pass empty i next
  | ret next => exact slots.pass empty i next

/-- A meaning that leaves the machine running leaves its latches alone. -/
theorem ends_latches {s t : State} {i : Instr} (ends : Ends s i t) (runs : t.status = .running) :
    t.latches = s.latches := by
  cases ends with
  | decode | abort => cases runs
  | _ => rfl

/-- Settles O53: a slot is taken only by an instruction that issued when there was room, and freed only at an occupied
head; that no issued RS form waits in RR is what makes the room still be there. -/
theorem stepKeepsRsRing : Obligations.StepKeepsRsRing := by
  intro s t z ring next
  refine step_keeps_of_idle (cycle_rsRing z ring) (fun _ idle i u ends => ?_) next
  obtain ⟨slots, _⟩ := ring
  obtain ⟨free, _, empty⟩ := pointers_of_idle idle
  refine ⟨ends_rsSlots slots empty ends, fun _ runs l here => ?_⟩
  rw [State.latch, ends_latches ends runs, free, PerStage.get_const] at here
  cases here

/-! ## A stall (R139) -/

/-- Issue alone takes ROB slots. -/
theorem robTail_written_of_stalled {s : State} (stalls : s.issueWrites = [.stall]) :
    s.written.robTail = s.robTail := by
  refine written_by_phases (P := fun t => t.robTail = s.robTail) (BeforeIssue.retire s).tail
    (fun a behind w answers t h => (robTail_of_unit behind answers t).trans h) (fun t h => ?_)
    fun a front w answers t h => (KeepsRob.apply (front_toRob front answers) t).tail.trans h
  rw [stalls]
  exact h

/-- Settles O29: the handler answers a stall, issue alone takes ROB slots, and an instruction that waits in RR takes no
RS slot. -/
theorem outOfOrderStallAllocatesNothing : Obligations.OutOfOrderStallAllocatesNothing := by
  intro s l build works completes noFlush held
  have stalls : handler .rr s = stalled :=
    (handler_rr_outOfOrder build works).trans (issueOutOfOrder_of_heldBack held)
  obtain ⟨here, work⟩ := works
  obtain ⟨counted, place⟩ := written_of_stalled (mem_effective_of_not_flushes completes noFlush .rr) here stalls
  obtain ⟨stallsKept, _⟩ := cycle_stalls_ready s
  have settled : s.settled.latch .rr = some l := settled_of_not_flushes noFlush ▸ place
  have committed := latch_commitPhase_rr_of_work completes settled work
  have noIssue : s.issueWrites = [.stall] := by
    rw [issueWrites_of_completes completes noFlush, stalls]
    rfl
  obtain ⟨_, _, rsTail⟩ := commitPhase_rsPointers (evaluate s) s
  have robTail : (cycle s).robTail = s.robTail :=
    cycle_of_written (P := fun t => t.robTail = s.robTail) (robTail_written_of_stalled noIssue)
      fun _ _ _ _ _ _ _ _ _ _ _ h => h
  refine ⟨stallsKept.trans counted, ?_, robTail, ?_⟩ <;> rw [cycle_of_completes completes]
  · exact State.latch_advance_rr_waits (s := (commitPhase (evaluate s) s).takeSnapshot) committed work
  · exact (State.advance_rsTail_of_work (s := (commitPhase (evaluate s) s).takeSnapshot) committed work).trans rsTail

/-! ## Wake-up (R141, R142) -/

/-- The state in which the advance pass begins. -/
def State.atAdvance (s : State) : State :=
  (commitPhase (evaluate s) s).takeSnapshot

theorem cycle_atAdvance {s : State} (completes : s.CycleCompletes) :
    (cycle s).latches = s.atAdvance.advance.latches ∧ (cycle s).rs = s.atAdvance.advance.rs := by
  rw [cycle_of_completes completes]
  exact ⟨rfl, rfl⟩

/-- After a commit every RS slot holds its entry woken. -/
theorem rs_atAdvance {s : State} {e : RobEntry} (completes : s.CycleCompletes) (commits : s.Commits e) (k : Nat) :
    s.atAdvance.rs.getD k none = (s.rs.getD k none).map fun l => l.wake e.id e.result := by
  show (commitPhase (evaluate s) s).rs.getD k none = _
  rw [commitPhase_of_commits completes commits, State.wakeUp_rs, rs_settled, getD_map_map]

theorem atAdvance_rsTail {s : State} {e : RobEntry} (completes : s.CycleCompletes) (commits : s.Commits e) :
    s.atAdvance.rsTail = s.rsTail ∧ s.atAdvance.rs.length = s.rs.length := by
  obtain ⟨_, _, tail⟩ := commitPhase_rsPointers (evaluate s) s
  refine ⟨tail, ?_⟩
  show (commitPhase (evaluate s) s).rs.length = _
  rw [commitPhase_of_commits completes commits, State.wakeUp_rs, rs_settled, List.length_map]

theorem atAdvance_build {s : State} {e : RobEntry} (commits : s.Commits e) :
    s.atAdvance.params.variant = .outOfOrder := by
  obtain ⟨params, _, _⟩ := commitPhase_rsPointers (evaluate s) s
  exact (congrArg Params.variant params).trans commits.build

/-- An RS entry off the tail is woken, and then in its slot, or, at the head, in its unit. -/
theorem rs_entry_wakes {s : State} {e : RobEntry} {k : Nat} {l : Latch} (commits : s.Commits e)
    (completes : s.CycleCompletes) (slot : s.rs.getD k none = some l) (notTail : k ≠ s.rsTail) :
    ∃ m : Latch, l.Woken m e.id e.result ∧
      ((cycle s).rs.getD k none = some m ∨
        k = s.rsHead ∧ ∃ u, l.unit = some u ∧ (cycle s).latch (unitStage u) = some m) := by
  obtain ⟨latches, rs⟩ := cycle_atAdvance completes
  obtain ⟨_, head, tail⟩ := commitPhase_rsPointers (evaluate s) s
  have woken : s.atAdvance.rs.getD k none = some (l.wake e.id e.result) := by
    rw [rs_atAdvance completes commits, slot]
    rfl
  have notTail' : k ≠ s.atAdvance.rsTail := fun h => notTail (h.trans tail)
  unfold State.latch
  rw [latches, rs]
  rcases State.advance_rs_slot woken notTail' with stays | ⟨atHead, u, unit, arrived⟩
  · exact ⟨_, l.wake_woken e.id e.result, .inl stays⟩
  · exact ⟨_, (l.wake_woken e.id e.result).setDone false, .inr ⟨atHead.trans head, u, unit, arrived⟩⟩

/-- An instruction in RR that has issued is woken, and then still there, in its unit, or at the RS tail. -/
theorem rr_issued_wakes {s : State} {e : RobEntry} {l : Latch} (commits : s.Commits e) (completes : s.CycleCompletes)
    (noFlush : ¬ s.Flushes) (here : s.latch .rr = some l) (done : l.done = true) (inside : s.rsTail < s.rs.length) :
    ∃ m : Latch, l.Woken m e.id e.result ∧
      ((cycle s).latch .rr = some m ∨ (∃ u, l.unit = some u ∧ (cycle s).latch (unitStage u) = some m) ∨
        (cycle s).rs.getD s.rsTail none = some m) := by
  obtain ⟨latches, rs⟩ := cycle_atAdvance completes
  obtain ⟨tail, size⟩ := atAdvance_rsTail completes commits
  have settled : s.settled.latch .rr = some l := by
    rw [settled_of_not_flushes noFlush, latch_written_of_silent (st := .rr) (handleRR_done here done), here]
  have woken : s.atAdvance.latch .rr = some (l.wake e.id e.result) :=
    latch_commitPhase_rr_of_done completes commits settled done
  have record := l.wake_woken e.id e.result
  unfold State.latch
  rw [latches, rs]
  by_cases form : isRsForm l.op = true
  · have slot := State.advance_enqueues (atAdvance_build commits) woken done form (by rwa [tail, size])
    exact ⟨_, record.setDone false, .inr (.inr (tail ▸ slot))⟩
  · have direct : ¬ (s.atAdvance.params.variant = .outOfOrder ∧ isRsForm (l.wake e.id e.result).op = true) :=
      fun ⟨_, bound⟩ => form bound
    rcases State.advance_rr_moves direct woken with stays | ⟨u, unit, arrived⟩
    · exact ⟨_, record, .inl stays⟩
    · exact ⟨_, record.setDone false, .inr (.inl ⟨u, unit, arrived⟩)⟩

/-- A slot whose register waits for the committing entry is captured awaiting it (R137). -/
theorem State.capture_of_tag {s : State} {r : Reg} {id : RobId} (tagged : s.tag r = some id) (old : Word) :
    s.capture (some r) old = ⟨old, false, some id⟩ := by
  simp only [State.capture, tagged]

/-- A source that is captured and woken in the same cycle has the committed value (R141, R142). -/
theorem captured_wake (s : State) (l : Latch) (id : RobId) (v : Word) :
    (∀ r, l.s1 = some r → s.tag r = some id →
      ((s.captured l).wake id v).v1 = v ∧ ((s.captured l).wake id v).r1 = true ∧
        ((s.captured l).wake id v).t1 = none) ∧
    (∀ r, l.s2 = some r → s.tag r = some id →
      ((s.captured l).wake id v).v2 = v ∧ ((s.captured l).wake id v).r2 = true ∧
        ((s.captured l).wake id v).t2 = none) ∧
    (∀ r, l.s3 = some r → s.tag r = some id →
      ((s.captured l).wake id v).v3 = v ∧ ((s.captured l).wake id v).r3 = true ∧
        ((s.captured l).wake id v).t3 = none) := by
  refine ⟨fun r source tagged => ?_, fun r source tagged => ?_, fun r source tagged => ?_⟩ <;>
    simp [Latch.wake, State.captured, source, State.capture_of_tag tagged]

/-- An RS form that issues in the cycle of a commit is at the RS tail, woken (R141). -/
theorem rr_issuing_wakes {s : State} {e : RobEntry} {l : Latch} (commits : s.Commits e) (completes : s.CycleCompletes)
    (noFlush : ¬ s.Flushes) (works : s.WorksOn .rr l) (free : ¬ s.HeldBack l) (form : isRsForm l.op = true)
    (inside : s.rsTail < s.rs.length) :
    (cycle s).rs.getD s.rsTail none = some { (s.captured l).wake e.id e.result with done := false } := by
  obtain ⟨notBranch, notRet⟩ := not_control_of_isRsForm form
  obtain ⟨_, rs⟩ := cycle_atAdvance completes
  obtain ⟨tail, size⟩ := atAdvance_rsTail completes commits
  have issues : handler .rr s = { writes := .latch .rr (s.captured l) :: renameWrites s l } :=
    (handler_rr_outOfOrder commits.build works).trans (issueOutOfOrder_of_free free notBranch notRet)
  have settled : s.settled.latch .rr = some (s.captured l) := by
    rw [settled_of_not_flushes noFlush]
    refine latch_written (mem_effective_of_not_flushes completes noFlush .rr) fun t _ => ?_
    rw [issues]
    exact latch_applyAll_cons (fun j => latch_notMem_renameWrites s l j .rr) t
  have woken : s.atAdvance.latch .rr = some ((s.captured l).wake e.id e.result) :=
    latch_commitPhase_rr_of_done completes commits settled rfl
  rw [rs]
  exact tail ▸ State.advance_enqueues (atAdvance_build commits) woken rfl form (by rwa [tail, size])

/-- Settles O39: the broadcast reaches every RS slot and the issued occupant of RR before the advance pass moves
them. -/
theorem commitWakesWaitingEntry : Obligations.CommitWakesWaitingEntry := by
  refine ⟨fun s e k l => rs_entry_wakes, fun s e l => rr_issued_wakes,
    fun s e l commits completes noFlush works free form inside => ?_⟩
  obtain ⟨source1, source2, source3⟩ := captured_wake s l e.id e.result
  exact ⟨_, rr_issuing_wakes commits completes noFlush works free form inside, rfl, rfl, source1, source2, source3⟩

end Sys2Proof.Machine
end

section
/-! SUPPORT. The invariant of the unit classes (R155): what it asks of each latch, what each part of a cycle and of a
meaning does to it. -/

namespace Sys2Proof.Machine

/-! ## What the invariant asks of each latch -/

/-- What `State.UnitClasses` asks of an occupant of a stage: from OA's completion on it carries the unit of its opcode
(R60, R85), and a unit holds its own class only (R155). -/
def Latch.Fits (l : Latch) : Stage → Prop
  | .oa => l.done = true → l.unit = some (unitOf l.op)
  | .rr => l.unit = some (unitOf l.op)
  | .exa => unitOf l.op = .exa
  | .exm => unitOf l.op = .exm
  | .exd => unitOf l.op = .exd
  | .exb => unitOf l.op = .exb
  | .m1 | .m2 => unitOf l.op = .m1
  | .f | .d | .wb | .rt => True

theorem Latch.fits_unitStage (l : Latch) (u : FuncUnit) : l.Fits (unitStage u) ↔ unitOf l.op = u := by
  cases u <;> exact Iff.rfl

/-- An occupant sent to the unit it carries fits there, if that is the unit of its opcode. -/
theorem Latch.fits_of_unit {l : Latch} {u : FuncUnit} (own : l.unit = some (unitOf l.op)) (unit : l.unit = some u)
    (done : Bool) : { l with done := done }.Fits (unitStage u) :=
  (Latch.fits_unitStage _ u).mpr (Option.some.inj (own.symm.trans unit))

/-- Behind OA the invariant is about opcode and unit alone. -/
theorem Latch.Fits.of_same {l k : Latch} {st : Stage} (h : l.Fits st) (behind : st ≠ .oa) (op : k.op = l.op)
    (unit : k.unit = l.unit) : k.Fits st := by
  cases st with
  | oa => exact absurd rfl behind
  | f | d | wb | rt => trivial
  | _ => simpa only [Latch.Fits, op, unit] using h

/-- The invariant, latch by latch. -/
theorem unitClasses_iff (s : State) :
    s.UnitClasses ↔
      (∀ st l, s.latch st = some l → l.Fits st) ∧ ∀ l, some l ∈ s.rs → l.unit = some (unitOf l.op) := by
  constructor
  · rintro ⟨oa, rr, rs, units, m2⟩
    refine ⟨fun st l here => ?_, rs⟩
    cases st with
    | f | d | wb | rt => trivial
    | oa => exact oa l here
    | rr => exact rr l here
    | exa => exact units .exa l here
    | exm => exact units .exm l here
    | exd => exact units .exd l here
    | exb => exact units .exb l here
    | m1 => exact units .m1 l here
    | m2 => exact m2 l here
  · rintro ⟨latches, rs⟩
    exact ⟨latches .oa, latches .rr, rs, fun u l here => (l.fits_unitStage u).mp (latches _ l here), latches .m2⟩

section
variable {s t : State}

theorem State.UnitClasses.fits (h : s.UnitClasses) {st : Stage} {l : Latch} (here : s.latch st = some l) :
    l.Fits st :=
  ((unitClasses_iff s).mp h).1 st l here

/-- The invariant is about the latches and the RS alone. -/
theorem State.UnitClasses.of_same (h : s.UnitClasses) (latches : t.latches = s.latches) (rs : t.rs = s.rs) :
    t.UnitClasses := by
  rw [unitClasses_iff] at h ⊢
  unfold State.latch at *
  rwa [latches, rs]

theorem State.UnitClasses.setLatch (h : s.UnitClasses) {st : Stage} {x : Option Latch}
    (fits : ∀ k, x = some k → k.Fits st) : (s.setLatch st x).UnitClasses := by
  refine (unitClasses_iff _).mpr ⟨fun a l here => ?_, h.rs⟩
  rw [State.latch_setLatch] at here
  split at here
  · rename_i same
    exact same ▸ fits l here
  · exact h.fits here

theorem State.UnitClasses.clear (h : s.UnitClasses) (st : Stage) : (s.setLatch st none).UnitClasses :=
  h.setLatch fun _ none => by cases none

theorem State.UnitClasses.place (h : s.UnitClasses) {st : Stage} {l : Latch} (fits : l.Fits st) :
    (s.setLatch st (some l)).UnitClasses :=
  h.setLatch fun _ some => Option.some.inj some ▸ fits

/-- A new RS slot asks for its entry's class only. -/
theorem State.UnitClasses.setRs (h : s.UnitClasses) {n m tail : Nat} {x : Option Latch}
    (fits : ∀ k, x = some k → k.unit = some (unitOf k.op)) :
    { s with rs := s.rs.set n x, rsHead := m, rsTail := tail }.UnitClasses := by
  refine (unitClasses_iff _).mpr ⟨fun st l here => h.fits (st := st) here, fun l mem => ?_⟩
  rcases List.mem_or_eq_of_mem_set mem with old | new
  · exact h.rs l old
  · exact fits l new.symm

theorem State.UnitClasses.rsEntry (h : s.UnitClasses) {k : Nat} {e : Latch} (slot : s.rs.getD k none = some e) :
    e.unit = some (unitOf e.op) := by
  refine h.rs e (List.mem_of_getElem? (i := k) ?_)
  cases found : s.rs[k]? with
  | none => simp [found] at slot
  | some x => simpa [found] using slot

end

/-! ## What a handler writes to its latch -/

/-- `k` is a record of the instruction of `l`, as far as the unit class goes: same opcode, same unit. -/
structure Latch.SameClass (l k : Latch) : Prop where
  op : k.op = l.op
  unit : k.unit = l.unit

/-- The one record that a handler writes to its latch. -/
theorem latch_mem_cons {st : Stage} {j k : Latch} {ws : List Write} (mem : .latch st k ∈ Write.latch st j :: ws)
    (only : ∀ i, .latch st i ∉ ws) : k = j := by
  rcases List.mem_cons.mp mem with own | later
  · cases own
    rfl
  · exact absurd later (only k)

/-- The one record that a handler writes to its latch is of its occupant's class, if it is made from the occupant. -/
theorem sameClass_of_mem_cons {st : Stage} {l j k : Latch} {ws : List Write}
    (mem : .latch st k ∈ Write.latch st j :: ws) (only : ∀ i, .latch st i ∉ ws) (same : l.SameClass j) :
    l.SameClass k := by
  rwa [latch_mem_cons mem only]

theorem latch_mem_handleRR {s : State} {k : Latch} (mem : .latch .rr k ∈ (handleRR s).writes) :
    ∃ l, s.latch .rr = some l ∧ l.SameClass k := by
  rcases handleRR_cases s with h | ⟨l, here, _, ⟨_, h⟩ | ⟨_, h⟩⟩ <;> rw [h] at mem
  · cases mem
  · rcases issueInOrder_cases s l with h | ⟨_, _, _, _, _, _, _, h⟩ <;> rw [h] at mem
    · simp [stalled] at mem
    · exact ⟨l, here, sameClass_of_mem_cons mem (latch_notMem_busyMark l .rr) ⟨rfl, rfl⟩⟩
  · rcases issueOutOfOrder_cases s l with h | ⟨_, _, _, _, h⟩ | ⟨_, _, h⟩ | ⟨_, _, _, _, h⟩ <;> rw [h] at mem
    · simp [stalled] at mem
    · exact ⟨l, here, sameClass_of_mem_cons mem (fun _ => List.not_mem_nil) ⟨rfl, rfl⟩⟩
    · exact ⟨l, here, sameClass_of_mem_cons mem (fun _ => List.not_mem_nil) ⟨rfl, rfl⟩⟩
    · exact ⟨l, here, sameClass_of_mem_cons mem (fun i => latch_notMem_renameWrites s l i .rr) ⟨rfl, rfl⟩⟩

theorem latch_mem_handleAlu {s : State} {st : Stage} {k : Latch} (mem : .latch st k ∈ (handleAlu st s).writes) :
    ∃ l, s.latch st = some l ∧ l.SameClass k := by
  rcases handleAlu_cases st s with h | ⟨l, here, _, ⟨v, _, h⟩ | ⟨_, _, h⟩⟩ <;> rw [h] at mem
  · cases mem
  · exact ⟨l, here, sameClass_of_mem_cons mem (latch_notMem_completion s l v st) ⟨rfl, rfl⟩⟩
  · cases mem

/-- In RR and in the units a handler leaves opcode and unit of its occupant as they are. -/
theorem latch_mem_handler {s : State} {st : Stage} {k : Latch} (place : st ∈ Stage.rr :: .m1 :: wbFeeders)
    (mem : .latch st k ∈ (handler st s).writes) : ∃ l, s.latch st = some l ∧ l.SameClass k := by
  cases st with
  | f | d | oa | wb | rt => exact absurd place (by decide)
  | rr => exact latch_mem_handleRR mem
  | exa => exact latch_mem_handleAlu (st := .exa) mem
  | exm => exact latch_mem_handleAlu (st := .exm) mem
  | exd => exact latch_mem_handleAlu (st := .exd) mem
  | exb =>
    rw [handler] at mem
    rcases handleEXB_cases s with h | ⟨l, here, _, ⟨_, h⟩ | ⟨_, h⟩⟩ <;> rw [h] at mem
    · cases mem
    · simp only [resolveBranch, List.mem_cons, reduceCtorEq, Write.latch.injEq, true_and, List.not_mem_nil, false_or,
        or_false] at mem
      exact ⟨l, here, mem ▸ rfl, mem ▸ rfl⟩
    · exact ⟨l, here, sameClass_of_mem_cons mem (fun _ => List.not_mem_nil) ⟨rfl, rfl⟩⟩
  | m1 =>
    rw [handler] at mem
    rcases handleM1_cases s with h | ⟨l, here, _, _, h⟩ <;> rw [h] at mem
    · cases mem
    · exact ⟨l, here, sameClass_of_mem_cons mem (fun _ => List.not_mem_nil) ⟨rfl, rfl⟩⟩
  | m2 =>
    rw [handler] at mem
    rcases handleM2_cases s with h | ⟨l, here, _, ⟨_, _, h⟩ | ⟨_, _, _, h⟩ | ⟨_, _, h⟩⟩ <;> rw [h] at mem
    · cases mem
    · exact ⟨l, here, sameClass_of_mem_cons mem (fun i => latch_notMem_completion s l _ .m2 i) ⟨rfl, rfl⟩⟩
    · simp only [List.mem_cons, reduceCtorEq, Write.latch.injEq, true_and, List.not_mem_nil, false_or, or_false] at mem
      exact ⟨l, here, mem ▸ rfl, mem ▸ rfl⟩
    · cases mem

/-- What a handler writes to its latch fits there: OA writes the unit of the opcode (R85), every later stage keeps
both. -/
theorem State.UnitClasses.written_fits {s : State} (h : s.UnitClasses) {st : Stage} {k : Latch}
    (mem : .latch st k ∈ (handler st s).writes) : k.Fits st := by
  have kept : st ∈ Stage.rr :: .m1 :: wbFeeders → k.Fits st := fun place => by
    obtain ⟨l, here, same⟩ := latch_mem_handler place mem
    exact (h.fits here).of_same (fun oa => absurd (oa ▸ place) (by decide)) same.op same.unit
  cases st with
  | f | d | wb | rt => trivial
  | oa =>
    rw [handler] at mem
    rcases handleOA_cases s with e | ⟨l, _, _, e⟩ <;> rw [e] at mem
    · cases mem
    · obtain rfl := latch_mem_cons mem fun _ => List.not_mem_nil
      exact fun _ => rfl
  | rr | exa | exm | exd | exb | m1 | m2 => exact kept (by decide)

/-! ## The commit phase -/

theorem State.UnitClasses.written {s : State} (h : s.UnitClasses) : s.written.UnitClasses := by
  refine State.applyAll_induct h fun w mem t ht => ?_
  obtain ⟨st, _, mem⟩ := List.mem_flatMap.mp mem
  cases handler_answers st s w mem with
  | latch _ k => exact ht.place (h.written_fits mem)
  | _ => exact ht.of_same rfl rfl

theorem State.UnitClasses.flush {s : State} (h : s.UnitClasses) (p : Int) : (s.flush p).UnitClasses :=
  ((((h.clear .f).clear .d).clear .oa).clear .rr).of_same rfl rfl

/-- A broadcast reaches operands only (R142). -/
theorem State.UnitClasses.wakeUp {s : State} (h : s.UnitClasses) (id : RobId) (v : Word) :
    (s.wakeUp id v).UnitClasses := by
  have woken : (s.setLatch .rr (wakeIssued (s.latch .rr) id v)).UnitClasses := by
    refine h.setLatch fun k issued => ?_
    cases here : s.latch .rr with
    | none => rw [here] at issued; cases issued
    | some l =>
      rw [here, wakeIssued] at issued
      split at issued <;> cases issued
      · exact (h.fits here).of_same (by decide) rfl rfl
      · exact h.fits here
  refine (unitClasses_iff _).mpr ⟨fun st l here => woken.fits (st := st) here, fun l mem => ?_⟩
  obtain ⟨e, old, wakes⟩ := List.mem_map.mp mem
  obtain ⟨k, rfl, rfl⟩ := Option.map_eq_some_iff.mp wakes
  exact h.rs k old

theorem State.UnitClasses.commitPhase {s : State} (h : s.UnitClasses) (noAbort : abortOf (evaluate s) = none) :
    (commitPhase (evaluate s) s).UnitClasses := by
  refine commitPhase_of_settled noAbort ?_ fun t id v ht => ht.wakeUp id v
  unfold State.settled
  split
  · exact h.written.flush _
  · exact h.written

/-! ## The advance pass -/

section
variable {s : State}

/-- A move keeps the invariant if what it moves fits where it arrives, not done. -/
theorem State.UnitClasses.move (h : s.UnitClasses) {src dst : Stage}
    (fits : ∀ l, s.latch src = some l → l.done = true → { l with done := false }.Fits dst) :
    (s.move src dst).UnitClasses := by
  rcases s.move_cases src dst with e | ⟨l, here, _, done, e⟩ <;> rw [e]
  · exact h
  · exact (h.place (fits l here done)).clear src

/-- Neither Writeback nor Retire asks for a class, so arbitration needs no look at what it moves. -/
theorem State.UnitClasses.arbitrate (h : s.UnitClasses) : s.arbitrate.UnitClasses := by
  rcases s.arbitrate_cases with e | ⟨st, e⟩ <;> rw [e]
  · exact h
  · exact h.move fun _ _ _ => trivial

theorem State.UnitClasses.leaveRT (h : s.UnitClasses) : s.leaveRT.UnitClasses := by
  rcases s.leaveRT_cases with e | e <;> rw [e]
  · exact h
  · exact h.clear .rt

/-- An RS entry is dispatched to the unit it carries (R144). -/
theorem State.UnitClasses.dispatchRs (h : s.UnitClasses) : s.dispatchRs.UnitClasses := by
  rcases s.dispatchRs_cases with e | ⟨l, u, _, _, slot, unit, _, _, e⟩ <;> rw [e]
  · exact h
  · exact (h.place (Latch.fits_of_unit (h.rsEntry slot) unit false)).setRs fun _ none => by cases none

/-- An issued instruction leaves for the unit it carries, or takes it along into the RS (R80, R143). -/
theorem State.UnitClasses.leaveRR (h : s.UnitClasses) : s.leaveRR.UnitClasses := by
  rcases s.leaveRR_cases with e | ⟨l, here, _, ⟨_, _, e⟩ | ⟨_, u, unit, e⟩⟩ <;> rw [e]
  · exact h
  · have entered : (s.rsEnqueue l).UnitClasses := h.setRs fun k new => Option.some.inj new ▸ h.rr l here
    exact entered.clear .rr
  · refine h.move fun k place _ => ?_
    obtain rfl := Option.some.inj (here.symm.trans place)
    exact Latch.fits_of_unit (h.rr l here) unit false

theorem State.UnitClasses.advance (h : s.UnitClasses) : s.advance.UnitClasses := by
  have room : s.makeRoom.UnitClasses := h.leaveRT.move fun _ _ _ => trivial
  have accessed : (s.makeRoom.arbitrate.move .m1 .m2).UnitClasses :=
    room.arbitrate.move fun l here _ => (room.arbitrate.fits here).of_same (by decide) rfl rfl
  have left := accessed.dispatchRs.leaveRR
  have entered := left.move (src := .oa) (dst := .rr) fun l here done => left.oa l here done
  exact (entered.move (src := .d) (dst := .oa) fun _ _ _ done => by cases done).move fun _ _ _ => trivial

end

/-! ## A step -/

theorem State.UnitClasses.cycle {s : State} (h : s.UnitClasses) : (cycle s).UnitClasses := by
  cases aborts : abortOf (evaluate s) with
  | some r =>
    rw [cycle_of_abort aborts]
    exact h.written.of_same rfl rfl
  | none =>
    have shown : (Machine.commitPhase (evaluate s) s).takeSnapshot.UnitClasses := (h.commitPhase aborts).of_same rfl rfl
    rw [cycle_of_no_abort aborts]
    exact shown.advance.of_same rfl rfl

theorem State.markIssued_rs (s : State) (i : Instr) : (s.markIssued i).rs = s.rs := by
  rw [State.markIssued_frame]

/-- An abort in a unit leaves the instruction's record there: it has to be of that unit's class. -/
theorem State.UnitClasses.abortIn {s : State} (h : s.UnitClasses) {i : Instr} {st : Stage} {a : Word}
    (fits : (s.addressedLatch i a).Fits st) (before : Nat) (shown : PerStage (Option Nat))
    (r : AbortReason) : (s.abortIn i st a before shown r).UnitClasses := by
  have marked : (s.markIssued i).UnitClasses := h.of_same (s.markIssued_latches i) (s.markIssued_rs i)
  exact (marked.place fits).of_same rfl rfl

theorem State.UnitClasses.abortDecode {s : State} (h : s.UnitClasses) (i : Instr) : (s.abortDecode i).UnitClasses :=
  (h.place (st := .d) (l := { s.fetchedLatch with done := false }) trivial).of_same rfl rfl

theorem State.UnitClasses.abortDivide {s : State} (h : s.UnitClasses) {i : Instr} (divides : unitOf i.opcode = .exd)
    (r : AbortReason) : (s.abortDivide i r).UnitClasses := by
  unfold State.abortDivide
  split
  · exact h.abortIn (st := .exd) divides 5 _ r
  · exact h.abortIn (st := .exd) divides 4 _ r

theorem State.UnitClasses.abortMemory {s : State} (h : s.UnitClasses) {i : Instr} (memory : isMemory i.opcode = true)
    (a : Word) (r : AbortReason) : (s.abortMemory i a r).UnitClasses := by
  obtain ⟨_, _, unit⟩ := memory_class memory
  exact h.abortIn (st := .m2) unit _ _ r

/-- A meaning leaves latches and RS alone, unless it aborts in Decode or in a unit of its instruction's class. -/
theorem State.UnitClasses.exec {s t : State} (h : s.UnitClasses) {i : Instr} (ran : exec i s = .next t) :
    t.UnitClasses := by
  rcases exec_shape i s with
    ⟨d, result, _, computed, arith⟩ | ⟨d, isLoad, _, load⟩ | ⟨isStore, store⟩ | ⟨r, _, _, branch⟩ | ⟨_, ret⟩
  · rcases State.arith_cases (arith ▸ ran) with ⟨_, rfl⟩ | ⟨_, ⟨v, _, rfl⟩ | ⟨e, failed, rfl⟩⟩
    · exact h.abortDecode i
    · exact h.of_same rfl rfl
    · obtain ⟨divides, _⟩ := aluResult_error_cause (failed ▸ computed)
      exact h.abortDivide divides e
  · rcases State.load_cases (load ▸ ran) with ⟨_, rfl⟩ | ⟨_, ⟨_, rfl⟩ | ⟨_, rfl⟩⟩
    · exact h.abortDecode i
    · exact h.of_same rfl rfl
    · exact h.abortMemory (isMemory_of_isLoad isLoad) _ _
  · rcases State.store_cases (store ▸ ran) with ⟨_, rfl⟩ | ⟨_, ⟨_, rfl⟩ | ⟨_, rfl⟩⟩
    · exact h.abortDecode i
    · exact h.of_same rfl rfl
    · exact h.abortMemory (isMemory_of_isStore isStore) _ _
  · rcases State.branch_cases (branch ▸ ran) with ⟨_, rfl⟩ | ⟨_, rfl⟩
    · exact h.abortDecode i
    · exact h.of_same rfl rfl
  · rw [ret, State.decoded_eq] at ran
    split at ran <;> cases ran
    · exact h.of_same rfl rfl
    · exact h.abortDecode i

/-- Settles O58: OA gives an instruction the unit of its opcode, no later stage changes either, and it leaves RR and the
RS for that unit alone. -/
theorem stepKeepsUnitClasses : Obligations.StepKeepsUnitClasses := by
  intro s t classes next
  obtain ⟨_, ⟨_, rfl⟩ | ⟨i, _, _, ran⟩⟩ := step_cases next
  · exact classes.cycle
  · exact classes.exec ran

end Sys2Proof.Machine
end

section
/-! SUPPORT. The arithmetic instructions and units: the meaning that writes a result (R157 to R165), the abort in a unit
(R192), and the result of a unit's occupant after a cycle (R155). -/

namespace Sys2Proof.Machine

/-! ## Results as signed integers (R8, R166) -/

/-- A wrapped integer is its residue modulo 2^32 that a signed word can hold. -/
theorem toInt_wrap (n : Int) : (wrap n).toInt = n.bmod (2 ^ 32) :=
  BitVec.toInt_ofInt n

theorem quotWord_of_ne_zero (a : Word) {b : Word} (h : b ≠ 0) : quotWord a b = .ok (tdiv a b) :=
  if_neg fun zero => h (BitVec.toInt_inj.mp zero)

theorem quotWord_ok {a b v : Word} (h : quotWord a b = .ok v) : b ≠ 0 ∧ v = tdiv a b := by
  have nonzero : b ≠ 0 := by
    rintro rfl
    cases h
  rw [quotWord_of_ne_zero a nonzero] at h
  cases h
  exact ⟨nonzero, rfl⟩

/-! ## A pass that writes a register -/

/-- The pass of an instruction that writes `v` to its destination changes nothing else. -/
theorem passWrite_writesRegister {i : Instr} {s : State} {d : Reg} {v : Word} {n : Int}
    (runs : exec i s = .next (s.passWrite i d v)) (value : v.toInt = n.bmod (2 ^ 32)) : WritesRegister i s d n := by
  have entry : (s.passWrite i d v).regs[d] = ⟨v, true, none⟩ := State.regs_setEntry_same _ d _
  refine ⟨_, runs, ?_, ?_, ?_, fun r other => ?_, fun _ => rfl, ⟨rfl, rfl⟩, ⟨rfl, rfl, rfl, rfl⟩, ⟨rfl, rfl, rfl⟩, rfl,
    rfl, ⟨rfl, rfl, rfl, rfl, rfl, rfl, rfl, rfl, rfl, rfl⟩⟩
  · rw [State.x, entry, value]
  · rw [State.ready, entry]
  · rw [State.tag, entry]
  · exact (State.regs_setEntry (s.pass i (s.pc + 1)) d r _).trans (if_neg other)

/-- An arithmetic meaning with a result writes it. -/
theorem arith_writesRegister {i : Instr} {s : State} {d : Reg} {v : Word} {n : Int}
    (wellFormed : i.wellFormed s.params.nreg = true) (runs : exec i s = s.arith i d (.ok v))
    (value : v.toInt = n.bmod (2 ^ 32)) : WritesRegister i s d n :=
  passWrite_writesRegister (runs.trans (State.decoded_of_wellFormed _ wellFormed)) value

/-- Settles O8: the result is the wrapped sum. -/
theorem addFormsWriteWrappedSum : Obligations.AddFormsWriteWrappedSum :=
  ⟨fun _ _ _ _ wellFormed => arith_writesRegister wellFormed rfl (toInt_wrap _),
    fun _ _ _ _ wellFormed => arith_writesRegister wellFormed rfl (toInt_wrap _)⟩

/-- Settles O9: the result is the wrapped difference. -/
theorem subFormsWriteWrappedDifference : Obligations.SubFormsWriteWrappedDifference :=
  ⟨fun _ _ _ _ wellFormed => arith_writesRegister wellFormed rfl (toInt_wrap _),
    fun _ _ _ _ wellFormed => arith_writesRegister wellFormed rfl (toInt_wrap _)⟩

/-- Settles O10: the result is the wrapped product. -/
theorem mulFormsWriteWrappedProduct : Obligations.MulFormsWriteWrappedProduct :=
  ⟨fun _ _ _ _ wellFormed => arith_writesRegister wellFormed rfl (toInt_wrap _),
    fun _ _ _ _ wellFormed => arith_writesRegister wellFormed rfl (toInt_wrap _)⟩

/-- Settles O13: the result is the immediate, which no wrapping changes. -/
theorem setWritesImmediate : Obligations.SetWritesImmediate :=
  fun _ _ imm wellFormed => arith_writesRegister wellFormed rfl (BitVec.toInt_bmod_cancel imm).symm

/-- A divide whose divisor is not 0 writes the quotient. -/
theorem divide_writesRegister {i : Instr} {s : State} {d : Reg} {a b : Word}
    (wellFormed : i.wellFormed s.params.nreg = true) (runs : exec i s = s.arith i d (quotWord a b)) (nonzero : b ≠ 0) :
    WritesRegister i s d (a.toInt.tdiv b.toInt) :=
  arith_writesRegister wellFormed (quotWord_of_ne_zero a nonzero ▸ runs) (toInt_wrap _)

/-- Settles O11: a divisor other than 0 leaves the quotient of the divide unit. -/
theorem divFormsWriteTruncatedQuotient : Obligations.DivFormsWriteTruncatedQuotient :=
  ⟨fun _ _ _ _ wellFormed => divide_writesRegister wellFormed rfl,
    fun _ _ _ _ wellFormed => divide_writesRegister wellFormed rfl⟩

/-! ## An abort in a unit (R92) -/

/-- Marking the destination at issue changes no value, and no other register. -/
theorem markIssued_registers (s : State) (i : Instr) :
    KeepsValues s (s.markIssued i) ∧ ∀ q, (slots i).dest ≠ some q → (s.markIssued i).regs[q] = s.regs[q] := by
  unfold State.markIssued
  cases (slots i).dest with
  | none => exact ⟨fun _ => rfl, fun _ _ => rfl⟩
  | some d =>
    cases s.params.variant with
    | inOrder =>
      refine ⟨fun r => State.x_setReady s d r false, fun q other => ?_⟩
      exact (State.regs_setEntry s d q _).trans (if_neg fun h => other (congrArg some h.symm))
    | outOfOrder =>
      refine ⟨fun r => (State.x_setReady _ d r false).trans (State.x_setTag (s.robAllocate d) d r _), fun q other => ?_⟩
      have apart : q ≠ d := fun h => other (congrArg some h.symm)
      have renamed := State.setTag_setReady (s.robAllocate d) d (some s.robTail)
      exact (congrArg (fun t : State => t.regs[q]) renamed).trans
        ((State.regs_setEntry (s.robAllocate d) d q _).trans (if_neg apart))

/-- In the in-order build marking takes no ROB slot. -/
theorem markIssued_inOrder {s : State} (build : s.params.variant = .inOrder) (i : Instr) :
    (s.markIssued i).rob = s.rob ∧ (s.markIssued i).robHead = s.robHead ∧ (s.markIssued i).robTail = s.robTail := by
  unfold State.markIssued
  rw [build]
  cases (slots i).dest with
  | none => exact ⟨rfl, rfl, rfl⟩
  | some d => exact ⟨rfl, rfl, rfl⟩

theorem markIssued_counters (s : State) (i : Instr) :
    (s.markIssued i).retired = s.retired ∧ (s.markIssued i).stalls = s.stalls ∧
      (s.markIssued i).fetchHalt = s.fetchHalt ∧ (s.markIssued i).fwd = s.fwd := by
  rw [State.markIssued_frame]
  exact ⟨rfl, rfl, rfl, rfl⟩

theorem State.latch_abortIn (s : State) (i : Instr) (st : Stage) (a : Word) (n : Nat) (shown : PerStage (Option Nat))
    (r : AbortReason) (other : Stage) :
    (s.abortIn i st a n shown r).latch other = if other = st then some (s.addressedLatch i a) else s.latch other := by
  have latches := s.markIssued_latches i
  unfold State.latch
  rw [← latches]
  exact PerStage.get_set _ st other _

/-- In the in-order build an abort in a unit leaves both rings alone. -/
theorem abortIn_inOrder {s : State} (build : s.params.variant = .inOrder) (i : Instr) (st : Stage) (a : Word) (n : Nat)
    (shown : PerStage (Option Nat)) (r : AbortReason) :
    (s.abortIn i st a n shown r).rob = s.rob ∧ (s.abortIn i st a n shown r).robHead = s.robHead ∧
      (s.abortIn i st a n shown r).robTail = s.robTail ∧ (s.abortIn i st a n shown r).rs = s.rs ∧
      (s.abortIn i st a n shown r).rsHead = s.rsHead ∧ (s.abortIn i st a n shown r).rsTail = s.rsTail := by
  obtain ⟨rob, robHead, robTail⟩ := markIssued_inOrder build i
  obtain ⟨_, noRs⟩ := usesNothing_inOrder build i
  have pointer : ∀ n, pointerAfter (s.usesRs i) s.params.rsCap n = n := fun n => by rw [noRs]; rfl
  exact ⟨rob, robHead, robTail, s.markIssued_rs i, pointer s.rsHead, pointer s.rsTail⟩

/-- An abort in a unit leaves the instruction's record there and touches no register value, byte, predictor entry or
channel, and in the in-order build no ring. -/
theorem abortIn_abortsRun {i : Instr} {s : State} {st : Stage} {a : Word} {n : Nat} {shown : PerStage (Option Nat)}
    {r : AbortReason} (runs : exec i s = .next (s.abortIn i st a n shown r)) : AbortsRun i s r st n (s.pc + 1) := by
  obtain ⟨values, others⟩ := markIssued_registers s i
  obtain ⟨retired, stalls, fetchHalt, fwd⟩ := markIssued_counters s i
  have latch := s.latch_abortIn i st a n shown r
  exact ⟨_, runs, rfl, retired, stalls, rfl, rfl, rfl, fetchHalt, fwd, values, others,
    fun b => congrArg (Memory.readByte · b) (markIssued_mem s i), markIssued_keepsPredictor s i,
    abortIn_keepsArguments .., ⟨_, (latch st).trans (if_pos rfl), rfl, rfl⟩,
    fun other apart => (latch other).trans (if_neg apart), fun build => abortIn_inOrder build i st a n shown r⟩

/-- The cycles of a divide's abort: one more where the instruction passed through the RS (R133). -/
theorem abortDivide_abortsRun {i : Instr} {s : State} {r : AbortReason} (form : isRsForm i.opcode = true)
    (runs : exec i s = .next (s.abortDivide i r)) :
    AbortsRun i s r .exd (if s.params.variant = .outOfOrder then 5 else 4) (s.pc + 1) := by
  unfold State.abortDivide State.usesRs at runs
  cases build : s.params.variant with
  | inOrder =>
    rw [build] at runs
    exact abortIn_abortsRun runs
  | outOfOrder =>
    rw [build, form] at runs
    exact abortIn_abortsRun runs

/-- A divide whose divisor is 0 ends in the abort in EXD (R192). -/
theorem divide_abortsRun {i : Instr} {s : State} {d : Reg} {a : Word} (form : isRsForm i.opcode = true)
    (wellFormed : i.wellFormed s.params.nreg = true) (runs : exec i s = s.arith i d (quotWord a 0)) :
    AbortsRun i s .divideByZero .exd (if s.params.variant = .outOfOrder then 5 else 4) (s.pc + 1) :=
  abortDivide_abortsRun form (runs.trans (State.decoded_of_wellFormed _ wellFormed))

/-- Settles O12: the divide unit has no result for a divisor 0, whatever the dividend. -/
theorem divFormsAbortOnZeroDivisor : Obligations.DivFormsAbortOnZeroDivisor := by
  refine ⟨fun s a b wellFormed => divide_abortsRun (d := a) (a := s.x b) rfl wellFormed rfl,
    fun s a b c wellFormed zero => ?_⟩
  have runs : exec (.divl a b c) s = s.arith (.divl a b c) a (quotWord (s.x b) 0) := by
    rw [← zero]
    rfl
  exact divide_abortsRun rfl wellFormed runs

/-! ## A unit's result after a cycle (R155) -/

theorem aluResult_of_class {op : Opcode} (unit : unitOf op ∈ [FuncUnit.exa, .exm, .exd]) (a y : Word) :
    ∃ e, aluResult op a y = some e := by
  refine aluResult_isSome ?_ a y
  simp only [List.mem_cons, List.not_mem_nil, or_false] at unit
  rcases unit with h | h | h <;> rw [h] <;> decide

/-- Without an abort an arithmetic unit finishes with an occupant of any of the three classes, and leaves its result. -/
theorem latch_written_alu {s : State} (completes : s.CycleCompletes) {st : Stage} (unit : st ∈ [Stage.exa, .exm, .exd])
    {l : Latch} (works : s.WorksOn st l) (class_ : unitOf l.op ∈ [FuncUnit.exa, .exm, .exd]) :
    ∃ v, aluResult l.op l.v1 l.secondOperand = some (.ok v) ∧
      s.written.latch st = some { l with result := v, done := true } := by
  obtain ⟨here, work⟩ := works
  obtain ⟨answer, feeder⟩ := handler_alu unit s
  obtain ⟨e, computed⟩ := aluResult_of_class class_ l.v1 l.secondOperand
  simp only [handleAlu, here, work, computed, Bool.false_eq_true, if_false] at answer
  cases e with
  | error r => exact absurd (congrArg HandlerOut.signal answer) (no_abort (abortOf_of_completes completes) st r)
  | ok v =>
    refine ⟨v, computed, latch_written (back_mem_effective completes (back_of_feeder feeder)) fun t _ => ?_⟩
    rw [answer]
    exact latch_applyAll_cons (latch_notMem_completion s l v st) t

/-- The occupant of a feeder is after the cycle where the writes left it, or in Writeback, which arbitration alone
enters (R81). -/
theorem latch_cycle_feeder {s : State} (completes : s.CycleCompletes) {st : Stage} (feeder : st ∈ wbFeeders) {k : Latch}
    (written : s.written.latch st = some k) :
    (cycle s).latch st = some k ∨ (cycle s).latch .wb = some { k with done := false } := by
  have here : s.atArbitration.latch st = some k := (latch_atArbitration_feeder completes feeder).trans written
  by_cases chosen : s.atArbitration.oldestFeeder = some st
  · refine .inr ((latch_cycle_of_arbitration completes (.inr rfl) fun h => absurd rfl h).trans ?_)
    exact State.latch_arbitrate_wb (latch_atArbitration_wb completes) chosen here
  · have stays : s.atArbitration.arbitrate.latch st = some k := by
      cases other : s.atArbitration.oldestFeeder with
      | none => simp only [State.arbitrate, other, here]
      | some a =>
        have apart : st ≠ a := fun h => chosen (h ▸ other)
        exact (State.latch_arbitrate_other other (ne_wb_of_feeder feeder) apart).trans here
    exact .inl ((latch_cycle_of_arbitration completes (.inl feeder) fun _ => by simp [stays]).trans stays)

section
variable {l : Latch} {v : Word} {o : Opcode}

/-- What a unit computed, with the opcode of its occupant named. -/
theorem aluResult_of_op (result : aluResult l.op l.v1 l.secondOperand = some (.ok v)) (op : l.op = o) :
    aluResult o l.v1 { l with op := o }.secondOperand = some (.ok v) := by
  subst op
  exact result

/-- A unit that computes a wrapped integer leaves its residue modulo 2^32. -/
theorem toInt_of_aluResult {n : Int} (result : aluResult l.op l.v1 l.secondOperand = some (.ok v)) (op : l.op = o)
    (computes : aluResult o l.v1 { l with op := o }.secondOperand = some (.ok (wrap n))) :
    v.toInt = n.bmod (2 ^ 32) := by
  cases computes.symm.trans (aluResult_of_op result op)
  exact toInt_wrap n

/-- A divide that leaves a result had a divisor other than 0. -/
theorem quotient_of_aluResult {a b : Word} (result : aluResult l.op l.v1 l.secondOperand = some (.ok v)) (op : l.op = o)
    (computes : aluResult o l.v1 { l with op := o }.secondOperand = some (quotWord a b)) :
    b ≠ 0 ∧ v.toInt = (a.toInt.tdiv b.toInt).bmod (2 ^ 32) := by
  obtain ⟨nonzero, rfl⟩ := quotWord_ok (Option.some.inj (computes.symm.trans (aluResult_of_op result op)))
  exact ⟨nonzero, toInt_wrap _⟩

end

/-- An occupant of an arithmetic unit is after a cycle in its unit or in Writeback, with its result. -/
theorem alu_occupant_after_cycle {s : State} {st : Stage} {l : Latch} (unit : st ∈ [Stage.exa, .exm, .exd])
    (works : s.WorksOn st l) (completes : s.CycleCompletes) (class_ : unitOf l.op ∈ [FuncUnit.exa, .exm, .exd]) :
    ∃ k, ((cycle s).latch st = some k ∨ (cycle s).latch .wb = some k) ∧ k.idx = l.idx ∧ k.seq = l.seq ∧
      k.dest = l.dest ∧ aluResult l.op l.v1 l.secondOperand = some (.ok k.result) := by
  obtain ⟨_, feeder⟩ := handler_alu unit s
  obtain ⟨v, result, written⟩ := latch_written_alu completes unit works class_
  rcases latch_cycle_feeder completes feeder written with stays | entered
  · exact ⟨_, .inl stays, rfl, rfl, rfl, result⟩
  · exact ⟨_, .inr entered, rfl, rfl, rfl, result⟩

/-- Settles O31: a unit leaves the result of its captured operands in its latch, and the occupant takes it along. -/
theorem unitsComputeResults : Obligations.UnitsComputeResults := by
  intro s st l unit works completes class_
  obtain ⟨k, place, idx, seq, dest, result⟩ := alu_occupant_after_cycle unit works completes class_
  have wrapped {o : Opcode} {n : Int} := toInt_of_aluResult (o := o) (n := n) result
  have quotient {o : Opcode} {a b : Word} := quotient_of_aluResult (o := o) (a := a) (b := b) result
  exact ⟨k, place, idx, seq, dest, (wrapped · rfl), (wrapped · rfl), (wrapped · rfl), (wrapped · rfl), (wrapped · rfl),
    (wrapped · rfl), (quotient · rfl), (quotient · rfl),
    fun op => (Except.ok.inj (Option.some.inj (aluResult_of_op result op))).symm⟩

end Sys2Proof.Machine
end

section
/-! SUPPORT. The memory instructions (R171 to R178): the meaning of a load and of a store in range and out of range, and
what M2 reads and writes in a cycle. -/

namespace Sys2Proof.Machine

/-! ## Loads and stores in range (R172 to R174) -/

/-- A load that passes Decode: its word in range, the abort in M2 out of range. -/
theorem State.load_of_wellFormed {s : State} {i : Instr} (d : Reg) (a : Word)
    (wellFormed : i.wellFormed s.params.nreg = true) :
    s.load i d a =
      .next (if s.inRange a = true then s.passWrite i d (s.mem.readWord (widx a))
        else s.abortMemory i a .memoryOutOfRange) := by
  refine (State.decoded_of_wellFormed _ wellFormed).trans (congrArg Host.Outcome.next ?_)
  unfold State.memRead
  cases s.inRange a <;> rfl

/-- A store that passes Decode: its word written in range, the abort in M2 out of range. -/
theorem State.store_of_wellFormed {s : State} {i : Instr} (a v : Word)
    (wellFormed : i.wellFormed s.params.nreg = true) :
    s.store i a v =
      .next (if s.inRange a = true then (s.pass i (s.pc + 1)).storeWord a v
        else s.abortMemory i a .memoryOutOfRange) := by
  refine (State.decoded_of_wellFormed _ wellFormed).trans (congrArg Host.Outcome.next ?_)
  unfold State.memWrite
  rw [State.inRange_pass]
  cases s.inRange a <;> rfl

/-- A load in range writes the word its address selects. -/
theorem load_writesRegister {i : Instr} {s : State} {d : Reg} {a : Word}
    (wellFormed : i.wellFormed s.params.nreg = true) (runs : exec i s = s.load i d a) (inside : s.inRange a = true) :
    WritesRegister i s d (s.mem.readWord (widx a)).toInt := by
  rw [State.load_of_wellFormed d a wellFormed, if_pos inside] at runs
  exact passWrite_writesRegister runs (BitVec.toInt_bmod_cancel _).symm

/-- Settles O14: a load in range completes with the word `MemRead` answers. -/
theorem loadFormsReadSelectedWord : Obligations.LoadFormsReadSelectedWord :=
  ⟨fun _ _ _ _ wellFormed inside => load_writesRegister wellFormed rfl inside,
    fun _ _ _ _ wellFormed inside => load_writesRegister wellFormed rfl inside⟩

/-- A store in range writes the word its address selects, and changes nothing else. -/
theorem store_writesMemory {i : Instr} {s : State} {a v : Word} (canonical : s.mem.wf = true)
    (wellFormed : i.wellFormed s.params.nreg = true) (runs : exec i s = s.store i a v) (inside : s.inRange a = true) :
    WritesMemory i s (widx a) v := by
  rw [State.store_of_wellFormed a v wellFormed, if_pos inside] at runs
  have word : (s.mem.writeWord (widx a) v).readWord (widx a) = v :=
    (Memory.readWord_writeWord _ _ v canonical).trans (if_pos rfl)
  exact ⟨_, runs, word, fun _ => Memory.readByte_writeWord_outside v canonical, fun _ => rfl, ⟨rfl, rfl⟩,
    ⟨rfl, rfl, rfl, rfl⟩, ⟨rfl, rfl, rfl⟩, rfl, rfl, ⟨rfl, rfl, rfl, rfl, rfl, rfl, rfl, rfl, rfl, rfl⟩⟩

/-- Settles O15: a store in range completes with the memory `MemWrite` leaves. -/
theorem storeFormsWriteSelectedWord : Obligations.StoreFormsWriteSelectedWord :=
  ⟨fun _ _ _ _ canonical wellFormed inside => store_writesMemory canonical wellFormed rfl inside,
    fun _ _ _ _ canonical wellFormed inside => store_writesMemory canonical wellFormed rfl inside⟩

/-! ## Out of range (R193) -/

/-- The cycles of an abort in M2: one more where the instruction passed through the RS (R133). -/
theorem abortMemory_abortsRun {i : Instr} {s : State} {a : Word} {r : AbortReason} (form : isRsForm i.opcode = true)
    (runs : exec i s = .next (s.abortMemory i a r)) :
    AbortsRun i s r .m2 (if s.params.variant = .outOfOrder then 6 else 5) (s.pc + 1) := by
  unfold State.abortMemory State.usesRs at runs
  cases build : s.params.variant with
  | inOrder =>
    rw [build] at runs
    exact abortIn_abortsRun runs
  | outOfOrder =>
    rw [build, form] at runs
    exact abortIn_abortsRun runs

theorem load_abortsRun {i : Instr} {s : State} {d : Reg} {a : Word} (form : isRsForm i.opcode = true)
    (wellFormed : i.wellFormed s.params.nreg = true) (runs : exec i s = s.load i d a) (outside : s.inRange a = false) :
    AbortsRun i s .memoryOutOfRange .m2 (if s.params.variant = .outOfOrder then 6 else 5) (s.pc + 1) := by
  rw [State.load_of_wellFormed d a wellFormed, if_neg (ne_true_of_eq_false outside)] at runs
  exact abortMemory_abortsRun form runs

theorem store_abortsRun {i : Instr} {s : State} {a v : Word} (form : isRsForm i.opcode = true)
    (wellFormed : i.wellFormed s.params.nreg = true) (runs : exec i s = s.store i a v) (outside : s.inRange a = false) :
    AbortsRun i s .memoryOutOfRange .m2 (if s.params.variant = .outOfOrder then 6 else 5) (s.pc + 1) := by
  rw [State.store_of_wellFormed a v wellFormed, if_neg (ne_true_of_eq_false outside)] at runs
  exact abortMemory_abortsRun form runs

/-- Settles O16: the range check fails in M2. A load and a store of the same format name the same registers, so one
hypothesis makes both well formed. -/
theorem memoryFormsAbortOutOfRange : Obligations.MemoryFormsAbortOutOfRange :=
  ⟨fun _ _ _ _ wellFormed outside =>
      ⟨load_abortsRun rfl wellFormed rfl outside, store_abortsRun rfl wellFormed rfl outside⟩,
    fun _ _ _ _ wellFormed outside =>
      ⟨load_abortsRun rfl wellFormed rfl outside, store_abortsRun rfl wellFormed rfl outside⟩⟩

/-! ## M2 in a cycle (R172 to R174) -/

/-- A cycle in which M2 works completes only if the occupant's address is in range. -/
theorem inRange_of_completes {s : State} {l : Latch} (completes : s.CycleCompletes) (works : s.WorksOn .m2 l)
    (access : isLoad l.op = true ∨ isStore l.op = true) : s.inRange l.addr = true := by
  obtain ⟨here, work⟩ := works
  by_contra outside
  refine no_abort (abortOf_of_completes completes) .m2 .memoryOutOfRange ?_
  cases load : isLoad l.op with
  | true => simp [handler, handleM2, here, work, load, State.memRead, outside]
  | false =>
    have store : isStore l.op = true := access.resolve_left (by simp [load])
    simp [handler, handleM2, here, work, load, store, outside]

/-- No stage but M2 writes memory (R174). -/
theorem mem_apply_of_ne_m2 {s : State} {a : Stage} (other : a ≠ .m2) {w : Write} (h : Answers s a w) (t : State) :
    (t.apply w).mem = t.mem := by
  cases h with
  | store => exact absurd rfl other
  | _ => rfl

theorem mem_cycle (s : State) : (cycle s).mem = s.written.mem := by
  obtain ⟨_, _, _, _, _, _, _, _, _, _, frame⟩ := cycle_frame s
  rw [frame]

/-- The word of a store working in M2 holds the stored value once the writes are applied. -/
theorem readWord_written_of_store {s : State} {l : Latch} (canonical : s.mem.wf = true)
    (completes : s.CycleCompletes) (works : s.WorksOn .m2 l) (store : isStore l.op = true) :
    s.written.mem.readWord (widx l.addr) = l.v3 := by
  refine written_of_owner (P := fun t => t.mem.wf = true) (Q := fun t => t.mem.readWord (widx l.addr) = l.v3)
    (back_mem_effective completes (st := .m2) rfl) canonical (fun _ _ w _ _ h => wf_apply w h) (fun t h => ?_)
    (fun _ other _ answers t h => (congrArg (Memory.readWord · _) (mem_apply_of_ne_m2 other answers t)).trans h)
  rw [handler_m2_of_store (abortOf_of_completes completes) works store]
  exact (Memory.readWord_writeWord _ _ l.v3 h).trans (if_pos rfl)

/-- A load working in M2 is done there once the writes are applied, with the word of the start of the cycle. -/
theorem latch_written_of_load {s : State} {l : Latch} (completes : s.CycleCompletes) (works : s.WorksOn .m2 l)
    (load : isLoad l.op = true) :
    s.written.latch .m2 = some { l with result := s.mem.readWord (widx l.addr), done := true } := by
  refine latch_written (back_mem_effective completes rfl) fun t _ => ?_
  rw [handler_m2_of_load (abortOf_of_completes completes) works load]
  exact latch_applyAll_cons (latch_notMem_completion s l _ .m2) t

/-- Settles O36: M2's writes take effect, no other stage writes memory, and a load takes its result along. -/
theorem m2AccessesItsWord : Obligations.M2AccessesItsWord := by
  refine ⟨fun s l canonical works store completes => ⟨inRange_of_completes completes works (.inr store), ?_⟩,
    fun s l works load completes => ⟨inRange_of_completes completes works (.inl load), ?_⟩⟩
  · rw [mem_cycle]
    exact readWord_written_of_store canonical completes works store
  · rcases latch_cycle_feeder completes (by decide) (latch_written_of_load completes works load) with stays | entered
    · exact ⟨_, .inl stays, rfl, rfl⟩
    · exact ⟨_, .inr entered, rfl, rfl⟩

end Sys2Proof.Machine
end

section
/-! SUPPORT. The conditional branches and `ret` taken alone (R182 to R188): what a resolution leaves in the predictor
tables, where a branch goes on for each outcome of its condition, and the pass that halts the run. -/

namespace Sys2Proof.Machine

/-! ## The resolution on the tables (R123, R124) -/

/-- What the resolution of a branch at `p` leaves: its entry overwritten, its counter moved, the other entries kept. -/
theorem State.resolve_predictor (s : State) (p : Int) (taken : Bool) (imm : Word) :
    (s.resolve p taken imm).btb[predictorIndex p] = resolvedEntry p imm ∧
      (s.resolve p taken imm).pt[predictorIndex p] = bump taken s.pt[predictorIndex p] ∧
      KeepsPredictorBut s (s.resolve p taken imm) (predictorIndex p) := by
  refine ⟨?_, ?_, fun j other => ⟨?_, ?_⟩⟩
  · exact (State.btb_setBtb s _ _ _).trans (if_pos rfl)
  · exact (State.pt_setPt (s.setBtb _ _) _ _ _).trans (if_pos rfl)
  · exact (State.btb_setBtb s _ j _).trans (if_neg other)
  · exact (State.pt_setPt (s.setBtb _ _) _ j _).trans (if_neg other)

/-! ## A branch's pass (R183 to R187) -/

/-- The format of the conditional branches has one register field. -/
theorem wellFormed_of_regs_singleton {i : Instr} {a : Reg} {nreg : Nat} (fields : i.regs = [a]) (valid : a.val < nreg) :
    i.wellFormed nreg = true := by
  simp [Instr.wellFormed, fields, valid]

section
variable {i : Instr} {s : State} {a : Reg} {imm : Word}

/-- A branch goes on where its condition says, with the predictor its resolution leaves. -/
theorem branch_goesOnAt (wellFormed : i.wellFormed s.params.nreg = true) (runs : exec i s = s.branch i a imm) :
    GoesOnAt i s imm (branchNext (cond i.opcode (s.x a)) s.pc imm)
      (bump (cond i.opcode (s.x a)) s.pt[predictorIndex s.pc]).val := by
  obtain ⟨entry, counter, others⟩ := State.resolve_predictor
    (s.pass i (branchNext (cond i.opcode (s.x a)) s.pc imm)) s.pc (cond i.opcode (s.x a)) imm
  exact ⟨_, runs.trans (State.decoded_of_wellFormed _ wellFormed), entry, congrArg Fin.val counter, others,
    fun _ => rfl, fun _ => rfl, ⟨rfl, rfl, rfl, rfl⟩, ⟨rfl, rfl, rfl⟩, rfl, rfl,
    ⟨rfl, rfl, rfl, rfl, rfl, rfl, rfl, rfl, rfl, rfl⟩⟩

/-- A branch whose condition reads as `taken` resolves on it. -/
theorem branch_resolves {taken : Prop} (fields : i.regs = [a]) (valid : a.val < s.params.nreg)
    (runs : exec i s = s.branch i a imm) (condition : cond i.opcode (s.x a) = true ↔ taken) :
    Resolves i s imm taken := by
  have goesOn := branch_goesOnAt (wellFormed_of_regs_singleton fields valid) runs
  constructor
  · intro holds
    rw [condition.mpr holds, val_bump_true] at goesOn
    exact goesOn
  · intro fails
    rw [Bool.eq_false_iff.mpr (mt condition.mp fails), val_bump_false] at goesOn
    exact goesOn

end

/-- Settles O17: the five conditions of R182 are the comparisons of the signed value with 0. -/
theorem branchFormsResolveOnSignedRegister : Obligations.BranchFormsResolveOnSignedRegister :=
  fun _ _ _ valid =>
    ⟨branch_resolves rfl valid rfl beq_iff_eq, branch_resolves rfl valid rfl decide_eq_true_iff,
      branch_resolves rfl valid rfl decide_eq_true_iff, branch_resolves rfl valid rfl decide_eq_true_iff,
      branch_resolves rfl valid rfl decide_eq_true_iff⟩

/-! ## `ret` (R188) -/

/-- `ret` names no register, so Decode never aborts it. -/
theorem exec_ret (s : State) :
    exec .ret s = .next (((s.pass .ret (s.pc + 1)).setFetchHalt true).haltRun) :=
  have decodes : exec .ret s = s.decoded .ret (((s.pass .ret (s.pc + 1)).setFetchHalt true).haltRun) := rfl
  decodes.trans (State.decoded_of_wellFormed _ rfl)

/-- Settles O18: the pass of `ret` ends by stopping Fetch and halting. -/
theorem retHaltsTheRun : Obligations.RetHaltsTheRun :=
  fun s =>
    ⟨_, exec_ret s, rfl, rfl, fun _ => rfl, fun _ => rfl, ⟨rfl, rfl⟩, ⟨rfl, rfl, rfl, rfl⟩, ⟨rfl, rfl, rfl⟩,
      ⟨rfl, rfl, rfl, rfl, rfl, rfl, rfl, rfl, rfl, rfl⟩⟩

end Sys2Proof.Machine
end

section
/-! SUPPORT. Where a fatal abort comes from (R190 to R194): the stage and occupant of an aborting cycle, and the
instruction of an aborting meaning. -/

namespace Sys2Proof.Machine

/-! ## Divides -/

/-- The divide unit's class is the two divides (R60). -/
theorem div_or_divl {op : Opcode} (divides : unitOf op = .exd) : op = .div ∨ op = .divl := by
  cases op with
  | div => exact .inl rfl
  | divl => exact .inr rfl
  | _ => cases divides

/-- Of the arithmetic stages only EXD holds a divide when every unit holds its own class (R155). -/
theorem State.UnitClasses.exd_of_divides {s : State} (classes : s.UnitClasses) {st : Stage} {l : Latch}
    (unit : st ∈ [Stage.exa, .exm, .exd]) (works : s.WorksOn st l) (divides : unitOf l.op = .exd) : st = .exd := by
  have fits : l.Fits st := classes.fits works.1
  simp only [List.mem_cons, List.not_mem_nil, or_false] at unit
  rcases unit with rfl | rfl | rfl
  · cases divides.symm.trans fits
  · cases divides.symm.trans fits
  · rfl

/-! ## The abort of a cycle -/

/-- The abort of a cycle is a signal of one of its stages (R92). -/
theorem signals_of_abortOf {s : State} {r : AbortReason} (h : abortOf (evaluate s) = some r) :
    ∃ st, Signals s st (.abort r) := by
  obtain ⟨o, ho, aborts⟩ := List.exists_of_findSome?_eq_some h
  obtain ⟨st, _, rfl⟩ := List.mem_map.mp ho
  exact ⟨st, handler_signals (HandlerOut.abort?_some aborts)⟩

/-- A running machine's cycle ends aborted only by a signal of one of its stages (R91, R92). -/
theorem signals_of_cycle_aborts {s : State} {r : AbortReason} (running : s.status = .running)
    (aborted : (cycle s).status = .aborted r) : ∃ st, Signals s st (.abort r) := by
  cases h : abortOf (evaluate s) with
  | some e =>
    rw [cycle_of_abort h] at aborted
    cases aborted
    exact signals_of_abortOf h
  | none =>
    obtain ⟨_, status⟩ := cycle_end h
    rw [status, running] at aborted
    split at aborted <;> cases aborted

/-! ## The abort of a whole instruction -/

/-- What in an instruction run whole from `s` is the cause of each abort (R192 to R194): `Signals`, read off the
instruction and the registers. -/
inductive AbortCause (s : State) (i : Instr) : AbortReason → Prop where
  | divide (divides : unitOf i.opcode = .exd) (zero : s.secondValue i = 0) : AbortCause s i .divideByZero
  | range (a : Word) (access : s.accessAddr i = some a) (outside : s.inRange a = false) :
    AbortCause s i .memoryOutOfRange
  | malformed (refused : i.wellFormed s.params.nreg = false) : AbortCause s i .malformedInstruction

theorem State.status_abortDivide (s : State) (i : Instr) (r : AbortReason) :
    (s.abortDivide i r).status = .aborted r := by
  unfold State.abortDivide
  split <;> rfl

/-- The address a memory instruction accesses is the one its meaning computes (R171). -/
theorem State.accessAddr_of_isMemory (s : State) {i : Instr} (memory : isMemory i.opcode = true) :
    s.accessAddr i = some (effectiveAddr (s.slotValue (slots i).s1) (s.secondValue i)) := by
  cases i with
  | ldI | ldR | stI | stR => rfl
  | _ => cases memory

/-- A divide's second operand is the immediate of `div` and the last register of `divl` (R160, R164). -/
theorem zero_divisor_cases {s : State} {i : Instr} (divides : unitOf i.opcode = .exd) (zero : s.secondValue i = 0) :
    (∃ a b, i = .div a b 0) ∨ ∃ a b c, i = .divl a b c ∧ s.x c = 0 := by
  cases i with
  | div a b imm =>
    obtain rfl : imm = 0 := zero
    exact .inl ⟨a, b, rfl⟩
  | divl a b c => exact .inr ⟨a, b, c, rfl, zero⟩
  | _ => cases divides

/-- A meaning that aborts the run has the cause of its reason. -/
theorem abortCause_of_exec {s t : State} {i : Instr} {r : AbortReason} (running : s.status = .running)
    (ran : exec i s = .next t) (aborted : t.status = .aborted r) : AbortCause s i r := by
  have kept : s.status ≠ .aborted r := by
    rw [running]
    simp
  rcases exec_shape i s with
    ⟨d, result, _, computed, arith⟩ | ⟨d, isLoad, _, load⟩ | ⟨isStore, store⟩ | ⟨_, _, _, branch⟩ | ⟨_, ret⟩
  · rcases State.arith_cases (arith ▸ ran) with ⟨refused, rfl⟩ | ⟨_, ⟨v, _, rfl⟩ | ⟨e, failed, rfl⟩⟩
    · cases aborted
      exact .malformed refused
    · exact absurd aborted kept
    · obtain ⟨divides, zero, rfl⟩ := aluResult_error_cause (failed ▸ computed)
      cases (s.status_abortDivide i _).symm.trans aborted
      exact .divide divides zero
  · rcases State.load_cases (load ▸ ran) with ⟨refused, rfl⟩ | ⟨_, ⟨_, rfl⟩ | ⟨outside, rfl⟩⟩
    · cases aborted
      exact .malformed refused
    · exact absurd aborted kept
    · cases aborted
      exact .range _ (s.accessAddr_of_isMemory (isMemory_of_isLoad isLoad)) outside
  · rcases State.store_cases (store ▸ ran) with ⟨refused, rfl⟩ | ⟨_, ⟨_, rfl⟩ | ⟨outside, rfl⟩⟩
    · cases aborted
      exact .malformed refused
    · exact absurd aborted kept
    · cases aborted
      exact .range _ (s.accessAddr_of_isMemory (isMemory_of_isStore isStore)) outside
  · rcases State.branch_cases (branch ▸ ran) with ⟨refused, rfl⟩ | ⟨_, rfl⟩
    · cases aborted
      exact .malformed refused
    · exact absurd aborted kept
  · rw [ret, State.decoded_eq] at ran
    split at ran <;> cases ran
    · cases aborted
    · rename_i refused
      cases aborted
      exact .malformed (Bool.eq_false_iff.mpr refused)

/-! ## A step -/

/-- Settles O45: a cycle aborts by a stage's signal, which names its occupant and cause; a whole instruction by the cause
in its meaning. -/
theorem abortsOnlyForTheirCauses : Obligations.AbortsOnlyForTheirCauses := by
  intro s t r next aborted
  obtain ⟨running, ⟨_, rfl⟩ | ⟨i, _, whole, ran⟩⟩ := step_cases next
  · obtain ⟨st, signals⟩ := signals_of_cycle_aborts running aborted
    cases signals with
    | divide _ l unit works divides zero =>
      exact .inl ⟨rfl, .inl ⟨st, l, unit, fun classes => classes.exd_of_divides unit works divides, works,
        div_or_divl divides, zero⟩⟩
    | range l works memory outside => exact .inr (.inl ⟨rfl, .inl ⟨l, works, memory, outside⟩⟩)
    | malformed l e works refused => exact .inr (.inr ⟨rfl, .inl ⟨l, e, works, refused⟩⟩)
  · cases abortCause_of_exec running ran aborted with
    | divide divides zero =>
      rcases zero_divisor_cases divides zero with ⟨a, b, rfl⟩ | ⟨a, b, c, rfl, divisor⟩
      · exact .inl ⟨rfl, .inr (.inl ⟨a, b, whole⟩)⟩
      · exact .inl ⟨rfl, .inr (.inr ⟨a, b, c, whole, divisor⟩)⟩
    | range a access outside => exact .inr (.inl ⟨rfl, .inr ⟨i, a, whole, access, outside⟩⟩)
    | malformed refused => exact .inr (.inr ⟨rfl, .inr ⟨i, whole, refused⟩⟩)

end Sys2Proof.Machine
end
